-- ==== Sys2Proof/Word.lean ====
section
/-! DEFINITION. The widths of the machine's data (00_scope.md rules R6 to R9): a byte is 8 bits, a
register and an address computation 32 bits. The spec calls 16 bits a "word" and 32 bits a
"double-word"; `Word` here is the 32-bit register width. -/

namespace Sys2Proof

/-- One byte of memory or of the instruction stream (rule R6). -/
abbrev Byte := BitVec 8

/-- A 32-bit register or computed address (rules R6, R20, R24 to R28). -/
abbrev Word := BitVec 32

/-- A 16-bit value: the width of MOD and of the PSR on the stack (rules R29, R32). -/
abbrev Half := BitVec 16

end Sys2Proof
end

