-- ==== Sys2Proof/Syntax.lean ====
section
/-! DEFINITION. The instructions of spec/opcode_table.json as data, with decoded operands
(30_encoding.md). Encodings live in Decode.lean, meanings under Machine/. -/

namespace Sys2Proof

/-- A displacement with the form it is encoded in (rule R107): 7, 14 or 30 signed bits in 1, 2 or 4
bytes. A decoder accepts any form for any value, so the form is part of the operand. -/
inductive Disp
  | short (v : BitVec 7)
  | medium (v : BitVec 14)
  | long (v : BitVec 30)
deriving DecidableEq, Repr

/-- The base register of a memory-relative operand (rules R100, R108). -/
inductive PointerBase
  | fp
  | sp
  | sb
deriving DecidableEq, Repr

/-- The base register of a memory-space operand (rules R100, R105). -/
inductive SpaceBase
  | fp
  | sp
  | sb
  | pc
deriving DecidableEq, Repr

/-- The addressing modes that name a place in memory, which are also the modes a scaled index may take
as its base (rules R100, R109). -/
inductive Base
  /-- `disp(Rn)`, rule R104. -/
  | regRel (r : Fin 8) (d : Disp)
  /-- `disp2(disp1(FP|SP|SB))`, rule R108. -/
  | memRel (b : PointerBase) (d1 d2 : Disp)
  /-- `@disp`, rule R109. -/
  | absolute (d : Disp)
  /-- `EXT(disp1) + disp2`, rule R109. -/
  | external (d1 d2 : Disp)
  /-- `TOS`, rule R106. -/
  | tos
  /-- `disp(FP|SP|SB|PC)`, rule R105. -/
  | space (b : SpaceBase) (d : Disp)
deriving DecidableEq, Repr

/-- The factor of a scaled index, 1, 2, 4 or 8 (rule R109). -/
inductive Scale
  | b
  | w
  | d
  | q
deriving DecidableEq, Repr

/-- A general operand of `n` bytes (rules R100, R114). Whether `reg` names a general or a floating
register is settled by the operand's data type (rule R103), not by the operand. -/
inductive Gen (n : Nat)
  | reg (r : Fin 8)
  | imm (v : BitVec (8 * n))
  | base (b : Base)
  | scaled (s : Scale) (b : Base) (idx : Fin 8)
deriving DecidableEq, Repr

/-- The match option of a string instruction (rules R112, R184). The encoding `10` of `w[18:17]`, U
with W, is no value of this type: the decoder refuses it. -/
inductive MatchOption
  | none
  | whileMatch
  | untilMatch
deriving DecidableEq, Repr

/-- The options B, U, W of MOVSi and MOVST (rules R112, R184). -/
structure StringOptions where
  backward : Bool
  matching : MatchOption
deriving DecidableEq, Repr

/-- The 44 mnemonics of rule R126, one constructor per row of spec/opcode_table.json. -/
inductive Instr
  -- Format 7, rule R140
  | modb (src dst : Gen 1)
  | modw (src dst : Gen 2)
  | modd (src dst : Gen 4)
  -- Format 9, rule R154
  | movbf (src : Gen 1) (dst : Gen 4)
  | movwf (src : Gen 2) (dst : Gen 4)
  | movdf (src : Gen 4) (dst : Gen 4)
  | movbl (src : Gen 1) (dst : Gen 8)
  | movwl (src : Gen 2) (dst : Gen 8)
  | movdl (src : Gen 4) (dst : Gen 8)
  -- Format 9, rules R155 and R156
  | movfl (src : Gen 4) (dst : Gen 8)
  | movlf (src : Gen 8) (dst : Gen 4)
  -- Format 2, rule R170
  | movqb (quick : BitVec 4) (dst : Gen 1)
  | movqw (quick : BitVec 4) (dst : Gen 2)
  | movqd (quick : BitVec 4) (dst : Gen 4)
  -- Format 5, rules R181 and R183
  | movsb (o : StringOptions)
  | movsw (o : StringOptions)
  | movsd (o : StringOptions)
  | movst (o : StringOptions)
  -- Format 8, rule R190
  | movusb (src dst : Gen 1)
  | movusw (src dst : Gen 2)
  | movusd (src dst : Gen 4)
  -- Format 7, rules R171 and R172
  | movxbw (src : Gen 1) (dst : Gen 2)
  | movxbd (src : Gen 1) (dst : Gen 4)
  | movxwd (src : Gen 2) (dst : Gen 4)
  | movzbw (src : Gen 1) (dst : Gen 2)
  | movzbd (src : Gen 1) (dst : Gen 4)
  | movzwd (src : Gen 2) (dst : Gen 4)
  -- Format 11, rule R157
  | mulf (src dst : Gen 4)
  | mull (src dst : Gen 8)
  -- Format 6, rule R200
  | negb (src dst : Gen 1)
  | negw (src dst : Gen 2)
  | negd (src dst : Gen 4)
  -- Format 1, rule R202
  | nop
  -- Format 6, rule R203
  | notb (src dst : Gen 1)
  | notw (src dst : Gen 2)
  | notd (src dst : Gen 4)
  -- Format 14, rule R193: the operand is an address, so its size plays no part
  | rdval (loc : Gen 4)
  -- Format 7, rule R142
  | remb (src dst : Gen 1)
  | remw (src dst : Gen 2)
  | remd (src dst : Gen 4)
  -- Format 1, rules R210, R212, R214, R216
  | restore (reglist : BitVec 8)
  | ret (constant : Disp)
  | reti
  | rett (constant : Disp)
deriving DecidableEq, Repr

end Sys2Proof
end

