-- ==== Sys2Proof/WellFormed.lean ====
section
/-! DEFINITION. Which operand forms an instruction admits (30_encoding.md rules R120 and R121). A form
that is not admitted is refused by name, `operand_form`, by the decoder and by every meaning. -/

namespace Sys2Proof

/-- The access classes of rules R114 to R118. -/
inductive Access
  | read
  | write
  | rmw
  | addr
deriving DecidableEq, Repr

/-- The register file that register mode names (rule R103). -/
inductive Bank
  | int
  | float
deriving DecidableEq, Repr

/-- Rule R121 on one operand: immediate mode only for class read, register mode not for class addr, and
an L operand (8 bytes, floating) only in an even register. -/
def Gen.admitted {n : Nat} (a : Access) (k : Bank) : Gen n → Bool
  | .reg r => a != .addr && (k == .int || n != 8 || r.val % 2 == 0)
  | .imm _ => a == .read
  | .base _ => true
  | .scaled _ _ _ => true

/-- The base modes whose address is computed from the selected stack pointer. -/
def Base.usesSp : Base → Bool
  | .tos => true
  | .memRel .sp _ _ => true
  | .space .sp _ => true
  | _ => false

/-- The operand's address is computed from SP before the operand itself moves SP (rule R120): `disp(SP)`,
stack memory relative, and a scaled index over such a base or over TOS. -/
def Gen.spBased {n : Nat} : Gen n → Bool
  | .base .tos => false
  | .base b => b.usesSp
  | .scaled _ b _ => b.usesSp
  | _ => false

/-- The operand is top of stack. -/
def Gen.isTos {n : Nat} : Gen n → Bool
  | .base .tos => true
  | _ => false

/-- The last sentence of rule R120 (D7): a top-of-stack read as gen1 together with an SP-based gen2 is
refused. -/
def orderFixed {n m : Nat} (src : Gen n) (dst : Gen m) : Bool :=
  !(src.isTos && dst.spBased)

/-- A two-operand instruction whose gen1 has class read. -/
def pairAdmitted {n m : Nat} (ks kd : Bank) (a : Access) (src : Gen n) (dst : Gen m) : Bool :=
  src.admitted .read ks && dst.admitted a kd && orderFixed src dst

/-- Rules R120 and R121 for every instruction, with the access classes of rule R126. -/
def Instr.wellFormed : Instr → Bool
  | .modb s d => pairAdmitted .int .int .rmw s d
  | .modw s d => pairAdmitted .int .int .rmw s d
  | .modd s d => pairAdmitted .int .int .rmw s d
  | .movbf s d => pairAdmitted .int .float .write s d
  | .movwf s d => pairAdmitted .int .float .write s d
  | .movdf s d => pairAdmitted .int .float .write s d
  | .movbl s d => pairAdmitted .int .float .write s d
  | .movwl s d => pairAdmitted .int .float .write s d
  | .movdl s d => pairAdmitted .int .float .write s d
  | .movfl s d => pairAdmitted .float .float .write s d
  | .movlf s d => pairAdmitted .float .float .write s d
  | .movqb _ d => d.admitted .write .int
  | .movqw _ d => d.admitted .write .int
  | .movqd _ d => d.admitted .write .int
  | .movsb _ => true
  | .movsw _ => true
  | .movsd _ => true
  | .movst _ => true
  | .movusb s d => s.admitted .addr .int && d.admitted .addr .int
  | .movusw s d => s.admitted .addr .int && d.admitted .addr .int
  | .movusd s d => s.admitted .addr .int && d.admitted .addr .int
  | .movxbw s d => pairAdmitted .int .int .write s d
  | .movxbd s d => pairAdmitted .int .int .write s d
  | .movxwd s d => pairAdmitted .int .int .write s d
  | .movzbw s d => pairAdmitted .int .int .write s d
  | .movzbd s d => pairAdmitted .int .int .write s d
  | .movzwd s d => pairAdmitted .int .int .write s d
  | .mulf s d => pairAdmitted .float .float .rmw s d
  | .mull s d => pairAdmitted .float .float .rmw s d
  | .negb s d => pairAdmitted .int .int .write s d
  | .negw s d => pairAdmitted .int .int .write s d
  | .negd s d => pairAdmitted .int .int .write s d
  | .nop => true
  | .notb s d => pairAdmitted .int .int .write s d
  | .notw s d => pairAdmitted .int .int .write s d
  | .notd s d => pairAdmitted .int .int .write s d
  | .rdval l => l.admitted .addr .int
  | .remb s d => pairAdmitted .int .int .rmw s d
  | .remw s d => pairAdmitted .int .int .rmw s d
  | .remd s d => pairAdmitted .int .int .rmw s d
  | .restore _ => true
  | .ret _ => true
  | .reti => true
  | .rett _ => true

end Sys2Proof
end

