-- ==== Sys2Proof/Decode.lean ====
section
/-! DEFINITION. The decoder (30_encoding.md rules R90 to R124), total on any bytes and rejecting by
name, and after it the encoder written from the same tables. -/

namespace Sys2Proof

/-! ## Byte order of the instruction stream -/

/-- The number whose bytes, most significant first, are `bs` (immediates, rule R109). -/
def natOfBytesBE (bs : List Byte) : Nat :=
  bs.foldl (fun acc b => 256 * acc + b.toNat) 0

/-- The bytes of an `n`-byte value, most significant first (immediates, rule R109). -/
def bytesBE {n : Nat} (v : BitVec (8 * n)) : List Byte :=
  (List.range n).map fun k => v.extractLsb' (8 * (n - 1 - k)) 8

/-! ## The decoder -/

/-- Why the decoder stops. `truncated`: the bytes at hand end inside the instruction. The other two are
the refusals of rules R121 and R124 by the names of rule R232. -/
inductive DecodeError
  | truncated
  | unknownEncoding
  | operandForm
deriving DecidableEq, Repr

/-! A parser answers a value and the bytes that follow it. -/

/-- Rule R107: the top bits of the first byte give the length; the bytes are big-endian. -/
def takeDisp : List Byte → Except DecodeError (Disp × List Byte)
  | [] => .error .truncated
  | b0 :: bs =>
    if b0.extractLsb' 7 1 = 0#1 then .ok (.short (b0.setWidth 7), bs)
    else if b0.extractLsb' 6 1 = 0#1 then
      match bs with
      | b1 :: bs => .ok (.medium ((b0 ++ b1).setWidth 14), bs)
      | _ => .error .truncated
    else
      match bs with
      | b1 :: b2 :: b3 :: bs => .ok (.long ((b0 ++ b1 ++ b2 ++ b3).setWidth 30), bs)
      | _ => .error .truncated

/-- Two displacements, disp1 before disp2 (rules R108, R109). -/
def takeDisps (bs : List Byte) : Except DecodeError ((Disp × Disp) × List Byte) := do
  let (d1, bs) ← takeDisp bs
  let (d2, bs) ← takeDisp bs
  return ((d1, d2), bs)

/-- The value of an immediate operand of `n` bytes (rule R109). -/
def takeImm (n : Nat) (bs : List Byte) : Except DecodeError (BitVec (8 * n) × List Byte) :=
  if bs.length < n then .error .truncated
  else .ok (BitVec.ofNat (8 * n) (natOfBytesBE (bs.take n)), bs.drop n)

/-- The modes of rule R100 that give an address, by gen code, with their extension bytes. The other
codes cannot be the base of a scaled index (rule R109), and 10011 is reserved. -/
def takeBase (code : Nat) (bs : List Byte) : Except DecodeError (Base × List Byte) :=
  match code with
  | 8 | 9 | 10 | 11 | 12 | 13 | 14 | 15 => do
    let (d, bs) ← takeDisp bs
    return (.regRel (Fin.ofNat 8 code) d, bs)
  | 16 => do let ((d1, d2), bs) ← takeDisps bs; return (.memRel .fp d1 d2, bs)
  | 17 => do let ((d1, d2), bs) ← takeDisps bs; return (.memRel .sp d1 d2, bs)
  | 18 => do let ((d1, d2), bs) ← takeDisps bs; return (.memRel .sb d1 d2, bs)
  | 21 => do let (d, bs) ← takeDisp bs; return (.absolute d, bs)
  | 22 => do let ((d1, d2), bs) ← takeDisps bs; return (.external d1 d2, bs)
  | 23 => .ok (.tos, bs)
  | 24 => do let (d, bs) ← takeDisp bs; return (.space .fp d, bs)
  | 25 => do let (d, bs) ← takeDisp bs; return (.space .sp d, bs)
  | 26 => do let (d, bs) ← takeDisp bs; return (.space .sb d, bs)
  | 27 => do let (d, bs) ← takeDisp bs; return (.space .pc d, bs)
  | _ => .error .operandForm

/-- The scale of gen codes 11100 to 11111 (rules R100, R109). -/
def scaleOfCode (code : Nat) : Option Scale :=
  match code with
  | 28 => some .b
  | 29 => some .w
  | 30 => some .d
  | 31 => some .q
  | _ => none

/-- The index byte of a scaled-index operand, if the code asks for one (rules R109, R113). -/
def takeIndex (code : Nat) (bs : List Byte) : Except DecodeError (Option (Scale × Byte) × List Byte) :=
  match scaleOfCode code with
  | none => .ok (none, bs)
  | some s =>
    match bs with
    | [] => .error .truncated
    | b :: bs => .ok (some (s, b), bs)

/-- The rest of a general operand, its index byte being read: displacements or immediate (rules R100,
R109). `imm` says whether the access class admits an immediate. -/
def takeGen (n : Nat) (imm : Bool) (code : Nat) (index : Option (Scale × Byte))
    (bs : List Byte) : Except DecodeError (Gen n × List Byte) :=
  match index with
  | some (s, b) => do
    let (base, bs) ← takeBase (b.extractLsb' 3 5).toNat bs
    return (.scaled s base (Fin.ofNat 8 b.toNat), bs)
  | none =>
    if code < 8 then .ok (.reg (Fin.ofNat 8 code), bs)
    else if code = 20 then
      if imm then do
        let (v, bs) ← takeImm n bs
        return (.imm v, bs)
      else .error .operandForm
    else do
      let (base, bs) ← takeBase code bs
      return (.base base, bs)

/-- One general operand and its extension bytes. -/
def takeOne {n : Nat} (imm : Bool) (code : Nat) (mk : Gen n → Instr) (bs : List Byte) :
    Except DecodeError (Instr × List Byte) := do
  let (ix, bs) ← takeIndex code bs
  let (g, bs) ← takeGen n imm code ix bs
  return (mk g, bs)

/-- Two general operands: both index bytes, then gen1's extension bytes, then gen2's (rules R90, R113).
gen2 is never of class read. -/
def takeTwo {n m : Nat} (imm : Bool) (code1 code2 : Nat) (mk : Gen n → Gen m → Instr)
    (bs : List Byte) : Except DecodeError (Instr × List Byte) := do
  let (ix1, bs) ← takeIndex code1 bs
  let (ix2, bs) ← takeIndex code2 bs
  let (g1, bs) ← takeGen n imm code1 ix1 bs
  let (g2, bs) ← takeGen m false code2 ix2 bs
  return (mk g1 g2, bs)

/-- Rule R112, `w[18:17]`. -/
def matchOfCode (code : Nat) : Except DecodeError MatchOption :=
  match code with
  | 0 => .ok .none
  | 1 => .ok .whileMatch
  | 3 => .ok .untilMatch
  | _ => .error .operandForm

/-- Format 5 (rules R95, R112): `code1` is `w[23:19]`, `code2` is `w[18:14]`, of which `w[14]` is 0,
`w[15]` is T, `w[16]` is B and `w[18:17]` is the match option. -/
def takeString (translate : Bool) (code1 code2 : Nat) (mk : StringOptions → Instr)
    (bs : List Byte) : Except DecodeError (Instr × List Byte) :=
  if code1 = 0 ∧ code2 % 4 = (if translate then 2 else 0) then do
    let o ← matchOfCode (code2 / 8)
    return (mk ⟨code2 / 4 % 2 == 1, o⟩, bs)
  else .error .unknownEncoding

/-- MOVSB and MOVST share `w[13:0]` and differ in T (rule R95). -/
def takeStringB (code1 code2 : Nat) (bs : List Byte) : Except DecodeError (Instr × List Byte) :=
  if code2 / 2 % 2 = 1 then takeString true code1 code2 .movst bs
  else takeString false code1 code2 .movsb bs

/-- The three-byte rows of rule R126, by `w[13:0]`; `code1` is gen1 = `w[23:19]` and `code2` is
gen2 = `w[18:14]` (rules R95 to R102). -/
def decodeThree (code1 code2 op : Nat) (bs : List Byte) : Except DecodeError (Instr × List Byte) :=
  match op with
  | 0x38CE => takeTwo true code1 code2 .modb bs
  | 0x39CE => takeTwo true code1 code2 .modw bs
  | 0x3BCE => takeTwo true code1 code2 .modd bs
  | 0x043E => takeTwo true code1 code2 .movbf bs
  | 0x053E => takeTwo true code1 code2 .movwf bs
  | 0x073E => takeTwo true code1 code2 .movdf bs
  | 0x003E => takeTwo true code1 code2 .movbl bs
  | 0x013E => takeTwo true code1 code2 .movwl bs
  | 0x033E => takeTwo true code1 code2 .movdl bs
  | 0x1B3E => takeTwo true code1 code2 .movfl bs
  | 0x163E => takeTwo true code1 code2 .movlf bs
  | 0x000E => takeStringB code1 code2 bs
  | 0x010E => takeString false code1 code2 .movsw bs
  | 0x030E => takeString false code1 code2 .movsd bs
  | 0x1CAE => takeTwo false code1 code2 .movusb bs
  | 0x1DAE => takeTwo false code1 code2 .movusw bs
  | 0x1FAE => takeTwo false code1 code2 .movusd bs
  | 0x10CE => takeTwo true code1 code2 .movxbw bs
  | 0x1CCE => takeTwo true code1 code2 .movxbd bs
  | 0x1DCE => takeTwo true code1 code2 .movxwd bs
  | 0x14CE => takeTwo true code1 code2 .movzbw bs
  | 0x18CE => takeTwo true code1 code2 .movzbd bs
  | 0x19CE => takeTwo true code1 code2 .movzwd bs
  | 0x31BE => takeTwo true code1 code2 .mulf bs
  | 0x30BE => takeTwo true code1 code2 .mull bs
  | 0x204E => takeTwo true code1 code2 .negb bs
  | 0x214E => takeTwo true code1 code2 .negw bs
  | 0x234E => takeTwo true code1 code2 .negd bs
  | 0x244E => takeTwo true code1 code2 .notb bs
  | 0x254E => takeTwo true code1 code2 .notw bs
  | 0x274E => takeTwo true code1 code2 .notd bs
  | 0x031E => if code2 = 0 then takeOne false code1 .rdval bs else .error .unknownEncoding
  | 0x34CE => takeTwo true code1 code2 .remb bs
  | 0x35CE => takeTwo true code1 code2 .remw bs
  | 0x37CE => takeTwo true code1 code2 .remd bs
  | _ => .error .unknownEncoding

/-- Format 2 (rule R94): `code` is gen = `w[15:11]`, `quick` is `w[10:7]`, `i` is `w[1:0]`. -/
def decodeTwo (code : Nat) (quick : BitVec 4) (i : Nat) (bs : List Byte) : Except DecodeError (Instr × List Byte) :=
  match i with
  | 0 => takeOne false code (.movqb quick) bs
  | 1 => takeOne false code (.movqw quick) bs
  | 3 => takeOne false code (.movqd quick) bs
  | _ => .error .unknownEncoding

/-- Format 1 (rule R93), by the opcode byte. -/
def decodeOne (b0 : Byte) (bs : List Byte) : Except DecodeError (Instr × List Byte) :=
  if b0 = 0xA2#8 then .ok (.nop, bs)
  else if b0 = 0x52#8 then .ok (.reti, bs)
  else if b0 = 0x72#8 then
    match bs with
    | [] => .error .truncated
    | m :: bs => .ok (.restore m, bs)
  else if b0 = 0x12#8 then do
    let (d, bs) ← takeDisp bs
    return (.ret d, bs)
  else if b0 = 0x42#8 then do
    let (d, bs) ← takeDisp bs
    return (.rett d, bs)
  else .error .unknownEncoding

/-- The low bytes of the three-byte formats 5, 6, 7, 8, 9, 11, 14 (rule R123 step 3). -/
def threeByteFormats : List Byte :=
  [0x0E#8, 0x4E#8, 0xCE#8, 0xAE#8, 0x3E#8, 0xBE#8, 0x1E#8]

/-- Rule R123, before the check of rule R121. -/
def decodeRaw : List Byte → Except DecodeError (Instr × List Byte)
  | [] => .error .truncated
  | b0 :: bs =>
    if b0.extractLsb' 0 4 = 0b0010#4 then decodeOne b0 bs
    else if b0.extractLsb' 2 5 = 0b10111#5 ∧ b0.extractLsb' 0 2 ≠ 0b10#2 then
      match bs with
      | [] => .error .truncated
      | b1 :: bs =>
        let w := b1 ++ b0
        decodeTwo (w.extractLsb' 11 5).toNat (w.extractLsb' 7 4) (w.extractLsb' 0 2).toNat bs
    else if b0 ∈ threeByteFormats then
      match bs with
      | b1 :: b2 :: bs =>
        let w := b2 ++ b1 ++ b0
        decodeThree (w.extractLsb' 19 5).toNat (w.extractLsb' 14 5).toNat
          (w.extractLsb' 0 14).toNat bs
      | _ => .error .truncated
    else .error .unknownEncoding

/-- Rules R121 and R123: the instruction at the head of the bytes and the bytes after it. -/
def decode (bs : List Byte) : Except DecodeError (Instr × List Byte) := do
  let (i, rest) ← decodeRaw bs
  if i.wellFormed then return (i, rest) else .error .operandForm

/-! ## The encoder -/

/-- Rule R107. -/
def Disp.encode : Disp → List Byte
  | .short v => [0b0#1 ++ v]
  | .medium v => [0b10#2 ++ v.extractLsb' 8 6, v.extractLsb' 0 8]
  | .long v => [0b11#2 ++ v.extractLsb' 24 6, v.extractLsb' 16 8, v.extractLsb' 8 8,
      v.extractLsb' 0 8]

/-- The gen code of a base mode (rule R100). -/
def Base.code : Base → Nat
  | .regRel r _ => 8 + r.val
  | .memRel .fp _ _ => 16
  | .memRel .sp _ _ => 17
  | .memRel .sb _ _ => 18
  | .absolute _ => 21
  | .external _ _ => 22
  | .tos => 23
  | .space .fp _ => 24
  | .space .sp _ => 25
  | .space .sb _ => 26
  | .space .pc _ => 27

/-- The extension bytes of a base mode (rule R100). -/
def Base.extension : Base → List Byte
  | .regRel _ d => d.encode
  | .memRel _ d1 d2 => d1.encode ++ d2.encode
  | .absolute d => d.encode
  | .external d1 d2 => d1.encode ++ d2.encode
  | .tos => []
  | .space _ d => d.encode

/-- The gen code of a scaled index (rule R100). -/
def Scale.code : Scale → Nat
  | .b => 28
  | .w => 29
  | .d => 30
  | .q => 31

/-- The gen code of an operand (rule R100). -/
def Gen.code {n : Nat} : Gen n → Nat
  | .reg r => r.val
  | .imm _ => 20
  | .base b => b.code
  | .scaled s _ _ => s.code

/-- The index byte (rule R109): bits 7:3 the gen code of the base mode, bits 2:0 the index register. -/
def Gen.indexByte {n : Nat} : Gen n → List Byte
  | .scaled _ b r => [BitVec.ofNat 5 b.code ++ BitVec.ofNat 3 r.val]
  | _ => []

/-- The displacements or immediate of an operand (rules R100, R109). -/
def Gen.extension {n : Nat} : Gen n → List Byte
  | .reg _ => []
  | .imm v => bytesBE v
  | .base b => b.extension
  | .scaled _ b _ => b.extension

/-- A three-byte basic instruction (rule R91): `w = gen1 ++ gen2 ++ op`, low byte first. -/
def basicThree (code1 code2 : Nat) (op : BitVec 14) : List Byte :=
  let w : BitVec 24 := BitVec.ofNat 5 code1 ++ BitVec.ofNat 5 code2 ++ op
  [w.extractLsb' 0 8, w.extractLsb' 8 8, w.extractLsb' 16 8]

/-- A two-byte basic instruction (rules R91, R94): `w = gen ++ quick ++ op`, low byte first. -/
def basicTwo (code : Nat) (quick : BitVec 4) (op : BitVec 7) : List Byte :=
  let w : BitVec 16 := BitVec.ofNat 5 code ++ quick ++ op
  [w.extractLsb' 0 8, w.extractLsb' 8 8]

/-- A two-operand instruction (rules R90, R113). -/
def encodeTwo {n m : Nat} (op : BitVec 14) (g1 : Gen n) (g2 : Gen m) : List Byte :=
  basicThree g1.code g2.code op ++ g1.indexByte ++ g2.indexByte ++ g1.extension ++ g2.extension

/-- A quick instruction. -/
def encodeQuick {n : Nat} (op : BitVec 7) (quick : BitVec 4) (g : Gen n) : List Byte :=
  basicTwo g.code quick op ++ g.indexByte ++ g.extension

/-- Rule R112, `w[18:17]`. -/
def MatchOption.code : MatchOption → Nat
  | .none => 0
  | .whileMatch => 1
  | .untilMatch => 3

/-- A string instruction (rules R95, R112). -/
def encodeString (op : BitVec 14) (translate : Bool) (o : StringOptions) : List Byte :=
  basicThree 0
    (8 * o.matching.code + (if o.backward then 4 else 0) + (if translate then 2 else 0)) op

/-- The words of an instruction, from rules R93 to R102. -/
def encode : Instr → List Byte
  | .modb s d => encodeTwo 0x38CE#14 s d
  | .modw s d => encodeTwo 0x39CE#14 s d
  | .modd s d => encodeTwo 0x3BCE#14 s d
  | .movbf s d => encodeTwo 0x043E#14 s d
  | .movwf s d => encodeTwo 0x053E#14 s d
  | .movdf s d => encodeTwo 0x073E#14 s d
  | .movbl s d => encodeTwo 0x003E#14 s d
  | .movwl s d => encodeTwo 0x013E#14 s d
  | .movdl s d => encodeTwo 0x033E#14 s d
  | .movfl s d => encodeTwo 0x1B3E#14 s d
  | .movlf s d => encodeTwo 0x163E#14 s d
  | .movqb q d => encodeQuick 0x5C#7 q d
  | .movqw q d => encodeQuick 0x5D#7 q d
  | .movqd q d => encodeQuick 0x5F#7 q d
  | .movsb o => encodeString 0x000E#14 false o
  | .movsw o => encodeString 0x010E#14 false o
  | .movsd o => encodeString 0x030E#14 false o
  | .movst o => encodeString 0x000E#14 true o
  | .movusb s d => encodeTwo 0x1CAE#14 s d
  | .movusw s d => encodeTwo 0x1DAE#14 s d
  | .movusd s d => encodeTwo 0x1FAE#14 s d
  | .movxbw s d => encodeTwo 0x10CE#14 s d
  | .movxbd s d => encodeTwo 0x1CCE#14 s d
  | .movxwd s d => encodeTwo 0x1DCE#14 s d
  | .movzbw s d => encodeTwo 0x14CE#14 s d
  | .movzbd s d => encodeTwo 0x18CE#14 s d
  | .movzwd s d => encodeTwo 0x19CE#14 s d
  | .mulf s d => encodeTwo 0x31BE#14 s d
  | .mull s d => encodeTwo 0x30BE#14 s d
  | .negb s d => encodeTwo 0x204E#14 s d
  | .negw s d => encodeTwo 0x214E#14 s d
  | .negd s d => encodeTwo 0x234E#14 s d
  | .nop => [0xA2#8]
  | .notb s d => encodeTwo 0x244E#14 s d
  | .notw s d => encodeTwo 0x254E#14 s d
  | .notd s d => encodeTwo 0x274E#14 s d
  | .rdval l => basicThree l.code 0 0x031E#14 ++ l.indexByte ++ l.extension
  | .remb s d => encodeTwo 0x34CE#14 s d
  | .remw s d => encodeTwo 0x35CE#14 s d
  | .remd s d => encodeTwo 0x37CE#14 s d
  | .restore m => [0x72#8, m]
  | .ret d => 0x12#8 :: d.encode
  | .reti => [0x52#8]
  | .rett d => 0x42#8 :: d.encode

/-- `len` of rule R122: the bytes of the basic instruction, index bytes, displacements, immediate. -/
def Instr.length (i : Instr) : Nat :=
  (encode i).length

/-- The longest instruction: 3 basic bytes, 2 index bytes, and two operands of two 4-byte
displacements each (rule R122). -/
def maxLength : Nat := 21

/-! ## The host's word -/

/-- The bytes of an instruction whose bits are `w`, as spec/opcode_table.json numbers them (rule R91:
the first byte holds bits 7 to 0), the bits from `nbits` on being zero, up to the longest instruction. -/
def wordBytes (nbits w : Nat) : List Byte :=
  (List.range maxLength).map fun k => BitVec.ofNat 8 ((w % 2 ^ nbits) / 2 ^ (8 * k))

/-- The instruction the decoder reads from the bits `w`. -/
def decodeTableWord (nbits w : Nat) : Option Instr :=
  match decode (wordBytes nbits w) with
  | .ok (i, _) => some i
  | .error _ => none

end Sys2Proof
end

