-- ==== Sys2Proof/Config.lean ====
section
/-! DEFINITION. What an implementation fixes (00_scope.md rule R6) and the model's free values. -/

namespace Sys2Proof

/-- `ADDR_BITS` (rules R6, R60). PRESUMED 24 (G4, D3): log entry 1. -/
def Config.addrBits : Nat := 24

/-- The number of byte addresses, `2 ^ ADDR_BITS` (rule R60). -/
def Config.addrSpace : Nat := 2 ^ Config.addrBits

/-- The start-state parameter `CFG_F` (rules R6, R33, R39). DESIGN CHOICE, log entry 2. -/
def Config.cfgF : Bool := true

/-- The start-state parameter `CFG_M` (rules R6, R33, R39). DESIGN CHOICE, log entry 2. -/
def Config.cfgM : Bool := true

/-- The free values of rule R159: what the destination operand holds after Trap(FPU) is `any`. The
argument is the state's counter of free values drawn so far. Log entry 3. -/
opaque Config.freeOperand : Nat → BitVec 64

/-- The free bits of rules R153 and R158: the sign of the zero that an underflow stores while its trap
is disabled, and whether IF is then set, are `any`. Log entry 4. -/
opaque Config.freeBit : Nat → Bool

/-- The free bytes of item I1 of 93_implementation_defined.md (rules R37, R68): what a byte that a stack
pointer has risen past holds once an entry can occur is `any`. Log entry 43. -/
opaque Config.freeByte : Nat → BitVec 8

end Sys2Proof
end

