-- ==== Sys2Proof/Machine/State.lean ====
section
/-! DEFINITION. The state of the machine as plain data (10_state.md), the reasons a step stops, and the
state right after reset (rules R39, R270). INVENTORY.md lists every field with its rule. -/

namespace Sys2Proof.Machine

/-! ## The processor status register and its companions -/

/-- The ten named bits of the PSR (rules R29 to R31). The other six are not state (D21): log entry 25. -/
structure Psr where
  /-- Bit 0. -/
  c : Bool := false
  /-- Bit 1. -/
  t : Bool := false
  /-- Bit 2. -/
  l : Bool := false
  /-- Bit 5. -/
  f : Bool := false
  /-- Bit 6. -/
  z : Bool := false
  /-- Bit 7. -/
  n : Bool := false
  /-- Bit 8: User mode. -/
  u : Bool := false
  /-- Bit 9: SP1 is the selected stack pointer. -/
  s : Bool := false
  /-- Bit 10. -/
  p : Bool := false
  /-- Bit 11: maskable interrupts are enabled. -/
  i : Bool := false
deriving DecidableEq, Repr

/-- The two bits of CFG that are state (rule R33). -/
structure Cfg where
  /-- The floating-point unit is present. -/
  f : Bool
  /-- The memory-management unit is present. -/
  m : Bool
deriving DecidableEq, Repr

/-- The rounding modes of rules R34 and R153. -/
inductive RoundMode
  | nearest
  | towardZero
  | towardPlus
  | towardMinus
deriving DecidableEq, Repr

/-- FSR.TT, the kind of the last floating-point trap (rule R34, general knowledge G11). -/
inductive FpTrap
  | none
  | underflow
  | overflow
  | divideByZero
  | illegal
  | invalid
  | inexact
  | reserved
deriving DecidableEq, Repr

/-- The parts of the FSR (rule R34): log entry 24. -/
structure Fsr where
  tt : FpTrap := .none
  /-- Underflow trap enable. -/
  uen : Bool := false
  /-- UF, sticky. -/
  uf : Bool := false
  /-- Inexact Result trap enable. -/
  ien : Bool := false
  /-- IF, sticky. -/
  inx : Bool := false
  rm : RoundMode := .nearest
  /-- The software field: no effect. -/
  swf : BitVec 7 := 0
deriving DecidableEq, Repr

/-! ## Memory and memory management -/

/-- Memory as a list of (address, byte) pairs in one canonical form (`Memory.wf`). An address that is
not listed holds no value (rule R38): log entry 8. -/
abbrev Memory := List Host.Cell

/-- A run of addresses, `lo` included and `hi` not. -/
structure Range where
  lo : Nat
  hi : Nat
deriving DecidableEq, Repr

/-- The two virtual address spaces (rule R69). -/
inductive Space
  | user
  | supervisor
deriving DecidableEq, Repr

/-- The kinds of access that `MMU.translate` tells apart (rule R71). -/
inductive AccessKind
  | read
  | write
  | fetch
deriving DecidableEq, Repr

/-- The answers of `MMU.translate` on a run of addresses (rule R71): abort, or the physical addresses
from a base on. -/
inductive Mapping
  | abort
  | to (base : Nat)
deriving DecidableEq, Repr

/-- One entry of the table that gives `MMU.translate`. -/
structure MapEntry where
  space : Space
  kind : AccessKind
  range : Range
  mapping : Mapping
deriving DecidableEq, Repr

/-- The memory-management state, the oracle `MMU` of rule R71 as data: since the address space is
finite, tables of this form give every total function. The first entry that holds an address answers
for it; an address in no entry is mapped to itself. Log entry 11. -/
structure Mmu where
  /-- Translation is switched on. -/
  on : Bool
  entries : List MapEntry
  /-- Addresses whose Level 1 page table entry has V = 0. -/
  l1Invalid : List Range
  /-- User-mode addresses whose protection level permits no read in User mode. -/
  noUserRead : List Range
deriving DecidableEq, Repr

/-! ## What the start state fixes -/

/-- The parameter `TRAP_ENTRY` (rules R6, R231). -/
inductive TrapEntry
  | fault
  | sequence
deriving DecidableEq, Repr

/-- An interrupt the environment presents (rule R240). -/
inductive Interrupt
  | nmi
  | nvi
  /-- A vectored interrupt with the vector number its controller supplies. -/
  | vec (n : Word)
deriving DecidableEq, Repr

/-! ## The state -/

/-- Everything the spec gives the machine. -/
structure State where
  /-- R0 to R7 (rule R20). -/
  regs : Vector Word 8
  /-- F0 to F7 (rules R22, R23). -/
  fregs : Vector Word 8
  /-- PC (rule R24). -/
  pc : Word
  /-- SP0 (rule R25). -/
  sp0 : Word
  /-- SP1 (rule R25). -/
  sp1 : Word
  /-- FP (rule R27). -/
  fp : Word
  /-- SB (rule R28). -/
  sb : Word
  /-- MOD (rule R32). -/
  mod : Half
  /-- PSR (rule R29). -/
  psr : Psr
  /-- CFG (rule R33). -/
  cfg : Cfg
  /-- FSR (rule R34). -/
  fsr : Fsr
  /-- INTBASE (rule R35). -/
  intbase : Word
  /-- Memory (rule R60). -/
  mem : Memory
  /-- Memory-management state (rules R36, R71). -/
  mmu : Mmu
  /-- The addresses marked as program text (rule R77). -/
  text : List Range
  /-- The parameter TRAP_ENTRY (rule R231). -/
  trapEntry : TrapEntry
  /-- The address the platform named as the end address, if any (rule R275). Log entry 44. -/
  endAt : Option Nat
  /-- What the environment presents at the coming boundaries (rule R240): `none` where it presents
  nothing, and nothing any more once the list is empty. -/
  irq : List (Option Interrupt)
  /-- How many `EOI` events have been emitted (rule R218). -/
  eois : Nat
  /-- The model's own: how many free values have been drawn. Log entry 5. -/
  free : Nat
deriving DecidableEq, Repr

/-- The traps of rules R231 and R234. -/
inductive Trap
  | und
  | ill
  | fpu
  | abt
  | dvz
deriving DecidableEq, Repr

/-- The two ends of a run that the spec gives a final state (rule R275), each with that state: its
registers, PSR, FSR, memory and EOI count are what is observed. Log entry 44. -/
inductive Fault
  /-- The outcome `Fault(K, PC)` of rule R231: a trap under TRAP_ENTRY = fault, PC being `final.pc`. The
  final state holds what rule R233 keeps: the FSR of Trap(FPU), a string's progress. Raised by
  `takeTrap`. Safe: the machine stops where the hardware would enter a handler. -/
  | trap (k : Trap) (final : State)
  /-- The outcome `Done` of rule R275: PC has reached the end address. Raised by `step`. Safe: the machine
  stops where the hardware would run on. -/
  | done (final : State)
deriving DecidableEq, Repr

/-- The ways a step is refused: the outcomes `Refused(reason, PC)` of rule R232, each safe, since the
machine stops where the spec gives the hardware no meaning. -/
inductive Refusal
  /-- An instruction without a meaning: raised by no arm of this model. -/
  | notModelled (mnemonic : String)
  /-- `unknown_encoding` (rules R123, R124): raised by a step whose bytes match no row. -/
  | unknownEncoding (pc : Word)
  /-- `operand_form` (rules R120, R121): raised by a step or a meaning whose operands are not admitted. -/
  | operandForm (pc : Word)
  /-- `unwritten` (rules R38, R63): raised by a read or fetch of a byte that holds no value. -/
  | unwritten (pc : Word)
  /-- `store_to_text` (rule R77): raised by a write to an address marked as program text. -/
  | storeToText (pc : Word)
  /-- `abort_after_eoi` (rule R218): raised by RETI when an access after its EOI aborts. -/
  | abortAfterEoi (pc : Word)
  /-- `address_wrap` (rule R24, D3): raised when the instruction stream passes the top of memory. -/
  | addressWrap (pc : Word)
  /-- `trace_mode` (rule R252): raised by RETI and RETT when the popped PSR has T = 1 or P = 1. -/
  | traceMode (pc : Word)
  /-- `fault_in_entry` (rule R246): raised when an access of the entry sequence aborts. -/
  | faultInEntry (pc : Word)
deriving DecidableEq, Repr

/-- The machine right after reset (rules R39, R270): PC = 0, PSR = 0, translation off, nothing pending,
memory with nothing listed. Registers the spec gives no value hold 0 (log entry 6), CFG the start-state
parameters (log entry 2). -/
def State.reset : State where
  regs := Vector.replicate 8 0#32
  fregs := Vector.replicate 8 0#32
  pc := 0#32
  sp0 := 0#32
  sp1 := 0#32
  fp := 0#32
  sb := 0#32
  mod := 0#16
  psr := ⟨false, false, false, false, false, false, false, false, false, false⟩
  cfg := ⟨Config.cfgF, Config.cfgM⟩
  fsr := ⟨.none, false, false, false, false, .nearest, 0#7⟩
  intbase := 0#32
  mem := []
  mmu := ⟨false, [], [], []⟩
  text := []
  trapEntry := .sequence
  endAt := none
  irq := []
  eois := 0
  free := 0

end Sys2Proof.Machine
end

