-- ==== Sys2Proof/Machine/Flags.lean ====
section
/-! DEFINITION. The PSR as a 16-bit value and the flag computations of the in-scope instructions
(10_state.md rules R29 to R31; rules R201, R182, R193). -/

namespace Sys2Proof.Machine

/-- The 16-bit value of the PSR (rule R29); bits 3, 4 and 12 to 15 are 0. Log entry 25. -/
def Psr.toBits (p : Psr) : Half :=
  0#4 ++ BitVec.ofBool p.i ++ BitVec.ofBool p.p ++ BitVec.ofBool p.s ++ BitVec.ofBool p.u ++
    BitVec.ofBool p.n ++ BitVec.ofBool p.z ++ BitVec.ofBool p.f ++ 0#2 ++
    BitVec.ofBool p.l ++ BitVec.ofBool p.t ++ BitVec.ofBool p.c

/-- The ten named bits of a 16-bit value (rule R29, D21). -/
def Psr.ofBits (v : Half) : Psr where
  c := v.getLsbD 0
  t := v.getLsbD 1
  l := v.getLsbD 2
  f := v.getLsbD 5
  z := v.getLsbD 6
  n := v.getLsbD 7
  u := v.getLsbD 8
  s := v.getLsbD 9
  p := v.getLsbD 10
  i := v.getLsbD 11

/-- The PSR on entry to a service procedure (rule R245): S, U, T, P cleared, and I for an interrupt. -/
def Psr.onEntry (p : Psr) (interrupt : Bool) : Psr :=
  { p with s := false, u := false, t := false, p := false, i := p.i && !interrupt }

/-- NEGi's flags (rule R201): C is a borrow out of `0 - src`, F is overflow. -/
def Psr.afterNegate {w : Nat} (p : Psr) (src : BitVec w) : Psr :=
  { p with c := src != 0#w, f := src == BitVec.intMin w }

/-- The PSR with flag F set to a value (rules R182, R193). -/
def Psr.withF (p : Psr) (b : Bool) : Psr :=
  { p with f := b }

end Sys2Proof.Machine
end

