-- ==== Sys2Proof/Machine/Memory.lean ====
section
/-! DEFINITION. Memory as a canonical list of bytes, and the memory-management oracle of rule R71. -/

namespace Sys2Proof.Machine

/-! ## The array of bytes (rule R60) -/

/-- The byte at an address; `none` where nothing has been written (rule R38). -/
def Memory.read : Memory → Nat → Option Byte
  | [], _ => none
  | (x, b) :: m, a => if a = x then some b else Memory.read m a

/-- Memory with one byte stored. The list stays in order of address. -/
def Memory.write : Memory → Nat → Byte → Memory
  | [], a, v => [(a, v)]
  | (x, b) :: m, a, v =>
    if a < x then (a, v) :: (x, b) :: m
    else if a = x then (a, v) :: m
    else (x, b) :: Memory.write m a v

/-- The canonical form: addresses strictly rising, each inside the address space. Since an unlisted
address holds no value, no entry can equal what an unlisted address reads as. -/
abbrev Memory.wf (m : Memory) : Prop :=
  m.Pairwise (fun a b => a.1 < b.1) ∧ ∀ c ∈ m, c.1 < Config.addrSpace

/-! ## Address runs -/

/-- The run holds the address. -/
def Range.holds (r : Range) (a : Nat) : Bool :=
  decide (r.lo ≤ a) && decide (a < r.hi)

/-- Some run of the list holds the address. -/
def inRanges (rs : List Range) (a : Nat) : Bool :=
  rs.any fun r => r.holds a

/-- The entry answers for this space, kind of access and address. -/
def MapEntry.answers (e : MapEntry) (sp : Space) (k : AccessKind) (a : Nat) : Bool :=
  e.space == sp && e.kind == k && e.range.holds a

/-! ## The oracle MMU (rule R71) -/

/-- Translation is off always when CFG.M = 0 (rule R71). -/
def State.translating (s : State) : Bool :=
  s.cfg.m && s.mmu.on

/-- `MMU.l1_valid(a)`: the Level 1 page table entry for user-mode address `a` has V = 1. -/
def State.l1Valid (s : State) (a : Nat) : Bool :=
  !(s.translating && inRanges s.mmu.l1Invalid a)

/-- `MMU.user_read_allowed(a)`: the protection level of user-mode address `a` permits a read. -/
def State.userReadAllowed (s : State) (a : Nat) : Bool :=
  !(s.translating && inRanges s.mmu.noUserRead a)

/-- `MMU.translate(space, kind, a)`: the physical address, or `none` for `abort`. An address that may not
be read in User mode is "inaccessible for any use by a user-mode program" (rules R71, R193). -/
def State.translate (s : State) (sp : Space) (k : AccessKind) (a : Nat) : Option Nat :=
  if s.translating then
    if sp = .user ∧ s.userReadAllowed a = false then none
    else
      match s.mmu.entries.find? fun e => e.answers sp k a with
      | none => some a
      | some e =>
        match e.mapping with
        | .abort => none
        | .to base => some (base + (a - e.range.lo))
  else some a

/-- The address of the byte a 32-bit address reaches: `a mod 2 ^ ADDR_BITS` (rule R60). -/
def busAddress (a : Word) : Nat :=
  a.toNat % Config.addrSpace

/-- The physical address that a byte access at `a` reaches, or `none` where it aborts (rule R63). -/
def State.physical (s : State) (sp : Space) (k : AccessKind) (a : Word) : Option Nat :=
  (s.translate sp k (busAddress a)).map (· % Config.addrSpace)

end Sys2Proof.Machine
end

