-- ==== Sys2Proof/Machine/Ops.lean ====
section
/-! DEFINITION. The named operations over registers and memory (00_scope.md rule R10, 20_memory.md), the
end of an instruction, taking an exception (rule R245) and the return from one (rules R214 to R216). -/

namespace Sys2Proof.Machine

/-! ## How an instruction can end early -/

/-- What stops an instruction before it ends. -/
inductive Stop
  /-- `raise Trap(K)` with the state as it was at the start of the instruction (rule R233). -/
  | trap (k : Trap)
  /-- `raise Trap(K)` where rule R233 keeps part of what the instruction did: entry starts from `t`. -/
  | trapFrom (k : Trap) (t : State)
  /-- An interrupt taken between two elements of a string instruction (rule R185). -/
  | interrupt (q : Interrupt) (t : State)
  /-- `refuse(reason)` (rule R232). -/
  | refuse (r : Refusal)
deriving DecidableEq, Repr

/-! ## Registers -/

/-- `R[n]` (rule R20). -/
def State.reg (s : State) (r : Fin 8) : Word :=
  s.regs[r]

/-- `R[n] <- v` (rule R20). -/
def State.setReg (s : State) (r : Fin 8) (v : Word) : State :=
  { s with regs := s.regs.set r v }

/-- `F[n]` (rule R22). -/
def State.freg (s : State) (r : Fin 8) : Word :=
  s.fregs[r]

/-- `F[n] <- v` (rule R22). -/
def State.setFreg (s : State) (r : Fin 8) (v : Word) : State :=
  { s with fregs := s.fregs.set r v }

/-- The low bytes of a register replaced, the rest kept (rule R21). -/
def mergeLow {w : Nat} (old : Word) (v : BitVec w) : Word :=
  (old &&& ~~~((BitVec.allOnes w).setWidth 32)) ||| v.setWidth 32

/-- The value of an `n`-byte operand in register mode (rules R21 to R23, R115): the low bytes of Rn, or
Fn, or the pair with F[n] the low half. -/
def State.regValue (s : State) (k : Bank) (n : Nat) (r : Fin 8) : BitVec (8 * n) :=
  match k with
  | .int => (s.reg r).setWidth (8 * n)
  | .float => (s.freg (r + 1) ++ s.freg r).setWidth (8 * n)

/-- The state after an `n`-byte result is put in a register (rules R21 to R23, R116). -/
def State.setRegValue (s : State) (k : Bank) {n : Nat} (r : Fin 8) (v : BitVec (8 * n)) : State :=
  match k with
  | .int => s.setReg r (mergeLow (s.reg r) v)
  | .float =>
    if n = 8 then (s.setFreg r (v.setWidth 32)).setFreg (r + 1) ((v >>> 32).setWidth 32)
    else s.setFreg r (v.setWidth 32)

/-- `SP`, the selected stack pointer (rule R26). -/
def State.sp (s : State) : Word :=
  if s.psr.s then s.sp1 else s.sp0

/-- `SP <- v` (rule R26). -/
def State.setSp (s : State) (v : Word) : State :=
  if s.psr.s then { s with sp1 := v } else { s with sp0 := v }

/-- The space of an ordinary access (rule R69). -/
def State.space (s : State) : Space :=
  if s.psr.u then .user else .supervisor

/-! ## Memory accesses (rules R63, R70) -/

/-- The signed value of a displacement as a 32-bit number, `sext_32(disp)` (rule R107). -/
def dispValue : Disp → Word
  | .short v => v.signExtend 32
  | .medium v => v.signExtend 32
  | .long v => v.signExtend 32

/-- The address of byte `k` of a datum at `a`. -/
def byteAt (a : Word) (k : Nat) : Word :=
  a + BitVec.ofNat 32 k

/-- The number whose bytes, least significant first, are `bs` (rule R61). -/
def natOfBytesLE : List Byte → Nat
  | [] => 0
  | b :: bs => b.toNat + 256 * natOfBytesLE bs

/-- Every byte of an `n`-byte access translates. -/
def State.mapped (s : State) (sp : Space) (k : AccessKind) (a : Word) (n : Nat) : Bool :=
  (List.range n).all fun j => (s.physical sp k (byteAt a j)).isSome

/-- The byte that a read at `a` finds: `none` where it aborts or the byte holds no value. -/
def State.byteRead (s : State) (sp : Space) (a : Word) : Option Byte :=
  (s.physical sp .read a).bind s.mem.read

/-- Every byte of an `n`-byte read holds a value. -/
def State.written (s : State) (sp : Space) (a : Word) (n : Nat) : Bool :=
  (List.range n).all fun j => (s.byteRead sp (byteAt a j)).isSome

/-- No byte of an `n`-byte write is marked as program text (rule R77). -/
def State.clearOfText (s : State) (sp : Space) (a : Word) (n : Nat) : Bool :=
  (List.range n).all fun j => ((s.physical sp .write (byteAt a j)).all fun p => !inRanges s.text p)

/-- The little-endian value of the `n` bytes at `a` (rules R61, R63). -/
def State.memValue (s : State) (sp : Space) (a : Word) (n : Nat) : BitVec (8 * n) :=
  BitVec.ofNat (8 * n)
    (natOfBytesLE ((List.range n).map fun j => (s.byteRead sp (byteAt a j)).getD 0#8))

/-- The bytes after an `n`-byte store at `a`: byte `j` of `v` at `a + j` (rule R63). -/
def State.storeBytes (s : State) (sp : Space) (a : Word) {n : Nat} (v : BitVec (8 * n)) : Memory :=
  (List.range n).foldl
    (fun m j =>
      match s.physical sp .write (byteAt a j) with
      | some p => m.write p (v.extractLsb' (8 * j) 8)
      | none => m)
    s.mem

/-- `MemRead(a, n)` in a given space (rules R63, R70). -/
def memRead (sp : Space) (a : Word) (n : Nat) (s : State) : Except Stop (BitVec (8 * n)) :=
  if s.mapped sp .read a n then
    if s.written sp a n then .ok (s.memValue sp a n)
    else .error (.refuse (.unwritten s.pc))
  else .error (.trap .abt)

/-- `MemWrite(a, n, v)` in a given space (rules R63, R70, R77): every byte's translation is checked
before any byte is stored (rule R233 item 4). -/
def memWrite (sp : Space) (a : Word) {n : Nat} (v : BitVec (8 * n)) (s : State) :
    Except Stop State :=
  if s.mapped sp .write a n then
    if s.clearOfText sp a n then .ok { s with mem := s.storeBytes sp a v }
    else .error (.refuse (.storeToText s.pc))
  else .error (.trap .abt)

/-- A double-word read. -/
def readWord (sp : Space) (a : Word) (s : State) : Except Stop Word :=
  memRead sp a 4 s

/-! ## The stack (rules R65 to R67) -/

/-- `Push(n, v)`: SP drops by the operand's size, unrounded. -/
def push {n : Nat} (v : BitVec (8 * n)) (s : State) : Except Stop State := do
  let t ← memWrite s.space (s.sp - BitVec.ofNat 32 n) v s
  return t.setSp (s.sp - BitVec.ofNat 32 n)

/-- `Pop(n)`: the value and the state with SP moved past it. The pop itself leaves memory unchanged (rule
R68); that the bytes now below SP hold any value once an entry can occur (rule R37, item I1) is
`State.settled`, which `step` applies when the instruction has ended. -/
def pop (n : Nat) (s : State) : Except Stop (BitVec (8 * n) × State) := do
  let v ← memRead s.space s.sp n s
  return (v, s.setSp (s.sp + BitVec.ofNat 32 n))

/-! ## The end of an instruction (rule R24) -/

/-- The instruction of this length ends below the top of the address space, so that `PC + len` does not
wrap (rule R24, D3; log entry 16). -/
def State.fits (s : State) (len : Nat) : Bool :=
  decide (busAddress s.pc + len < Config.addrSpace)

/-- `pc <- PC + len`. -/
def advance (i : Instr) (s : State) : Except Stop State :=
  if s.fits i.length then .ok { s with pc := s.pc + BitVec.ofNat 32 i.length }
  else .error (.refuse (.addressWrap s.pc))

/-! ## Taking an exception (rules R231, R234, R245) -/

/-- The vector numbers of rule R245 (general knowledge G44). -/
def Trap.vector : Trap → Word
  | .abt => 2#32
  | .fpu => 3#32
  | .ill => 4#32
  | .dvz => 6#32
  | .und => 10#32

/-- The vector numbers of rule R245 (general knowledge G44). -/
def Interrupt.vector : Interrupt → Word
  | .nvi => 0#32
  | .nmi => 1#32
  | .vec n => n

/-- The entry sequence of rule R245: the state in which the service procedure for vector `v` begins, with
return address `ra` in its frame. -/
def enter (v : Word) (ra : Word) (interrupt : Bool) (s : State) : Except Stop State := do
  let s1 := { s with psr := s.psr.onEntry interrupt }
  let d ← readWord .supervisor (s.intbase + 4#32 * v) s1
  let module : Half := d.extractLsb' 0 16
  let offset : Half := d.extractLsb' 16 16
  let sb ← readWord .supervisor (module.setWidth 32) s1
  let pb ← readWord .supervisor (module.setWidth 32 + 8#32) s1
  let s2 := { s1 with mod := module, sb := sb }
  let s3 ← push (n := 2) s.psr.toBits s2
  let s4 ← push (n := 2) s.mod s3
  let s5 ← push (n := 4) ra s4
  return { s5 with pc := pb + offset.setWidth 32 }

/-- The outcome of an entry: a trap raised by a step of the sequence itself is refused (rule R246). -/
def enterOutcome (v : Word) (interrupt : Bool) (s : State) : Host.Outcome State Fault Refusal :=
  match enter v s.pc interrupt s with
  | .ok t => .next t
  | .error (.refuse r) => .refused r
  | .error _ => .refused (.faultInEntry s.pc)

/-- Trap `k` of the instruction at PC (rule R231); `s` is the state with what rule R233 keeps. -/
def takeTrap (k : Trap) (s : State) : Host.Outcome State Fault Refusal :=
  match s.trapEntry with
  | .fault => .fault (.trap k s)
  | .sequence => enterOutcome k.vector false s

/-- Interrupt `q`, taken with PC the address to return to (rules R240, R245). -/
def takeInterrupt (q : Interrupt) (s : State) : Host.Outcome State Fault Refusal :=
  enterOutcome q.vector true s

/-- The environment's interrupt is taken when it is presented (rule R240): `nmi` always, the others
only with PSR.I = 1; and interrupts need TRAP_ENTRY = sequence. -/
def State.accepts (s : State) (q : Interrupt) : Bool :=
  s.trapEntry == .sequence && (q == .nmi || s.psr.i)

/-- One boundary at which the environment may present an interrupt (rule R240): the interrupt taken
there, if any, and the state past the boundary. -/
def boundary (s : State) : Option Interrupt × State :=
  match s.irq with
  | [] => (none, s)
  | q :: rest =>
    let t := { s with irq := rest }
    (q.filter s.accepts, t)

/-! ## The return from an exception (rules R214 to R216, R219, R222) -/

/-- The frame a return pops: return address, MOD and PSR, all from the stack pointer selected at the
start (rule R215), in the order of rules R214 and R216. -/
def popFrame (s : State) : Except Stop ((Word × Half × Half) × State) := do
  let (ra, s1) ← pop 4 s
  let (m, s2) ← pop 2 s1
  let (p, s3) ← pop 2 s2
  return ((ra, m, p), s3)

/-- What RETI and RETT have in common: the frame is popped, MOD and PSR are loaded (T = 1 or P = 1 is
refused, rule R252), SB is reloaded from the Module Table in Supervisor space (rule R219). Answers the
return address and the state, PC not yet loaded. -/
def returnFrame (s : State) : Except Stop (Word × State) := do
  let ((ra, m, p), s1) ← popFrame s
  let s2 := { s1 with mod := m, psr := Psr.ofBits p }
  if s2.psr.t || s2.psr.p then .error (.refuse (.traceMode s.pc))
  else do
    let sb ← readWord .supervisor (m.setWidth 32) s2
    return (ra, { s2 with sb := sb })

/-! ## The outcome of an instruction -/

/-- The outcome of an instruction that stopped early; `s` is the state at its start. -/
def stopOutcome (s : State) : Stop → Host.Outcome State Fault Refusal
  | .trap k => takeTrap k s
  | .trapFrom k t => takeTrap k t
  | .interrupt q t => takeInterrupt q t
  | .refuse r => .refused r

/-- The outcome of instruction `i` at state `s` whose body ended as `r`. A form that rules R120 and R121
do not admit is refused before anything else. -/
def complete (i : Instr) (s : State) (r : Except Stop State) : Host.Outcome State Fault Refusal :=
  if i.wellFormed then
    match r with
    | .ok t => .next t
    | .error e => stopOutcome s e
  else .refused (.operandForm s.pc)

end Sys2Proof.Machine
end

