-- ==== Sys2Proof/Machine/Operands.lean ====
section
/-! DEFINITION. General operands: effective addresses and the four access classes (30_encoding.md rules
R100 to R120). -/

namespace Sys2Proof.Machine

/-- The base register of a memory-relative operand (rule R108). -/
def State.pointerBase (s : State) : PointerBase → Word
  | .fp => s.fp
  | .sp => s.sp
  | .sb => s.sb

/-- The base of a memory-space operand (rule R105): PC is the address of the instruction's first byte. -/
def State.spaceBase (s : State) : SpaceBase → Word
  | .fp => s.fp
  | .sp => s.sp
  | .sb => s.sb
  | .pc => s.pc

/-- The factor of a scaled index (rule R109). -/
def scaleFactor : Scale → Word
  | .b => 1#32
  | .w => 2#32
  | .d => 4#32
  | .q => 8#32

/-- `EA` of a base mode (rules R104, R105, R108, R109). Pointer fetches are reads in the current mode's
space; for RDVAL and MOVUSi that is Supervisor space, since they run with PSR.U = 0 (rules R191, R194). -/
def baseAddress (b : Base) (s : State) : Except Stop Word :=
  match b with
  | .regRel r d => .ok (s.reg r + dispValue d)
  | .memRel p d1 d2 => do
    let q ← readWord s.space (s.pointerBase p + dispValue d1) s
    return q + dispValue d2
  | .absolute d => .ok (dispValue d)
  | .external d1 d2 => do
    let link ← readWord s.space (s.mod.setWidth 32 + 4#32) s
    let q ← readWord s.space (link + 4#32 * dispValue d1) s
    return q + dispValue d2
  | .tos => .ok s.sp
  | .space p d => .ok (s.spaceBase p + dispValue d)

/-- Where an operand is, its address computed (rule R120 steps 3 and 4). -/
inductive Loc (n : Nat)
  | reg (r : Fin 8)
  | imm (v : BitVec (8 * n))
  | tos
  | mem (a : Word)
deriving DecidableEq, Repr

/-- The place a general operand names (rules R100 to R109). -/
def locate {n : Nat} (g : Gen n) (s : State) : Except Stop (Loc n) :=
  match g with
  | .reg r => .ok (.reg r)
  | .imm v => .ok (.imm v)
  | .base .tos => .ok .tos
  | .base b => do
    let a ← baseAddress b s
    return .mem a
  | .scaled c b r => do
    let a ← baseAddress b s
    return .mem (a + s.reg r * scaleFactor c)

/-- `ReadOp`, class read (rule R115): the value, and the state, which differs only where a top-of-stack
operand is popped. -/
def readLoc (k : Bank) {n : Nat} (l : Loc n) (s : State) : Except Stop (BitVec (8 * n) × State) :=
  match l with
  | .reg r => .ok (s.regValue k n r, s)
  | .imm v => .ok (v, s)
  | .tos => pop n s
  | .mem a => do
    let v ← memRead s.space a n s
    return (v, s)

/-- `WriteOp`, class write (rule R116): top of stack pushes. -/
def writeLoc (k : Bank) {n : Nat} (l : Loc n) (v : BitVec (8 * n)) (s : State) : Except Stop State :=
  match l with
  | .reg r => .ok (s.setRegValue k r v)
  | .imm _ => .error (.refuse (.operandForm s.pc))
  | .tos => push v s
  | .mem a => memWrite s.space a v s

/-- The read half of `RmwOp` (rule R117): top of stack is the item at SP, SP unchanged. -/
def readPlace (k : Bank) {n : Nat} (l : Loc n) (s : State) : Except Stop (BitVec (8 * n)) :=
  match l with
  | .reg r => .ok (s.regValue k n r)
  | .imm _ => .error (.refuse (.operandForm s.pc))
  | .tos => memRead s.space s.sp n s
  | .mem a => memRead s.space a n s

/-- The write half of `RmwOp` (rule R117): top of stack is the item at SP, SP unchanged. -/
def writePlace (k : Bank) {n : Nat} (l : Loc n) (v : BitVec (8 * n)) (s : State) :
    Except Stop State :=
  match l with
  | .reg r => .ok (s.setRegValue k r v)
  | .imm _ => .error (.refuse (.operandForm s.pc))
  | .tos => memWrite s.space s.sp v s
  | .mem a => memWrite s.space a v s

/-- `AddrOp`, class addr (rule R118): the operand's address; top of stack gives SP, unchanged. -/
def addrOf {n : Nat} (g : Gen n) (s : State) : Except Stop Word := do
  match ← locate g s with
  | .reg _ => .error (.refuse (.operandForm s.pc))
  | .imm _ => .error (.refuse (.operandForm s.pc))
  | .tos => return s.sp
  | .mem a => return a

/-! ## Two-operand bodies, in the order of rule R120 -/

/-- Steps 3 to 5 for a source of class read: both places, the source's value, the state after it. -/
def fetchSource (k : Bank) {n m : Nat} (src : Gen n) (dst : Gen m) (s : State) :
    Except Stop (Loc m × BitVec (8 * n) × State) := do
  let sl ← locate src s
  let dl ← locate dst s
  let (v, s1) ← readLoc k sl s
  return (dl, v, s1)

/-- `dest <- f src` on integer operands, src of class read and dest of class write. Answers the source
value as well, for the flags. -/
def moveThrough {n m : Nat} (f : BitVec (8 * n) → BitVec (8 * m)) (src : Gen n) (dst : Gen m)
    (s : State) : Except Stop (BitVec (8 * n) × State) := do
  let (dl, v, s1) ← fetchSource .int src dst s
  let t ← writeLoc .int dl (f v) s1
  return (v, t)

/-- `dest <- f src dest` on integer operands of one length, src of class read and dest of class rmw; `f`
answers `none` for Trap(DVZ), raised before dest is written. -/
def combineThrough {n : Nat} (f : BitVec (8 * n) → BitVec (8 * n) → Option (BitVec (8 * n)))
    (src dst : Gen n) (s : State) : Except Stop State := do
  let (dl, v, s1) ← fetchSource .int src dst s
  let d ← readPlace .int dl s1
  match f v d with
  | none => .error (.trap .dvz)
  | some r => writePlace .int dl r s1

end Sys2Proof.Machine
end

