-- ==== Sys2Proof/Machine/Divide.lean ====
section
/-! DEFINITION. MODi and REMi (40_modi_remi.md rules R140 to R145). -/

namespace Sys2Proof.Machine

/-- `dest mod src`, the floor-based modulus of rule R144; `none` when src = 0, which raises Trap(DVZ)
(rules R140, R239). -/
def modulus {w : Nat} (src dest : BitVec w) : Option (BitVec w) :=
  if src = 0#w then none else some (BitVec.ofInt w (dest.toInt.fmod src.toInt))

/-- `dest rem src`, the truncation-based remainder of rule R144; `none` when src = 0, which raises
Trap(DVZ) (rules R142, R239). -/
def remainder {w : Nat} (src dest : BitVec w) : Option (BitVec w) :=
  if src = 0#w then none else some (BitVec.ofInt w (dest.toInt.tmod src.toInt))

/-- The body of MODi (rule R140). -/
def modBody {n : Nat} (i : Instr) (src dst : Gen n) (s : State) : Except Stop State := do
  let t ← combineThrough modulus src dst s
  advance i t

/-- The body of REMi (rule R142). -/
def remBody {n : Nat} (i : Instr) (src dst : Gen n) (s : State) : Except Stop State := do
  let t ← combineThrough remainder src dst s
  advance i t

/-- MODB (rule R140). -/
def execModb (src dst : Gen 1) (s : State) : Host.Outcome State Fault Refusal :=
  complete (.modb src dst) s (modBody (.modb src dst) src dst s)

/-- MODW (rule R140). -/
def execModw (src dst : Gen 2) (s : State) : Host.Outcome State Fault Refusal :=
  complete (.modw src dst) s (modBody (.modw src dst) src dst s)

/-- MODD (rule R140). -/
def execModd (src dst : Gen 4) (s : State) : Host.Outcome State Fault Refusal :=
  complete (.modd src dst) s (modBody (.modd src dst) src dst s)

/-- REMB (rule R142). -/
def execRemb (src dst : Gen 1) (s : State) : Host.Outcome State Fault Refusal :=
  complete (.remb src dst) s (remBody (.remb src dst) src dst s)

/-- REMW (rule R142). -/
def execRemw (src dst : Gen 2) (s : State) : Host.Outcome State Fault Refusal :=
  complete (.remw src dst) s (remBody (.remw src dst) src dst s)

/-- REMD (rule R142). -/
def execRemd (src dst : Gen 4) (s : State) : Host.Outcome State Fault Refusal :=
  complete (.remd src dst) s (remBody (.remd src dst) src dst s)

end Sys2Proof.Machine
end

