-- ==== Sys2Proof/Machine/Float.lean ====
section
/-! DEFINITION. Floating-point numerics: the formats, operand kinds, rounding and the finish of a result
(41_floating_point.md rules R150 to R153, R158 to R161). Exact values are integers times powers of two. -/

namespace Sys2Proof.Machine

/-! ## Formats (rule R151) -/

/-- A floating format: how many fraction and exponent bits it has. -/
structure FloatFormat where
  fracBits : Nat
  expBits : Nat
deriving DecidableEq, Repr

/-- Single precision, "F" (rule R151). -/
def FloatFormat.single : FloatFormat := ⟨23, 8⟩

/-- Double precision, "L" (rule R151). -/
def FloatFormat.double : FloatFormat := ⟨52, 11⟩

/-- The bias of the exponent, which is also the largest exponent of a normalized number (rules R151,
R153): 127 or 1023. -/
def FloatFormat.bias (f : FloatFormat) : Nat :=
  2 ^ (f.expBits - 1) - 1

/-- The exponent field E of an operand (rule R151). -/
def FloatFormat.expField (f : FloatFormat) {w : Nat} (v : BitVec w) : Nat :=
  v.toNat / 2 ^ f.fracBits % 2 ^ f.expBits

/-- The fraction field Fr of an operand (rule R151). -/
def FloatFormat.fracField (f : FloatFormat) {w : Nat} (v : BitVec w) : Nat :=
  v.toNat % 2 ^ f.fracBits

/-- Zero: E = 0 and Fr = 0, either sign (rule R152). -/
def FloatFormat.isZero (f : FloatFormat) {w : Nat} (v : BitVec w) : Bool :=
  f.expField v == 0 && f.fracField v == 0

/-- A reserved operand: E all ones, or E = 0 with Fr not 0 (rule R152). -/
def FloatFormat.isReserved (f : FloatFormat) {w : Nat} (v : BitVec w) : Bool :=
  f.expField v == 2 ^ f.expBits - 1 || (f.expField v == 0 && f.fracField v != 0)

/-- A zero of a given sign. -/
def signedZero (w : Nat) (neg : Bool) : BitVec w :=
  if neg then BitVec.intMin w else 0#w

/-! ## Exact values -/

/-- The exact number `± mant * 2 ^ exp`. -/
structure Exact where
  neg : Bool
  mant : Nat
  exp : Int
deriving DecidableEq, Repr

/-- The value of a normalized operand (rule R151). -/
def FloatFormat.value (f : FloatFormat) {w : Nat} (v : BitVec w) : Exact where
  neg := v.msb
  mant := 2 ^ f.fracBits + f.fracField v
  exp := (f.expField v : Int) - f.bias - f.fracBits

/-- An integer as an exact value (rule R154). -/
def Exact.ofInt (x : Int) : Exact :=
  ⟨decide (x < 0), x.natAbs, 0⟩

/-- The exact product (rule R157). -/
def Exact.mul (a b : Exact) : Exact :=
  ⟨a.neg != b.neg, a.mant * b.mant, a.exp + b.exp⟩

/-! ## Rounding (rule R153, `FPNUM.round`; the default of G37) -/

/-- The result of rounding to a format's fraction width with unbounded exponent: `± sig * 2 ^ exp` with
`sig` of exactly `fracBits + 1` bits. -/
structure Rounded where
  neg : Bool
  sig : Nat
  exp : Int
  inexact : Bool
deriving DecidableEq, Repr

/-- Whether the magnitude `q + r / 2 ^ k`, `0 < k`, rounds up to `q + 1` (rule R153). -/
def roundsUp (rm : RoundMode) (neg : Bool) (q r k : Nat) : Bool :=
  match rm with
  | .nearest => decide (2 ^ k < 2 * r) || (2 * r == 2 ^ k && q % 2 == 1)
  | .towardZero => false
  | .towardPlus => r != 0 && !neg
  | .towardMinus => r != 0 && neg

/-- `x`, not zero, rounded under `rm` to `fracBits + 1` significant bits (rule R153). -/
def roundExact (f : FloatFormat) (rm : RoundMode) (x : Exact) : Rounded :=
  let len := x.mant.log2 + 1
  let p := f.fracBits + 1
  if len ≤ p then ⟨x.neg, x.mant * 2 ^ (p - len), x.exp - ((p - len : Nat) : Int), false⟩
  else
    let k := len - p
    let q := x.mant / 2 ^ k
    let r := x.mant % 2 ^ k
    let q' := if roundsUp rm x.neg q r k then q + 1 else q
    if q' = 2 ^ p then ⟨x.neg, 2 ^ f.fracBits, x.exp + k + 1, r != 0⟩
    else ⟨x.neg, q', x.exp + k, r != 0⟩

/-- The exponent of a rounded number, that of its leading bit. -/
def Rounded.top (f : FloatFormat) (y : Rounded) : Int :=
  y.exp + f.fracBits

/-- `over` of rule R153: the exponent exceeds 127, or 1023. -/
def Rounded.over (f : FloatFormat) (y : Rounded) : Bool :=
  decide ((f.bias : Int) < y.top f)

/-- `under` of rule R153: the exponent is below -126, or -1022. -/
def Rounded.under (f : FloatFormat) (y : Rounded) : Bool :=
  decide (y.top f < 1 - (f.bias : Int))

/-- A rounded number encoded, neither over nor under (rules R151, R153). -/
def Rounded.encode (f : FloatFormat) (w : Nat) (y : Rounded) : BitVec w :=
  signedZero w y.neg |||
    BitVec.ofNat w ((y.top f + f.bias).toNat * 2 ^ f.fracBits + (y.sig - 2 ^ f.fracBits))

/-! ## The result of a floating-point instruction -/

/-- A result to be stored, with the FSR after it and how many free values it drew, or Trap(FPU) with the
FSR after it (rule R159). -/
inductive FloatResult (w : Nat)
  | store (v : BitVec w) (fsr : Fsr) (drawn : Nat)
  | trap (fsr : Fsr)
deriving DecidableEq, Repr

/-- `Finish(fmt, x, dest)` of rule R158 for `x` not zero. `free` is the state's counter of free values:
an untrapped underflow draws the sign of its zero and whether IF is set (log entry 4). -/
def finish (f : FloatFormat) (w : Nat) (x : Exact) (fsr : Fsr) (free : Nat) : FloatResult w :=
  let y := roundExact f fsr.rm x
  if y.over f then .trap { fsr with tt := .overflow }
  else if y.under f then
    if fsr.uen then .trap { fsr with uf := true, tt := .underflow }
    else .store (signedZero w (Config.freeBit free))
      { fsr with uf := true, inx := fsr.inx || Config.freeBit (free + 1) } 2
  else if y.inexact then
    if fsr.ien then .trap { fsr with inx := true, tt := .inexact }
    else .store (y.encode f w) { fsr with inx := true } 0
  else .store (y.encode f w) fsr 0

/-- MOVif (rule R154): an integer 0 gives +0. -/
def convertInt {n : Nat} (f : FloatFormat) (w : Nat) (v : BitVec n) (fsr : Fsr) (free : Nat) :
    FloatResult w :=
  if v.toInt = 0 then .store 0#w fsr 0
  else finish f w (Exact.ofInt v.toInt) fsr free

/-- MOVFL (rule R155): exact; a zero keeps its sign; a reserved operand is an invalid operation. -/
def widen (v : BitVec 32) (fsr : Fsr) : FloatResult 64 :=
  if FloatFormat.single.isReserved v then .trap { fsr with tt := .invalid }
  else if FloatFormat.single.isZero v then .store (v.extractLsb' 31 1 ++ 0#63) fsr 0
  else
    .store (v.extractLsb' 31 1 ++ ((v.extractLsb' 23 8).setWidth 11 + 896#11) ++
      v.extractLsb' 0 23 ++ 0#29) fsr 0

/-- MOVLF (rule R156): rounded to single precision. -/
def narrow (v : BitVec 64) (fsr : Fsr) (free : Nat) : FloatResult 32 :=
  if FloatFormat.double.isReserved v then .trap { fsr with tt := .invalid }
  else if FloatFormat.double.isZero v then .store (signedZero 32 v.msb) fsr 0
  else finish .single 32 (FloatFormat.double.value v) fsr free

/-- MULf (rules R157, R160): `a` is src, `b` is dest; a zero result has the exclusive-or of the signs. -/
def multiply (f : FloatFormat) {w : Nat} (a b : BitVec w) (fsr : Fsr) (free : Nat) : FloatResult w :=
  if f.isReserved a || f.isReserved b then .trap { fsr with tt := .invalid }
  else if f.isZero a || f.isZero b then .store (signedZero w (a.msb != b.msb)) fsr 0
  else finish f w ((f.value a).mul (f.value b)) fsr free

/-! ## The end of a floating-point instruction -/

/-- Trap(FPU) with FSR `fsr` (rule R159): the FSR is kept, SP is as it was at the start `s`, and the
destination holds a free value, put there by `store`; where nothing can be stored there (the write aborts,
or the place is program text) it is unchanged (log entry 3). -/
def floatTrap {m : Nat} (store : BitVec (8 * m) → Except Stop State) (fsr : Fsr) (s : State) : Stop :=
  match store ((Config.freeOperand s.free).setWidth (8 * m)) with
  | .ok t => .trapFrom .fpu { t with sp0 := s.sp0, sp1 := s.sp1, fsr := fsr, free := s.free + 1 }
  | .error _ => .trapFrom .fpu { s with fsr := fsr }

/-- The result is stored by `store`, which then finds the FSR and counter of free values in place; `s` is
the state at the start of the instruction. -/
def deliver {m : Nat} (i : Instr) (store : State → BitVec (8 * m) → Except Stop State)
    (s s1 : State) : FloatResult (8 * m) → Except Stop State
  | .store v fsr drawn => do
    let t ← store { s1 with fsr := fsr, free := s1.free + drawn } v
    advance i t
  | .trap fsr => .error (floatTrap (store s1) fsr s)

/-- A conversion: src of class read, dest of class write and floating (rules R150, R154 to R156). -/
def convertBody {n m : Nat} (i : Instr) (k : Bank) (src : Gen n) (dst : Gen m)
    (f : BitVec (8 * n) → Fsr → Nat → FloatResult (8 * m)) (s : State) : Except Stop State :=
  if !s.cfg.f then .error (.trap .und)
  else do
    let (dl, v, s1) ← fetchSource k src dst s
    deliver i (fun t r => writeLoc .float dl r t) s s1 (f v s.fsr s.free)

/-- MULf: src of class read, dest of class rmw, both floating (rules R150, R157). -/
def multiplyBody {n : Nat} (i : Instr) (fmt : FloatFormat) (src dst : Gen n) (s : State) :
    Except Stop State :=
  if !s.cfg.f then .error (.trap .und)
  else do
    let (dl, a, s1) ← fetchSource .float src dst s
    let b ← readPlace .float dl s1
    deliver i (fun t r => writePlace .float dl r t) s s1 (multiply fmt a b s.fsr s.free)

end Sys2Proof.Machine
end

