-- ==== Sys2Proof/Machine/FloatMoves.lean ====
section
/-! DEFINITION. MOVif, MOVFL, MOVLF, MULf (41_floating_point.md rules R154 to R157). -/

namespace Sys2Proof.Machine

/-- MOVBF (rule R154). -/
def execMovbf (src : Gen 1) (dst : Gen 4) (s : State) : Host.Outcome State Fault Refusal :=
  complete (.movbf src dst) s (convertBody (.movbf src dst) .int src dst (convertInt .single _) s)

/-- MOVWF (rule R154). -/
def execMovwf (src : Gen 2) (dst : Gen 4) (s : State) : Host.Outcome State Fault Refusal :=
  complete (.movwf src dst) s (convertBody (.movwf src dst) .int src dst (convertInt .single _) s)

/-- MOVDF (rule R154). -/
def execMovdf (src : Gen 4) (dst : Gen 4) (s : State) : Host.Outcome State Fault Refusal :=
  complete (.movdf src dst) s (convertBody (.movdf src dst) .int src dst (convertInt .single _) s)

/-- MOVBL (rule R154). -/
def execMovbl (src : Gen 1) (dst : Gen 8) (s : State) : Host.Outcome State Fault Refusal :=
  complete (.movbl src dst) s (convertBody (.movbl src dst) .int src dst (convertInt .double _) s)

/-- MOVWL (rule R154). -/
def execMovwl (src : Gen 2) (dst : Gen 8) (s : State) : Host.Outcome State Fault Refusal :=
  complete (.movwl src dst) s (convertBody (.movwl src dst) .int src dst (convertInt .double _) s)

/-- MOVDL (rule R154). -/
def execMovdl (src : Gen 4) (dst : Gen 8) (s : State) : Host.Outcome State Fault Refusal :=
  complete (.movdl src dst) s (convertBody (.movdl src dst) .int src dst (convertInt .double _) s)

/-- MOVFL (rule R155). -/
def execMovfl (src : Gen 4) (dst : Gen 8) (s : State) : Host.Outcome State Fault Refusal :=
  complete (.movfl src dst) s
    (convertBody (.movfl src dst) .float src dst (fun v fsr _ => widen v fsr) s)

/-- MOVLF (rule R156). -/
def execMovlf (src : Gen 8) (dst : Gen 4) (s : State) : Host.Outcome State Fault Refusal :=
  complete (.movlf src dst) s (convertBody (.movlf src dst) .float src dst narrow s)

/-- MULF (rule R157). -/
def execMulf (src dst : Gen 4) (s : State) : Host.Outcome State Fault Refusal :=
  complete (.mulf src dst) s (multiplyBody (.mulf src dst) .single src dst s)

/-- MULL (rule R157). -/
def execMull (src dst : Gen 8) (s : State) : Host.Outcome State Fault Refusal :=
  complete (.mull src dst) s (multiplyBody (.mull src dst) .double src dst s)

end Sys2Proof.Machine
end

