-- ==== Sys2Proof/Machine/Logic.lean ====
section
/-! DEFINITION. NEGi, NOP, NOTi (45_negate_nop_not.md rules R200 to R204). -/

namespace Sys2Proof.Machine

/-- The body of NEGi (rules R200, R201): `0 - src`, with flags C and F. -/
def negateBody {n : Nat} (i : Instr) (src dst : Gen n) (s : State) : Except Stop State := do
  let (v, t) ← moveThrough (fun v => 0#(8 * n) - v) src dst s
  advance i { t with psr := t.psr.afterNegate v }

/-- The body of NOTi (rule R203): only bit 0 is inverted. -/
def notBody {n : Nat} (i : Instr) (src dst : Gen n) (s : State) : Except Stop State := do
  let (_, t) ← moveThrough (fun v => v ^^^ 1#(8 * n)) src dst s
  advance i t

/-- NEGB (rule R200). -/
def execNegb (src dst : Gen 1) (s : State) : Host.Outcome State Fault Refusal :=
  complete (.negb src dst) s (negateBody (.negb src dst) src dst s)

/-- NEGW (rule R200). -/
def execNegw (src dst : Gen 2) (s : State) : Host.Outcome State Fault Refusal :=
  complete (.negw src dst) s (negateBody (.negw src dst) src dst s)

/-- NEGD (rule R200). -/
def execNegd (src dst : Gen 4) (s : State) : Host.Outcome State Fault Refusal :=
  complete (.negd src dst) s (negateBody (.negd src dst) src dst s)

/-- NOP (rule R202). -/
def execNop (s : State) : Host.Outcome State Fault Refusal :=
  complete .nop s (advance .nop s)

/-- NOTB (rule R203). -/
def execNotb (src dst : Gen 1) (s : State) : Host.Outcome State Fault Refusal :=
  complete (.notb src dst) s (notBody (.notb src dst) src dst s)

/-- NOTW (rule R203). -/
def execNotw (src dst : Gen 2) (s : State) : Host.Outcome State Fault Refusal :=
  complete (.notw src dst) s (notBody (.notw src dst) src dst s)

/-- NOTD (rule R203). -/
def execNotd (src dst : Gen 4) (s : State) : Host.Outcome State Fault Refusal :=
  complete (.notd src dst) s (notBody (.notd src dst) src dst s)

end Sys2Proof.Machine
end

