-- ==== Sys2Proof/Machine/MemoryManagement.lean ====
section
/-! DEFINITION. MOVUSi and RDVAL (44_memory_management.md rules R190 to R195). -/

namespace Sys2Proof.Machine

/-- The body of MOVUSi (rules R190, R191): a User-space read and a Supervisor-space write, privileged. -/
def moveUserBody {n : Nat} (i : Instr) (src dst : Gen n) (s : State) : Except Stop State := do
  if s.psr.u then .error (.trap .ill)
  else do
    let sa ← addrOf src s
    let da ← addrOf dst s
    let v ← memRead .user sa n s
    let t ← memWrite .supervisor da v s
    advance i t

/-- The body of RDVAL (rules R193, R194): UND before ILL (D6); F says whether the User-mode read of the
operand's address is forbidden; nothing is accessed there. -/
def validateBody (i : Instr) (loc : Gen 4) (s : State) : Except Stop State :=
  if !s.cfg.m then .error (.trap .und)
  else if s.psr.u then .error (.trap .ill)
  else do
    let a ← addrOf loc s
    if s.l1Valid (busAddress a) then
      advance i { s with psr := s.psr.withF (!s.userReadAllowed (busAddress a)) }
    else .error (.trap .abt)

/-- MOVUSB (rule R190). -/
def execMovusb (src dst : Gen 1) (s : State) : Host.Outcome State Fault Refusal :=
  complete (.movusb src dst) s (moveUserBody (.movusb src dst) src dst s)

/-- MOVUSW (rule R190). -/
def execMovusw (src dst : Gen 2) (s : State) : Host.Outcome State Fault Refusal :=
  complete (.movusw src dst) s (moveUserBody (.movusw src dst) src dst s)

/-- MOVUSD (rule R190). -/
def execMovusd (src dst : Gen 4) (s : State) : Host.Outcome State Fault Refusal :=
  complete (.movusd src dst) s (moveUserBody (.movusd src dst) src dst s)

/-- RDVAL (rule R193). -/
def execRdval (loc : Gen 4) (s : State) : Host.Outcome State Fault Refusal :=
  complete (.rdval loc) s (validateBody (.rdval loc) loc s)

end Sys2Proof.Machine
end

