-- ==== Sys2Proof/Machine/Moves.lean ====
section
/-! DEFINITION. MOVQi, MOVXi, MOVZi (42_integer_moves.md rules R170 to R173). -/

namespace Sys2Proof.Machine

/-- The body of MOVQi (rule R170): the quick value sign-extended to the length of dest. -/
def quickBody {n : Nat} (i : Instr) (quick : BitVec 4) (dst : Gen n) (s : State) :
    Except Stop State := do
  let dl ← locate dst s
  let t ← writeLoc .int dl (quick.signExtend (8 * n)) s
  advance i t

/-- The body of MOVXi (rule R171): sign extension. -/
def signExtendBody {n m : Nat} (i : Instr) (src : Gen n) (dst : Gen m) (s : State) :
    Except Stop State := do
  let (_, t) ← moveThrough (fun v => v.signExtend (8 * m)) src dst s
  advance i t

/-- The body of MOVZi (rule R172): zero extension. -/
def zeroExtendBody {n m : Nat} (i : Instr) (src : Gen n) (dst : Gen m) (s : State) :
    Except Stop State := do
  let (_, t) ← moveThrough (fun v => v.setWidth (8 * m)) src dst s
  advance i t

/-- MOVQB (rule R170). -/
def execMovqb (quick : BitVec 4) (dst : Gen 1) (s : State) : Host.Outcome State Fault Refusal :=
  complete (.movqb quick dst) s (quickBody (.movqb quick dst) quick dst s)

/-- MOVQW (rule R170). -/
def execMovqw (quick : BitVec 4) (dst : Gen 2) (s : State) : Host.Outcome State Fault Refusal :=
  complete (.movqw quick dst) s (quickBody (.movqw quick dst) quick dst s)

/-- MOVQD (rule R170). -/
def execMovqd (quick : BitVec 4) (dst : Gen 4) (s : State) : Host.Outcome State Fault Refusal :=
  complete (.movqd quick dst) s (quickBody (.movqd quick dst) quick dst s)

/-- MOVXBW (rule R171). -/
def execMovxbw (src : Gen 1) (dst : Gen 2) (s : State) : Host.Outcome State Fault Refusal :=
  complete (.movxbw src dst) s (signExtendBody (.movxbw src dst) src dst s)

/-- MOVXBD (rule R171). -/
def execMovxbd (src : Gen 1) (dst : Gen 4) (s : State) : Host.Outcome State Fault Refusal :=
  complete (.movxbd src dst) s (signExtendBody (.movxbd src dst) src dst s)

/-- MOVXWD (rule R171). -/
def execMovxwd (src : Gen 2) (dst : Gen 4) (s : State) : Host.Outcome State Fault Refusal :=
  complete (.movxwd src dst) s (signExtendBody (.movxwd src dst) src dst s)

/-- MOVZBW (rule R172). -/
def execMovzbw (src : Gen 1) (dst : Gen 2) (s : State) : Host.Outcome State Fault Refusal :=
  complete (.movzbw src dst) s (zeroExtendBody (.movzbw src dst) src dst s)

/-- MOVZBD (rule R172). -/
def execMovzbd (src : Gen 1) (dst : Gen 4) (s : State) : Host.Outcome State Fault Refusal :=
  complete (.movzbd src dst) s (zeroExtendBody (.movzbd src dst) src dst s)

/-- MOVZWD (rule R172). -/
def execMovzwd (src : Gen 2) (dst : Gen 4) (s : State) : Host.Outcome State Fault Refusal :=
  complete (.movzwd src dst) s (zeroExtendBody (.movzwd src dst) src dst s)

end Sys2Proof.Machine
end

