-- ==== Sys2Proof/Machine/Returns.lean ====
section
/-! DEFINITION. RESTORE, RET, RETI, RETT (46_restore_returns.md rules R210 to R222). -/

namespace Sys2Proof.Machine

/-- The registers a reglist names, in the order they are restored (rules R111, R210): bit 0 is R7 and is
taken first, bit 7 is R0 and is taken last. -/
def reglistRegs (m : BitVec 8) : List (Fin 8) :=
  (List.finRange 8).filterMap fun b => if m.getLsbD b.val then some (Fin.rev b) else none

/-- Each listed register takes a double-word popped from the selected stack (rule R210). -/
def popRegs : List (Fin 8) → State → Except Stop State
  | [], s => .ok s
  | r :: rs, s => do
    let (v, s1) ← pop 4 s
    popRegs rs (s1.setReg r v)

/-- RESTORE (rule R210). -/
def execRestore (reglist : BitVec 8) (s : State) : Host.Outcome State Fault Refusal :=
  complete (.restore reglist) s do
    let t ← popRegs (reglistRegs reglist) s
    advance (.restore reglist) t

/-- RET (rule R212): the constant is added after the pop; PC takes all 32 bits. -/
def execRet (constant : Disp) (s : State) : Host.Outcome State Fault Refusal :=
  complete (.ret constant) s do
    let (ra, t) ← pop 4 s
    return { t.setSp (t.sp + dispValue constant) with pc := ra }

/-- An abort after RETI's EOI has no meaning (rule R218). -/
def afterEoi {α : Type} (pc : Word) : Except Stop α → Except Stop α
  | .error (.trap _) => .error (.refuse (.abortAfterEoi pc))
  | r => r

/-- The body of RETI (rules R214, R218): privileged; the event `EOI`, then the frame. -/
def returnInterruptBody (s : State) : Except Stop State :=
  if s.psr.u then .error (.trap .ill)
  else do
    let (ra, t) ← afterEoi s.pc (returnFrame { s with eois := s.eois + 1 })
    return { t with pc := ra }

/-- RETI (rule R214). -/
def execReti (s : State) : Host.Outcome State Fault Refusal :=
  complete .reti s (returnInterruptBody s)

/-- The body of RETT (rules R215, R216): privileged; the frame, then the constant added to the stack
pointer newly selected; no EOI. -/
def returnTrapBody (constant : Disp) (s : State) : Except Stop State :=
  if s.psr.u then .error (.trap .ill)
  else do
    let (ra, t) ← returnFrame s
    return { t.setSp (t.sp + dispValue constant) with pc := ra }

/-- RETT (rule R216). -/
def execRett (constant : Disp) (s : State) : Host.Outcome State Fault Refusal :=
  complete (.rett constant) s (returnTrapBody constant s)

end Sys2Proof.Machine
end

