-- ==== Sys2Proof/Machine/Strings.lean ====
section
/-! DEFINITION. MOVSi and MOVST (43_string.md rules R180 to R186). -/

namespace Sys2Proof.Machine

/-- The match option ends the instruction at this element (rule R182, steps (b)). -/
def matchEnds {w : Nat} (o : MatchOption) (element key : BitVec w) : Bool :=
  match o with
  | .none => false
  | .whileMatch => element != key
  | .untilMatch => element == key

/-- `R[1] +- n`, `R[2] +- n`, `R[0] - 1` after an element is copied (rule R182, step (c)). -/
def stepPointers (n : Nat) (backward : Bool) (s : State) : State :=
  let move (a : Word) : Word := if backward then a - BitVec.ofNat 32 n else a + BitVec.ofNat 32 n
  ((s.setReg 1 (move (s.reg 1))).setReg 2 (move (s.reg 2))).setReg 0 (s.reg 0 - 1#32)

/-- How one turn of the loop of rule R182 ends. -/
inductive Turn
  /-- A match option ended the instruction at this element. -/
  | matched (t : State)
  /-- The element was copied and the registers advanced. -/
  | copied (t : State)
deriving DecidableEq, Repr

/-- One turn of the loop of rule R182; `fetch` reads the current element of String 1, translated or not. -/
def stringTurn {n : Nat} (fetch : State → Except Stop (BitVec (8 * n))) (o : StringOptions)
    (s : State) : Except Stop Turn := do
  let e ← fetch s
  if matchEnds o.matching e (s.regValue .int n 4) then
    return .matched { s with psr := s.psr.withF true }
  else do
    let t ← memWrite s.space (s.reg 2) e s
    return .copied (stepPointers n o.backward t)

/-- The loop of rule R182 for `count` elements. A trap keeps the progress made (rules R185, R233), and an
interrupt may be taken between two elements (rule R185). -/
def stringLoop {n : Nat} (fetch : State → Except Stop (BitVec (8 * n))) (o : StringOptions) :
    Nat → State → Except Stop State
  | 0, s => .ok s
  | count + 1, s =>
    match stringTurn fetch o s with
    | .error (.trap k) => .error (.trapFrom k s)
    | .error e => .error e
    | .ok (.matched t) => .ok t
    | .ok (.copied t) =>
      if count = 0 then .ok t
      else
        match boundary t with
        | (some q, u) => .error (.interrupt q u)
        | (none, u) => stringLoop fetch o count u

/-- `StringMove` of rule R182: F cleared, then `R[0]` elements. -/
def stringBody {n : Nat} (i : Instr) (fetch : State → Except Stop (BitVec (8 * n)))
    (o : StringOptions) (s : State) : Except Stop State := do
  let t ← stringLoop fetch o (s.reg 0).toNat { s with psr := s.psr.withF false }
  advance i t

/-- The current element of String 1, at the address in R1 (rule R181). -/
def fetchElement (n : Nat) (s : State) : Except Stop (BitVec (8 * n)) :=
  memRead s.space (s.reg 1) n s

/-- The current element of String 1 translated: the byte at `R[3]` plus the element (rule R183). -/
def fetchTranslated (s : State) : Except Stop (BitVec (8 * 1)) := do
  let e ← memRead s.space (s.reg 1) 1 s
  memRead s.space (s.reg 3 + e.setWidth 32) 1 s

/-- MOVSB (rule R181). -/
def execMovsb (o : StringOptions) (s : State) : Host.Outcome State Fault Refusal :=
  complete (.movsb o) s (stringBody (.movsb o) (fetchElement 1) o s)

/-- MOVSW (rule R181). -/
def execMovsw (o : StringOptions) (s : State) : Host.Outcome State Fault Refusal :=
  complete (.movsw o) s (stringBody (.movsw o) (fetchElement 2) o s)

/-- MOVSD (rule R181). -/
def execMovsd (o : StringOptions) (s : State) : Host.Outcome State Fault Refusal :=
  complete (.movsd o) s (stringBody (.movsd o) (fetchElement 4) o s)

/-- MOVST (rule R183). -/
def execMovst (o : StringOptions) (s : State) : Host.Outcome State Fault Refusal :=
  complete (.movst o) s (stringBody (.movst o) fetchTranslated o s)

end Sys2Proof.Machine
end

