-- ==== Sys2Proof/Machine/Dispatch.lean ====
section
/-! DEFINITION. One arm per instruction of spec/opcode_table.json. -/

namespace Sys2Proof.Machine

def exec (i : Instr) (s : State) : Host.Outcome State Fault Refusal :=
  match i with
  | .modb src dst => Sys2Proof.Machine.execModb src dst s
  | .modw src dst => Sys2Proof.Machine.execModw src dst s
  | .modd src dst => Sys2Proof.Machine.execModd src dst s
  | .movbf src dst => Sys2Proof.Machine.execMovbf src dst s
  | .movwf src dst => Sys2Proof.Machine.execMovwf src dst s
  | .movdf src dst => Sys2Proof.Machine.execMovdf src dst s
  | .movbl src dst => Sys2Proof.Machine.execMovbl src dst s
  | .movwl src dst => Sys2Proof.Machine.execMovwl src dst s
  | .movdl src dst => Sys2Proof.Machine.execMovdl src dst s
  | .movfl src dst => Sys2Proof.Machine.execMovfl src dst s
  | .movlf src dst => Sys2Proof.Machine.execMovlf src dst s
  | .movqb quick dst => Sys2Proof.Machine.execMovqb quick dst s
  | .movqw quick dst => Sys2Proof.Machine.execMovqw quick dst s
  | .movqd quick dst => Sys2Proof.Machine.execMovqd quick dst s
  | .movsb o => Sys2Proof.Machine.execMovsb o s
  | .movsw o => Sys2Proof.Machine.execMovsw o s
  | .movsd o => Sys2Proof.Machine.execMovsd o s
  | .movst o => Sys2Proof.Machine.execMovst o s
  | .movusb src dst => Sys2Proof.Machine.execMovusb src dst s
  | .movusw src dst => Sys2Proof.Machine.execMovusw src dst s
  | .movusd src dst => Sys2Proof.Machine.execMovusd src dst s
  | .movxbw src dst => Sys2Proof.Machine.execMovxbw src dst s
  | .movxbd src dst => Sys2Proof.Machine.execMovxbd src dst s
  | .movxwd src dst => Sys2Proof.Machine.execMovxwd src dst s
  | .movzbw src dst => Sys2Proof.Machine.execMovzbw src dst s
  | .movzbd src dst => Sys2Proof.Machine.execMovzbd src dst s
  | .movzwd src dst => Sys2Proof.Machine.execMovzwd src dst s
  | .mulf src dst => Sys2Proof.Machine.execMulf src dst s
  | .mull src dst => Sys2Proof.Machine.execMull src dst s
  | .negb src dst => Sys2Proof.Machine.execNegb src dst s
  | .negw src dst => Sys2Proof.Machine.execNegw src dst s
  | .negd src dst => Sys2Proof.Machine.execNegd src dst s
  | .nop => Sys2Proof.Machine.execNop s
  | .notb src dst => Sys2Proof.Machine.execNotb src dst s
  | .notw src dst => Sys2Proof.Machine.execNotw src dst s
  | .notd src dst => Sys2Proof.Machine.execNotd src dst s
  | .rdval loc => Sys2Proof.Machine.execRdval loc s
  | .remb src dst => Sys2Proof.Machine.execRemb src dst s
  | .remw src dst => Sys2Proof.Machine.execRemw src dst s
  | .remd src dst => Sys2Proof.Machine.execRemd src dst s
  | .restore reglist => Sys2Proof.Machine.execRestore reglist s
  | .ret constant => Sys2Proof.Machine.execRet constant s
  | .reti => Sys2Proof.Machine.execReti s
  | .rett constant => Sys2Proof.Machine.execRett constant s

end Sys2Proof.Machine
end

