-- ==== Sys2Proof/Machine/Exposure.lean ====
section
/-! DEFINITION. What an instruction leaves below the stack pointers (10_state.md rule R37 item 2, 20_memory.md
rule R68, 93_implementation_defined.md I1): bytes that a stack pointer has risen past hold any value once an
entry can occur. Log entry 43. -/

namespace Sys2Proof.Machine

/-- SP1, or SP0 (rule R25). -/
def State.stackPointer (s : State) (one : Bool) : Word :=
  if one then s.sp1 else s.sp0

/-- A trap entry or an interrupt can occur after this instruction: TRAP_ENTRY = sequence, or the environment
still presents something (item I1; rules R231, R240). -/
def State.entryPossible (s : State) : Bool :=
  s.trapEntry == .sequence || !s.irq.isEmpty

/-- How many bytes the stack pointer has risen from `s` to `t`; 0 where it fell. -/
def rise (s t : State) (one : Bool) : Nat :=
  (t.stackPointer one - s.stackPointer one).toInt.toNat

/-- The spaces in which the stack pointer was moved: that of the start where it was selected then, that of
the end where it is selected now, as for RETT's constant (rules R215, R216). -/
def stackSpaces (s t : State) (one : Bool) : List Space :=
  (if s.psr.s = one then [s.space] else []) ++
    (if t.psr.s = one ∧ ¬(s.psr.s = one ∧ s.space = t.space) then [t.space] else [])

/-- The memory addresses the stack pointer has risen past, as far as a push could reach them. -/
def exposed (s t : State) (one : Bool) : List Nat :=
  (List.range (rise s t one)).flatMap fun j =>
    (stackSpaces s t one).filterMap fun sp => t.physical sp .write (byteAt (s.stackPointer one) j)

/-- Each byte listed takes a free value, but for one that holds no value (rule R38) and for program text,
which no entry can write (rule R77). -/
def freeBytes : List Nat → State → State
  | [], t => t
  | x :: xs, t =>
    if (t.mem.read x).isSome && !inRanges t.text x then
      freeBytes xs { t with mem := t.mem.write x (Config.freeByte t.free), free := t.free + 1 }
    else freeBytes xs t

/-- The state `t` in which an instruction that began at `s` has left the machine, the bytes it uncovered
being any value where an entry can occur, and unchanged otherwise (item I1, rule R68). -/
def State.settled (s t : State) : State :=
  if s.entryPossible then freeBytes (exposed s t false ++ exposed s t true) t else t

/-- The same of an outcome: a fault or a refusal stands. -/
def settle (s : State) : Host.Outcome State Fault Refusal → Host.Outcome State Fault Refusal
  | .next t => .next (s.settled t)
  | .fault f => .fault f
  | .refused r => .refused r

end Sys2Proof.Machine
end

