-- ==== Sys2Proof/Machine/Fetch.lean ====
section
/-! DEFINITION. Fetching an instruction's bytes (20_memory.md rules R60, R62, R71, R77; 30_encoding.md
rule R123) and placing them. -/

namespace Sys2Proof.Machine

/-- Byte `k` of the instruction at PC, or why it cannot be fetched: the instruction stream passes the top
of the address space (D3), the fetch aborts (rule R236), or the byte holds no value (rule R38). -/
def fetchByte (s : State) (k : Nat) : Except Stop Byte :=
  if busAddress s.pc + k < Config.addrSpace then
    match s.physical s.space .fetch (byteAt s.pc k) with
    | none => .error (.trap .abt)
    | some p =>
      match s.mem.read p with
      | none => .error (.refuse (.unwritten s.pc))
      | some b => .ok b
  else .error (.refuse (.addressWrap s.pc))

/-- The bytes from byte `k` of the instruction on, at most `fuel` of them, up to the first that cannot be
fetched, and why that one cannot. A decoder that needs fewer bytes never meets the reason. -/
def fetchFrom (s : State) : Nat → Nat → List Byte × Stop
  | 0, _ => ([], .refuse (.unknownEncoding s.pc))
  | fuel + 1, k =>
    match fetchByte s k with
    | .error e => ([], e)
    | .ok b =>
      let (bs, e) := fetchFrom s fuel (k + 1)
      (b :: bs, e)

/-- The bytes at PC, as many as the longest instruction has. -/
def fetch (s : State) : List Byte × Stop :=
  fetchFrom s maxLength 0

/-- The outcome of bytes that decode to no instruction (rules R121, R124, R242 item 1). -/
def undecoded (s : State) (e : Stop) : DecodeError → Host.Outcome State Fault Refusal
  | .truncated => stopOutcome s e
  | .unknownEncoding => .refused (.unknownEncoding s.pc)
  | .operandForm => .refused (.operandForm s.pc)

/-- Where byte `k` of the instruction at PC is fetched from. -/
def fetchAddress (s : State) (k : Nat) : Nat :=
  (s.physical s.space .fetch (byteAt s.pc k)).getD (busAddress (byteAt s.pc k))

/-- Memory with the bytes stored where `fetchByte` finds byte `k` and on. -/
def placeBytes (s : State) : Nat → List Byte → Memory → Memory
  | _, [], m => m
  | k, b :: bs, m => placeBytes s (k + 1) bs (m.write (fetchAddress s k) b)

/-- PC has reached the end address (rule R275), as an address of memory: log entry 44. -/
def State.finished (s : State) : Bool :=
  s.endAt == some (busAddress s.pc)

/-- The state with the bytes placed where the next instruction is fetched, no interrupt presented before
it, and the run not ending there. -/
def placeInstruction (s : State) (bs : List Byte) : State :=
  { s with mem := placeBytes s 0 bs s.mem, irq := [], endAt := none }

end Sys2Proof.Machine
end

