-- ==== Sys2Proof/Machine/Step.lean ====
section
/-! DEFINITION. One step: the run ends at the end address (rule R275), or an interrupt presented at the
boundary is taken, or the instruction at PC is fetched, decoded and executed (rules R74, R123, R240,
R242). -/

namespace Sys2Proof.Machine

/-- The instruction at PC, executed, and what it uncovered below the stack pointers settled (rule R68). -/
def runNext (s : State) : Host.Outcome State Fault Refusal :=
  match decode (fetch s).1 with
  | .ok (i, _) => settle s (exec i s)
  | .error d => undecoded s (fetch s).2 d

/-- One step of the machine. -/
def step (s : State) : Host.Outcome State Fault Refusal :=
  if s.finished then .fault (.done s)
  else
    match boundary s with
    | (some q, t) => takeInterrupt q t
    | (none, t) => runNext t

/-- The state whose very next step runs the instruction with bits `w` (log entry 33). -/
def State.withFetchWord (s : State) (nbits w : Nat) : State :=
  placeInstruction s (wordBytes nbits w)

end Sys2Proof.Machine
end

