-- ==== Sys2Proof/Safety.lean ====
section
/-! DEFINITION. The terms the statements use: when an access can be made, what an operand holds and what
storing to it leaves, what an instruction must not touch, and the invariant of every run. -/

namespace Sys2Proof

/-- The four privileged instructions (rule R237). -/
def Instr.privileged : Instr → Bool
  | .movusb _ _ => true
  | .movusw _ _ => true
  | .movusd _ _ => true
  | .rdval _ => true
  | .reti => true
  | .rett _ => true
  | _ => false

/-- The row of rule R126: how many bytes the basic instruction has, its mask and its match. -/
def Instr.row : Instr → Nat × Nat × Nat
  | .modb _ _ => (3, 0x003FFF, 0x38CE)
  | .modw _ _ => (3, 0x003FFF, 0x39CE)
  | .modd _ _ => (3, 0x003FFF, 0x3BCE)
  | .movbf _ _ => (3, 0x003FFF, 0x043E)
  | .movwf _ _ => (3, 0x003FFF, 0x053E)
  | .movdf _ _ => (3, 0x003FFF, 0x073E)
  | .movbl _ _ => (3, 0x003FFF, 0x003E)
  | .movwl _ _ => (3, 0x003FFF, 0x013E)
  | .movdl _ _ => (3, 0x003FFF, 0x033E)
  | .movfl _ _ => (3, 0x003FFF, 0x1B3E)
  | .movlf _ _ => (3, 0x003FFF, 0x163E)
  | .movqb _ _ => (2, 0x007F, 0x005C)
  | .movqw _ _ => (2, 0x007F, 0x005D)
  | .movqd _ _ => (2, 0x007F, 0x005F)
  | .movsb _ => (3, 0xF8FFFF, 0x00000E)
  | .movsw _ => (3, 0xF8FFFF, 0x00010E)
  | .movsd _ => (3, 0xF8FFFF, 0x00030E)
  | .movst _ => (3, 0xF8FFFF, 0x00800E)
  | .movusb _ _ => (3, 0x003FFF, 0x1CAE)
  | .movusw _ _ => (3, 0x003FFF, 0x1DAE)
  | .movusd _ _ => (3, 0x003FFF, 0x1FAE)
  | .movxbw _ _ => (3, 0x003FFF, 0x10CE)
  | .movxbd _ _ => (3, 0x003FFF, 0x1CCE)
  | .movxwd _ _ => (3, 0x003FFF, 0x1DCE)
  | .movzbw _ _ => (3, 0x003FFF, 0x14CE)
  | .movzbd _ _ => (3, 0x003FFF, 0x18CE)
  | .movzwd _ _ => (3, 0x003FFF, 0x19CE)
  | .mulf _ _ => (3, 0x003FFF, 0x31BE)
  | .mull _ _ => (3, 0x003FFF, 0x30BE)
  | .negb _ _ => (3, 0x003FFF, 0x204E)
  | .negw _ _ => (3, 0x003FFF, 0x214E)
  | .negd _ _ => (3, 0x003FFF, 0x234E)
  | .nop => (1, 0xFF, 0xA2)
  | .notb _ _ => (3, 0x003FFF, 0x244E)
  | .notw _ _ => (3, 0x003FFF, 0x254E)
  | .notd _ _ => (3, 0x003FFF, 0x274E)
  | .rdval _ => (3, 0x07FFFF, 0x00031E)
  | .remb _ _ => (3, 0x003FFF, 0x34CE)
  | .remw _ _ => (3, 0x003FFF, 0x35CE)
  | .remd _ _ => (3, 0x003FFF, 0x37CE)
  | .restore _ => (1, 0xFF, 0x72)
  | .ret _ => (1, 0xFF, 0x12)
  | .reti => (1, 0xFF, 0x52)
  | .rett _ => (1, 0xFF, 0x42)

/-- Mask and match of the three-byte rows of rule R126. -/
def threeByteRows : List (BitVec 24 × BitVec 24) :=
  [(0x003FFF#24, 0x38CE#24), (0x003FFF#24, 0x39CE#24), (0x003FFF#24, 0x3BCE#24), (0x003FFF#24, 0x043E#24),
   (0x003FFF#24, 0x053E#24), (0x003FFF#24, 0x073E#24), (0x003FFF#24, 0x003E#24), (0x003FFF#24, 0x013E#24),
   (0x003FFF#24, 0x033E#24), (0x003FFF#24, 0x1B3E#24), (0x003FFF#24, 0x163E#24), (0xF8FFFF#24, 0x00000E#24),
   (0xF8FFFF#24, 0x00010E#24), (0xF8FFFF#24, 0x00030E#24), (0xF8FFFF#24, 0x00800E#24), (0x003FFF#24, 0x1CAE#24),
   (0x003FFF#24, 0x1DAE#24), (0x003FFF#24, 0x1FAE#24), (0x003FFF#24, 0x10CE#24), (0x003FFF#24, 0x1CCE#24),
   (0x003FFF#24, 0x1DCE#24), (0x003FFF#24, 0x14CE#24), (0x003FFF#24, 0x18CE#24), (0x003FFF#24, 0x19CE#24),
   (0x003FFF#24, 0x31BE#24), (0x003FFF#24, 0x30BE#24), (0x003FFF#24, 0x204E#24), (0x003FFF#24, 0x214E#24),
   (0x003FFF#24, 0x234E#24), (0x003FFF#24, 0x244E#24), (0x003FFF#24, 0x254E#24), (0x003FFF#24, 0x274E#24),
   (0x07FFFF#24, 0x00031E#24), (0x003FFF#24, 0x34CE#24), (0x003FFF#24, 0x35CE#24), (0x003FFF#24, 0x37CE#24)]

/-- The basic instruction read as one integer, the first byte lowest (rule R91). -/
def headWord (n : Nat) (bs : List Byte) : Nat :=
  (bs.take n).foldr (fun b acc => b.toNat + 256 * acc) 0

/-- The floating-point instructions (rule R150). -/
def Instr.isFloat : Instr → Bool
  | .movbf _ _ => true
  | .movwf _ _ => true
  | .movdf _ _ => true
  | .movbl _ _ => true
  | .movwl _ _ => true
  | .movdl _ _ => true
  | .movfl _ _ => true
  | .movlf _ _ => true
  | .mulf _ _ => true
  | .mull _ _ => true
  | _ => false

/-- The tests that come before an instruction's first access pass (rules R150, R193, R237). -/
structure Instr.Permitted (i : Instr) (s : Machine.State) : Prop where
  unit : i.isFloat = true → s.cfg.f = true
  mode : i.privileged = true → s.psr.u = false
  mmu : ∀ loc, i = .rdval loc → s.cfg.m = true

/-- How far SP moves when the operand is read: up by its size where it is popped. -/
def Gen.popMove {n : Nat} (g : Gen n) : Word :=
  if g.isTos then BitVec.ofNat 32 n else 0#32

/-- How far SP moves when the operand is written: down by its size where it is pushed. -/
def Gen.pushMove {n : Nat} (g : Gen n) : Word :=
  if g.isTos then 0#32 - BitVec.ofNat 32 n else 0#32

end Sys2Proof

namespace Sys2Proof.Machine

/-! ## When a memory access can be made -/

/-- An `n`-byte read at `a` completes: every byte translates and holds a value (rules R38, R63). -/
abbrev Readable (s : State) (sp : Space) (a : Word) (n : Nat) : Prop :=
  s.mapped sp .read a n = true ∧ s.written sp a n = true

/-- An `n`-byte write at `a` completes: every byte translates and none is marked as program text (rules
R63, R77). -/
abbrev Writable (s : State) (sp : Space) (a : Word) (n : Nat) : Prop :=
  s.mapped sp .write a n = true ∧ s.clearOfText sp a n = true

/-- The state after an `n`-byte store at `a`. -/
def State.store (s : State) (sp : Space) (a : Word) {n : Nat} (v : BitVec (8 * n)) : State :=
  { s with mem := s.storeBytes sp a v }

/-! ## Operands of class read and write (rules R115, R116) -/

/-- Reading the operand completes. -/
def Loc.readable {n : Nat} (l : Loc n) (s : State) : Prop :=
  match l with
  | .reg _ => True
  | .imm _ => True
  | .tos => Readable s s.space s.sp n
  | .mem a => Readable s s.space a n

/-- The value of the operand. -/
def Loc.value {n : Nat} (k : Bank) (l : Loc n) (s : State) : BitVec (8 * n) :=
  match l with
  | .reg r => s.regValue k n r
  | .imm v => v
  | .tos => s.memValue s.space s.sp n
  | .mem a => s.memValue s.space a n

/-- The state after the operand is read: top of stack is popped. -/
def Loc.popped {n : Nat} (l : Loc n) (s : State) : State :=
  match l with
  | .tos => s.setSp (s.sp + BitVec.ofNat 32 n)
  | _ => s

/-- Where a write to the operand stores: top of stack pushes. -/
def Loc.target {n : Nat} (l : Loc n) (s : State) : Option Word :=
  match l with
  | .tos => some (s.sp - BitVec.ofNat 32 n)
  | .mem a => some a
  | _ => none

/-- Writing the operand completes. -/
def Loc.writable {n : Nat} (l : Loc n) (s : State) : Prop :=
  match l with
  | .reg _ => True
  | .imm _ => False
  | .tos => Writable s s.space (s.sp - BitVec.ofNat 32 n) n
  | .mem a => Writable s s.space a n

/-- The state after the operand is written. -/
def Loc.stored {n : Nat} (k : Bank) (l : Loc n) (v : BitVec (8 * n)) (s : State) : State :=
  match l with
  | .reg r => s.setRegValue k r v
  | .imm _ => s
  | .tos => (s.store s.space (s.sp - BitVec.ofNat 32 n) v).setSp (s.sp - BitVec.ofNat 32 n)
  | .mem a => s.store s.space a v

/-! ## Operands of class rmw (rule R117) -/

/-- Where an rmw operand lies in memory: top of stack is the item at SP. -/
def Loc.place {n : Nat} (l : Loc n) (s : State) : Option Word :=
  match l with
  | .tos => some s.sp
  | .mem a => some a
  | _ => none

/-- Reading and rewriting the operand completes. -/
def Loc.updatable {n : Nat} (l : Loc n) (s : State) : Prop :=
  match l with
  | .reg _ => True
  | .imm _ => False
  | .tos => Readable s s.space s.sp n ∧ Writable s s.space s.sp n
  | .mem a => Readable s s.space a n ∧ Writable s s.space a n

/-- The state after the operand is rewritten; SP is unchanged. -/
def Loc.placed {n : Nat} (k : Bank) (l : Loc n) (v : BitVec (8 * n)) (s : State) : State :=
  match l with
  | .reg r => s.setRegValue k r v
  | .imm _ => s
  | .tos => s.store s.space s.sp v
  | .mem a => s.store s.space a v

/-- The address of an operand of class addr (rule R118). -/
def Loc.address {n : Nat} (l : Loc n) (s : State) : Option Word :=
  match l with
  | .tos => some s.sp
  | .mem a => some a
  | _ => none

/-! ## Frames -/

/-- Every byte of memory outside the `n` bytes stored at `dest` reads as before; all of memory where the
form stores nothing. -/
def MemoryKept (s t : State) (sp : Space) (dest : Option Word) (n : Nat) : Prop :=
  ∀ x : Nat, (∀ a, dest = some a → ∀ j < n, s.physical sp .write (byteAt a j) ≠ some x) →
    t.mem.read x = s.mem.read x

/-- What no in-scope instruction changes while it does not take a trap: FP, CFG, INTBASE, the
memory-management state, the text marks, TRAP_ENTRY and the end address (rules R27, R33, R35, R36, R272,
R275). -/
structure PlatformKept (s t : State) : Prop where
  fp : t.fp = s.fp
  cfg : t.cfg = s.cfg
  intbase : t.intbase = s.intbase
  mmu : t.mmu = s.mmu
  text : t.text = s.text
  trapEntry : t.trapEntry = s.trapEntry
  endAt : t.endAt = s.endAt

/-- The special registers that only RETI, RETT and an entry change, and the EOI count. -/
structure ModuleKept (s t : State) : Prop where
  sb : t.sb = s.sb
  mod : t.mod = s.mod
  eois : t.eois = s.eois

/-! ## Taking an exception and returning from one (rules R214 to R216, R222, R245) -/

/-- The descriptor of vector `v` in the dispatch table (rule R245). -/
def State.descriptor (s : State) (v : Word) : Word :=
  s.memValue .supervisor (s.intbase + 4#32 * v) 4

/-- The module that serves vector `v`: the low half of its descriptor. -/
def State.serviceModule (s : State) (v : Word) : Half :=
  (s.descriptor v).extractLsb' 0 16

/-- The address where the service procedure of vector `v` begins: the module's program base plus the
offset in the high half of the descriptor. -/
def State.serviceAddress (s : State) (v : Word) : Word :=
  s.memValue .supervisor ((s.serviceModule v).setWidth 32 + 8#32) 4 +
    BitVec.setWidth 32 ((s.descriptor v).extractLsb' 16 16)

/-- Every access of the entry sequence for vector `v` completes (rule R272, last row). -/
structure EntryReady (v : Word) (s : State) : Prop where
  descriptor : Readable s .supervisor (s.intbase + 4#32 * v) 4
  staticBase : Readable s .supervisor ((s.serviceModule v).setWidth 32) 4
  programBase : Readable s .supervisor ((s.serviceModule v).setWidth 32 + 8#32) 4
  psr : Writable s .supervisor (s.sp0 - 2#32) 2
  mod : Writable s .supervisor (s.sp0 - 4#32) 2
  address : Writable s .supervisor (s.sp0 - 8#32) 4

/-- An access of the entry sequence for vector `v` aborts, those before it having completed: the descriptor,
the module's static base and program base, then the pushes of PSR, MOD and the return address (rules R245,
R246). -/
def State.entryAborts (s : State) (v : Word) : Prop :=
  s.mapped .supervisor .read (s.intbase + 4#32 * v) 4 = false ∨
  Readable s .supervisor (s.intbase + 4#32 * v) 4 ∧
    (s.mapped .supervisor .read ((s.serviceModule v).setWidth 32) 4 = false ∨
    Readable s .supervisor ((s.serviceModule v).setWidth 32) 4 ∧
      (s.mapped .supervisor .read ((s.serviceModule v).setWidth 32 + 8#32) 4 = false ∨
      Readable s .supervisor ((s.serviceModule v).setWidth 32 + 8#32) 4 ∧
        (s.mapped .supervisor .write (s.sp0 - 2#32) 2 = false ∨
        Writable s .supervisor (s.sp0 - 2#32) 2 ∧
          (s.mapped .supervisor .write (s.sp0 - 4#32) 2 = false ∨
          Writable s .supervisor (s.sp0 - 4#32) 2 ∧
            s.mapped .supervisor .write (s.sp0 - 8#32) 4 = false))))

/-- No interrupt is taken at the boundary before the step: the environment presents none there, whatever it
presents at later ones, or one that is masked, or one under TRAP_ENTRY = fault (rule R240, log entry 10). -/
def NoneTaken (s : State) : Prop :=
  ∀ q, s.irq.head? = some (some q) → s.trapEntry = .fault ∨ q ≠ .nmi ∧ s.psr.i = false

/-- Memory with the frame of rule R222 pushed below SP0: PSR highest, MOD below it, the return address
lowest. -/
def State.framed (s : State) (ra : Word) : State :=
  ((s.store .supervisor (s.sp0 - 2#32) (n := 2) s.psr.toBits).store .supervisor (s.sp0 - 4#32)
    (n := 2) s.mod).store .supervisor (s.sp0 - 8#32) (n := 4) ra

/-- The state in which the service procedure of vector `v` begins (rule R245). -/
def State.entered (s : State) (v ra : Word) (interrupt : Bool) : State :=
  { s.framed ra with
    psr := s.psr.onEntry interrupt
    mod := s.serviceModule v
    sb := s.memValue .supervisor ((s.serviceModule v).setWidth 32) 4
    sp0 := s.sp0 - 8#32
    pc := s.serviceAddress v }

/-- The return address of the frame at SP (rule R214 step 2). -/
def State.frameAddress (s : State) : Word := s.memValue s.space s.sp 4

/-- The MOD of the frame at SP (rule R214 step 3). -/
def State.frameMod (s : State) : Half := s.memValue s.space (s.sp + 4#32) 2

/-- The PSR of the frame at SP (rule R214 step 4). -/
def State.framePsr (s : State) : Psr := Psr.ofBits (s.memValue s.space (s.sp + 6#32) 2)

/-- Every access of a return completes and the popped PSR has T = 0 and P = 0 (rules R252, R272). -/
structure FrameReady (s : State) : Prop where
  address : Readable s s.space s.sp 4
  mod : Readable s s.space (s.sp + 4#32) 2
  psr : Readable s s.space (s.sp + 6#32) 2
  table : Readable s .supervisor (s.frameMod.setWidth 32) 4
  noTrace : s.framePsr.t = false
  noPending : s.framePsr.p = false

/-- The state after a return has taken its frame, PC not yet loaded: the stack pointer selected at the
start is 8 higher, MOD and PSR are the frame's, SB is reloaded (rules R214 to R216, R219). -/
def State.unframed (s : State) : State :=
  { s.setSp (s.sp + 8#32) with
    mod := s.frameMod
    psr := s.framePsr
    sb := s.memValue .supervisor (s.frameMod.setWidth 32) 4 }

/-- An access of a return aborts, those before it having completed: the return address, MOD, PSR, and,
where the popped PSR is no refusal, the Module Table entry (rules R214 to R216, R219, R252). -/
def State.frameAborts (s : State) : Prop :=
  s.mapped s.space .read s.sp 4 = false ∨
  Readable s s.space s.sp 4 ∧
    (s.mapped s.space .read (s.sp + 4#32) 2 = false ∨
    Readable s s.space (s.sp + 4#32) 2 ∧
      (s.mapped s.space .read (s.sp + 6#32) 2 = false ∨
      Readable s s.space (s.sp + 6#32) 2 ∧ s.framePsr.t = false ∧ s.framePsr.p = false ∧
        s.mapped .supervisor .read (s.frameMod.setWidth 32) 4 = false))

/-! ## The value of a floating operand -/

/-- The result is stored, no Trap(FPU) taken. -/
def FloatResult.stores {w : Nat} : FloatResult w → Bool
  | .store _ _ _ => true
  | .trap _ => false

/-- The rational number an exact value is. -/
def Exact.toRat (x : Exact) : Rat :=
  (if x.neg then -1 else 1) * (x.mant : Rat) * (2 : Rat) ^ x.exp

/-- The rational number a rounded value is. -/
def Rounded.toRat (y : Rounded) : Rat :=
  (if y.neg then -1 else 1) * (y.sig : Rat) * (2 : Rat) ^ y.exp

/-- An operand that is neither zero nor reserved (rule R152). -/
def FloatFormat.isNormalized (f : FloatFormat) {w : Nat} (v : BitVec w) : Bool :=
  !f.isZero v && !f.isReserved v

/-- The rational number a normalized operand is (rule R151). -/
def FloatFormat.rat (f : FloatFormat) {w : Nat} (v : BitVec w) : Rat :=
  (f.value v).toRat

/-- A number with the format's fraction width and an unbounded exponent (rule R153). -/
def FloatFormat.Represents (f : FloatFormat) (z : Rat) : Prop :=
  ∃ m e : Int, m.natAbs < 2 ^ (f.fracBits + 1) ∧ z = (m : Rat) * (2 : Rat) ^ e

/-- A number whose fraction is even: one bit narrower than the format (rule R153, ties). -/
def FloatFormat.RepresentsEven (f : FloatFormat) (z : Rat) : Prop :=
  ∃ m e : Int, m.natAbs < 2 ^ f.fracBits ∧ z = (m : Rat) * (2 : Rat) ^ e

/-- `y` is `x` rounded under the mode (rule R153): the nearest number of the format, of two equally near
the one with an even fraction; or the nearest in the mode's direction. -/
def FloatFormat.IsRounding (f : FloatFormat) (rm : RoundMode) (x y : Rat) : Prop :=
  f.Represents y ∧
  match rm with
  | .nearest =>
    (∀ z, f.Represents z → |x - y| ≤ |x - z|) ∧
      ∀ z, f.Represents z → z ≠ y → |x - z| = |x - y| → f.RepresentsEven y
  | .towardZero => |y| ≤ |x| ∧ 0 ≤ x * y ∧ ∀ z, f.Represents z → |z| ≤ |x| → |z| ≤ |y|
  | .towardPlus => x ≤ y ∧ ∀ z, f.Represents z → x ≤ z → y ≤ z
  | .towardMinus => y ≤ x ∧ ∀ z, f.Represents z → z ≤ x → z ≤ y

/-! ## When an instruction runs to its own end -/

/-- `PC + len` (rule R24). -/
def State.after (s : State) (i : Instr) : Word :=
  s.pc + BitVec.ofNat 32 i.length

/-- An instruction with a source of class read and a destination of class write has its effect: the form
is admitted, PC + len does not wrap, both addresses are computed, the source can be read and, after that,
the destination written. -/
structure MoveReady {n m : Nat} (i : Instr) (src : Gen n) (dst : Gen m) (s : State) (ls : Loc n)
    (ld : Loc m) : Prop where
  form : i.wellFormed = true
  fits : s.fits i.length = true
  source : locate src s = .ok ls
  dest : locate dst s = .ok ld
  readable : ls.readable s
  writable : ld.writable (ls.popped s)

/-- The same where the destination has class rmw. -/
structure UpdateReady {n m : Nat} (i : Instr) (src : Gen n) (dst : Gen m) (s : State) (ls : Loc n)
    (ld : Loc m) : Prop where
  form : i.wellFormed = true
  fits : s.fits i.length = true
  source : locate src s = .ok ls
  dest : locate dst s = .ok ld
  readable : ls.readable s
  updatable : ld.updatable (ls.popped s)

/-- What a two-operand instruction leaves unchanged: every register of both files but the destination's
(the pair of an L destination), every stack pointer but the selected one, which moves by the source's size
where the source is popped and by the destination's where it is pushed, and every special register. `move`
is how far SP moves. -/
structure OperandsKept {m : Nat} (k : Bank) (dst : Gen m) (move : Word) (s t : State) : Prop where
  regs : ∀ r, (k = .int → dst ≠ .reg r) → t.reg r = s.reg r
  fregs : ∀ r, (k = .float → dst ≠ .reg r ∧ (m = 8 → dst ≠ .reg (r - 1))) → t.freg r = s.freg r
  sp : t.sp = s.sp + move
  other : if s.psr.s then t.sp0 = s.sp0 else t.sp1 = s.sp1
  platform : PlatformKept s t
  module : ModuleKept s t
  irq : t.irq = s.irq

/-- The state in which Trap(FPU) is taken (rules R159, R233): the FSR is `fsr`, the destination may hold
anything, and nothing else differs from the state at the start of the instruction. -/
structure FloatTrapped {m : Nat} (dst : Gen m) (dest : Option Word) (fsr : Fsr) (s t : State) :
    Prop where
  fsr : t.fsr = fsr
  psr : t.psr = s.psr
  pc : t.pc = s.pc
  sp0 : t.sp0 = s.sp0
  sp1 : t.sp1 = s.sp1
  regs : t.regs = s.regs
  fregs : ∀ r, dst ≠ .reg r ∧ (m = 8 → dst ≠ .reg (r - 1)) → t.freg r = s.freg r
  memory : MemoryKept s t s.space dest m
  platform : PlatformKept s t
  module : ModuleKept s t
  irq : t.irq = s.irq

/-! ## String instructions (rules R180 to R185) -/

/-- The current element of String 1. -/
def State.element (n : Nat) (s : State) : BitVec (8 * n) :=
  s.memValue s.space (s.reg 1) n

/-- The current element of String 1 translated (rule R183). -/
def State.translated (s : State) : BitVec (8 * 1) :=
  s.memValue s.space (s.reg 3 + (s.element 1).setWidth 32) 1

/-- The current element of String 1 can be read. -/
abbrev State.elementReadable (n : Nat) (s : State) : Prop :=
  Readable s s.space (s.reg 1) n

/-- The current element and its translation can be read. -/
abbrev State.translationReadable (s : State) : Prop :=
  Readable s s.space (s.reg 1) 1 ∧ Readable s s.space (s.reg 3 + (s.element 1).setWidth 32) 1

/-- The read of the current element of String 1 aborts. -/
abbrev State.elementAborts (n : Nat) (s : State) : Prop :=
  s.mapped s.space .read (s.reg 1) n = false

/-- The read of the current element aborts, or, the element read, that of its translation (rule R183). -/
abbrev State.translationAborts (s : State) : Prop :=
  s.elementAborts 1 ∨ s.elementReadable 1 ∧
    s.mapped s.space .read (s.reg 3 + (s.element 1).setWidth 32) 1 = false

/-- The state after `k` elements are copied; `e` is the element a state copies. -/
def State.copied {n : Nat} (e : State → BitVec (8 * n)) (backward : Bool) : Nat → State → State
  | 0, s => s
  | k + 1, s =>
    State.copied e backward k (stepPointers n backward (s.store s.space (s.reg 2) (e s)))

/-- The first `k` elements are copied: each can be read and stored, and no match option ends the
instruction at it. -/
def CopyReady {n : Nat} (e : State → BitVec (8 * n)) (readable : State → Prop) (o : StringOptions)
    (k : Nat) (s : State) : Prop :=
  ∀ j < k, let u := s.copied e o.backward j
    readable u ∧ matchEnds o.matching (e u) (u.regValue .int n 4) = false ∧
      Writable u u.space (u.reg 2) n

/-! ## RESTORE (rules R111, R210) -/

/-- The reglist names Rr. -/
def listed (m : BitVec 8) (r : Fin 8) : Bool :=
  m.getLsbD (7 - r.val)

/-- How many registers the reglist names above Rr: they are popped before it. -/
def poppedBefore (m : BitVec 8) (r : Fin 8) : Nat :=
  ((List.finRange 8).filter fun q => listed m q && decide (r < q)).length

/-- How many registers the reglist names. -/
def listedCount (m : BitVec 8) : Nat :=
  ((List.finRange 8).filter (listed m)).length

/-- Where the double-word for Rr lies. -/
def State.slot (s : State) (m : BitVec 8) (r : Fin 8) : Word :=
  s.sp + BitVec.ofNat 32 (4 * poppedBefore m r)

/-! ## User mode (rules R247, R248) -/

/-- From `s`, in User mode, to `t` nothing happened that User mode may not do: the mode bits, MOD, SB, the
EOI count and the platform's state are as before, and only bytes that User space may write changed. -/
structure Confined (s t : State) : Prop where
  user : t.psr.u = true
  stack : t.psr.s = s.psr.s
  enable : t.psr.i = s.psr.i
  trace : t.psr.t = s.psr.t
  pending : t.psr.p = s.psr.p
  module : ModuleKept s t
  platform : PlatformKept s t
  memory : ∀ x, t.mem.read x ≠ s.mem.read x → ∃ a, s.physical .user .write a = some x

/-! ## The invariant of every run -/

/-- Memory is in canonical form, and the trace bits T and P are 0: no in-scope instruction sets them one at
a time, and a return that would load them is refused (rules R60, R252). -/
structure Inv (s : State) : Prop where
  wf : s.mem.wf
  noTrace : s.psr.t = false
  noPending : s.psr.p = false

end Sys2Proof.Machine
end

