-- ==== Sys2Proof/Certificates/Slice0/Obligations.lean ====
section
/-! DEFINITION. The statements for the provers, one `def Obligations.<Name> : Prop` each, in the order of
OBLIGATIONS.json. Terms they use stand in Safety.lean. -/

open Sys2Proof Sys2Proof.Machine

/-! ## Encoding (30_encoding.md) -/

/-- Decoding the words of an admitted instruction, whatever bytes follow, gives it back. -/
def Obligations.DecodeEncode : Prop :=
  ∀ (i : Instr) (rest : List Byte), i.wellFormed = true → decode (encode i ++ rest) = .ok (i, rest)

/-- Bytes that decode are the words of the instruction they decode to, which is admitted: no two byte
strings stand for one instruction. -/
def Obligations.EncodeDecode : Prop :=
  ∀ (bs rest : List Byte) (i : Instr), decode bs = .ok (i, rest) →
    i.wellFormed = true ∧ bs = encode i ++ rest

/-- Rules R91, R122, R126: the words of every instruction match its row's mask and match columns, and are
1 to 21 bytes. -/
def Obligations.EncodingShape : Prop :=
  ∀ i : Instr, headWord i.row.1 (encode i) &&& i.row.2.1 = i.row.2.2 ∧
    1 ≤ (encode i).length ∧ (encode i).length ≤ maxLength

/-- Rule R123 step 4: a first byte of no format, or a three-byte word that matches no row, is
`unknown_encoding`. -/
def Obligations.UnknownEncodings : Prop :=
  (∀ (b0 : Byte) (rest : List Byte), b0.extractLsb' 0 4 ≠ 0b0010#4 →
    (b0.extractLsb' 2 5 ≠ 0b10111#5 ∨ b0.extractLsb' 0 2 = 0b10#2) → b0 ∉ threeByteFormats →
    decode (b0 :: rest) = .error .unknownEncoding) ∧
  (∀ (b0 : Byte) (rest : List Byte), b0.extractLsb' 0 4 = 0b0010#4 →
    b0 ∉ [0x12#8, 0x42#8, 0x52#8, 0x72#8, 0xA2#8] → decode (b0 :: rest) = .error .unknownEncoding) ∧
  ∀ (b0 b1 b2 : Byte) (rest : List Byte), b0 ∈ threeByteFormats →
    (∀ row ∈ threeByteRows, (b2 ++ b1 ++ b0) &&& row.1 ≠ row.2) →
    decode (b0 :: b1 :: b2 :: rest) = .error .unknownEncoding

/-- Rule R107: the ranges of the three forms, which first bits choose each, and the source's two worked
displacements, 7C for -4 and 82 00 for 512. The long form is the spec's general knowledge G31 (log entry
18). -/
def Obligations.DisplacementForms : Prop :=
  (∀ v, -64 ≤ (dispValue (.short v)).toInt ∧ (dispValue (.short v)).toInt ≤ 63) ∧
  (∀ v, -8192 ≤ (dispValue (.medium v)).toInt ∧ (dispValue (.medium v)).toInt ≤ 8191) ∧
  (∀ v, -536870912 ≤ (dispValue (.long v)).toInt ∧ (dispValue (.long v)).toInt ≤ 536870911) ∧
  (∀ (x : BitVec 7) (rest : List Byte), takeDisp ((0#1 ++ x) :: rest) = .ok (.short x, rest)) ∧
  (∀ (x : BitVec 6) (b1 : Byte) (rest : List Byte),
    takeDisp ((0b10#2 ++ x) :: b1 :: rest) = .ok (.medium (x ++ b1), rest)) ∧
  (∀ (x : BitVec 6) (b1 b2 b3 : Byte) (rest : List Byte),
    takeDisp ((0b11#2 ++ x) :: b1 :: b2 :: b3 :: rest) = .ok (.long (x ++ b1 ++ b2 ++ b3), rest)) ∧
  (∀ rest, ∃ d, takeDisp (0x7C#8 :: rest) = .ok (d, rest) ∧ (dispValue d).toInt = -4) ∧
  ∀ rest, ∃ d, takeDisp (0x82#8 :: 0x00#8 :: rest) = .ok (d, rest) ∧ (dispValue d).toInt = 512

/-- The source's example words (rule R92) decode to the instructions they stand for; so does one word,
written out from rules R100, R109, R112 and R113, for each addressing mode, index byte, order of extension
bytes and string option that no example shows, which are the spec's general knowledge G25, G29 (log entries
18, 19). The reserved mode 10011, and U with W, are refused. -/
def Obligations.ExampleWords : Prop :=
  decode [0xCE#8, 0xB8#8, 0xD6#8, 0x04#8, 0x08#8] =
    .ok (.modb (.base (.space .sb (.short 4#7))) (.base (.space .sb (.short 8#7))), []) ∧
  decode [0x3E#8, 0x1B#8, 0xD0#8, 0x08#8] =
    .ok (.movfl (.base (.space .sb (.short 8#7))) (.reg 0), []) ∧
  decode [0x3E#8, 0x96#8, 0x06#8, 0x0C#8] =
    .ok (.movlf (.reg 0) (.base (.space .sb (.short 12#7))), []) ∧
  decode [0xAE#8, 0x5C#8, 0xD6#8, 0x09#8, 0x05#8] =
    .ok (.movusb (.base (.space .sb (.short 9#7))) (.base (.space .sp (.short 5#7))), []) ∧
  decode [0x4E#8, 0xE5#8, 0x4D#8, 0x0A#8] =
    .ok (.notw (.base (.regRel 1 (.short 10#7))) (.base .tos), []) ∧
  decode [0xDD#8, 0xBB#8] = .ok (.movqw 7#4 (.base .tos), []) ∧
  decode [0x1E#8, 0x03#8, 0x40#8, 0x82#8, 0x00#8] =
    .ok (.rdval (.base (.regRel 0 (.medium 512#14))), []) ∧
  decode [0x72#8, 0xA1#8] = .ok (.restore 0xA1#8, []) ∧
  decode [0x12#8, 0x10#8] = .ok (.ret (.short 16#7), []) ∧
  (decode [0x4E#8, 0x23#8, 0x80#8, 0x04#8, 0x08#8] =
      .ok (.negd (.base (.memRel .fp (.short 4#7) (.short 8#7))) (.reg 0), []) ∧
    decode [0x4E#8, 0x23#8, 0x88#8, 0x04#8, 0x08#8] =
      .ok (.negd (.base (.memRel .sp (.short 4#7) (.short 8#7))) (.reg 0), []) ∧
    decode [0x4E#8, 0x23#8, 0x90#8, 0x04#8, 0x08#8] =
      .ok (.negd (.base (.memRel .sb (.short 4#7) (.short 8#7))) (.reg 0), []) ∧
    decode [0x4E#8, 0x23#8, 0x98#8] = .error .operandForm ∧
    decode [0x4E#8, 0x23#8, 0xA0#8, 0x01#8, 0x02#8, 0x03#8, 0x04#8] =
      .ok (.negd (.imm 0x01020304#32) (.reg 0), []) ∧
    decode [0x4E#8, 0x23#8, 0xA8#8, 0x05#8] = .ok (.negd (.base (.absolute (.short 5#7))) (.reg 0), []) ∧
    decode [0x4E#8, 0x23#8, 0xB0#8, 0x04#8, 0x08#8] =
      .ok (.negd (.base (.external (.short 4#7) (.short 8#7))) (.reg 0), []) ∧
    decode [0x4E#8, 0x23#8, 0xB8#8] = .ok (.negd (.base .tos) (.reg 0), []) ∧
    decode [0x4E#8, 0x23#8, 0xC0#8, 0x05#8] = .ok (.negd (.base (.space .fp (.short 5#7))) (.reg 0), []) ∧
    decode [0x4E#8, 0x23#8, 0xC8#8, 0x05#8] = .ok (.negd (.base (.space .sp (.short 5#7))) (.reg 0), []) ∧
    decode [0x4E#8, 0x23#8, 0xD0#8, 0x05#8] = .ok (.negd (.base (.space .sb (.short 5#7))) (.reg 0), []) ∧
    decode [0x4E#8, 0x23#8, 0xD8#8, 0x05#8] =
      .ok (.negd (.base (.space .pc (.short 5#7))) (.reg 0), [])) ∧
  (decode [0x4E#8, 0x23#8, 0xE0#8, 0x55#8, 0x05#8] =
      .ok (.negd (.scaled .b (.regRel 2 (.short 5#7)) 5) (.reg 0), []) ∧
    decode [0x4E#8, 0x23#8, 0xE8#8, 0xBA#8] = .ok (.negd (.scaled .w .tos 2) (.reg 0), []) ∧
    decode [0x4E#8, 0x23#8, 0xF0#8, 0xC1#8, 0x05#8] =
      .ok (.negd (.scaled .d (.space .fp (.short 5#7)) 1) (.reg 0), []) ∧
    decode [0x4E#8, 0x23#8, 0xF8#8, 0x97#8, 0x04#8, 0x08#8] =
      .ok (.negd (.scaled .q (.memRel .sb (.short 4#7) (.short 8#7)) 7) (.reg 0), []) ∧
    decode [0x4E#8, 0xE3#8, 0xE7#8, 0x81#8, 0xAE#8, 0x04#8, 0x08#8, 0x05#8] =
      .ok (.negd (.scaled .b (.memRel .fp (.short 4#7) (.short 8#7)) 1)
        (.scaled .q (.absolute (.short 5#7)) 6), []) ∧
    decode [0x4E#8, 0x61#8, 0xA5#8, 0x12#8, 0x34#8, 0x05#8] =
      .ok (.negw (.imm 0x1234#16) (.base (.absolute (.short 5#7))), [])) ∧
  decode [0x0E#8, 0x00#8, 0x00#8] = .ok (.movsb ⟨false, .none⟩, []) ∧
  decode [0x0E#8, 0x00#8, 0x01#8] = .ok (.movsb ⟨true, .none⟩, []) ∧
  decode [0x0E#8, 0x01#8, 0x02#8] = .ok (.movsw ⟨false, .whileMatch⟩, []) ∧
  decode [0x0E#8, 0x03#8, 0x07#8] = .ok (.movsd ⟨true, .untilMatch⟩, []) ∧
  decode [0x0E#8, 0x80#8, 0x06#8] = .ok (.movst ⟨false, .untilMatch⟩, []) ∧
  decode [0x0E#8, 0x00#8, 0x04#8] = .error .operandForm

/-! ## State, registers and memory (10_state.md, 20_memory.md) -/

/-- Right after reset (rules R39, R271): PC 0, the ten PSR bits 0, translation off with every address
allowed, nothing pending, no EOI emitted, and no byte of memory holding a value. PC and PSR 0 are the spec's
general knowledge G14 (log entry 7). -/
def Obligations.ResetState : Prop :=
  State.reset.pc = 0#32 ∧ State.reset.psr.toBits = 0#16 ∧ State.reset.translating = false ∧
  (∀ a, State.reset.l1Valid a = true ∧ State.reset.userReadAllowed a = true) ∧
  (∀ (sp : Space) (k : AccessKind) (a : Word),
    State.reset.physical sp k a = some (a.toNat % Config.addrSpace)) ∧
  State.reset.irq = [] ∧ State.reset.eois = 0 ∧ ∀ x, State.reset.mem.read x = none

/-- Rule R21: an operand of length B or W uses and replaces only the low bits of its register. -/
def Obligations.PartialRegisters : Prop :=
  ∀ (s : State) (r : Fin 8),
    (∀ v : BitVec (8 * 1),
      s.regValue .int 1 r = (s.reg r).extractLsb' 0 8 ∧
      ((s.setRegValue .int r v).reg r).extractLsb' 0 8 = v ∧
      ((s.setRegValue .int r v).reg r).extractLsb' 8 24 = (s.reg r).extractLsb' 8 24 ∧
      ∀ q, q ≠ r → (s.setRegValue .int r v).reg q = s.reg q) ∧
    ∀ v : BitVec (8 * 2),
      s.regValue .int 2 r = (s.reg r).extractLsb' 0 16 ∧
      ((s.setRegValue .int r v).reg r).extractLsb' 0 16 = v ∧
      ((s.setRegValue .int r v).reg r).extractLsb' 16 16 = (s.reg r).extractLsb' 16 16 ∧
      ∀ q, q ≠ r → (s.setRegValue .int r v).reg q = s.reg q

/-- Rules R22, R23, R29: a single-precision operand in register n is Fn; a double-precision one is the pair
with Fn the low half; a write reaches only those registers. Each of the ten bits of the PSR is its bit of the
16-bit value, which they determine, and the other six read 0 (log entries 25, 34). -/
def Obligations.RegisterLayouts : Prop :=
  (∀ (s : State) (r : Fin 8),
    (∀ v : BitVec (8 * 4),
      s.regValue .float 4 r = s.freg r ∧ (s.setRegValue .float r v).freg r = v ∧
      ∀ q, q ≠ r → (s.setRegValue .float r v).freg q = s.freg q) ∧
    ∀ v : BitVec (8 * 8), r.val % 2 = 0 →
      s.regValue .float 8 r = s.freg (r + 1) ++ s.freg r ∧
      (s.setRegValue .float r v).freg r = v.extractLsb' 0 32 ∧
      (s.setRegValue .float r v).freg (r + 1) = v.extractLsb' 32 32 ∧
      ∀ q, q ≠ r → q ≠ r + 1 → (s.setRegValue .float r v).freg q = s.freg q) ∧
  (∀ v : Half, let p := Psr.ofBits v
    p.c = v.getLsbD 0 ∧ p.t = v.getLsbD 1 ∧ p.l = v.getLsbD 2 ∧ p.f = v.getLsbD 5 ∧ p.z = v.getLsbD 6 ∧
    p.n = v.getLsbD 7 ∧ p.u = v.getLsbD 8 ∧ p.s = v.getLsbD 9 ∧ p.p = v.getLsbD 10 ∧
    p.i = v.getLsbD 11) ∧
  (∀ p : Psr, Psr.ofBits p.toBits = p) ∧ (∀ v : Half, (Psr.ofBits v).toBits = v &&& 0x0FE7#16) ∧
  Psr.ofBits 0x0B20#16 = ⟨false, false, false, true, false, false, true, true, false, true⟩

/-- Rules R61, R63, R74: with translation off, a datum of at most 8 bytes stored at any address, aligned
or not, is read back as it was stored, and its byte k is the byte at the address plus k. The byte order and
the access at any address are the spec's general knowledge G16, G18 (log entries 14, 15). -/
def Obligations.ReadAfterWrite : Prop :=
  ∀ (s : State) (sp : Space) (a : Word) (n : Nat) (v : BitVec (8 * n)), s.translating = false → n ≤ 8 →
    memRead sp a n (s.store sp a v) = .ok v ∧
    ∀ k < n, memRead sp (byteAt a k) 1 (s.store sp a v) = .ok (v.extractLsb' (8 * k) 8)

/-- Rules R38, R60, R62, R63, R77: what one access answers. A read whose bytes all translate and hold
values completes at any address; a byte that does not translate gives Trap(ABT), one without a value the
refusal; a write to a marked address is refused. A store changes no byte but those its addresses translate
to, and keeps the canonical form of memory. That all bytes are translated first, so that Trap(ABT) comes
before either refusal, is the model's choice (log entry 30); the refusals are log entries 8 and 12, the table
form of the MMU is log entry 11. -/
def Obligations.AccessOutcomes : Prop :=
  ∀ (s : State) (sp : Space) (a : Word) (n : Nat) (v : BitVec (8 * n)),
    (Readable s sp a n → memRead sp a n s = .ok (s.memValue sp a n)) ∧
    (s.mapped sp .read a n = false → memRead sp a n s = .error (.trap .abt)) ∧
    (s.mapped sp .read a n = true → s.written sp a n = false →
      memRead sp a n s = .error (.refuse (.unwritten s.pc))) ∧
    (Writable s sp a n → memWrite sp a v s = .ok (s.store sp a v)) ∧
    (s.mapped sp .write a n = false → memWrite sp a v s = .error (.trap .abt)) ∧
    (s.mapped sp .write a n = true → s.clearOfText sp a n = false →
      memWrite sp a v s = .error (.refuse (.storeToText s.pc))) ∧
    MemoryKept s (s.store sp a v) sp (some a) n ∧ (s.mem.wf → (s.store sp a v).mem.wf)

/-- Rule R71: with translation off, or CFG.M = 0, every address is its own translation and everything is
allowed; an address that may not be read in User mode may not be written in User mode either. The table form
of the MMU is the model's choice (log entry 11). -/
def Obligations.TranslationRules : Prop :=
  ∀ s : State,
    (s.cfg.m = false ∨ s.mmu.on = false →
      ∀ a, s.l1Valid a = true ∧ s.userReadAllowed a = true ∧
        ∀ sp k, s.translate sp k a = some a) ∧
    ∀ a, s.userReadAllowed a = false → s.translate .user .write a = none

/-- What settling leaves of the state `t` in which an instruction begun at `s` has ended: all of it but bytes
that a stack pointer has risen past; of those, no program text and none without a value, and each of the
others a free value. -/
def Sys2Proof.Machine.Uncovers (s t : State) : Prop :=
  (s.trapEntry = .fault → s.irq = [] → s.settled t = t) ∧
  (rise s t false = 0 → rise s t true = 0 → s.settled t = t) ∧
  s.settled t = { t with mem := (s.settled t).mem, free := (s.settled t).free } ∧
  ∀ x, if (s.trapEntry = .sequence ∨ s.irq ≠ []) ∧ inRanges t.text x = false ∧ t.mem.read x ≠ none ∧
      ∃ one, ∃ j < rise s t one, ∃ sp ∈ stackSpaces s t one,
        t.physical sp .write (byteAt (s.stackPointer one) j) = some x
    then ∃ k, t.free ≤ k ∧ (s.settled t).mem.read x = some (Config.freeByte k)
    else (s.settled t).mem.read x = t.mem.read x

/-- Rules R65 to R68: what is pushed is popped; the push lowers SP by the operand's size, the pop raises
it back, and the pop itself leaves memory alone. Rule R37 item 2 and item I1: once the instruction has ended
and an entry can occur, the bytes that a stack pointer has risen past hold any value; otherwise they keep
theirs. Which bytes these are is the model's reading (log entry 43). -/
def Obligations.PushThenPop : Prop :=
  (∀ (s t : State) (n : Nat) (v : BitVec (8 * n)), s.translating = false → n ≤ 8 → push v s = .ok t →
    t.sp = s.sp - BitVec.ofNat 32 n ∧ pop n t = .ok (v, { s with mem := t.mem })) ∧
  ∀ s t : State, Uncovers s t

/-! ## Operands (30_encoding.md) -/

/-- Rules R104, R105: register relative and memory space. -/
def Obligations.SimpleAddresses : Prop :=
  ∀ (n : Nat) (s : State) (r : Fin 8) (d : Disp),
    locate (n := n) (.base (.regRel r d)) s = .ok (.mem (s.reg r + dispValue d)) ∧
    locate (n := n) (.base (.space .fp d)) s = .ok (.mem (s.fp + dispValue d)) ∧
    locate (n := n) (.base (.space .sp d)) s =
      .ok (.mem ((if s.psr.s then s.sp1 else s.sp0) + dispValue d)) ∧
    locate (n := n) (.base (.space .sb d)) s = .ok (.mem (s.sb + dispValue d)) ∧
    locate (n := n) (.base (.space .pc d)) s = .ok (.mem (s.pc + dispValue d))

/-- Rules R108, R109, R236: memory relative, absolute, external and scaled index at each scale, over a
memory base and over TOS, with their pointer fetches, of which one that aborts is Trap(ABT). The layouts
are the spec's general knowledge G29 (log entry 18). -/
def Obligations.PointerAddresses : Prop :=
  ∀ (n : Nat) (s : State) (d1 d2 : Disp),
    (∀ p, Readable s s.space (s.pointerBase p + dispValue d1) 4 →
      locate (n := n) (.base (.memRel p d1 d2)) s =
        .ok (.mem (s.memValue s.space (s.pointerBase p + dispValue d1) 4 + dispValue d2))) ∧
    (∀ p, s.mapped s.space .read (s.pointerBase p + dispValue d1) 4 = false →
      locate (n := n) (.base (.memRel p d1 d2)) s = .error (.trap .abt)) ∧
    locate (n := n) (.base (.absolute d1)) s = .ok (.mem (dispValue d1)) ∧
    (∀ link : Word, Readable s s.space (s.mod.setWidth 32 + 4#32) 4 →
      link = s.memValue s.space (s.mod.setWidth 32 + 4#32) 4 →
      Readable s s.space (link + 4#32 * dispValue d1) 4 →
      locate (n := n) (.base (.external d1 d2)) s =
        .ok (.mem (s.memValue s.space (link + 4#32 * dispValue d1) 4 + dispValue d2))) ∧
    (s.mapped s.space .read (s.mod.setWidth 32 + 4#32) 4 = false →
      locate (n := n) (.base (.external d1 d2)) s = .error (.trap .abt)) ∧
    (∀ link : Word, Readable s s.space (s.mod.setWidth 32 + 4#32) 4 →
      link = s.memValue s.space (s.mod.setWidth 32 + 4#32) 4 →
      s.mapped s.space .read (link + 4#32 * dispValue d1) 4 = false →
      locate (n := n) (.base (.external d1 d2)) s = .error (.trap .abt)) ∧
    (∀ (b : Base) (a : Word) (r : Fin 8), locate (n := n) (.base b) s = .ok (.mem a) →
      locate (n := n) (.scaled .b b r) s = .ok (.mem (a + s.reg r)) ∧
      locate (n := n) (.scaled .w b r) s = .ok (.mem (a + s.reg r * 2#32)) ∧
      locate (n := n) (.scaled .d b r) s = .ok (.mem (a + s.reg r * 4#32)) ∧
      locate (n := n) (.scaled .q b r) s = .ok (.mem (a + s.reg r * 8#32))) ∧
    ∀ r, locate (n := n) (.scaled .b .tos r) s = .ok (.mem (s.sp + s.reg r)) ∧
      locate (n := n) (.scaled .w .tos r) s = .ok (.mem (s.sp + s.reg r * 2#32)) ∧
      locate (n := n) (.scaled .d .tos r) s = .ok (.mem (s.sp + s.reg r * 4#32)) ∧
      locate (n := n) (.scaled .q .tos r) s = .ok (.mem (s.sp + s.reg r * 8#32))

/-! ## MODi and REMi (40_modi_remi.md) -/

/-- Rule R144: the two results as integers, by the floor and the truncation of the exact quotient. -/
def Obligations.DivisionResults : Prop :=
  ∀ (w : Nat) (src dest : BitVec w), src ≠ 0#w →
    (∃ r, modulus src dest = some r ∧
      r.toInt = dest.toInt - src.toInt * ⌊(dest.toInt : Rat) / src.toInt⌋) ∧
    ∃ r, remainder src dest = some r ∧
      r.toInt = dest.toInt - src.toInt *
        (if 0 ≤ (dest.toInt : Rat) / src.toInt then ⌊(dest.toInt : Rat) / src.toInt⌋
          else ⌈(dest.toInt : Rat) / src.toInt⌉)

/-- Rule R145 on the two results of one pair of operands. -/
def Obligations.DivisionLaws : Prop :=
  ∀ (w : Nat) (src dest m r : BitVec w), modulus src dest = some m → remainder src dest = some r →
    (r = 0#w ∨ (0 < dest.toInt ↔ 0 < src.toInt) → m = r) ∧
    (¬(r = 0#w ∨ (0 < dest.toInt ↔ 0 < src.toInt)) → m.toInt = r.toInt + src.toInt) ∧
    (m ≠ 0#w → (0 < m.toInt ↔ 0 < src.toInt)) ∧ (r ≠ 0#w → (0 < r.toInt ↔ 0 < dest.toInt)) ∧
    m.toInt.natAbs < src.toInt.natAbs ∧ r.toInt.natAbs < src.toInt.natAbs ∧
    (dest = 0#w → m = 0#w ∧ r = 0#w)

/-- The completion of one instruction whose destination becomes `f src dest` where that answers a value,
and Trap(DVZ) from an unchanged state where it answers none. -/
def Sys2Proof.Machine.DivideRuns {n : Nat} (i : Instr) (src dst : Gen n)
    (f : BitVec (8 * n) → BitVec (8 * n) → Option (BitVec (8 * n))) : Prop :=
  ∀ (s : State) (ls ld : Loc n), UpdateReady i src dst s ls ld →
    (∀ r, f (ls.value .int s) (ld.value .int (ls.popped s)) = some r →
      exec i s = .next { ld.placed .int r (ls.popped s) with pc := s.after i }) ∧
    (ls.value .int s = 0#(8 * n) → exec i s = takeTrap .dvz s)

/-- Rules R140, R142: MODB, MODW, MODD complete with the modulus in dest, REMB, REMW, REMD with the
remainder; src = 0 is Trap(DVZ) from an unchanged state (G34, log entry 21). -/
def Obligations.DivideCompletes : Prop :=
  (∀ src dst, DivideRuns (.modb src dst) src dst modulus) ∧
  (∀ src dst, DivideRuns (.modw src dst) src dst modulus) ∧
  (∀ src dst, DivideRuns (.modd src dst) src dst modulus) ∧
  (∀ src dst, DivideRuns (.remb src dst) src dst remainder) ∧
  (∀ src dst, DivideRuns (.remw src dst) src dst remainder) ∧
  ∀ src dst, DivideRuns (.remd src dst) src dst remainder

/-- The frame of one rmw instruction of the integer unit: no flag, no floating state, no register but
dest, SP only by a popped source, no byte of memory outside dest. -/
def Sys2Proof.Machine.DivideKeeps {n : Nat} (i : Instr) (src dst : Gen n) : Prop :=
  ∀ s t : State, exec i s = .next t → (∃ k, takeTrap k s = .next t) ∨
    OperandsKept .int dst src.popMove s t ∧ t.psr = s.psr ∧ t.fsr = s.fsr ∧ t.free = s.free ∧
    ∀ ls ld, locate src s = .ok ls → locate dst s = .ok ld →
      MemoryKept s t s.space (ld.place (ls.popped s)) n

/-- The frame of MODB, MODW, MODD, REMB, REMW, REMD (rules R140, R142). That no flag of PSR changes is the
spec's general knowledge G33 (log entry 21), and what a top-of-stack operand does is G30 (log entry
20). -/
def Obligations.DivideFrame : Prop :=
  (∀ src dst, DivideKeeps (.modb src dst) src dst) ∧ (∀ src dst, DivideKeeps (.modw src dst) src dst) ∧
  (∀ src dst, DivideKeeps (.modd src dst) src dst) ∧ (∀ src dst, DivideKeeps (.remb src dst) src dst) ∧
  (∀ src dst, DivideKeeps (.remw src dst) src dst) ∧ ∀ src dst, DivideKeeps (.remd src dst) src dst

/-! ## MOVQi, MOVXi, MOVZi, NEGi, NOP, NOTi (42_integer_moves.md, 45_negate_nop_not.md) -/

/-- The completion of one instruction whose destination becomes `f src` and whose PSR becomes
`g src PSR`. -/
def Sys2Proof.Machine.MoveRuns {n m : Nat} (i : Instr) (src : Gen n) (dst : Gen m)
    (f : BitVec (8 * n) → BitVec (8 * m)) (g : BitVec (8 * n) → Psr → Psr) : Prop :=
  ∀ (s : State) (ls : Loc n) (ld : Loc m), MoveReady i src dst s ls ld →
    exec i s = .next { ld.stored .int (f (ls.value .int s)) (ls.popped s) with
      psr := g (ls.value .int s) s.psr, pc := s.after i }

/-- The completion of one quick instruction. -/
def Sys2Proof.Machine.QuickRuns {m : Nat} (i : Instr) (quick : BitVec 4) (dst : Gen m) : Prop :=
  ∀ (s : State) (ld : Loc m), i.wellFormed = true → s.fits i.length = true →
    locate dst s = .ok ld → ld.writable s →
    exec i s = .next { ld.stored .int (quick.signExtend (8 * m)) s with pc := s.after i }

/-- The quick value of an instruction is the field `w[10:7]` of the words it is decoded from. -/
def Sys2Proof.Machine.QuickField (i : Instr) (quick : BitVec 4) : Prop :=
  ∀ bs rest : List Byte, decode bs = .ok (i, rest) →
    (BitVec.ofNat 16 (headWord 2 bs)).extractLsb' 7 4 = quick

/-- Rule R110, the quick operand of MOVQB, MOVQW, MOVQD (rule R170): it is the field `w[10:7]`, a signed value
-8 to +7, and the instruction completes with it sign-extended to the length of dest in dest; binary 0111
becomes 0007 at word length. -/
def Obligations.QuickCompletes : Prop :=
  (∀ quick : BitVec 4, -8 ≤ quick.toInt ∧ quick.toInt ≤ 7) ∧
  (0b0111#4).signExtend 16 = 0x0007#16 ∧
  (∀ quick dst, QuickField (.movqb quick dst) quick ∧ QuickRuns (.movqb quick dst) quick dst) ∧
  (∀ quick dst, QuickField (.movqw quick dst) quick ∧ QuickRuns (.movqw quick dst) quick dst) ∧
  ∀ quick dst, QuickField (.movqd quick dst) quick ∧ QuickRuns (.movqd quick dst) quick dst

/-- Rules R171, R172: MOVXBW, MOVXBD, MOVXWD complete with the sign-extended source in dest, MOVZBW,
MOVZBD, MOVZWD with the zero-extended source. What a top-of-stack operand does is the spec's general
knowledge G30 (log entry 20). -/
def Obligations.ExtendCompletes : Prop :=
  (∀ src dst, MoveRuns (.movxbw src dst) src dst (fun v => BitVec.ofInt 16 v.toInt) fun _ p => p) ∧
  (∀ src dst, MoveRuns (.movxbd src dst) src dst (fun v => BitVec.ofInt 32 v.toInt) fun _ p => p) ∧
  (∀ src dst, MoveRuns (.movxwd src dst) src dst (fun v => BitVec.ofInt 32 v.toInt) fun _ p => p) ∧
  (∀ src dst, MoveRuns (.movzbw src dst) src dst (fun v => 0#8 ++ v) fun _ p => p) ∧
  (∀ src dst, MoveRuns (.movzbd src dst) src dst (fun v => 0#24 ++ v) fun _ p => p) ∧
  ∀ src dst, MoveRuns (.movzwd src dst) src dst (fun v => 0#16 ++ v) fun _ p => p

/-- Rules R200, R201: NEGB, NEGW, NEGD complete with the negated source in dest; C = 1 exactly when the
source is not 0, F = 1 exactly when it is the most negative value (G42, log entry 22). -/
def Obligations.NegateCompletes : Prop :=
  (∀ src dst, MoveRuns (.negb src dst) src dst (fun v => BitVec.ofInt 8 (-v.toInt)) fun v p =>
    { p with c := decide (v ≠ 0#8), f := decide (v = 0x80#8) }) ∧
  (∀ src dst, MoveRuns (.negw src dst) src dst (fun v => BitVec.ofInt 16 (-v.toInt)) fun v p =>
    { p with c := decide (v ≠ 0#16), f := decide (v = 0x8000#16) }) ∧
  ∀ src dst, MoveRuns (.negd src dst) src dst (fun v => BitVec.ofInt 32 (-v.toInt)) fun v p =>
    { p with c := decide (v ≠ 0#32), f := decide (v = 0x80000000#32) }

/-- Rule R203: NOTB, NOTW, NOTD complete with the source in dest, bit 0 inverted. The D form is the spec's
general knowledge G5 (log entry 19). -/
def Obligations.NotCompletes : Prop :=
  (∀ src dst, MoveRuns (.notb src dst) src dst (fun v => v.extractLsb' 1 7 ++ ~~~v.extractLsb' 0 1)
    fun _ p => p) ∧
  (∀ src dst, MoveRuns (.notw src dst) src dst (fun v => v.extractLsb' 1 15 ++ ~~~v.extractLsb' 0 1)
    fun _ p => p) ∧
  ∀ src dst, MoveRuns (.notd src dst) src dst (fun v => v.extractLsb' 1 31 ++ ~~~v.extractLsb' 0 1)
    fun _ p => p

/-- Rule R202: NOP is the byte A2 and changes PC alone, to PC + 1; at the last address of memory, where
PC + 1 passes the top, it is refused (rule R24, decision D3, which the model reads so: log entry 16). -/
def Obligations.NopCompletes : Prop :=
  encode .nop = [0xA2#8] ∧
  ∀ s : State,
    (busAddress s.pc + 1 < Config.addrSpace → exec .nop s = .next { s with pc := s.pc + 1#32 }) ∧
    (busAddress s.pc + 1 = Config.addrSpace → exec .nop s = .refused (.addressWrap s.pc))

/-- The frame of one integer move. `flags` says what may become of the PSR. -/
def Sys2Proof.Machine.MoveKeeps {n m : Nat} (i : Instr) (src : Gen n) (dst : Gen m)
    (flags : Psr → Psr → Prop) : Prop :=
  ∀ s t : State, exec i s = .next t → (∃ k, takeTrap k s = .next t) ∨
    OperandsKept .int dst (src.popMove + dst.pushMove) s t ∧ flags s.psr t.psr ∧ t.fsr = s.fsr ∧
    t.free = s.free ∧
    ∀ ls ld, locate src s = .ok ls → locate dst s = .ok ld →
      MemoryKept s t s.space (ld.target (ls.popped s)) m

/-- The frame of one quick move. -/
def Sys2Proof.Machine.QuickKeeps {m : Nat} (i : Instr) (dst : Gen m) : Prop :=
  ∀ s t : State, exec i s = .next t → (∃ k, takeTrap k s = .next t) ∨
    OperandsKept .int dst dst.pushMove s t ∧ t.psr = s.psr ∧ t.fsr = s.fsr ∧ t.free = s.free ∧
    ∀ ld, locate dst s = .ok ld → MemoryKept s t s.space (ld.target s) m

/-- The frame of MOVQi, MOVXi, MOVZi, NOTi, which write no flag, and of NEGi, which writes C and F. -/
def Obligations.IntegerMoveFrame : Prop :=
  (∀ quick dst, QuickKeeps (.movqb quick dst) dst) ∧ (∀ quick dst, QuickKeeps (.movqw quick dst) dst) ∧
  (∀ quick dst, QuickKeeps (.movqd quick dst) dst) ∧
  (∀ src dst, MoveKeeps (.movxbw src dst) src dst Eq) ∧
  (∀ src dst, MoveKeeps (.movxbd src dst) src dst Eq) ∧
  (∀ src dst, MoveKeeps (.movxwd src dst) src dst Eq) ∧
  (∀ src dst, MoveKeeps (.movzbw src dst) src dst Eq) ∧
  (∀ src dst, MoveKeeps (.movzbd src dst) src dst Eq) ∧
  (∀ src dst, MoveKeeps (.movzwd src dst) src dst Eq) ∧
  (∀ src dst, MoveKeeps (.notb src dst) src dst Eq) ∧ (∀ src dst, MoveKeeps (.notw src dst) src dst Eq) ∧
  (∀ src dst, MoveKeeps (.notd src dst) src dst Eq) ∧
  (∀ src dst, MoveKeeps (.negb src dst) src dst fun p q => q = { p with c := q.c, f := q.f }) ∧
  (∀ src dst, MoveKeeps (.negw src dst) src dst fun p q => q = { p with c := q.c, f := q.f }) ∧
  ∀ src dst, MoveKeeps (.negd src dst) src dst fun p q => q = { p with c := q.c, f := q.f }

/-! ## MOVif, MOVFL, MOVLF, MULf (41_floating_point.md) -/

/-- The completion of one conversion of an integer that is exact: the result is the integer, a zero result
is +0, and the FSR is unchanged. -/
def Sys2Proof.Machine.ExactConversionRuns {n m : Nat} (i : Instr) (src : Gen n) (dst : Gen m)
    (f : FloatFormat) (small : Int → Prop) : Prop :=
  ∀ (s : State) (ls : Loc n) (ld : Loc m), s.cfg.f = true → MoveReady i src dst s ls ld →
    small (ls.value .int s).toInt →
    ∃ r : BitVec (8 * m),
      exec i s = .next { ld.stored .float r (ls.popped s) with pc := s.after i } ∧
      if (ls.value .int s).toInt = 0 then r = 0#(8 * m)
      else f.isNormalized r = true ∧ f.rat r = ((ls.value .int s).toInt : Rat)

/-- Rule R154: MOVBF, MOVWF, MOVBL, MOVWL, MOVDL complete on every integer, exactly, and MOVDF on every
integer of magnitude at most 2^24. That the integer 0 gives +0 (G38), and the layout behind `f.rat` (G35),
are the spec's general knowledge (log entry 23). -/
def Obligations.ExactConversions : Prop :=
  (∀ src dst, ExactConversionRuns (.movbf src dst) src dst .single fun _ => True) ∧
  (∀ src dst, ExactConversionRuns (.movwf src dst) src dst .single fun _ => True) ∧
  (∀ src dst, ExactConversionRuns (.movbl src dst) src dst .double fun _ => True) ∧
  (∀ src dst, ExactConversionRuns (.movwl src dst) src dst .double fun _ => True) ∧
  (∀ src dst, ExactConversionRuns (.movdl src dst) src dst .double fun _ => True) ∧
  ∀ src dst, ExactConversionRuns (.movdf src dst) src dst .single fun x => x.natAbs ≤ 2 ^ 24

/-- Rule R154, MOVDF on any integer not 0: with the Inexact Result trap disabled it completes with the
correctly rounded integer, and IF is set on an inexact result, unaffected otherwise. With the trap enabled
an inexact result is Trap(FPU). The rounding is the default of the open parameter FPNUM (G37, log entry 23);
what Trap(FPU) leaves in dest is log entry 3. -/
def Obligations.RoundedConversion : Prop :=
  ∀ (src dst : Gen 4) (s : State) (ls ld : Loc 4), s.cfg.f = true →
    MoveReady (.movdf src dst) src dst s ls ld → (ls.value .int s).toInt ≠ 0 →
    ∃ y : Rat, FloatFormat.single.IsRounding s.fsr.rm ((ls.value .int s).toInt : Rat) y ∧
      if s.fsr.ien = true ∧ y ≠ ((ls.value .int s).toInt : Rat) then
        ∃ t, exec (.movdf src dst) s = takeTrap .fpu t ∧
          FloatTrapped dst (ld.target (ls.popped s)) { s.fsr with inx := true, tt := .inexact } s t
      else
        ∃ r : BitVec 32, FloatFormat.single.isNormalized r = true ∧ FloatFormat.single.rat r = y ∧
          exec (.movdf src dst) s = .next { ld.stored .float (n := 4) r (ls.popped s) with
            fsr := { s.fsr with inx := s.fsr.inx || decide (y ≠ ((ls.value .int s).toInt : Rat)) }
            pc := s.after (.movdf src dst) }

/-- Rule R155: MOVFL completes on every operand that is not reserved: a zero keeps its sign, any other
number keeps its value, and the FSR is unchanged. A reserved operand is Trap(FPU) (log entries 3, 23). -/
def Obligations.WidenCompletes : Prop :=
  ∀ (src : Gen 4) (dst : Gen 8) (s : State) (ls : Loc 4) (ld : Loc 8), s.cfg.f = true →
    MoveReady (.movfl src dst) src dst s ls ld →
    if FloatFormat.single.isReserved (ls.value .float s) = true then
      ∃ t, exec (.movfl src dst) s = takeTrap .fpu t ∧
        FloatTrapped dst (ld.target (ls.popped s)) { s.fsr with tt := .invalid } s t
    else
      ∃ r : BitVec 64,
        exec (.movfl src dst) s =
          .next { ld.stored .float (n := 8) r (ls.popped s) with pc := s.after (.movfl src dst) } ∧
        r.msb = (ls.value .float s).msb ∧
        if FloatFormat.single.isZero (ls.value .float s) = true then FloatFormat.double.isZero r = true
        else FloatFormat.double.isNormalized r = true ∧
          FloatFormat.double.rat r = FloatFormat.single.rat (ls.value .float s)

/-- The end of one floating-point instruction whose exact result is `x`, not zero, in the format `f`
(rule R158): `finished t` for the state it completes in and the trap for the others. -/
def Sys2Proof.Machine.FinishRuns {m : Nat} (i : Instr) (dst : Gen m) (dest : Option Word)
    (f : FloatFormat) (x : Exact) (finished : BitVec (8 * m) → State) (s : State) : Prop :=
  let y := roundExact f s.fsr.rm x
  if y.over f = true then
    ∃ t, exec i s = takeTrap .fpu t ∧ FloatTrapped dst dest { s.fsr with tt := .overflow } s t
  else if y.under f = true then
    if s.fsr.uen = true then
      ∃ t, exec i s = takeTrap .fpu t ∧
        FloatTrapped dst dest { s.fsr with uf := true, tt := .underflow } s t
    else
      ∃ (r : BitVec (8 * m)) (b : Bool) (k : Nat), f.isZero r = true ∧
        exec i s = .next { finished r with
          fsr := { s.fsr with uf := true, inx := s.fsr.inx || b }, free := k, pc := s.after i }
  else if y.toRat ≠ x.toRat ∧ s.fsr.ien = true then
    ∃ t, exec i s = takeTrap .fpu t ∧
      FloatTrapped dst dest { s.fsr with inx := true, tt := .inexact } s t
  else
    ∃ r : BitVec (8 * m), f.isNormalized r = true ∧ f.rat r = y.toRat ∧
      exec i s = .next { finished r with
        fsr := { s.fsr with inx := s.fsr.inx || decide (y.toRat ≠ x.toRat) }, pc := s.after i }

/-- Rule R156: MOVLF on a zero gives a zero of the same sign and no flag; on a normalized number it
completes, or takes Trap(FPU), as rule R158 says of the number; on a reserved operand it takes
Trap(FPU). The reserved operands, the sign of a zero and the rounding are the spec's general knowledge G36 to
G38 and the defaults of FPNUM (log entry 23), what Trap(FPU) leaves in dest is log entry 3, and the zero of an
untrapped underflow and its IF are free (log entry 4). -/
def Obligations.NarrowCompletes : Prop :=
  ∀ (src : Gen 8) (dst : Gen 4) (s : State) (ls : Loc 8) (ld : Loc 4), s.cfg.f = true →
    MoveReady (.movlf src dst) src dst s ls ld →
    if FloatFormat.double.isReserved (ls.value .float s) = true then
      ∃ t, exec (.movlf src dst) s = takeTrap .fpu t ∧
        FloatTrapped dst (ld.target (ls.popped s)) { s.fsr with tt := .invalid } s t
    else if FloatFormat.double.isZero (ls.value .float s) = true then
      exec (.movlf src dst) s =
        .next { ld.stored .float (n := 4) (signedZero 32 (ls.value .float s).msb) (ls.popped s) with
          pc := s.after (.movlf src dst) }
    else
      FinishRuns (.movlf src dst) dst (ld.target (ls.popped s)) .single
        (FloatFormat.double.value (ls.value .float s))
        (fun r => ld.stored .float r (ls.popped s)) s

/-- The completion of one multiplication: rule R160 where an operand is zero, rule R158 on the exact
product otherwise, Trap(FPU) on a reserved operand. -/
def Sys2Proof.Machine.MultiplyRuns {n : Nat} (i : Instr) (src dst : Gen n) (f : FloatFormat) : Prop :=
  ∀ (s : State) (ls ld : Loc n), s.cfg.f = true → UpdateReady i src dst s ls ld →
    let a := ls.value .float s
    let b := ld.value .float (ls.popped s)
    if f.isReserved a = true ∨ f.isReserved b = true then
      ∃ t, exec i s = takeTrap .fpu t ∧
        FloatTrapped dst (ld.place (ls.popped s)) { s.fsr with tt := .invalid } s t
    else if f.isZero a = true ∨ f.isZero b = true then
      exec i s = .next { ld.placed .float (signedZero (8 * n) (a.msb ^^ b.msb)) (ls.popped s) with
        pc := s.after i }
    else
      FinishRuns i dst (ld.place (ls.popped s)) f ((f.value a).mul (f.value b))
        (fun r => ld.placed .float r (ls.popped s)) s

/-- Rules R157, R160: MULF and MULL. The reserved operands and the rounding are the spec's general knowledge
G36, G37 and the defaults of FPNUM (log entry 23), what Trap(FPU) leaves in dest is log entry 3, and the zero
of an untrapped underflow and its IF are free (log entry 4). -/
def Obligations.MultiplyCompletes : Prop :=
  (∀ src dst, MultiplyRuns (.mulf src dst) src dst .single) ∧
  ∀ src dst, MultiplyRuns (.mull src dst) src dst .double

/-- Rule R153: rounding gives the correctly rounded number with a full-width fraction, and reports inexact
exactly when the number changed, overflow exactly where its exponent is above 127, or 1023, and underflow
exactly where it is below -126, or -1022. The four directions, the tie rule and these limits are the default
of the open parameter FPNUM (G37, log entry 23). -/
def Obligations.RoundingIsCorrect : Prop :=
  (∀ (f : FloatFormat) (rm : RoundMode) (x : Exact), 0 < f.fracBits → x.mant ≠ 0 →
    f.IsRounding rm x.toRat (roundExact f rm x).toRat ∧
    2 ^ f.fracBits ≤ (roundExact f rm x).sig ∧ (roundExact f rm x).sig < 2 ^ (f.fracBits + 1) ∧
    ((roundExact f rm x).inexact = true ↔ (roundExact f rm x).toRat ≠ x.toRat)) ∧
  (∀ (rm : RoundMode) (x : Exact), x.mant ≠ 0 → let y := roundExact .single rm x
    (y.over .single = true ↔ (2 : Rat) ^ (128 : Int) ≤ |y.toRat|) ∧
    (y.under .single = true ↔ |y.toRat| < (2 : Rat) ^ (-126 : Int))) ∧
  ∀ (rm : RoundMode) (x : Exact), x.mant ≠ 0 → let y := roundExact .double rm x
    (y.over .double = true ↔ (2 : Rat) ^ (1024 : Int) ≤ |y.toRat|) ∧
    (y.under .double = true ↔ |y.toRat| < (2 : Rat) ^ (-1022 : Int))

/-- Rule R160, the table: a zero times a number that is not reserved is a zero whose sign is the exclusive-or
of the operands' signs, with no flag set; for two normalized numbers the result is the finish (rule R158) of
their exact product. The value of an operand, the reserved operands and the rounding are the spec's general
knowledge G35 to G37 (log entry 23). -/
def Obligations.ProductTable : Prop :=
  ∀ (f : FloatFormat) (w : Nat) (a b : BitVec w) (fsr : Fsr) (free : Nat),
    f = .single ∧ w = 32 ∨ f = .double ∧ w = 64 →
    (f.isReserved a = false → f.isReserved b = false → (f.isZero a = true ∨ f.isZero b = true) →
      ∃ r, multiply f a b fsr free = .store r fsr 0 ∧ f.isZero r = true ∧ r.msb = (a.msb ^^ b.msb)) ∧
    (f.isNormalized a = true → f.isNormalized b = true →
      ∃ x : Exact, x.toRat = f.rat a * f.rat b ∧ multiply f a b fsr free = finish f w x fsr free)

/-- Rules R150, R235: with CFG.F = 0 every floating-point instruction takes Trap(UND) from an unchanged state,
whatever its operands. That the test comes before any operand is evaluated, so that nothing has changed and
no address is computed, is decision D6 (log entry 30). -/
def Obligations.FloatUnitAbsent : Prop :=
  ∀ (i : Instr) (s : State), i.isFloat = true → i.wellFormed = true → s.cfg.f = false →
    exec i s = takeTrap .und s

/-- The frame of one floating-point instruction with dest of class write: no PSR flag; of the FSR what
`fsr` admits; no general register, no byte of memory outside dest. Where it takes Trap(FPU), the same holds
of the state the trap is taken in, but for the FSR. -/
def Sys2Proof.Machine.ConversionKeeps {n m : Nat} (i : Instr) (src : Gen n) (dst : Gen m)
    (fsr : Fsr → Fsr → Prop) : Prop :=
  ∀ s t : State, exec i s = .next t → (∃ k, takeTrap k s = .next t) ∨
    (∃ u, takeTrap .fpu u = .next t ∧ ∀ ls ld, locate src s = .ok ls → locate dst s = .ok ld →
      FloatTrapped dst (ld.target (ls.popped s)) u.fsr s u) ∨
    OperandsKept .float dst (src.popMove + dst.pushMove) s t ∧ t.psr = s.psr ∧ fsr s.fsr t.fsr ∧
    ∀ ls ld, locate src s = .ok ls → locate dst s = .ok ld →
      MemoryKept s t s.space (ld.target (ls.popped s)) m

/-- The same with dest of class rmw. -/
def Sys2Proof.Machine.MultiplyKeeps {n : Nat} (i : Instr) (src dst : Gen n)
    (fsr : Fsr → Fsr → Prop) : Prop :=
  ∀ s t : State, exec i s = .next t → (∃ k, takeTrap k s = .next t) ∨
    (∃ u, takeTrap .fpu u = .next t ∧ ∀ ls ld, locate src s = .ok ls → locate dst s = .ok ld →
      FloatTrapped dst (ld.place (ls.popped s)) u.fsr s u) ∨
    OperandsKept .float dst src.popMove s t ∧ t.psr = s.psr ∧ fsr s.fsr t.fsr ∧
    ∀ ls ld, locate src s = .ok ls → locate dst s = .ok ld →
      MemoryKept s t s.space (ld.place (ls.popped s)) n

/-- The frames of MOVif (IF at most), MOVFL (no FSR flag), MOVLF and MULf (UF and IF at most), by rules
R159 and R161. When a flag is set rests on the defaults of FPNUM (log entry 23), and what Trap(FPU) leaves in
dest is log entry 3. -/
def Obligations.FloatFrame : Prop :=
  let mayIf : Fsr → Fsr → Prop := fun a b => b = a ∨ b = { a with inx := true }
  let mayBoth : Fsr → Fsr → Prop := fun a b =>
    b = a ∨ b = { a with inx := true } ∨ b = { a with uf := true } ∨
      b = { a with uf := true, inx := true }
  (∀ src dst, ConversionKeeps (.movbf src dst) src dst mayIf) ∧
  (∀ src dst, ConversionKeeps (.movwf src dst) src dst mayIf) ∧
  (∀ src dst, ConversionKeeps (.movdf src dst) src dst mayIf) ∧
  (∀ src dst, ConversionKeeps (.movbl src dst) src dst mayIf) ∧
  (∀ src dst, ConversionKeeps (.movwl src dst) src dst mayIf) ∧
  (∀ src dst, ConversionKeeps (.movdl src dst) src dst mayIf) ∧
  (∀ src dst, ConversionKeeps (.movfl src dst) src dst Eq) ∧
  (∀ src dst, ConversionKeeps (.movlf src dst) src dst mayBoth) ∧
  (∀ src dst, MultiplyKeeps (.mulf src dst) src dst mayBoth) ∧
  ∀ src dst, MultiplyKeeps (.mull src dst) src dst mayBoth

/-! ## MOVSi and MOVST (43_string.md) -/

/-- How one string instruction ends: after all R0 elements with F = 0, or at the first element a match
option ends it at, with F = 1. The elements before are copied, the pointers and R0 stand at the rest. -/
def Sys2Proof.Machine.StringRuns {n : Nat} (i : Instr) (o : StringOptions) (e : State → BitVec (8 * n))
    (readable : State → Prop) : Prop :=
  ∀ (s : State) (k : Nat), s.irq = [] → s.fits i.length = true →
    CopyReady e readable o k { s with psr := s.psr.withF false } →
    let u := ({ s with psr := s.psr.withF false }).copied e o.backward k
    (k = (s.reg 0).toNat → exec i s = .next { u with pc := s.after i }) ∧
    (k < (s.reg 0).toNat → readable u → matchEnds o.matching (e u) (u.regValue .int n 4) = true →
      exec i s = .next { u with psr := u.psr.withF true, pc := s.after i })

/-- Rules R181 to R184: MOVSB, MOVSW, MOVSD and MOVST, every option: without a match option no element ends
the instruction, U ends it at the first that equals the low bits of R4, W at the first that differs. What the
options U, W and B do, and F = 1 at a match, are the spec's general knowledge G39, G40 (log entry 29). -/
def Obligations.StringCompletes : Prop :=
  (∀ (w : Nat) (e key : BitVec w), matchEnds .none e key = false ∧
    (matchEnds .untilMatch e key = true ↔ e = key) ∧ (matchEnds .whileMatch e key = true ↔ e ≠ key)) ∧
  (∀ s : State, s.regValue .int 1 4 = (s.reg 4).extractLsb' 0 8 ∧
    s.regValue .int 2 4 = (s.reg 4).extractLsb' 0 16 ∧ s.regValue .int 4 4 = s.reg 4) ∧
  (∀ o, StringRuns (.movsb o) o (State.element 1) (State.elementReadable 1)) ∧
  (∀ o, StringRuns (.movsw o) o (State.element 2) (State.elementReadable 2)) ∧
  (∀ o, StringRuns (.movsd o) o (State.element 4) (State.elementReadable 4)) ∧
  ∀ o, StringRuns (.movst o) o State.translated State.translationReadable

/-- Rules R182, R185: the registers after k elements, forward or backward, and what copying leaves alone:
every other register, all flags, and every byte outside the element locations of String 2. The backward
stepping is the spec's general knowledge G40 (log entry 29). -/
def Obligations.StringRegisters : Prop :=
  ∀ (n : Nat) (e : State → BitVec (8 * n)) (backward : Bool) (k : Nat) (s : State),
    let t := s.copied e backward k
    let move : Word := BitVec.ofNat 32 n * BitVec.ofNat 32 k
    t.reg 0 = s.reg 0 - BitVec.ofNat 32 k ∧
    t.reg 1 = (if backward then s.reg 1 - move else s.reg 1 + move) ∧
    t.reg 2 = (if backward then s.reg 2 - move else s.reg 2 + move) ∧
    (∀ r, 3 ≤ r.val → t.reg r = s.reg r) ∧
    t = { s with regs := t.regs, mem := t.mem } ∧
    ∀ x, (∀ j < k, ∀ b < n, s.physical s.space .write
        (byteAt (if backward then s.reg 2 - BitVec.ofNat 32 n * BitVec.ofNat 32 j
          else s.reg 2 + BitVec.ofNat 32 n * BitVec.ofNat 32 j) b) ≠ some x) →
      t.mem.read x = s.mem.read x

/-- Where String 1, of `n` bytes, holds values, String 2 is no program text and the two do not overlap,
the instruction leaves a copy of String 1 in String 2 and changes no other byte. -/
def Sys2Proof.Machine.StringCopies (n : Nat) (i : StringOptions → Instr) : Prop :=
  ∀ s : State, s.irq = [] → s.fits (i ⟨false, .none⟩).length = true → s.translating = false →
    (∀ j < n * (s.reg 0).toNat, (s.byteRead s.space (byteAt (s.reg 1) j)).isSome = true ∧
      inRanges s.text (busAddress (byteAt (s.reg 2) j)) = false) →
    (∀ j < n * (s.reg 0).toNat, ∀ l < n * (s.reg 0).toNat,
      busAddress (byteAt (s.reg 1) j) ≠ busAddress (byteAt (s.reg 2) l)) →
    ∃ t, exec (i ⟨false, .none⟩) s = .next t ∧
      (∀ j < n * (s.reg 0).toNat,
        t.byteRead s.space (byteAt (s.reg 2) j) = s.byteRead s.space (byteAt (s.reg 1) j)) ∧
      (∀ x, (∀ j < n * (s.reg 0).toNat, busAddress (byteAt (s.reg 2) j) ≠ x) →
        t.mem.read x = s.mem.read x) ∧
      t.reg 0 = 0#32 ∧ t.reg 1 = s.reg 1 + BitVec.ofNat 32 n * s.reg 0 ∧
      t.reg 2 = s.reg 2 + BitVec.ofNat 32 n * s.reg 0 ∧ t.psr = { s.psr with f := false }

/-- MOVSB, MOVSW, MOVSD without option copy String 1 to String 2 (rule R181). -/
def Obligations.StringCopy : Prop :=
  StringCopies 1 .movsb ∧ StringCopies 2 .movsw ∧ StringCopies 4 .movsd

/-- What stops one string instruction between elements: an interrupt accepted after k elements, or an
access that aborts at element k. Either is taken with PC still at the instruction, the k elements stored
and R0, R1, R2 at the rest. -/
def Sys2Proof.Machine.StringStops {n : Nat} (i : Instr) (o : StringOptions) (e : State → BitVec (8 * n))
    (readable aborts : State → Prop) : Prop :=
  ∀ (s : State) (k : Nat), k < (s.reg 0).toNat →
    CopyReady e readable o k { s with psr := s.psr.withF false } →
    let u := ({ s with psr := s.psr.withF false }).copied e o.backward k
    (∀ q rest, 0 < k → s.irq = List.replicate (k - 1) none ++ some q :: rest → s.accepts q = true →
      exec i s = takeInterrupt q { u with irq := rest }) ∧
    (s.irq = [] → (aborts u ∨
        readable u ∧ matchEnds o.matching (e u) (u.regValue .int n 4) = false ∧
          u.mapped u.space .write (u.reg 2) n = false) →
      exec i s = takeTrap .abt u)

/-- Rules R183, R185, R233: a string instruction stopped part-way keeps its progress: by an interrupt, by the
read of an element, for MOVST by the read of its translation, or by the store (log entries 10, 29). -/
def Obligations.StringProgress : Prop :=
  (∀ o, StringStops (.movsb o) o (State.element 1) (State.elementReadable 1) (State.elementAborts 1)) ∧
  (∀ o, StringStops (.movsw o) o (State.element 2) (State.elementReadable 2) (State.elementAborts 2)) ∧
  (∀ o, StringStops (.movsd o) o (State.element 4) (State.elementReadable 4) (State.elementAborts 4)) ∧
  ∀ o, StringStops (.movst o) o State.translated State.translationReadable State.translationAborts

/-! ## MOVUSi and RDVAL (44_memory_management.md) -/

/-- One MOVUSi in Supervisor mode: a User-space read, then a Supervisor-space write. Nothing else changes;
a read or a write that aborts is Trap(ABT) with nothing changed. -/
def Sys2Proof.Machine.UserMoveRuns {n : Nat} (i : Instr) (src dst : Gen n) : Prop :=
  ∀ (s : State) (ls ld : Loc n) (sa da : Word), i.wellFormed = true → s.psr.u = false →
    locate src s = .ok ls → locate dst s = .ok ld → ls.address s = some sa → ld.address s = some da →
    (s.fits i.length = true → Readable s .user sa n → Writable s .supervisor da n →
      exec i s = .next { s.store .supervisor da (s.memValue .user sa n) with pc := s.after i } ∧
      MemoryKept s { s.store .supervisor da (s.memValue .user sa n) with pc := s.after i }
        .supervisor (some da) n) ∧
    (s.mapped .user .read sa n = false → exec i s = takeTrap .abt s) ∧
    (Readable s .user sa n → s.mapped .supervisor .write da n = false → exec i s = takeTrap .abt s)

/-- Rules R70, R190, R191, R233: MOVUSB, MOVUSW, MOVUSD (log entry 35); a trapped one changes nothing (G43,
log entry 30). -/
def Obligations.UserMoveCompletes : Prop :=
  (∀ src dst, UserMoveRuns (.movusb src dst) src dst) ∧
  (∀ src dst, UserMoveRuns (.movusw src dst) src dst) ∧
  ∀ src dst, UserMoveRuns (.movusd src dst) src dst

/-- Rules R193, R194: RDVAL in Supervisor mode changes F and PC alone; F = 1 exactly when loc may not be
read in User mode; an invalid Level 1 entry is Trap(ABT). Nothing need hold of the byte at
loc (log entry 38). -/
def Obligations.ValidateCompletes : Prop :=
  ∀ (loc : Gen 4) (s : State) (l : Loc 4) (a : Word), (Instr.rdval loc).wellFormed = true →
    s.cfg.m = true → s.psr.u = false → locate loc s = .ok l → l.address s = some a →
    (s.l1Valid (busAddress a) = true → s.fits (Instr.rdval loc).length = true →
      exec (.rdval loc) s = .next { s with
        psr := { s.psr with f := !s.userReadAllowed (busAddress a) }, pc := s.after (.rdval loc) }) ∧
    (s.l1Valid (busAddress a) = false → exec (.rdval loc) s = takeTrap .abt s)

/-- Rules R235, R237, R242: the privileged instructions are MOVUSi, RDVAL, RETI, RETT. Attempted with
PSR.U = 1 each takes Trap(ILL), whatever PSR.S, from an unchanged state; RDVAL with CFG.M = 0 takes
Trap(UND) first, in either mode (decision D6, log entry 30). -/
def Obligations.PrivilegedTraps : Prop :=
  (∀ (i : Instr) (s : State), i.privileged = true → i.wellFormed = true → s.psr.u = true →
    (∀ loc, i = .rdval loc → s.cfg.m = true) → exec i s = takeTrap .ill s) ∧
  ∀ (loc : Gen 4) (s : State), (Instr.rdval loc).wellFormed = true → s.cfg.m = false →
    exec (.rdval loc) s = takeTrap .und s

/-! ## RESTORE, RET, RETI, RETT (46_restore_returns.md) -/

/-- Rules R68, R111, R210: each listed register takes its double-word, R7 the lowest; SP rises by 4 for
each; memory and every other register are unchanged (what the step then does with the bytes popped is
PushThenPop, log entry 43). -/
def Obligations.RestoreCompletes : Prop :=
  ∀ (m : BitVec 8) (s : State), s.fits 2 = true →
    (∀ r, listed m r = true → Readable s s.space (s.slot m r) 4) →
    ∃ t, exec (.restore m) s = .next t ∧
      (∀ r, t.reg r = if listed m r then s.memValue s.space (s.slot m r) 4 else s.reg r) ∧
      t = { s.setSp (s.sp + BitVec.ofNat 32 (4 * listedCount m)) with
        regs := t.regs, pc := s.pc + 2#32 }

/-- Rules R68, R212: RET pops PC, then adds the constant to SP; nothing else changes. -/
def Obligations.RetCompletes : Prop :=
  ∀ (d : Disp) (s : State), Readable s s.space s.sp 4 →
    exec (.ret d) s =
      .next { s.setSp (s.sp + 4#32 + dispValue d) with pc := s.memValue s.space s.sp 4 }

/-- Rules R214, R215, R218, R219: RETI in Supervisor mode emits one EOI, takes the frame from the stack
pointer selected at the start, and reloads SB; nothing else changes. The Module Table is read in Supervisor
space (D29, log entry 28), and one EOI is counted for each RETI (log entry 27). -/
def Obligations.RetiCompletes : Prop :=
  ∀ s : State, s.psr.u = false → FrameReady s →
    exec .reti s = .next { s with
      pc := s.memValue .supervisor s.sp 4
      mod := s.memValue .supervisor (s.sp + 4#32) 2
      psr := Psr.ofBits (s.memValue .supervisor (s.sp + 6#32) 2)
      sb := s.memValue .supervisor (s.frameMod.setWidth 32) 4
      sp0 := if s.psr.s then s.sp0 else s.sp0 + 8#32
      sp1 := if s.psr.s then s.sp1 + 8#32 else s.sp1
      eois := s.eois + 1 }

/-- Rules R215, R216: RETT the same without EOI, and the constant is then added to the stack pointer that
the new PSR selects (log entry 28 for the Module Table's space). -/
def Obligations.RettCompletes : Prop :=
  ∀ (d : Disp) (s : State), s.psr.u = false → FrameReady s →
    exec (.rett d) s = .next { s with
      pc := s.memValue .supervisor s.sp 4
      mod := s.memValue .supervisor (s.sp + 4#32) 2
      psr := Psr.ofBits (s.memValue .supervisor (s.sp + 6#32) 2)
      sb := s.memValue .supervisor (s.frameMod.setWidth 32) 4
      sp0 := (if s.psr.s then s.sp0 else s.sp0 + 8#32) +
        (if s.framePsr.s then 0#32 else dispValue d)
      sp1 := (if s.psr.s then s.sp1 + 8#32 else s.sp1) +
        (if s.framePsr.s then dispValue d else 0#32) }

/-- Rules R218, R233, R252: where a return stops: an access that aborts (RET's one; any of the frame's three
and the Module Table entry's for RETT and RETI) is Trap(ABT) from an unchanged state, SP included, for RET
and RETT, and is refused for RETI, whose EOI cannot be taken back; a frame whose PSR has T = 1 or P = 1 is
refused. That the popped SP is restored is the spec's general knowledge G43, and that T and P are judged
before the Module Table is read is the model's order (log entries 26, 27, 30). -/
def Obligations.ReturnStops : Prop :=
  ∀ (d : Disp) (s : State),
    (s.mapped s.space .read s.sp 4 = false → exec (.ret d) s = takeTrap .abt s) ∧
    (s.psr.u = false → s.frameAborts →
      exec (.rett d) s = takeTrap .abt s ∧ exec .reti s = .refused (.abortAfterEoi s.pc)) ∧
    (s.psr.u = false → Readable s .supervisor s.sp 4 → Readable s .supervisor (s.sp + 4#32) 2 →
      Readable s .supervisor (s.sp + 6#32) 2 → (s.framePsr.t = true ∨ s.framePsr.p = true) →
      exec (.rett d) s = .refused (.traceMode s.pc) ∧ exec .reti s = .refused (.traceMode s.pc))

/-! ## Exceptions (60_exceptions.md) -/

/-- Rules R231, R245, R246, R275: the vector numbers, NVI 0, NMI 1, ABT 2, FPU 3, ILL 4, DVZ 6, UND 10 and a
vectored interrupt's own, which are the spec's general knowledge G44 (log entry 9). Under TRAP_ENTRY = fault a
trap ends the run with the trap, PC and the state it is taken in as what is observed (log entry 44); under
`sequence` the service procedure of its vector begins, the frame below SP0 holding PSR, MOD and the trapping
instruction's address, bits 3, 4 and 12 to 15 of that PSR being 0 by the model's choice (log entry 25);
whichever access of the sequence aborts, three reads or three pushes, is refused, for a trap and for an
interrupt (log entries 9, 32). -/
def Obligations.TrapEntrySequence : Prop :=
  (Interrupt.vector .nvi = 0#32 ∧ Interrupt.vector .nmi = 1#32 ∧ Trap.vector .abt = 2#32 ∧
    Trap.vector .fpu = 3#32 ∧ Trap.vector .ill = 4#32 ∧ Trap.vector .dvz = 6#32 ∧ Trap.vector .und = 10#32 ∧
    ∀ n, Interrupt.vector (.vec n) = n) ∧
  ∀ (k : Trap) (s : State),
    (s.trapEntry = .fault → takeTrap k s = .fault (.trap k s)) ∧
    (s.trapEntry = .sequence → EntryReady k.vector s →
      takeTrap k s = .next (s.entered k.vector s.pc false)) ∧
    (s.trapEntry = .sequence → s.entryAborts k.vector → takeTrap k s = .refused (.faultInEntry s.pc)) ∧
    ∀ q : Interrupt, (EntryReady q.vector s → takeInterrupt q s = .next (s.entered q.vector s.pc true)) ∧
      (s.entryAborts q.vector → takeInterrupt q s = .refused (.faultInEntry s.pc))

/-- Rules R222, R244, R245: what entry leaves: the 8-byte frame, Supervisor mode on SP0 with T and P
clear and the flags kept, the module's MOD, SB and address, interrupts masked by an interrupt and left
by a trap, and everything else unchanged. The sequence is the spec's general knowledge G45 (log entry 9), and
that bits 3, 4 and 12 to 15 of the pushed PSR are 0 is the model's choice (log entry 25). -/
def Obligations.EnteredState : Prop :=
  ∀ (s : State) (v ra : Word) (interrupt : Bool), s.translating = false →
    let t := s.entered v ra interrupt
    t.memValue .supervisor t.sp0 4 = ra ∧ t.memValue .supervisor (t.sp0 + 4#32) 2 = s.mod ∧
    t.memValue .supervisor (t.sp0 + 6#32) 2 = s.psr.toBits ∧ t.sp0 = s.sp0 - 8#32 ∧
    t.psr = { s.psr with
      s := false, u := false, t := false, p := false, i := if interrupt then false else s.psr.i } ∧
    t.mod = s.serviceModule v ∧ t.pc = s.serviceAddress v ∧
    t.sb = s.memValue .supervisor ((s.serviceModule v).setWidth 32) 4 ∧
    (∀ x, (∀ j < 8, busAddress (byteAt t.sp0 j) ≠ x) → t.mem.read x = s.mem.read x) ∧
    t = { s with
      psr := t.psr, mod := t.mod, sb := t.sb, pc := t.pc, sp0 := t.sp0, mem := t.mem }

/-- Rules R216, R222, R245, R246: entry, then RETT 0, is back where it was: same PC, MOD, PSR, stack
pointers and registers, with SB reloaded from the Module Table entry, if the frame did not overwrite that
entry (log entry 9). -/
def Obligations.EntryThenReturn : Prop :=
  ∀ (s : State) (v ra : Word) (interrupt : Bool), s.translating = false → s.psr.t = false →
    s.psr.p = false → Readable s .supervisor (s.mod.setWidth 32) 4 →
    (∀ j < 8, ∀ l < 4, busAddress (byteAt (s.sp0 - 8#32) j) ≠ busAddress (byteAt (s.mod.setWidth 32) l)) →
    exec (.rett (.short 0#7)) (s.entered v ra interrupt) =
      .next { s with
        pc := ra
        sb := s.memValue .supervisor (s.mod.setWidth 32) 4
        mem := (s.entered v ra interrupt).mem }

/-- Rule R240: at a boundary short of the end address (log entry 44) the environment's interrupt is taken when
it is presented, `nmi` always and the others only with PSR.I = 1; an interrupt that is masked, or presented
under TRAP_ENTRY = fault, is passed over (the model's choice, log entry 10). The entry is that of log entries
9 and 25. -/
def Obligations.InterruptBoundary : Prop :=
  ∀ (s : State) (q : Interrupt) (rest : List (Option Interrupt)), s.irq = some q :: rest →
    s.finished = false →
    (s.trapEntry = .sequence → q = .nmi ∨ s.psr.i = true → EntryReady q.vector s →
      step s = .next (({ s with irq := rest }).entered q.vector s.pc true)) ∧
    (s.trapEntry = .fault ∨ q ≠ .nmi ∧ s.psr.i = false → step s = step { s with irq := none :: rest })

/-- One two-operand instruction one of whose addresses takes a pointer fetch that aborts: Trap(ABT) with the
state as it was. -/
def Sys2Proof.Machine.AddressAborts {n m : Nat} (i : Instr) (src : Gen n) (dst : Gen m) : Prop :=
  ∀ s : State, i.wellFormed = true → i.Permitted s →
    (locate src s = .error (.trap .abt) ∨
      ∃ ls, locate src s = .ok ls ∧ locate dst s = .error (.trap .abt)) →
    exec i s = takeTrap .abt s

/-- One two-operand instruction whose source read aborts: Trap(ABT) with the state as it was. -/
def Sys2Proof.Machine.SourceAborts {n m : Nat} (i : Instr) (src : Gen n) (dst : Gen m) : Prop :=
  ∀ (s : State) (ls : Loc n) (ld : Loc m) (a : Word), i.wellFormed = true → i.Permitted s →
    locate src s = .ok ls → locate dst s = .ok ld → ls.address s = some a →
    s.mapped s.space .read a n = false → exec i s = takeTrap .abt s

/-- The aborts of one instruction with dest of class write. Where the write of dest aborts, `stores` saying
that the source's value has a result to store, it is Trap(ABT) with the state as it was, SP included where
the source was popped. -/
def Sys2Proof.Machine.MoveAborts {n m : Nat} (i : Instr) (k : Bank) (src : Gen n) (dst : Gen m)
    (stores : BitVec (8 * n) → State → Prop) : Prop :=
  AddressAborts i src dst ∧ SourceAborts i src dst ∧
  ∀ (s : State) (ls : Loc n) (ld : Loc m) (a : Word), i.wellFormed = true → i.Permitted s →
    locate src s = .ok ls → locate dst s = .ok ld → ls.readable s →
    stores (ls.value k s) s → ld.target (ls.popped s) = some a →
    s.mapped s.space .write a m = false → exec i s = takeTrap .abt s

/-- The aborts of one instruction with dest of class rmw: as above, and dest's read may abort as well. -/
def Sys2Proof.Machine.UpdateAborts {n : Nat} (i : Instr) (k : Bank) (src dst : Gen n)
    (stores : BitVec (8 * n) → BitVec (8 * n) → State → Prop) : Prop :=
  AddressAborts i src dst ∧ SourceAborts i src dst ∧
  ∀ (s : State) (ls ld : Loc n) (a : Word), i.wellFormed = true → i.Permitted s →
    locate src s = .ok ls → locate dst s = .ok ld → ls.readable s →
    ld.place (ls.popped s) = some a →
    (s.mapped s.space .read a n = false → exec i s = takeTrap .abt s) ∧
    (Readable s s.space a n → stores (ls.value k s) (ld.value k (ls.popped s)) s →
      s.mapped s.space .write a n = false → exec i s = takeTrap .abt s)

/-- The aborts of one quick move: dest's address or its write. -/
def Sys2Proof.Machine.QuickAborts {m : Nat} (i : Instr) (dst : Gen m) : Prop :=
  ∀ s : State, i.wellFormed = true →
    (locate dst s = .error (.trap .abt) → exec i s = takeTrap .abt s) ∧
    ∀ (ld : Loc m) (a : Word), locate dst s = .ok ld → ld.target s = some a →
      s.mapped s.space .write a m = false → exec i s = takeTrap .abt s

/-- Rules R233, R236: Trap(ABT) is precise: it is taken with the state as it was at the start of the
instruction, whichever operand access of a two-operand instruction, a quick move, RDVAL or RESTORE aborts,
those before it having completed. The state being restored is the spec's general knowledge G43, and the
order of the accesses is that of log entry 30. UserMoveCompletes, StringProgress and ReturnStops say the
same of the accesses of MOVUSi, of the strings and of the returns. -/
def Obligations.AbortsArePrecise : Prop :=
  ((∀ src dst, UpdateAborts (.modb src dst) .int src dst fun v _ _ => v ≠ 0) ∧
    (∀ src dst, UpdateAborts (.modw src dst) .int src dst fun v _ _ => v ≠ 0) ∧
    (∀ src dst, UpdateAborts (.modd src dst) .int src dst fun v _ _ => v ≠ 0) ∧
    (∀ src dst, UpdateAborts (.remb src dst) .int src dst fun v _ _ => v ≠ 0) ∧
    (∀ src dst, UpdateAborts (.remw src dst) .int src dst fun v _ _ => v ≠ 0) ∧
    ∀ src dst, UpdateAborts (.remd src dst) .int src dst fun v _ _ => v ≠ 0) ∧
  ((∀ quick dst, QuickAborts (.movqb quick dst) dst) ∧ (∀ quick dst, QuickAborts (.movqw quick dst) dst) ∧
    ∀ quick dst, QuickAborts (.movqd quick dst) dst) ∧
  ((∀ src dst, MoveAborts (.movxbw src dst) .int src dst fun _ _ => True) ∧
    (∀ src dst, MoveAborts (.movxbd src dst) .int src dst fun _ _ => True) ∧
    (∀ src dst, MoveAborts (.movxwd src dst) .int src dst fun _ _ => True) ∧
    (∀ src dst, MoveAborts (.movzbw src dst) .int src dst fun _ _ => True) ∧
    (∀ src dst, MoveAborts (.movzbd src dst) .int src dst fun _ _ => True) ∧
    ∀ src dst, MoveAborts (.movzwd src dst) .int src dst fun _ _ => True) ∧
  ((∀ src dst, MoveAborts (.negb src dst) .int src dst fun _ _ => True) ∧
    (∀ src dst, MoveAborts (.negw src dst) .int src dst fun _ _ => True) ∧
    (∀ src dst, MoveAborts (.negd src dst) .int src dst fun _ _ => True) ∧
    (∀ src dst, MoveAborts (.notb src dst) .int src dst fun _ _ => True) ∧
    (∀ src dst, MoveAborts (.notw src dst) .int src dst fun _ _ => True) ∧
    ∀ src dst, MoveAborts (.notd src dst) .int src dst fun _ _ => True) ∧
  ((∀ src dst, MoveAborts (.movbf src dst) .int src dst fun v s =>
      (convertInt .single 32 v s.fsr s.free).stores = true) ∧
    (∀ src dst, MoveAborts (.movwf src dst) .int src dst fun v s =>
      (convertInt .single 32 v s.fsr s.free).stores = true) ∧
    (∀ src dst, MoveAborts (.movdf src dst) .int src dst fun v s =>
      (convertInt .single 32 v s.fsr s.free).stores = true) ∧
    (∀ src dst, MoveAborts (.movbl src dst) .int src dst fun v s =>
      (convertInt .double 64 v s.fsr s.free).stores = true) ∧
    (∀ src dst, MoveAborts (.movwl src dst) .int src dst fun v s =>
      (convertInt .double 64 v s.fsr s.free).stores = true) ∧
    (∀ src dst, MoveAborts (.movdl src dst) .int src dst fun v s =>
      (convertInt .double 64 v s.fsr s.free).stores = true) ∧
    (∀ src dst, MoveAborts (.movfl src dst) .float src dst fun v s => (widen v s.fsr).stores = true) ∧
    ∀ src dst, MoveAborts (.movlf src dst) .float src dst fun v s =>
      (narrow v s.fsr s.free).stores = true) ∧
  ((∀ src dst, UpdateAborts (.mulf src dst) .float src dst fun a b s =>
      (multiply .single a b s.fsr s.free).stores = true) ∧
    ∀ src dst, UpdateAborts (.mull src dst) .float src dst fun a b s =>
      (multiply .double a b s.fsr s.free).stores = true) ∧
  ((∀ src dst, AddressAborts (.movusb src dst) src dst) ∧
    (∀ src dst, AddressAborts (.movusw src dst) src dst) ∧
    (∀ src dst, AddressAborts (.movusd src dst) src dst) ∧
    ∀ (loc : Gen 4) (s : State), (Instr.rdval loc).wellFormed = true → (Instr.rdval loc).Permitted s →
      locate loc s = .error (.trap .abt) → exec (.rdval loc) s = takeTrap .abt s) ∧
  ∀ (m : BitVec 8) (s : State) (r : Fin 8), listed m r = true →
    (∀ q, listed m q = true → r < q → Readable s s.space (s.slot m q) 4) →
    s.mapped s.space .read (s.slot m r) 4 = false → exec (.restore m) s = takeTrap .abt s

/-! ## The step -/

/-- Rules R74, R123, R240, R275: where no interrupt is taken at the boundary, a step runs the instruction that
the bytes at PC decode to, from the state `u` with that boundary behind it: the first entry of `irq` is used
up, and the state is `s` itself where nothing is presented any more (the list is log entry 10). Around it the
step does one thing: the bytes the instruction uncovered below a stack pointer are settled (rule R68,
PushThenPop, log entry 43), which leaves a fault, a refusal, a state under TRAP_ENTRY = fault with nothing
left to present, and one whose stack pointers have not risen, as they are. At the end address it ends the run,
whatever stands there and whatever is presented (the model's order, log entry 44). -/
def Obligations.StepRunsDecoded : Prop :=
  (∀ (s : State) (i : Instr) (rest : List Byte), s.finished = false → NoneTaken s →
    decode (fetch s).1 = .ok (i, rest) →
    let u := { s with irq := s.irq.tail }
    (s.irq = [] → u = s) ∧
    step s = settle u (exec i u) ∧
    (s.trapEntry = .fault → u.irq = [] → step s = exec i u) ∧
    (∀ t, exec i u = .next t → step s = .next (u.settled t)) ∧
    (∀ t, exec i u = .next t → rise u t false = 0 → rise u t true = 0 → step s = exec i u) ∧
    (∀ f, exec i u = .fault f → step s = .fault f) ∧
    ∀ r, exec i u = .refused r → step s = .refused r) ∧
  ∀ s : State, s.endAt = some (busAddress s.pc) → step s = .fault (.done s)

/-- Rules R24, R38, R74, R123, R236, R240: the same from the bytes themselves: where no interrupt is taken at
the boundary and the words of an admitted instruction can be fetched at PC, a step runs it from the state with
the boundary behind it (log entry 10), and what it uncovered below a stack pointer is settled (rule R68,
PushThenPop, log entry 43). A first byte whose fetch aborts is Trap(ABT); one that holds no value is refused
(log entries 8, 36). -/
def Obligations.StepRunsStored : Prop :=
  ∀ s : State, s.finished = false → NoneTaken s →
    let u := { s with irq := s.irq.tail }
    (∀ i : Instr, i.wellFormed = true →
      (∀ (k : Nat) (b : Byte), (encode i)[k]? = some b → fetchByte s k = .ok b) →
      step s = settle u (exec i u)) ∧
    (s.physical s.space .fetch s.pc = none → step s = takeTrap .abt u) ∧
    ∀ x, s.physical s.space .fetch s.pc = some x → s.mem.read x = none →
      step s = .refused (.unwritten s.pc)

/-! ## Every step of every run -/

/-- Reset satisfies the invariant. -/
def Obligations.ResetInvariant : Prop :=
  Inv State.reset

/-- Every step keeps the invariant: memory stays in canonical form, T and P stay 0 (log entries 26, 41). -/
def Obligations.InvariantKept : Prop :=
  ∀ s t : State, Inv s → step s = .next t → Inv t

/-- Rules R27, R33 to R36, R161, R272, R275: no step changes FP, CFG, INTBASE, the memory-management state,
the text marks, TRAP_ENTRY, the end address, the rounding mode, the trap enables or the software field, or
clears UF or IF. -/
def Obligations.PlatformConstant : Prop :=
  ∀ s t : State, step s = .next t → PlatformKept s t ∧
    t.fsr.rm = s.fsr.rm ∧ t.fsr.uen = s.fsr.uen ∧ t.fsr.ien = s.fsr.ien ∧ t.fsr.swf = s.fsr.swf ∧
    (s.fsr.uf = true → t.fsr.uf = true) ∧ (s.fsr.inx = true → t.fsr.inx = true)

/-- Rule R77: program text never changes. The marks are ranges of physical addresses (log entry 12). -/
def Obligations.TextNeverChanges : Prop :=
  ∀ (s t : State) (x : Nat), step s = .next t → inRanges s.text x = true → t.mem.read x = s.mem.read x

/-- Rules R247, R248: a step from User mode that does not enter a service procedure stays in User mode,
keeps the mode bits, MOD, SB, the EOI count and the platform's state, and changes only bytes that User
space may write. One that does is so confined up to the state `u` its entry starts from, PC and both stack
pointers as before the step, and then begins the procedure of some vector in Supervisor mode on SP0. The
entry sequence is the spec's general knowledge G44, G45 (log entry 9), and SP restored G43 (log entry
30). -/
def Obligations.UserConfinement : Prop :=
  ∀ s t : State, s.psr.u = true → step s = .next t →
    Confined s t ∨
    ∃ (u : State) (v : Word) (interrupt : Bool), t = u.entered v u.pc interrupt ∧
      Confined s u ∧ u.pc = s.pc ∧ u.sp0 = s.sp0 ∧ u.sp1 = s.sp1 ∧ s.trapEntry = .sequence ∧
      EntryReady v u ∧ t.psr.u = false ∧ t.psr.s = false

/-- Rules R214, R218: a step emits at most one EOI, and only RETI, in Supervisor mode, emits one (log entry
27). -/
def Obligations.OnlyRetiEmits : Prop :=
  ∀ s t : State, step s = .next t →
    t.eois = s.eois ∨
    t.eois = s.eois + 1 ∧ s.psr.u = false ∧
      ∃ rest, decode (fetch s).1 = .ok (.reti, rest)

/-- Rules R22, R34, R161: a step that runs an instruction which is not one of the floating-point
instructions, or that takes an interrupt, whatever stands at PC, changes no F register and nothing of the
FSR, and draws no free value but for bytes a stack pointer has risen past (log entry 43). -/
def Obligations.FloatStateFrame : Prop :=
  ∀ s t : State, step s = .next t →
    ((boundary s).1 = none → ∀ i rest, decode (fetch s).1 = .ok (i, rest) → i.isFloat = false) →
    t.fregs = s.fregs ∧ t.fsr = s.fsr ∧
      (t.free = s.free ∨ 0 < rise s t false ∨ 0 < rise s t true)
end

