-- ==== Sys2Proof/Laws/State.lean ====
section
/-! SUPPORT. One lemma per field per update of the state, so that no proof unfolds a record update. -/

namespace Sys2Proof.Machine

/-! ## A general register -/

@[simp] theorem State.setReg_fregs (s : State) (r : Fin 8) (v : Word) : (s.setReg r v).fregs = s.fregs := rfl
@[simp] theorem State.setReg_pc (s : State) (r : Fin 8) (v : Word) : (s.setReg r v).pc = s.pc := rfl
@[simp] theorem State.setReg_sp0 (s : State) (r : Fin 8) (v : Word) : (s.setReg r v).sp0 = s.sp0 := rfl
@[simp] theorem State.setReg_sp1 (s : State) (r : Fin 8) (v : Word) : (s.setReg r v).sp1 = s.sp1 := rfl
@[simp] theorem State.setReg_fp (s : State) (r : Fin 8) (v : Word) : (s.setReg r v).fp = s.fp := rfl
@[simp] theorem State.setReg_sb (s : State) (r : Fin 8) (v : Word) : (s.setReg r v).sb = s.sb := rfl
@[simp] theorem State.setReg_mod (s : State) (r : Fin 8) (v : Word) : (s.setReg r v).mod = s.mod := rfl
@[simp] theorem State.setReg_psr (s : State) (r : Fin 8) (v : Word) : (s.setReg r v).psr = s.psr := rfl
@[simp] theorem State.setReg_cfg (s : State) (r : Fin 8) (v : Word) : (s.setReg r v).cfg = s.cfg := rfl
@[simp] theorem State.setReg_fsr (s : State) (r : Fin 8) (v : Word) : (s.setReg r v).fsr = s.fsr := rfl
@[simp] theorem State.setReg_intbase (s : State) (r : Fin 8) (v : Word) : (s.setReg r v).intbase = s.intbase := rfl
@[simp] theorem State.setReg_mem (s : State) (r : Fin 8) (v : Word) : (s.setReg r v).mem = s.mem := rfl
@[simp] theorem State.setReg_mmu (s : State) (r : Fin 8) (v : Word) : (s.setReg r v).mmu = s.mmu := rfl
@[simp] theorem State.setReg_text (s : State) (r : Fin 8) (v : Word) : (s.setReg r v).text = s.text := rfl
@[simp] theorem State.setReg_trapEntry (s : State) (r : Fin 8) (v : Word) : (s.setReg r v).trapEntry = s.trapEntry := rfl
@[simp] theorem State.setReg_endAt (s : State) (r : Fin 8) (v : Word) : (s.setReg r v).endAt = s.endAt := rfl
@[simp] theorem State.setReg_irq (s : State) (r : Fin 8) (v : Word) : (s.setReg r v).irq = s.irq := rfl
@[simp] theorem State.setReg_eois (s : State) (r : Fin 8) (v : Word) : (s.setReg r v).eois = s.eois := rfl
@[simp] theorem State.setReg_free (s : State) (r : Fin 8) (v : Word) : (s.setReg r v).free = s.free := rfl

/-! ## A floating register -/

@[simp] theorem State.setFreg_regs (s : State) (r : Fin 8) (v : Word) : (s.setFreg r v).regs = s.regs := rfl
@[simp] theorem State.setFreg_pc (s : State) (r : Fin 8) (v : Word) : (s.setFreg r v).pc = s.pc := rfl
@[simp] theorem State.setFreg_sp0 (s : State) (r : Fin 8) (v : Word) : (s.setFreg r v).sp0 = s.sp0 := rfl
@[simp] theorem State.setFreg_sp1 (s : State) (r : Fin 8) (v : Word) : (s.setFreg r v).sp1 = s.sp1 := rfl
@[simp] theorem State.setFreg_fp (s : State) (r : Fin 8) (v : Word) : (s.setFreg r v).fp = s.fp := rfl
@[simp] theorem State.setFreg_sb (s : State) (r : Fin 8) (v : Word) : (s.setFreg r v).sb = s.sb := rfl
@[simp] theorem State.setFreg_mod (s : State) (r : Fin 8) (v : Word) : (s.setFreg r v).mod = s.mod := rfl
@[simp] theorem State.setFreg_psr (s : State) (r : Fin 8) (v : Word) : (s.setFreg r v).psr = s.psr := rfl
@[simp] theorem State.setFreg_cfg (s : State) (r : Fin 8) (v : Word) : (s.setFreg r v).cfg = s.cfg := rfl
@[simp] theorem State.setFreg_fsr (s : State) (r : Fin 8) (v : Word) : (s.setFreg r v).fsr = s.fsr := rfl
@[simp] theorem State.setFreg_intbase (s : State) (r : Fin 8) (v : Word) : (s.setFreg r v).intbase = s.intbase := rfl
@[simp] theorem State.setFreg_mem (s : State) (r : Fin 8) (v : Word) : (s.setFreg r v).mem = s.mem := rfl
@[simp] theorem State.setFreg_mmu (s : State) (r : Fin 8) (v : Word) : (s.setFreg r v).mmu = s.mmu := rfl
@[simp] theorem State.setFreg_text (s : State) (r : Fin 8) (v : Word) : (s.setFreg r v).text = s.text := rfl
@[simp] theorem State.setFreg_trapEntry (s : State) (r : Fin 8) (v : Word) : (s.setFreg r v).trapEntry = s.trapEntry := rfl
@[simp] theorem State.setFreg_endAt (s : State) (r : Fin 8) (v : Word) : (s.setFreg r v).endAt = s.endAt := rfl
@[simp] theorem State.setFreg_irq (s : State) (r : Fin 8) (v : Word) : (s.setFreg r v).irq = s.irq := rfl
@[simp] theorem State.setFreg_eois (s : State) (r : Fin 8) (v : Word) : (s.setFreg r v).eois = s.eois := rfl
@[simp] theorem State.setFreg_free (s : State) (r : Fin 8) (v : Word) : (s.setFreg r v).free = s.free := rfl

/-! ## The selected stack pointer -/

@[simp] theorem State.setSp_regs (s : State) (v : Word) : (s.setSp v).regs = s.regs := by
  unfold State.setSp; split <;> rfl
@[simp] theorem State.setSp_fregs (s : State) (v : Word) : (s.setSp v).fregs = s.fregs := by
  unfold State.setSp; split <;> rfl
@[simp] theorem State.setSp_pc (s : State) (v : Word) : (s.setSp v).pc = s.pc := by
  unfold State.setSp; split <;> rfl
@[simp] theorem State.setSp_fp (s : State) (v : Word) : (s.setSp v).fp = s.fp := by
  unfold State.setSp; split <;> rfl
@[simp] theorem State.setSp_sb (s : State) (v : Word) : (s.setSp v).sb = s.sb := by
  unfold State.setSp; split <;> rfl
@[simp] theorem State.setSp_mod (s : State) (v : Word) : (s.setSp v).mod = s.mod := by
  unfold State.setSp; split <;> rfl
@[simp] theorem State.setSp_psr (s : State) (v : Word) : (s.setSp v).psr = s.psr := by
  unfold State.setSp; split <;> rfl
@[simp] theorem State.setSp_cfg (s : State) (v : Word) : (s.setSp v).cfg = s.cfg := by
  unfold State.setSp; split <;> rfl
@[simp] theorem State.setSp_fsr (s : State) (v : Word) : (s.setSp v).fsr = s.fsr := by
  unfold State.setSp; split <;> rfl
@[simp] theorem State.setSp_intbase (s : State) (v : Word) : (s.setSp v).intbase = s.intbase := by
  unfold State.setSp; split <;> rfl
@[simp] theorem State.setSp_mem (s : State) (v : Word) : (s.setSp v).mem = s.mem := by
  unfold State.setSp; split <;> rfl
@[simp] theorem State.setSp_mmu (s : State) (v : Word) : (s.setSp v).mmu = s.mmu := by
  unfold State.setSp; split <;> rfl
@[simp] theorem State.setSp_text (s : State) (v : Word) : (s.setSp v).text = s.text := by
  unfold State.setSp; split <;> rfl
@[simp] theorem State.setSp_trapEntry (s : State) (v : Word) : (s.setSp v).trapEntry = s.trapEntry := by
  unfold State.setSp; split <;> rfl
@[simp] theorem State.setSp_endAt (s : State) (v : Word) : (s.setSp v).endAt = s.endAt := by
  unfold State.setSp; split <;> rfl
@[simp] theorem State.setSp_irq (s : State) (v : Word) : (s.setSp v).irq = s.irq := by
  unfold State.setSp; split <;> rfl
@[simp] theorem State.setSp_eois (s : State) (v : Word) : (s.setSp v).eois = s.eois := by
  unfold State.setSp; split <;> rfl
@[simp] theorem State.setSp_free (s : State) (v : Word) : (s.setSp v).free = s.free := by
  unfold State.setSp; split <;> rfl

/-! ## A store -/

@[simp] theorem State.store_regs (s : State) (sp : Space) (a : Word) {n : Nat} (v : BitVec (8 * n)) : (s.store sp a v).regs = s.regs := rfl
@[simp] theorem State.store_fregs (s : State) (sp : Space) (a : Word) {n : Nat} (v : BitVec (8 * n)) : (s.store sp a v).fregs = s.fregs := rfl
@[simp] theorem State.store_pc (s : State) (sp : Space) (a : Word) {n : Nat} (v : BitVec (8 * n)) : (s.store sp a v).pc = s.pc := rfl
@[simp] theorem State.store_sp0 (s : State) (sp : Space) (a : Word) {n : Nat} (v : BitVec (8 * n)) : (s.store sp a v).sp0 = s.sp0 := rfl
@[simp] theorem State.store_sp1 (s : State) (sp : Space) (a : Word) {n : Nat} (v : BitVec (8 * n)) : (s.store sp a v).sp1 = s.sp1 := rfl
@[simp] theorem State.store_fp (s : State) (sp : Space) (a : Word) {n : Nat} (v : BitVec (8 * n)) : (s.store sp a v).fp = s.fp := rfl
@[simp] theorem State.store_sb (s : State) (sp : Space) (a : Word) {n : Nat} (v : BitVec (8 * n)) : (s.store sp a v).sb = s.sb := rfl
@[simp] theorem State.store_mod (s : State) (sp : Space) (a : Word) {n : Nat} (v : BitVec (8 * n)) : (s.store sp a v).mod = s.mod := rfl
@[simp] theorem State.store_psr (s : State) (sp : Space) (a : Word) {n : Nat} (v : BitVec (8 * n)) : (s.store sp a v).psr = s.psr := rfl
@[simp] theorem State.store_cfg (s : State) (sp : Space) (a : Word) {n : Nat} (v : BitVec (8 * n)) : (s.store sp a v).cfg = s.cfg := rfl
@[simp] theorem State.store_fsr (s : State) (sp : Space) (a : Word) {n : Nat} (v : BitVec (8 * n)) : (s.store sp a v).fsr = s.fsr := rfl
@[simp] theorem State.store_intbase (s : State) (sp : Space) (a : Word) {n : Nat} (v : BitVec (8 * n)) : (s.store sp a v).intbase = s.intbase := rfl
@[simp] theorem State.store_mmu (s : State) (sp : Space) (a : Word) {n : Nat} (v : BitVec (8 * n)) : (s.store sp a v).mmu = s.mmu := rfl
@[simp] theorem State.store_text (s : State) (sp : Space) (a : Word) {n : Nat} (v : BitVec (8 * n)) : (s.store sp a v).text = s.text := rfl
@[simp] theorem State.store_trapEntry (s : State) (sp : Space) (a : Word) {n : Nat} (v : BitVec (8 * n)) : (s.store sp a v).trapEntry = s.trapEntry := rfl
@[simp] theorem State.store_endAt (s : State) (sp : Space) (a : Word) {n : Nat} (v : BitVec (8 * n)) : (s.store sp a v).endAt = s.endAt := rfl
@[simp] theorem State.store_irq (s : State) (sp : Space) (a : Word) {n : Nat} (v : BitVec (8 * n)) : (s.store sp a v).irq = s.irq := rfl
@[simp] theorem State.store_eois (s : State) (sp : Space) (a : Word) {n : Nat} (v : BitVec (8 * n)) : (s.store sp a v).eois = s.eois := rfl
@[simp] theorem State.store_free (s : State) (sp : Space) (a : Word) {n : Nat} (v : BitVec (8 * n)) : (s.store sp a v).free = s.free := rfl

/-! ## An operand in register mode -/

@[simp] theorem State.setRegValue_pc (s : State) (k : Bank) {n : Nat} (r : Fin 8) (v : BitVec (8 * n)) : (s.setRegValue k r v).pc = s.pc := by
  unfold State.setRegValue; split <;> [rfl; (split <;> rfl)]
@[simp] theorem State.setRegValue_sp0 (s : State) (k : Bank) {n : Nat} (r : Fin 8) (v : BitVec (8 * n)) : (s.setRegValue k r v).sp0 = s.sp0 := by
  unfold State.setRegValue; split <;> [rfl; (split <;> rfl)]
@[simp] theorem State.setRegValue_sp1 (s : State) (k : Bank) {n : Nat} (r : Fin 8) (v : BitVec (8 * n)) : (s.setRegValue k r v).sp1 = s.sp1 := by
  unfold State.setRegValue; split <;> [rfl; (split <;> rfl)]
@[simp] theorem State.setRegValue_fp (s : State) (k : Bank) {n : Nat} (r : Fin 8) (v : BitVec (8 * n)) : (s.setRegValue k r v).fp = s.fp := by
  unfold State.setRegValue; split <;> [rfl; (split <;> rfl)]
@[simp] theorem State.setRegValue_sb (s : State) (k : Bank) {n : Nat} (r : Fin 8) (v : BitVec (8 * n)) : (s.setRegValue k r v).sb = s.sb := by
  unfold State.setRegValue; split <;> [rfl; (split <;> rfl)]
@[simp] theorem State.setRegValue_mod (s : State) (k : Bank) {n : Nat} (r : Fin 8) (v : BitVec (8 * n)) : (s.setRegValue k r v).mod = s.mod := by
  unfold State.setRegValue; split <;> [rfl; (split <;> rfl)]
@[simp] theorem State.setRegValue_psr (s : State) (k : Bank) {n : Nat} (r : Fin 8) (v : BitVec (8 * n)) : (s.setRegValue k r v).psr = s.psr := by
  unfold State.setRegValue; split <;> [rfl; (split <;> rfl)]
@[simp] theorem State.setRegValue_cfg (s : State) (k : Bank) {n : Nat} (r : Fin 8) (v : BitVec (8 * n)) : (s.setRegValue k r v).cfg = s.cfg := by
  unfold State.setRegValue; split <;> [rfl; (split <;> rfl)]
@[simp] theorem State.setRegValue_fsr (s : State) (k : Bank) {n : Nat} (r : Fin 8) (v : BitVec (8 * n)) : (s.setRegValue k r v).fsr = s.fsr := by
  unfold State.setRegValue; split <;> [rfl; (split <;> rfl)]
@[simp] theorem State.setRegValue_intbase (s : State) (k : Bank) {n : Nat} (r : Fin 8) (v : BitVec (8 * n)) : (s.setRegValue k r v).intbase = s.intbase := by
  unfold State.setRegValue; split <;> [rfl; (split <;> rfl)]
@[simp] theorem State.setRegValue_mem (s : State) (k : Bank) {n : Nat} (r : Fin 8) (v : BitVec (8 * n)) : (s.setRegValue k r v).mem = s.mem := by
  unfold State.setRegValue; split <;> [rfl; (split <;> rfl)]
@[simp] theorem State.setRegValue_mmu (s : State) (k : Bank) {n : Nat} (r : Fin 8) (v : BitVec (8 * n)) : (s.setRegValue k r v).mmu = s.mmu := by
  unfold State.setRegValue; split <;> [rfl; (split <;> rfl)]
@[simp] theorem State.setRegValue_text (s : State) (k : Bank) {n : Nat} (r : Fin 8) (v : BitVec (8 * n)) : (s.setRegValue k r v).text = s.text := by
  unfold State.setRegValue; split <;> [rfl; (split <;> rfl)]
@[simp] theorem State.setRegValue_trapEntry (s : State) (k : Bank) {n : Nat} (r : Fin 8) (v : BitVec (8 * n)) : (s.setRegValue k r v).trapEntry = s.trapEntry := by
  unfold State.setRegValue; split <;> [rfl; (split <;> rfl)]
@[simp] theorem State.setRegValue_endAt (s : State) (k : Bank) {n : Nat} (r : Fin 8) (v : BitVec (8 * n)) : (s.setRegValue k r v).endAt = s.endAt := by
  unfold State.setRegValue; split <;> [rfl; (split <;> rfl)]
@[simp] theorem State.setRegValue_irq (s : State) (k : Bank) {n : Nat} (r : Fin 8) (v : BitVec (8 * n)) : (s.setRegValue k r v).irq = s.irq := by
  unfold State.setRegValue; split <;> [rfl; (split <;> rfl)]
@[simp] theorem State.setRegValue_eois (s : State) (k : Bank) {n : Nat} (r : Fin 8) (v : BitVec (8 * n)) : (s.setRegValue k r v).eois = s.eois := by
  unfold State.setRegValue; split <;> [rfl; (split <;> rfl)]
@[simp] theorem State.setRegValue_free (s : State) (k : Bank) {n : Nat} (r : Fin 8) (v : BitVec (8 * n)) : (s.setRegValue k r v).free = s.free := by
  unfold State.setRegValue; split <;> [rfl; (split <;> rfl)]

@[simp] theorem State.store_mem (s : State) (sp : Space) (a : Word) {n : Nat} (v : BitVec (8 * n)) :
    (s.store sp a v).mem = s.storeBytes sp a v := rfl

/-! ## Reading back a register -/

@[simp] theorem State.reg_setReg (s : State) (r q : Fin 8) (v : Word) :
    (s.setReg r v).reg q = if r = q then v else s.reg q := by
  simp only [State.reg, State.setReg, Fin.getElem_fin, Vector.getElem_set]
  by_cases h : r = q
  · simp [h]
  · simp [h, Fin.val_inj]

@[simp] theorem State.freg_setFreg (s : State) (r q : Fin 8) (v : Word) :
    (s.setFreg r v).freg q = if r = q then v else s.freg q := by
  simp only [State.freg, State.setFreg, Fin.getElem_fin, Vector.getElem_set]
  by_cases h : r = q
  · simp [h]
  · simp [h, Fin.val_inj]

@[simp] theorem State.freg_setReg (s : State) (r q : Fin 8) (v : Word) :
    (s.setReg r v).freg q = s.freg q := rfl
@[simp] theorem State.reg_setFreg (s : State) (r q : Fin 8) (v : Word) :
    (s.setFreg r v).reg q = s.reg q := rfl
@[simp] theorem State.reg_setSp (s : State) (q : Fin 8) (v : Word) :
    (s.setSp v).reg q = s.reg q := by simp [State.reg]
@[simp] theorem State.freg_setSp (s : State) (q : Fin 8) (v : Word) :
    (s.setSp v).freg q = s.freg q := by simp [State.freg]
@[simp] theorem State.reg_store (s : State) (sp : Space) (a : Word) {n : Nat} (v : BitVec (8 * n))
    (q : Fin 8) : (s.store sp a v).reg q = s.reg q := rfl
@[simp] theorem State.freg_store (s : State) (sp : Space) (a : Word) {n : Nat} (v : BitVec (8 * n))
    (q : Fin 8) : (s.store sp a v).freg q = s.freg q := rfl

/-! ## The selected stack pointer -/

@[simp] theorem State.sp_setSp (s : State) (v : Word) : (s.setSp v).sp = v := by
  unfold State.sp State.setSp; split <;> simp_all

theorem State.sp0_setSp (s : State) (v : Word) :
    (s.setSp v).sp0 = if s.psr.s then s.sp0 else v := by
  unfold State.setSp; split <;> simp_all

theorem State.sp1_setSp (s : State) (v : Word) :
    (s.setSp v).sp1 = if s.psr.s then v else s.sp1 := by
  unfold State.setSp; split <;> simp_all

@[simp] theorem State.sp_setReg (s : State) (r : Fin 8) (v : Word) : (s.setReg r v).sp = s.sp := rfl
@[simp] theorem State.sp_setFreg (s : State) (r : Fin 8) (v : Word) : (s.setFreg r v).sp = s.sp := rfl
@[simp] theorem State.sp_store (s : State) (sp : Space) (a : Word) {n : Nat} (v : BitVec (8 * n)) :
    (s.store sp a v).sp = s.sp := rfl
@[simp] theorem State.sp_setRegValue (s : State) (k : Bank) {n : Nat} (r : Fin 8)
    (v : BitVec (8 * n)) : (s.setRegValue k r v).sp = s.sp := by
  simp [State.sp]

/-! ## The space of an access -/

@[simp] theorem State.space_setSp (s : State) (v : Word) : (s.setSp v).space = s.space := by
  simp [State.space]
@[simp] theorem State.space_setReg (s : State) (r : Fin 8) (v : Word) :
    (s.setReg r v).space = s.space := rfl
@[simp] theorem State.space_store (s : State) (sp : Space) (a : Word) {n : Nat}
    (v : BitVec (8 * n)) : (s.store sp a v).space = s.space := rfl

end Sys2Proof.Machine
end

