-- ==== Sys2Proof/Laws/Memory.lean ====
section
/-! SUPPORT. Memory: read after write, the canonical form, and what one memory access can do. -/

namespace Sys2Proof.Machine

/-! ## One byte -/

theorem Memory.read_write_same (m : Memory) (a : Nat) (v : Byte) : (m.write a v).read a = some v := by
  induction m with
  | nil => simp [Memory.write, Memory.read]
  | cons c m ih =>
    obtain ⟨x, b⟩ := c
    simp only [Memory.write]
    split
    · simp [Memory.read]
    · split <;> rename_i h1 h2
      · simp [Memory.read]
      · simp [Memory.read, h2, ih]

theorem Memory.read_write_other (m : Memory) (a x : Nat) (v : Byte) (h : x ≠ a) :
    (m.write a v).read x = m.read x := by
  induction m with
  | nil => simp [Memory.write, Memory.read, h]
  | cons c m ih =>
    obtain ⟨y, b⟩ := c
    simp only [Memory.write]
    split
    · simp [Memory.read, h]
    · split <;> rename_i h1 h2
      · subst h2; simp [Memory.read, h]
      · simp [Memory.read, ih]

theorem Memory.read_write (m : Memory) (a x : Nat) (v : Byte) :
    (m.write a v).read x = if x = a then some v else m.read x := by
  split <;> rename_i h
  · rw [h, Memory.read_write_same]
  · exact Memory.read_write_other m a x v h

/-- What the entries of a memory after a write can be. -/
theorem Memory.mem_write {m : Memory} {a : Nat} {v : Byte} {c : Host.Cell} (h : c ∈ m.write a v) :
    c = (a, v) ∨ c ∈ m := by
  induction m with
  | nil => simpa [Memory.write] using h
  | cons d m ih =>
    obtain ⟨x, b⟩ := d
    simp only [Memory.write] at h
    split at h
    · simpa using h
    · split at h
      · simp only [List.mem_cons] at h
        rcases h with h | h
        · exact .inl h
        · exact .inr (List.mem_cons_of_mem _ h)
      · simp only [List.mem_cons] at h
        rcases h with h | h
        · exact .inr (by simp [h])
        · exact (ih h).imp id (List.mem_cons_of_mem _)

/-- Storing a byte inside the address space keeps the canonical form. -/
theorem Memory.wf_write {m : Memory} (h : m.wf) {a : Nat} (ha : a < Config.addrSpace) (v : Byte) :
    (m.write a v).wf := by
  refine ⟨?_, fun c hc => (Memory.mem_write hc).elim (fun e => by simp [e, ha]) (h.2 c)⟩
  obtain ⟨hp, -⟩ := h
  induction m with
  | nil => simp [Memory.write]
  | cons d m ih =>
    obtain ⟨x, b⟩ := d
    rw [List.pairwise_cons] at hp
    simp only [Memory.write]
    split
    · rename_i hlt
      refine List.pairwise_cons.2 ⟨fun c hc => ?_, List.pairwise_cons.2 hp⟩
      rcases List.mem_cons.1 hc with rfl | hc
      · exact hlt
      · exact Nat.lt_trans hlt (hp.1 c hc)
    · split
      · rename_i _ he
        subst he
        exact List.pairwise_cons.2 hp
      · rename_i h1 h2
        refine List.pairwise_cons.2 ⟨fun c hc => ?_, ih hp.2⟩
        rcases Memory.mem_write hc with rfl | hc
        · show x < a
          omega
        · exact hp.1 c hc

/-! ## Physical addresses -/

/-- A physical address lies inside the address space. -/
theorem State.physical_lt {s : State} {sp : Space} {k : AccessKind} {a : Word} {p : Nat}
    (h : s.physical sp k a = some p) : p < Config.addrSpace := by
  simp only [State.physical, Option.map_eq_some_iff] at h
  obtain ⟨q, -, rfl⟩ := h
  exact Nat.mod_lt _ (by decide)

/-- With translation off every access reaches the address itself (rule R71). -/
theorem State.physical_off {s : State} (h : s.translating = false) (sp : Space) (k : AccessKind)
    (a : Word) : s.physical sp k a = some (busAddress a) := by
  simp [State.physical, State.translate, h, busAddress]

/-- Translation depends on CFG.M and the memory-management state alone. -/
theorem State.physical_congr {s t : State} (hc : t.cfg = s.cfg) (hm : t.mmu = s.mmu) (sp : Space)
    (k : AccessKind) (a : Word) : t.physical sp k a = s.physical sp k a := by
  simp [State.physical, State.translate, State.translating, State.userReadAllowed, hc, hm]

theorem State.mapped_congr {s t : State} (hc : t.cfg = s.cfg) (hm : t.mmu = s.mmu) (sp : Space)
    (k : AccessKind) (a : Word) (n : Nat) : t.mapped sp k a n = s.mapped sp k a n := by
  simp [State.mapped, State.physical_congr hc hm]

theorem State.clearOfText_congr {s t : State} (hc : t.cfg = s.cfg) (hm : t.mmu = s.mmu)
    (ht : t.text = s.text) (sp : Space) (a : Word) (n : Nat) :
    t.clearOfText sp a n = s.clearOfText sp a n := by
  simp [State.clearOfText, State.physical_congr hc hm, ht]

theorem State.byteRead_congr {s t : State} (hc : t.cfg = s.cfg) (hm : t.mmu = s.mmu)
    (hr : t.mem = s.mem) (sp : Space) (a : Word) : t.byteRead sp a = s.byteRead sp a := by
  simp [State.byteRead, State.physical_congr hc hm, hr]

theorem State.written_congr {s t : State} (hc : t.cfg = s.cfg) (hm : t.mmu = s.mmu)
    (hr : t.mem = s.mem) (sp : Space) (a : Word) (n : Nat) : t.written sp a n = s.written sp a n := by
  simp [State.written, State.byteRead_congr hc hm hr]

theorem State.memValue_congr {s t : State} (hc : t.cfg = s.cfg) (hm : t.mmu = s.mmu)
    (hr : t.mem = s.mem) (sp : Space) (a : Word) (n : Nat) : t.memValue sp a n = s.memValue sp a n := by
  simp [State.memValue, State.byteRead_congr hc hm hr]

theorem State.storeBytes_congr {s t : State} (hc : t.cfg = s.cfg) (hm : t.mmu = s.mmu)
    (hr : t.mem = s.mem) (sp : Space) (a : Word) {n : Nat} (v : BitVec (8 * n)) :
    t.storeBytes sp a v = s.storeBytes sp a v := by
  simp [State.storeBytes, State.physical_congr hc hm, hr]

theorem Readable.congr {s t : State} (hc : t.cfg = s.cfg) (hm : t.mmu = s.mmu) (hr : t.mem = s.mem)
    {sp : Space} {a : Word} {n : Nat} : Readable t sp a n ↔ Readable s sp a n := by
  simp [Readable, State.mapped_congr hc hm, State.written_congr hc hm hr]

theorem Writable.congr {s t : State} (hc : t.cfg = s.cfg) (hm : t.mmu = s.mmu) (ht : t.text = s.text)
    {sp : Space} {a : Word} {n : Nat} : Writable t sp a n ↔ Writable s sp a n := by
  simp [Writable, State.mapped_congr hc hm, State.clearOfText_congr hc hm ht]

theorem memRead_congr {s t : State} (hc : t.cfg = s.cfg) (hm : t.mmu = s.mmu) (hr : t.mem = s.mem)
    (hp : t.pc = s.pc) (sp : Space) (a : Word) (n : Nat) : memRead sp a n t = memRead sp a n s := by
  simp only [memRead, State.mapped_congr hc hm, State.written_congr hc hm hr,
    State.memValue_congr hc hm hr, hp]

/-! ## A store of several bytes -/

/-- A store as a fold over the bytes still to be stored. -/
theorem State.storeBytes_wf {s : State} (h : s.mem.wf) (sp : Space) (a : Word) {n : Nat}
    (v : BitVec (8 * n)) : (s.storeBytes sp a v).wf := by
  unfold State.storeBytes
  generalize List.range n = js
  generalize s.mem = m at h ⊢
  induction js generalizing m with
  | nil => exact h
  | cons j js ih =>
    rw [List.foldl_cons]
    refine ih _ ?_
    split
    · exact Memory.wf_write h (State.physical_lt (by assumption)) _
    · exact h

/-- A store leaves every byte it does not reach. -/
theorem State.read_storeBytes_other {s : State} {sp : Space} {a : Word} {n : Nat}
    {v : BitVec (8 * n)} {x : Nat} (h : ∀ j < n, s.physical sp .write (byteAt a j) ≠ some x) :
    (s.storeBytes sp a v).read x = s.mem.read x := by
  unfold State.storeBytes
  have h' : ∀ j ∈ List.range n, s.physical sp .write (byteAt a j) ≠ some x := fun j hj =>
    h j (List.mem_range.1 hj)
  revert h'
  generalize List.range n = js
  generalize s.mem = m
  intro h'
  induction js generalizing m with
  | nil => rfl
  | cons j js ih =>
    rw [List.foldl_cons, ih _ (fun i hi => h' i (List.mem_cons_of_mem _ hi))]
    have hj := h' j (by simp)
    split
    · rename_i p hp
      exact Memory.read_write_other _ _ _ _ (fun e => hj (by rw [hp, e]))
    · rfl

/-- A store puts byte `j` of the value where byte `j` reaches, if no later byte reaches the same place. -/
theorem State.read_storeBytes_same {s : State} {sp : Space} {a : Word} {n : Nat} {v : BitVec (8 * n)}
    {j p : Nat} (hj : j < n) (hp : s.physical sp .write (byteAt a j) = some p)
    (hlater : ∀ i, j < i → i < n → s.physical sp .write (byteAt a i) ≠ some p) :
    (s.storeBytes sp a v).read p = some (v.extractLsb' (8 * j) 8) := by
  have key : ∀ k, j < k → k ≤ n →
      ((List.range k).foldl (fun m i =>
        match s.physical sp .write (byteAt a i) with
        | some q => m.write q (v.extractLsb' (8 * i) 8)
        | none => m) s.mem).read p = some (v.extractLsb' (8 * j) 8) := by
    intro k
    induction k with
    | zero => intro h; omega
    | succ k ih =>
      intro hjk hkn
      rw [List.range_succ, List.foldl_append, List.foldl_cons, List.foldl_nil]
      rcases Nat.lt_or_ge j k with hlt | hge
      · have hne := hlater k hlt (by omega)
        split
        · rename_i q hq
          rw [Memory.read_write_other _ _ _ _ (fun e => hne (by rw [hq, e]))]
          exact ih hlt (by omega)
        · exact ih hlt (by omega)
      · have : k = j := by omega
        subst this
        rw [hp]
        exact Memory.read_write_same _ _ _
  exact key n hj (Nat.le_refl n)

/-- A byte that holds a value still holds one after a store. -/
theorem State.isSome_storeBytes {s : State} (sp : Space) (a : Word) {n : Nat} (v : BitVec (8 * n))
    {x : Nat} (h : (s.mem.read x).isSome) : ((s.storeBytes sp a v).read x).isSome := by
  unfold State.storeBytes
  generalize List.range n = js
  generalize s.mem = m at h ⊢
  induction js generalizing m with
  | nil => exact h
  | cons j js ih =>
    rw [List.foldl_cons]
    refine ih _ ?_
    split
    · rw [Memory.read_write]
      split
      · rfl
      · exact h
    · exact h

/-! ## What an access can do -/

theorem memRead_ok_iff {sp : Space} {a : Word} {n : Nat} {s : State} {v : BitVec (8 * n)} :
    memRead sp a n s = .ok v ↔ Readable s sp a n ∧ v = s.memValue sp a n := by
  unfold memRead
  split
  · split <;> simp_all [Readable, eq_comm (a := v)]
  · simp_all [Readable]

theorem memRead_ok {sp : Space} {a : Word} {n : Nat} {s : State} (h : Readable s sp a n) :
    memRead sp a n s = .ok (s.memValue sp a n) :=
  memRead_ok_iff.2 ⟨h, rfl⟩

/-- A read that does not complete aborts or meets a byte without a value. -/
theorem memRead_error {sp : Space} {a : Word} {n : Nat} {s : State} {e : Stop}
    (h : memRead sp a n s = .error e) : e = .trap .abt ∨ e = .refuse (.unwritten s.pc) := by
  unfold memRead at h
  split at h
  · split at h <;> simp_all
  · simp_all

theorem memWrite_ok_iff {sp : Space} {a : Word} {n : Nat} {v : BitVec (8 * n)} {s t : State} :
    memWrite sp a v s = .ok t ↔ Writable s sp a n ∧ t = s.store sp a v := by
  unfold memWrite
  split
  · split <;> simp_all [Writable, State.store, eq_comm (a := t)]
  · simp_all [Writable]

theorem memWrite_ok {sp : Space} {a : Word} {n : Nat} {v : BitVec (8 * n)} {s : State}
    (h : Writable s sp a n) : memWrite sp a v s = .ok (s.store sp a v) :=
  memWrite_ok_iff.2 ⟨h, rfl⟩

/-- A write that does not complete aborts or would reach program text. -/
theorem memWrite_error {sp : Space} {a : Word} {n : Nat} {v : BitVec (8 * n)} {s : State} {e : Stop}
    (h : memWrite sp a v s = .error e) : e = .trap .abt ∨ e = .refuse (.storeToText s.pc) := by
  unfold memWrite at h
  split at h
  · split at h <;> simp_all
  · simp_all

theorem readWord_ok_iff {sp : Space} {a : Word} {s : State} {v : Word} :
    readWord sp a s = .ok v ↔ Readable s sp a 4 ∧ v = s.memValue sp a 4 :=
  memRead_ok_iff

theorem readWord_ok {sp : Space} {a : Word} {s : State} (h : Readable s sp a 4) :
    readWord sp a s = .ok (s.memValue sp a 4) :=
  memRead_ok h

end Sys2Proof.Machine
end

