-- ==== Sys2Proof/Laws/Ops.lean ====
section
/-! SUPPORT. What each shared operation can do, said once: if it answers a state, then which one and
under what condition. -/

namespace Sys2Proof.Machine

/-! ## Results -/

/-- A bind that answers comes from an answer. -/
theorem bind_ok_iff {ε α β : Type} {x : Except ε α} {f : α → Except ε β} {b : β} :
    (x >>= f) = .ok b ↔ ∃ a, x = .ok a ∧ f a = .ok b := by
  cases x with
  | error e => simp [bind, Except.bind]
  | ok a => simp [bind, Except.bind]

/-- A bind that stops was stopped by one of its two parts. -/
theorem bind_error_iff {ε α β : Type} {x : Except ε α} {f : α → Except ε β} {e : ε} :
    (x >>= f) = .error e ↔ x = .error e ∨ ∃ a, x = .ok a ∧ f a = .error e := by
  cases x with
  | error e => simp [bind, Except.bind]
  | ok a => simp [bind, Except.bind]

@[simp] theorem ok_bind {ε α β : Type} (a : α) (f : α → Except ε β) :
    ((Except.ok a : Except ε α) >>= f) = f a := rfl

@[simp] theorem error_bind {ε α β : Type} (e : ε) (f : α → Except ε β) :
    ((Except.error e : Except ε α) >>= f) = .error e := rfl

@[simp] theorem pure_eq_ok {ε α : Type} (a : α) : (pure a : Except ε α) = .ok a := rfl

/-! ## The stack -/

theorem push_ok_iff {n : Nat} {v : BitVec (8 * n)} {s t : State} :
    push v s = .ok t ↔ Writable s s.space (s.sp - BitVec.ofNat 32 n) n ∧
      t = (s.store s.space (s.sp - BitVec.ofNat 32 n) v).setSp (s.sp - BitVec.ofNat 32 n) := by
  unfold push
  simp only [bind_ok_iff, memWrite_ok_iff, pure_eq_ok, Except.ok.injEq]
  constructor
  · rintro ⟨u, ⟨hw, rfl⟩, rfl⟩
    exact ⟨hw, rfl⟩
  · rintro ⟨hw, rfl⟩
    exact ⟨_, ⟨hw, rfl⟩, rfl⟩

theorem pop_ok_iff {n : Nat} {s t : State} {v : BitVec (8 * n)} :
    pop n s = .ok (v, t) ↔ Readable s s.space s.sp n ∧ v = s.memValue s.space s.sp n ∧
      t = s.setSp (s.sp + BitVec.ofNat 32 n) := by
  unfold pop
  simp only [bind_ok_iff, memRead_ok_iff, pure_eq_ok, Except.ok.injEq, Prod.mk.injEq]
  constructor
  · rintro ⟨u, ⟨hr, rfl⟩, rfl, rfl⟩
    exact ⟨hr, rfl, rfl⟩
  · rintro ⟨hr, rfl, rfl⟩
    exact ⟨_, ⟨hr, rfl⟩, rfl, rfl⟩

theorem pop_ok {n : Nat} {s : State} (h : Readable s s.space s.sp n) :
    pop n s = .ok (s.memValue s.space s.sp n, s.setSp (s.sp + BitVec.ofNat 32 n)) :=
  pop_ok_iff.2 ⟨h, rfl, rfl⟩

/-! ## The end of an instruction -/

theorem advance_ok_iff {i : Instr} {s t : State} :
    advance i s = .ok t ↔ s.fits i.length = true ∧
      t = { s with pc := s.pc + BitVec.ofNat 32 i.length } := by
  unfold advance
  split <;> simp_all [eq_comm (a := t)]

theorem advance_ok {i : Instr} {s : State} (h : s.fits i.length = true) :
    advance i s = .ok { s with pc := s.pc + BitVec.ofNat 32 i.length } :=
  advance_ok_iff.2 ⟨h, rfl⟩

theorem advance_error {i : Instr} {s : State} {e : Stop} (h : advance i s = .error e) :
    e = .refuse (.addressWrap s.pc) := by
  unfold advance at h
  split at h <;> simp_all

/-! ## Taking an exception -/

theorem sub_two_two (a : Word) : a - 2#32 - 2#32 = a - 4#32 := by
  rw [BitVec.sub_sub]; rfl

theorem sub_four_four (a : Word) : a - 4#32 - 4#32 = a - 8#32 := by
  rw [BitVec.sub_sub]; rfl

theorem add_four_two (a : Word) : a + 4#32 + 2#32 = a + 6#32 := by
  rw [BitVec.add_assoc]; rfl

theorem add_six_two (a : Word) : a + 6#32 + 2#32 = a + 8#32 := by
  rw [BitVec.add_assoc]; rfl

/-- The frame is pushed on SP0 whatever stack was selected before. -/
theorem push_supervisor_ok_iff {n : Nat} {v : BitVec (8 * n)} {s t : State} (hu : s.psr.u = false)
    (hs : s.psr.s = false) :
    push v s = .ok t ↔ Writable s .supervisor (s.sp0 - BitVec.ofNat 32 n) n ∧
      t = { s.store .supervisor (s.sp0 - BitVec.ofNat 32 n) v with
        sp0 := s.sp0 - BitVec.ofNat 32 n } := by
  have h1 : s.space = .supervisor := by simp [State.space, hu]
  have h2 : s.sp = s.sp0 := by simp [State.sp, hs]
  rw [push_ok_iff, h1, h2]
  simp [State.setSp, hs]

/-- The state before the three pushes of an entry reads and maps as the interrupted one. -/
theorem entered_eq {s : State} {v ra : Word} {interrupt : Bool} {s2 : State}
    (h2 : s2 = { s with
      psr := s.psr.onEntry interrupt
      mod := s.serviceModule v
      sb := s.memValue .supervisor ((s.serviceModule v).setWidth 32) 4 }) :
    { ({ ({ s2.store .supervisor (s2.sp0 - 2#32) (n := 2) s.psr.toBits with
          sp0 := s2.sp0 - 2#32 }).store .supervisor (s.sp0 - 4#32) (n := 2) s.mod with
        sp0 := s.sp0 - 4#32 }).store .supervisor (s.sp0 - 8#32) (n := 4) ra with
      sp0 := s.sp0 - 8#32, pc := s.serviceAddress v } = s.entered v ra interrupt := by
  have e1 : s2.storeBytes .supervisor (s2.sp0 - 2#32) (n := 2) s.psr.toBits =
      s.storeBytes .supervisor (s.sp0 - 2#32) (n := 2) s.psr.toBits := by
    rw [h2]; exact State.storeBytes_congr rfl rfl rfl _ _ _
  have e2 : ({ s2.store .supervisor (s2.sp0 - 2#32) (n := 2) s.psr.toBits with
      sp0 := s2.sp0 - 2#32 } : State).storeBytes .supervisor (s.sp0 - 4#32) (n := 2) s.mod =
      (s.store .supervisor (s.sp0 - 2#32) (n := 2) s.psr.toBits).storeBytes .supervisor
        (s.sp0 - 4#32) (n := 2) s.mod :=
    State.storeBytes_congr (by rw [h2]; rfl) (by rw [h2]; rfl) e1 _ _ _
  have e3 := State.storeBytes_congr
    (t := { ({ s2.store .supervisor (s2.sp0 - 2#32) (n := 2) s.psr.toBits with
      sp0 := s2.sp0 - 2#32 } : State).store .supervisor (s.sp0 - 4#32) (n := 2) s.mod with
        sp0 := s.sp0 - 4#32 })
    (s := (s.store .supervisor (s.sp0 - 2#32) (n := 2) s.psr.toBits).store .supervisor
        (s.sp0 - 4#32) (n := 2) s.mod) (by rw [h2]; rfl) (by rw [h2]; rfl) e2 .supervisor
        (s.sp0 - 8#32) (n := 4) ra
  unfold State.entered State.framed State.store at *
  rw [e3, h2]

/-- What the entry sequence can do (rule R245). -/
theorem enter_ok_iff {v ra : Word} {interrupt : Bool} {s t : State} :
    enter v ra interrupt s = .ok t ↔ EntryReady v s ∧ t = s.entered v ra interrupt := by
  have hR : ∀ a, readWord .supervisor a { s with psr := s.psr.onEntry interrupt } =
      readWord .supervisor a s := fun a => memRead_congr rfl rfl rfl rfl _ _ _
  unfold enter
  simp only [hR, bind_ok_iff, readWord_ok_iff, pure_eq_ok, Except.ok.injEq]
  constructor
  · rintro ⟨d, ⟨hd, rfl⟩, sb, ⟨hsb, rfl⟩, pb, ⟨hpb, rfl⟩, s3, h3, s4, h4, s5, h5, rfl⟩
    obtain ⟨w3, rfl⟩ := (push_supervisor_ok_iff rfl rfl).1 h3
    obtain ⟨w4, rfl⟩ := (push_supervisor_ok_iff rfl rfl).1 h4
    obtain ⟨w5, rfl⟩ := (push_supervisor_ok_iff rfl rfl).1 h5
    simp only [sub_two_two, sub_four_four] at w4 w5 ⊢
    have a3 := (Writable.congr (s := s) (by rfl) (by rfl) (by rfl)).1 w3
    have a4 := (Writable.congr (s := s) (by rfl) (by rfl) (by rfl)).1 w4
    have a5 := (Writable.congr (s := s) (by rfl) (by rfl) (by rfl)).1 w5
    have he := entered_eq (s := s) (v := v) (ra := ra) (interrupt := interrupt) rfl
    exact ⟨⟨hd, hsb, hpb, a3, a4, a5⟩, he⟩
  · rintro ⟨h, rfl⟩
    refine ⟨_, ⟨h.descriptor, rfl⟩, _, ⟨h.staticBase, rfl⟩, _, ⟨h.programBase, rfl⟩, _,
      (push_supervisor_ok_iff rfl rfl).2 ⟨(Writable.congr (s := s) (by rfl) (by rfl) (by rfl)).2 h.psr, rfl⟩, _,
      (push_supervisor_ok_iff rfl rfl).2 ⟨?_, rfl⟩, _,
      (push_supervisor_ok_iff rfl rfl).2 ⟨?_, rfl⟩, ?_⟩
    · simp only [sub_two_two]
      exact (Writable.congr (s := s) (by rfl) (by rfl) (by rfl)).2 h.mod
    · simp only [sub_two_two, sub_four_four]
      exact (Writable.congr (s := s) (by rfl) (by rfl) (by rfl)).2 h.address
    · simp only [sub_two_two, sub_four_four]
      have he := entered_eq (s := s) (v := v) (ra := ra) (interrupt := interrupt) rfl
      exact he

theorem enterOutcome_next_iff {v : Word} {interrupt : Bool} {s t : State} :
    enterOutcome v interrupt s = .next t ↔ EntryReady v s ∧ t = s.entered v s.pc interrupt := by
  unfold enterOutcome
  rw [← enter_ok_iff]
  split <;> simp_all

/-- What taking a trap can do (rule R231): a next state only through the entry sequence. -/
theorem takeTrap_next_iff {k : Trap} {s t : State} :
    takeTrap k s = .next t ↔
      s.trapEntry = .sequence ∧ EntryReady k.vector s ∧ t = s.entered k.vector s.pc false := by
  unfold takeTrap
  split <;> simp_all [enterOutcome_next_iff]

theorem takeInterrupt_next_iff {q : Interrupt} {s t : State} :
    takeInterrupt q s = .next t ↔ EntryReady q.vector s ∧ t = s.entered q.vector s.pc true :=
  enterOutcome_next_iff

/-! ## The return from an exception -/

/-- What popping a frame can do (rules R214, R215). -/
theorem popFrame_ok_iff {s t : State} {ra : Word} {m p : Half} :
    popFrame s = .ok ((ra, m, p), t) ↔
      (Readable s s.space s.sp 4 ∧ Readable s s.space (s.sp + 4#32) 2 ∧
        Readable s s.space (s.sp + 6#32) 2) ∧
      ra = s.frameAddress ∧ m = s.frameMod ∧ p = s.memValue s.space (s.sp + 6#32) 2 ∧
      t = s.setSp (s.sp + 8#32) := by
  unfold popFrame
  have set2 : ∀ (u : State) (a b : Word), (u.setSp a).setSp b = u.setSp b := by
    intro u a b; unfold State.setSp; cases h : u.psr.s <;> simp [h]
  have hR : ∀ (a b : Word) (k : Nat), Readable (s.setSp a) s.space b k ↔ Readable s s.space b k :=
    fun a b k => Readable.congr (by simp) (by simp) (by simp)
  have hV : ∀ (a b : Word) (k : Nat), (s.setSp a).memValue s.space b k = s.memValue s.space b k :=
    fun a b k => State.memValue_congr (by simp) (by simp) (by simp) _ _ _
  constructor
  · intro h
    obtain ⟨⟨ra', s1⟩, h1, h⟩ := bind_ok_iff.1 h
    obtain ⟨⟨m', s2⟩, h2, h⟩ := bind_ok_iff.1 h
    obtain ⟨⟨p', s3⟩, h3, h⟩ := bind_ok_iff.1 h
    obtain ⟨r1, rfl, rfl⟩ := pop_ok_iff.1 h1
    obtain ⟨r2, rfl, rfl⟩ := pop_ok_iff.1 h2
    obtain ⟨r3, rfl, rfl⟩ := pop_ok_iff.1 h3
    simp only [pure_eq_ok, Except.ok.injEq, Prod.mk.injEq] at h
    obtain ⟨⟨rfl, rfl, rfl⟩, rfl⟩ := h
    simp only [set2, State.space_setSp, State.sp_setSp, hR, hV, add_four_two, add_six_two] at r2 r3 ⊢
    exact ⟨⟨r1, r2, r3⟩, rfl, rfl, trivial, trivial⟩
  · rintro ⟨⟨r1, r2, r3⟩, rfl, rfl, rfl, rfl⟩
    refine bind_ok_iff.2 ⟨_, pop_ok_iff.2 ⟨r1, rfl, rfl⟩, bind_ok_iff.2 ⟨_,
      pop_ok_iff.2 ⟨?_, rfl, rfl⟩, bind_ok_iff.2 ⟨_, pop_ok_iff.2 ⟨?_, rfl, rfl⟩, ?_⟩⟩⟩
    · simpa only [State.space_setSp, State.sp_setSp, hR] using r2
    · simpa only [set2, State.space_setSp, State.sp_setSp, hR, add_four_two] using r3
    · simp only [set2, State.space_setSp, State.sp_setSp, hV, add_four_two, add_six_two]
      rfl

/-- What RETI and RETT have in common (rules R214 to R216, R219, R252). -/
theorem returnFrame_ok_iff {s t : State} {ra : Word} :
    returnFrame s = .ok (ra, t) ↔ FrameReady s ∧ ra = s.frameAddress ∧ t = s.unframed := by
  unfold returnFrame
  constructor
  · intro h
    obtain ⟨⟨⟨ra', m, p⟩, s1⟩, h1, h⟩ := bind_ok_iff.1 h
    obtain ⟨⟨r1, r2, r3⟩, rfl, rfl, rfl, rfl⟩ := popFrame_ok_iff.1 h1
    dsimp only at h
    split at h
    · simp at h
    · rename_i htp
      obtain ⟨sb, h2, h⟩ := bind_ok_iff.1 h
      obtain ⟨r4, rfl⟩ := readWord_ok_iff.1 h2
      simp only [pure_eq_ok, Except.ok.injEq, Prod.mk.injEq] at h
      obtain ⟨rfl, rfl⟩ := h
      simp only [Bool.or_eq_true, not_or, Bool.not_eq_true] at htp
      refine ⟨⟨r1, r2, r3, (Readable.congr (by simp) (by simp) (by simp)).1 r4, htp.1, htp.2⟩, rfl, ?_⟩
      unfold State.unframed
      congr 1
      exact State.memValue_congr (by simp) (by simp) (by simp) _ _ _
  · rintro ⟨h, rfl, rfl⟩
    refine bind_ok_iff.2 ⟨_, popFrame_ok_iff.2 ⟨⟨h.address, h.mod, h.psr⟩, rfl, rfl, rfl, rfl⟩, ?_⟩
    have h1 := h.noTrace
    have h2 := h.noPending
    unfold State.framePsr at h1 h2
    simp only [h1, h2, Bool.or_self]
    refine bind_ok_iff.2 ⟨_, readWord_ok_iff.2 ⟨?_, rfl⟩, ?_⟩
    · exact (Readable.congr (s := s) (by simp) (by simp) (by simp)).2 h.table
    · simp only [pure_eq_ok, Except.ok.injEq, Prod.mk.injEq]
      refine ⟨trivial, ?_⟩
      unfold State.unframed State.framePsr
      congr 1
      exact State.memValue_congr (by simp) (by simp) (by simp) _ _ _

/-! ## The outcome of an instruction -/

theorem complete_ok {i : Instr} {s t : State} (h : i.wellFormed = true) :
    complete i s (.ok t) = .next t := by
  simp [complete, h]

/-- An instruction that answers a next state either ran to its end or took a trap or an interrupt. -/
theorem complete_next_iff {i : Instr} {s t : State} {r : Except Stop State} :
    complete i s r = .next t ↔
      i.wellFormed = true ∧ (r = .ok t ∨ ∃ e, r = .error e ∧ stopOutcome s e = .next t) := by
  unfold complete
  split
  · cases r <;> simp_all
  · simp_all

/-! ## Boundaries -/

/-- What one boundary can do (rule R240). -/
theorem boundary_cases (s : State) :
    (boundary s).2 = { s with irq := s.irq.tail } ∧
      ∀ q, (boundary s).1 = some q → s.irq.head? = some (some q) ∧ s.accepts q = true := by
  unfold boundary
  cases h : s.irq with
  | nil =>
    refine ⟨?_, by simp⟩
    cases s
    simp_all
  | cons q rest => simp [Option.filter_eq_some_iff]

@[simp] theorem boundary_quiet {s : State} (h : s.irq = []) : boundary s = (none, s) := by
  simp [boundary, h]

end Sys2Proof.Machine
end

