-- ==== Sys2Proof/Laws/Operands.lean ====
section
/-! SUPPORT. What each operand access can do, said once. -/

namespace Sys2Proof.Machine

theorem readLoc_ok_iff {k : Bank} {n : Nat} {l : Loc n} {s t : State} {v : BitVec (8 * n)} :
    readLoc k l s = .ok (v, t) ↔ l.readable s ∧ v = l.value k s ∧ t = l.popped s := by
  cases l with
  | reg r => simp [readLoc, Loc.readable, Loc.value, Loc.popped, eq_comm (a := v), eq_comm (a := t)]
  | imm w => simp [readLoc, Loc.readable, Loc.value, Loc.popped, eq_comm (a := v), eq_comm (a := t)]
  | tos => exact pop_ok_iff
  | mem a =>
    simp only [readLoc, Loc.readable, Loc.value, Loc.popped, bind_ok_iff, memRead_ok_iff, pure_eq_ok,
      Except.ok.injEq, Prod.mk.injEq]
    constructor
    · rintro ⟨w, ⟨h, rfl⟩, rfl, rfl⟩
      exact ⟨h, rfl, rfl⟩
    · rintro ⟨h, rfl, rfl⟩
      exact ⟨_, ⟨h, rfl⟩, rfl, rfl⟩

theorem writeLoc_ok_iff {k : Bank} {n : Nat} {l : Loc n} {s t : State} {v : BitVec (8 * n)} :
    writeLoc k l v s = .ok t ↔ l.writable s ∧ t = l.stored k v s := by
  cases l with
  | reg r => simp [writeLoc, Loc.writable, Loc.stored, eq_comm (a := t)]
  | imm w => simp [writeLoc, Loc.writable]
  | tos => exact push_ok_iff
  | mem a => exact memWrite_ok_iff

theorem readPlace_ok_iff {k : Bank} {n : Nat} {l : Loc n} {s : State} {v : BitVec (8 * n)} :
    readPlace k l s = .ok v ↔
      (match l with
        | .imm _ => False
        | _ => l.readable s) ∧ v = l.value k s := by
  cases l with
  | reg r => simp [readPlace, Loc.readable, Loc.value, eq_comm (a := v)]
  | imm w => simp [readPlace]
  | tos => exact memRead_ok_iff
  | mem a => exact memRead_ok_iff

theorem writePlace_ok_iff {k : Bank} {n : Nat} {l : Loc n} {s t : State} {v : BitVec (8 * n)} :
    writePlace k l v s = .ok t ↔
      (match l with
        | .reg _ => True
        | .imm _ => False
        | .tos => Writable s s.space s.sp n
        | .mem a => Writable s s.space a n) ∧ t = l.placed k v s := by
  cases l with
  | reg r => simp [writePlace, Loc.placed, eq_comm (a := t)]
  | imm w => simp [writePlace]
  | tos => exact memWrite_ok_iff
  | mem a => exact memWrite_ok_iff

/-- An rmw operand that can be updated is read and rewritten in place (rule R117). -/
theorem readPlace_ok {k : Bank} {n : Nat} {l : Loc n} {s : State} (h : l.updatable s) :
    readPlace k l s = .ok (l.value k s) := by
  cases l with
  | reg r => rfl
  | imm w => exact h.elim
  | tos => exact memRead_ok h.1
  | mem a => exact memRead_ok h.1

theorem writePlace_ok {k : Bank} {n : Nat} {l : Loc n} {s : State} (v : BitVec (8 * n))
    (h : l.updatable s) : writePlace k l v s = .ok (l.placed k v s) := by
  cases l with
  | reg r => rfl
  | imm w => exact h.elim
  | tos => exact memWrite_ok h.2
  | mem a => exact memWrite_ok h.2

/-- `AddrOp` answers the operand's address (rule R118). -/
theorem addrOf_ok_iff {n : Nat} {g : Gen n} {s : State} {a : Word} :
    addrOf g s = .ok a ↔ ∃ l, locate g s = .ok l ∧ l.address s = some a := by
  unfold addrOf
  rw [bind_ok_iff]
  constructor
  · rintro ⟨l, hl, h⟩
    refine ⟨l, hl, ?_⟩
    cases l <;> simp_all [Loc.address]
  · rintro ⟨l, hl, h⟩
    refine ⟨l, hl, ?_⟩
    cases l <;> simp_all [Loc.address]

/-- Steps 3 to 5 of rule R120. -/
theorem fetchSource_ok_iff {k : Bank} {n m : Nat} {src : Gen n} {dst : Gen m} {s t : State}
    {dl : Loc m} {v : BitVec (8 * n)} :
    fetchSource k src dst s = .ok (dl, v, t) ↔
      ∃ sl, locate src s = .ok sl ∧ locate dst s = .ok dl ∧ sl.readable s ∧ v = sl.value k s ∧
        t = sl.popped s := by
  unfold fetchSource
  constructor
  · intro h
    obtain ⟨sl, hs, h⟩ := bind_ok_iff.1 h
    obtain ⟨dl', hd, h⟩ := bind_ok_iff.1 h
    obtain ⟨⟨v', t'⟩, hr, h⟩ := bind_ok_iff.1 h
    simp only [pure_eq_ok, Except.ok.injEq, Prod.mk.injEq] at h
    obtain ⟨rfl, rfl, rfl⟩ := h
    exact ⟨sl, hs, hd, readLoc_ok_iff.1 hr⟩
  · rintro ⟨sl, hs, hd, h⟩
    exact bind_ok_iff.2 ⟨sl, hs, bind_ok_iff.2 ⟨dl, hd, bind_ok_iff.2 ⟨_, readLoc_ok_iff.2 h, rfl⟩⟩⟩

theorem moveThrough_ok_iff {n m : Nat} {f : BitVec (8 * n) → BitVec (8 * m)} {src : Gen n}
    {dst : Gen m} {s t : State} {v : BitVec (8 * n)} :
    moveThrough f src dst s = .ok (v, t) ↔
      ∃ sl dl, locate src s = .ok sl ∧ locate dst s = .ok dl ∧ sl.readable s ∧
        v = sl.value .int s ∧ dl.writable (sl.popped s) ∧ t = dl.stored .int (f v) (sl.popped s) := by
  unfold moveThrough
  constructor
  · intro h
    obtain ⟨⟨dl, v', s1⟩, h1, h⟩ := bind_ok_iff.1 h
    obtain ⟨t', h2, h⟩ := bind_ok_iff.1 h
    simp only [pure_eq_ok, Except.ok.injEq, Prod.mk.injEq] at h
    obtain ⟨rfl, rfl⟩ := h
    obtain ⟨sl, hs, hd, hr, rfl, rfl⟩ := fetchSource_ok_iff.1 h1
    obtain ⟨hw, rfl⟩ := writeLoc_ok_iff.1 h2
    exact ⟨sl, dl, hs, hd, hr, rfl, hw, rfl⟩
  · rintro ⟨sl, dl, hs, hd, hr, rfl, hw, rfl⟩
    exact bind_ok_iff.2 ⟨_, fetchSource_ok_iff.2 ⟨sl, hs, hd, hr, rfl, rfl⟩,
      bind_ok_iff.2 ⟨_, writeLoc_ok_iff.2 ⟨hw, rfl⟩, rfl⟩⟩

/-- The rmw body completes, or raises Trap(DVZ) where the operation answers nothing. -/
theorem combineThrough_eq {n : Nat}
    {f : BitVec (8 * n) → BitVec (8 * n) → Option (BitVec (8 * n))} {src dst : Gen n} {s : State}
    {sl dl : Loc n} (hs : locate src s = .ok sl) (hd : locate dst s = .ok dl) (hr : sl.readable s)
    (hw : dl.updatable (sl.popped s)) :
    combineThrough f src dst s =
      match f (sl.value .int s) (dl.value .int (sl.popped s)) with
      | none => .error (.trap .dvz)
      | some r => .ok (dl.placed .int r (sl.popped s)) := by
  unfold combineThrough
  rw [fetchSource_ok_iff.2 ⟨sl, hs, hd, hr, rfl, rfl⟩]
  simp only [ok_bind]
  rw [readPlace_ok hw]
  simp only [ok_bind]
  split <;> simp_all [writePlace_ok]

/-! ## Frames of an operand's store -/

@[simp] theorem Loc.popped_mem {n : Nat} (l : Loc n) (s : State) : (l.popped s).mem = s.mem := by
  cases l <;> simp [Loc.popped]
@[simp] theorem Loc.popped_cfg {n : Nat} (l : Loc n) (s : State) : (l.popped s).cfg = s.cfg := by
  cases l <;> simp [Loc.popped]
@[simp] theorem Loc.popped_mmu {n : Nat} (l : Loc n) (s : State) : (l.popped s).mmu = s.mmu := by
  cases l <;> simp [Loc.popped]
@[simp] theorem Loc.popped_text {n : Nat} (l : Loc n) (s : State) : (l.popped s).text = s.text := by
  cases l <;> simp [Loc.popped]
@[simp] theorem Loc.popped_psr {n : Nat} (l : Loc n) (s : State) : (l.popped s).psr = s.psr := by
  cases l <;> simp [Loc.popped]
@[simp] theorem Loc.popped_pc {n : Nat} (l : Loc n) (s : State) : (l.popped s).pc = s.pc := by
  cases l <;> simp [Loc.popped]
@[simp] theorem Loc.popped_free {n : Nat} (l : Loc n) (s : State) : (l.popped s).free = s.free := by
  cases l <;> simp [Loc.popped]
@[simp] theorem Loc.popped_reg {n : Nat} (l : Loc n) (s : State) (r : Fin 8) :
    (l.popped s).reg r = s.reg r := by
  cases l <;> simp [Loc.popped]
@[simp] theorem Loc.popped_freg {n : Nat} (l : Loc n) (s : State) (r : Fin 8) :
    (l.popped s).freg r = s.freg r := by
  cases l <;> simp [Loc.popped]

end Sys2Proof.Machine
end

