-- ==== Sys2Proof/Laws/Aborts.lean ====
section
/-! SUPPORT. Where each shared operation aborts: Trap(ABT) from the access that does not translate (rule
R236). -/

namespace Sys2Proof.Machine

/-! ## Accesses and the stack -/

theorem memRead_abort {sp : Space} {a : Word} {n : Nat} {s : State} (h : s.mapped sp .read a n = false) :
    memRead sp a n s = .error (.trap .abt) := by
  simp [memRead, h]

theorem memWrite_abort {sp : Space} {a : Word} {n : Nat} {v : BitVec (8 * n)} {s : State}
    (h : s.mapped sp .write a n = false) : memWrite sp a v s = .error (.trap .abt) := by
  simp [memWrite, h]

theorem pop_abort {n : Nat} {s : State} (h : s.mapped s.space .read s.sp n = false) :
    pop n s = .error (.trap .abt) := by
  rw [pop, memRead_abort h]
  rfl

theorem push_abort {n : Nat} {v : BitVec (8 * n)} {s : State}
    (h : s.mapped s.space .write (s.sp - BitVec.ofNat 32 n) n = false) :
    push v s = .error (.trap .abt) := by
  rw [push, memWrite_abort h]
  rfl

/-! ## Operands -/

theorem Loc.space_popped {n : Nat} (l : Loc n) (s : State) : (l.popped s).space = s.space := by
  simp [State.space]

theorem Loc.mapped_popped {n : Nat} (l : Loc n) (s : State) (sp : Space) (k : AccessKind) (a : Word)
    (m : Nat) : (l.popped s).mapped sp k a m = s.mapped sp k a m :=
  State.mapped_congr (by simp) (by simp) _ _ _ _

theorem readLoc_abort {k : Bank} {n : Nat} {l : Loc n} {s : State} {a : Word} (ha : l.address s = some a)
    (h : s.mapped s.space .read a n = false) : readLoc k l s = .error (.trap .abt) := by
  cases l with
  | reg | imm => cases ha
  | tos => cases ha; exact pop_abort h
  | mem b => cases ha; rw [readLoc, memRead_abort h]; rfl

theorem writeLoc_abort {k : Bank} {n : Nat} {l : Loc n} {v : BitVec (8 * n)} {s : State} {a : Word}
    (ha : l.target s = some a) (h : s.mapped s.space .write a n = false) :
    writeLoc k l v s = .error (.trap .abt) := by
  cases l with
  | reg | imm => cases ha
  | tos => cases ha; exact push_abort h
  | mem b => cases ha; exact memWrite_abort h

theorem readPlace_abort {k : Bank} {n : Nat} {l : Loc n} {s : State} {a : Word} (ha : l.place s = some a)
    (h : s.mapped s.space .read a n = false) : readPlace k l s = .error (.trap .abt) := by
  cases l with
  | reg | imm => cases ha
  | tos => cases ha; exact memRead_abort h
  | mem b => cases ha; exact memRead_abort h

theorem writePlace_abort {k : Bank} {n : Nat} {l : Loc n} {v : BitVec (8 * n)} {s : State} {a : Word}
    (ha : l.place s = some a) (h : s.mapped s.space .write a n = false) :
    writePlace k l v s = .error (.trap .abt) := by
  cases l with
  | reg | imm => cases ha
  | tos => cases ha; exact memWrite_abort h
  | mem b => cases ha; exact memWrite_abort h

/-- An rmw operand in memory that can be read is read, whether or not it can be rewritten. -/
theorem readPlace_place {k : Bank} {n : Nat} {l : Loc n} {s : State} {a : Word} (ha : l.place s = some a)
    (h : Readable s s.space a n) : readPlace k l s = .ok (l.value k s) := by
  cases l with
  | reg | imm => cases ha
  | tos => cases ha; exact memRead_ok h
  | mem b => cases ha; exact memRead_ok h

theorem addrOf_abort {n : Nat} {g : Gen n} {s : State} (h : locate g s = .error (.trap .abt)) :
    addrOf g s = .error (.trap .abt) := by
  rw [addrOf, h]
  rfl

/-- Steps 3 and 4 of rule R120: either address. -/
theorem fetchSource_abort_address {k : Bank} {n m : Nat} {src : Gen n} {dst : Gen m} {s : State}
    (h : locate src s = .error (.trap .abt) ∨
      ∃ ls, locate src s = .ok ls ∧ locate dst s = .error (.trap .abt)) :
    fetchSource k src dst s = .error (.trap .abt) := by
  rcases h with h | ⟨ls, hs, h⟩
  · rw [fetchSource, h]; rfl
  · rw [fetchSource, hs, ok_bind, h]; rfl

/-- Step 5 of rule R120: the source's read. -/
theorem fetchSource_abort_read {k : Bank} {n m : Nat} {src : Gen n} {dst : Gen m} {s : State} {ls : Loc n}
    {ld : Loc m} {a : Word} (hs : locate src s = .ok ls) (hd : locate dst s = .ok ld)
    (ha : ls.address s = some a) (h : s.mapped s.space .read a n = false) :
    fetchSource k src dst s = .error (.trap .abt) := by
  rw [fetchSource, hs, ok_bind, hd, ok_bind, readLoc_abort ha h]
  rfl

/-! ## Entries -/

/-- The same of a push on SP0 by the supervisor. -/
theorem push_supervisor_abort {n : Nat} {v : BitVec (8 * n)} {s : State} (hu : s.psr.u = false)
    (hs : s.psr.s = false) (h : s.mapped .supervisor .write (s.sp0 - BitVec.ofNat 32 n) n = false) :
    push v s = .error (.trap .abt) :=
  push_abort (by simpa [State.space, State.sp, hu, hs] using h)

/-- What such a push keeps where it stores: the PSR, and every answer of the MMU. -/
theorem push_supervisor_keeps {n : Nat} {v : BitVec (8 * n)} {s : State} (hu : s.psr.u = false)
    (hs : s.psr.s = false) (h : Writable s .supervisor (s.sp0 - BitVec.ofNat 32 n) n) :
    ∃ t, push v s = .ok t ∧ t.psr = s.psr ∧ t.sp0 = s.sp0 - BitVec.ofNat 32 n ∧
      ∀ a k, t.mapped .supervisor .write a k = s.mapped .supervisor .write a k ∧
        (Writable t .supervisor a k ↔ Writable s .supervisor a k) :=
  ⟨_, (push_supervisor_ok_iff hu hs).2 ⟨h, rfl⟩, rfl, rfl, fun _ _ =>
    ⟨State.mapped_congr rfl rfl _ _ _ _, Writable.congr rfl rfl rfl⟩⟩

/-- One of the three pushes of an entry's frame aborts. -/
theorem pushFrame_abort {u : State} {p m : Half} {ra : Word} {f : State → Except Stop State}
    (hu : u.psr.u = false) (hs : u.psr.s = false)
    (h : u.mapped .supervisor .write (u.sp0 - 2#32) 2 = false ∨ Writable u .supervisor (u.sp0 - 2#32) 2 ∧
      (u.mapped .supervisor .write (u.sp0 - 4#32) 2 = false ∨ Writable u .supervisor (u.sp0 - 4#32) 2 ∧
        u.mapped .supervisor .write (u.sp0 - 8#32) 4 = false)) :
    (do
      let s3 ← push (n := 2) p u
      let s4 ← push (n := 2) m s3
      let s5 ← push (n := 4) ra s4
      f s5) = .error (.trap .abt) := by
  rcases h with h | ⟨w2, h⟩
  · rw [push_supervisor_abort hu hs h]
    rfl
  obtain ⟨t, ht, e1, h1, h2⟩ := push_supervisor_keeps (v := p) hu hs w2
  rw [ht, ok_bind]
  rw [← e1] at hu hs
  have a4 : t.sp0 - 2#32 = u.sp0 - 4#32 := by rw [h1, sub_two_two]
  rcases h with h | ⟨w4, h⟩
  · rw [push_supervisor_abort hu hs (by rw [a4, (h2 _ _).1, h])]
    rfl
  obtain ⟨t', ht', e1', h1', h2'⟩ := push_supervisor_keeps (v := m) hu hs (by rw [a4]; exact (h2 _ _).2.2 w4)
  rw [ht', ok_bind]
  rw [← e1'] at hu hs
  have a8 : t'.sp0 - 4#32 = u.sp0 - 8#32 := by rw [h1', a4, sub_four_four]
  rw [push_supervisor_abort hu hs (by rw [a8, (h2' _ _).1, (h2 _ _).1, h])]
  rfl

/-- An access of an entry aborts (rule R246). -/
theorem enter_abort {v ra : Word} {interrupt : Bool} {s : State} (h : s.entryAborts v) :
    enter v ra interrupt s = .error (.trap .abt) := by
  have hR : ∀ a, readWord .supervisor a { s with psr := s.psr.onEntry interrupt } =
      readWord .supervisor a s := fun a => memRead_congr rfl rfl rfl rfl _ _ _
  have hE : ∀ a, s.mapped .supervisor .read a 4 = false → readWord .supervisor a s = .error (.trap .abt) :=
    fun a ha => memRead_abort ha
  have hW : ∀ {u : State} {a : Word} {n : Nat}, u.cfg = s.cfg → u.mmu = s.mmu → u.text = s.text →
      Writable s .supervisor a n → Writable u .supervisor a n := fun h1 h2 h3 => (Writable.congr h1 h2 h3).2
  have hM : ∀ {u : State} {a : Word} {n : Nat}, u.cfg = s.cfg → u.mmu = s.mmu →
      s.mapped .supervisor .write a n = false → u.mapped .supervisor .write a n = false := fun h1 h2 h =>
    (State.mapped_congr h1 h2 _ _ _ _).trans h
  unfold enter
  simp only [hR]
  rcases h with h | ⟨hd, h | ⟨hs, h | ⟨hp, h⟩⟩⟩
  · rw [hE _ h]
    rfl
  · rw [readWord_ok_iff.2 ⟨hd, rfl⟩, ok_bind, ← State.descriptor, ← State.serviceModule, hE _ h]
    rfl
  · rw [readWord_ok_iff.2 ⟨hd, rfl⟩, ok_bind, ← State.descriptor, ← State.serviceModule,
      readWord_ok_iff.2 ⟨hs, rfl⟩, ok_bind, hE _ h]
    rfl
  · rw [readWord_ok_iff.2 ⟨hd, rfl⟩, ok_bind, ← State.descriptor, ← State.serviceModule,
      readWord_ok_iff.2 ⟨hs, rfl⟩, ok_bind, readWord_ok_iff.2 ⟨hp, rfl⟩, ok_bind]
    exact pushFrame_abort rfl rfl (h.imp (hM rfl rfl) (And.imp (hW rfl rfl rfl)
      (Or.imp (hM rfl rfl) (And.imp (hW rfl rfl rfl) (hM rfl rfl)))))

/-! ## Returns -/

/-- An access of a return aborts (rules R214 to R216). -/
theorem returnFrame_abort {s : State} (h : s.frameAborts) : returnFrame s = .error (.trap .abt) := by
  have hM : ∀ (u : State) (v : Word) sp k a n, (u.setSp v).mapped sp k a n = u.mapped sp k a n :=
    fun u v sp k a n => State.mapped_congr (by simp) (by simp) sp k a n
  have hR : ∀ (v : Word) sp a n, Readable (s.setSp v) sp a n ↔ Readable s sp a n := fun v sp a n =>
    Readable.congr (by simp) (by simp) (by simp)
  unfold returnFrame popFrame
  rcases h with h | ⟨r1, h | ⟨r2, h | ⟨r3, ht, hp, h⟩⟩⟩
  · rw [pop_abort h]; rfl
  · rw [pop_ok r1, ok_bind]
    dsimp only
    rw [pop_abort (n := 2) (by simpa only [State.space_setSp, State.sp_setSp, hM] using h)]
    rfl
  · rw [pop_ok r1, ok_bind]
    dsimp only
    rw [pop_ok (n := 2) (by simpa only [State.space_setSp, State.sp_setSp, hR] using r2), ok_bind]
    dsimp only
    rw [pop_abort (n := 2) (by
      simpa only [State.space_setSp, State.sp_setSp, hM, add_four_two] using h)]
    rfl
  · have hf := popFrame_ok_iff.2 ⟨⟨r1, r2, r3⟩, rfl, rfl, rfl, rfl⟩
    unfold popFrame at hf
    rw [hf, ok_bind]
    dsimp only
    unfold State.framePsr at ht hp
    rw [ht, hp]
    simp only [Bool.or_self]
    rw [readWord, memRead_abort]
    · rfl
    · rw [State.mapped_congr (s := s) (by simp) (by simp)]
      exact h

end Sys2Proof.Machine
end

