-- ==== Sys2Proof/Laws/Changes.lean ====
section
/-! SUPPORT. What one step can do, said once: an instruction is a chain of primitive changes, a return, or
a chain followed by an entry. Whole-machine statements need one case per primitive change. -/

namespace Sys2Proof.Machine

/-! ## Primitive changes -/

/-- One primitive change. `fl` says whether the F registers, the FSR and the free values may change. -/
inductive Change (fl : Bool) (s : State) : State → Prop
  | reg (r : Fin 8) (v : Word) : Change fl s (s.setReg r v)
  | sp (v : Word) : Change fl s (s.setSp v)
  | flags (p : Psr) (mode : p.t = s.psr.t ∧ p.p = s.psr.p ∧ p.u = s.psr.u ∧ p.s = s.psr.s ∧ p.i = s.psr.i) :
      Change fl s { s with psr := p }
  | store (a : Word) {n : Nat} (v : BitVec (8 * n)) (h : Writable s s.space a n) :
      Change fl s (s.store s.space a v)
  | irq (l : List (Option Interrupt)) : Change fl s { s with irq := l }
  | freg (h : fl = true) (r : Fin 8) (v : Word) : Change fl s (s.setFreg r v)
  | fsr (h : fl = true) (f : Fsr)
      (keep : f.rm = s.fsr.rm ∧ f.uen = s.fsr.uen ∧ f.ien = s.fsr.ien ∧ f.swf = s.fsr.swf ∧
        (s.fsr.uf = true → f.uf = true) ∧ (s.fsr.inx = true → f.inx = true)) :
      Change fl s { s with fsr := f }
  | free (h : fl = true) (n : Nat) : Change fl s { s with free := n }
  | stack (h : fl = true) (a b : Word) : Change fl s { s with sp0 := a, sp1 := b }

/-- A chain of primitive changes. -/
abbrev Chain (fl : Bool) : State → State → Prop := Relation.ReflTransGen (Change fl)

/-- Both stack pointers are as before: rule R233 restores SP before any entry. -/
abbrev StacksKept (s t : State) : Prop := t.sp0 = s.sp0 ∧ t.sp1 = s.sp1

/-- A property that every primitive change keeps is kept by a chain. -/
theorem Chain.keeps {fl : Bool} {s t : State} {P : State → Prop} (h : Chain fl s t) (hs : P s)
    (step : ∀ a b, P a → Change fl a b → P b) : P t := by
  induction h with
  | refl => exact hs
  | tail _ hc ih => exact step _ _ ih hc

/-! ## Instruction bodies -/

/-- The body of every instruction. -/
def bodyOf : Instr → State → Except Stop State
  | .modb src dst => modBody (.modb src dst) src dst
  | .modw src dst => modBody (.modw src dst) src dst
  | .modd src dst => modBody (.modd src dst) src dst
  | .movbf src dst => convertBody (.movbf src dst) .int src dst (convertInt .single _)
  | .movwf src dst => convertBody (.movwf src dst) .int src dst (convertInt .single _)
  | .movdf src dst => convertBody (.movdf src dst) .int src dst (convertInt .single _)
  | .movbl src dst => convertBody (.movbl src dst) .int src dst (convertInt .double _)
  | .movwl src dst => convertBody (.movwl src dst) .int src dst (convertInt .double _)
  | .movdl src dst => convertBody (.movdl src dst) .int src dst (convertInt .double _)
  | .movfl src dst => convertBody (.movfl src dst) .float src dst (fun v fsr _ => widen v fsr)
  | .movlf src dst => convertBody (.movlf src dst) .float src dst narrow
  | .movqb quick dst => quickBody (.movqb quick dst) quick dst
  | .movqw quick dst => quickBody (.movqw quick dst) quick dst
  | .movqd quick dst => quickBody (.movqd quick dst) quick dst
  | .movsb o => stringBody (.movsb o) (fetchElement 1) o
  | .movsw o => stringBody (.movsw o) (fetchElement 2) o
  | .movsd o => stringBody (.movsd o) (fetchElement 4) o
  | .movst o => stringBody (.movst o) fetchTranslated o
  | .movusb src dst => moveUserBody (.movusb src dst) src dst
  | .movusw src dst => moveUserBody (.movusw src dst) src dst
  | .movusd src dst => moveUserBody (.movusd src dst) src dst
  | .movxbw src dst => signExtendBody (.movxbw src dst) src dst
  | .movxbd src dst => signExtendBody (.movxbd src dst) src dst
  | .movxwd src dst => signExtendBody (.movxwd src dst) src dst
  | .movzbw src dst => zeroExtendBody (.movzbw src dst) src dst
  | .movzbd src dst => zeroExtendBody (.movzbd src dst) src dst
  | .movzwd src dst => zeroExtendBody (.movzwd src dst) src dst
  | .mulf src dst => multiplyBody (.mulf src dst) .single src dst
  | .mull src dst => multiplyBody (.mull src dst) .double src dst
  | .negb src dst => negateBody (.negb src dst) src dst
  | .negw src dst => negateBody (.negw src dst) src dst
  | .negd src dst => negateBody (.negd src dst) src dst
  | .nop => advance .nop
  | .notb src dst => notBody (.notb src dst) src dst
  | .notw src dst => notBody (.notw src dst) src dst
  | .notd src dst => notBody (.notd src dst) src dst
  | .rdval loc => validateBody (.rdval loc) loc
  | .remb src dst => remBody (.remb src dst) src dst
  | .remw src dst => remBody (.remw src dst) src dst
  | .remd src dst => remBody (.remd src dst) src dst
  | .restore reglist => fun s => do
    let t ← popRegs (reglistRegs reglist) s
    advance (.restore reglist) t
  | .ret constant => fun s => do
    let (ra, t) ← pop 4 s
    return { t.setSp (t.sp + dispValue constant) with pc := ra }
  | .reti => returnInterruptBody
  | .rett constant => returnTrapBody constant

/-- Every arm completes its body. -/
theorem exec_eq (i : Instr) (s : State) : exec i s = complete i s (bodyOf i s) := by
  cases i <;> rfl

/-! ## What a body answers -/

/-- A body that ends has made a chain of changes and then set PC; one that stops part-way left a chain of
changes, the stack pointers as before; any other stop starts from the state at the start. -/
def Lawful (fl : Bool) (s : State) : Except Stop State → Prop
  | .ok t => ∃ u v, Chain fl s u ∧ t = { u with pc := v }
  | .error (.trapFrom _ u) => Chain fl s u ∧ StacksKept s u
  | .error (.interrupt q u) => (Chain fl s u ∧ StacksKept s u) ∧ s.accepts q = true
  | .error _ => True

/-- A stop that carries no state. -/
def Stop.plain : Stop → Prop
  | .trap _ => True
  | .refuse _ => True
  | _ => False

theorem Lawful.of_plain {fl : Bool} {s : State} {e : Stop} (h : e.plain) : Lawful fl s (.error e) := by
  cases e <;> simp_all [Stop.plain, Lawful]

theorem Lawful.advance {fl : Bool} {s t : State} {i : Instr} (h : Chain fl s t) :
    Lawful fl s (advance i t) := by
  unfold Machine.advance
  split
  · exact ⟨t, _, h, rfl⟩
  · trivial

/-- The rest of a body after a part that changes nothing it need answer for. -/
theorem Lawful.bind {α : Type} {fl : Bool} {s : State} {x : Except Stop α}
    {f : α → Except Stop State} (he : ∀ e, x = .error e → e.plain)
    (hok : ∀ a, x = .ok a → Lawful fl s (f a)) : Lawful fl s (x >>= f) := by
  cases x with
  | error e => exact Lawful.of_plain (he e rfl)
  | ok a => exact hok a rfl

/-! ## Stops of the named operations -/

theorem bind_plain {α β : Type} {x : Except Stop α} {f : α → Except Stop β}
    (hx : ∀ e, x = .error e → e.plain) (hf : ∀ a e, f a = .error e → e.plain) :
    ∀ e, (x >>= f) = .error e → e.plain := by
  intro e h
  rcases bind_error_iff.1 h with h | ⟨a, -, h⟩
  · exact hx e h
  · exact hf a e h

theorem memRead_plain {sp : Space} {a : Word} {n : Nat} {s : State} :
    ∀ e, memRead sp a n s = .error e → e.plain := by
  unfold memRead
  intro e h
  split at h
  · split at h <;> cases h
    trivial
  · cases h
    trivial

theorem memWrite_plain {sp : Space} {a : Word} {n : Nat} {v : BitVec (8 * n)} {s : State} :
    ∀ e, memWrite sp a v s = .error e → e.plain := by
  unfold memWrite
  intro e h
  split at h
  · split at h <;> cases h
    trivial
  · cases h
    trivial

theorem pop_plain {n : Nat} {s : State} : ∀ e, pop n s = .error e → e.plain :=
  bind_plain memRead_plain fun _ _ h => by cases h

theorem push_plain {n : Nat} {v : BitVec (8 * n)} {s : State} :
    ∀ e, push v s = .error e → e.plain :=
  bind_plain memWrite_plain fun _ _ h => by cases h

theorem advance_plain {i : Instr} {s : State} : ∀ e, advance i s = .error e → e.plain := by
  intro e h
  rw [advance_error h]
  trivial

theorem baseAddress_plain {b : Base} {s : State} :
    ∀ e, baseAddress b s = .error e → e.plain := by
  cases b with
  | memRel p d1 d2 => exact bind_plain memRead_plain fun _ _ h => by cases h
  | external d1 d2 =>
    exact bind_plain memRead_plain fun _ => bind_plain memRead_plain fun _ _ h => by cases h
  | regRel r d => intro e h; cases h
  | absolute d => intro e h; cases h
  | tos => intro e h; cases h
  | space p d => intro e h; cases h

theorem locate_plain {n : Nat} {g : Gen n} {s : State} : ∀ e, locate g s = .error e → e.plain := by
  unfold locate
  intro e h
  split at h
  · cases h
  · cases h
  · cases h
  · exact bind_plain baseAddress_plain (fun _ _ h => by cases h) e h
  · exact bind_plain baseAddress_plain (fun _ _ h => by cases h) e h

theorem readLoc_plain {k : Bank} {n : Nat} {l : Loc n} {s : State} :
    ∀ e, readLoc k l s = .error e → e.plain := by
  cases l with
  | reg r => intro e h; cases h
  | imm v => intro e h; cases h
  | tos => exact pop_plain
  | mem a => exact bind_plain memRead_plain fun _ _ h => by cases h

theorem writeLoc_plain {k : Bank} {n : Nat} {l : Loc n} {v : BitVec (8 * n)} {s : State} :
    ∀ e, writeLoc k l v s = .error e → e.plain := by
  cases l with
  | reg r => intro e h; cases h
  | imm v => intro e h; cases h; trivial
  | tos => exact push_plain
  | mem a => exact memWrite_plain

theorem readPlace_plain {k : Bank} {n : Nat} {l : Loc n} {s : State} :
    ∀ e, readPlace k l s = .error e → e.plain := by
  cases l with
  | reg r => intro e h; cases h
  | imm v => intro e h; cases h; trivial
  | tos => exact memRead_plain
  | mem a => exact memRead_plain

theorem writePlace_plain {k : Bank} {n : Nat} {l : Loc n} {v : BitVec (8 * n)} {s : State} :
    ∀ e, writePlace k l v s = .error e → e.plain := by
  cases l with
  | reg r => intro e h; cases h
  | imm v => intro e h; cases h; trivial
  | tos => exact memWrite_plain
  | mem a => exact memWrite_plain

theorem addrOf_plain {n : Nat} {g : Gen n} {s : State} : ∀ e, addrOf g s = .error e → e.plain := by
  refine bind_plain locate_plain fun l e h => ?_
  cases l <;> cases h <;> trivial

theorem fetchSource_plain {k : Bank} {n m : Nat} {src : Gen n} {dst : Gen m} {s : State} :
    ∀ e, fetchSource k src dst s = .error e → e.plain :=
  bind_plain locate_plain fun _ => bind_plain locate_plain fun _ => bind_plain readLoc_plain
    fun _ _ h => by cases h

theorem moveThrough_plain {n m : Nat} {f : BitVec (8 * n) → BitVec (8 * m)} {src : Gen n} {dst : Gen m}
    {s : State} : ∀ e, moveThrough f src dst s = .error e → e.plain :=
  bind_plain fetchSource_plain fun _ => bind_plain writeLoc_plain fun _ _ h => by cases h

theorem combineThrough_plain {n : Nat}
    {f : BitVec (8 * n) → BitVec (8 * n) → Option (BitVec (8 * n))} {src dst : Gen n} {s : State} :
    ∀ e, combineThrough f src dst s = .error e → e.plain := by
  refine bind_plain fetchSource_plain fun a => bind_plain readPlace_plain fun d e h => ?_
  split at h
  · cases h
    trivial
  · exact writePlace_plain e h

/-! ## Chains of the named operations -/

theorem Chain.popped {fl : Bool} {n : Nat} (l : Loc n) (s : State) : Chain fl s (l.popped s) := by
  cases l with
  | tos => exact .single (.sp _)
  | reg r => exact .refl
  | imm v => exact .refl
  | mem a => exact .refl

theorem Chain.setRegValue {fl : Bool} (s : State) (k : Bank) {n : Nat} (r : Fin 8)
    (v : BitVec (8 * n)) (hk : k = .float → fl = true) : Chain fl s (s.setRegValue k r v) := by
  cases k with
  | int => exact .single (.reg _ _)
  | float =>
    unfold State.setRegValue
    dsimp only
    split
    · exact (Relation.ReflTransGen.single (Change.freg (hk rfl) _ _)).tail (.freg (hk rfl) _ _)
    · exact .single (.freg (hk rfl) _ _)

theorem Chain.pushed {fl : Bool} {s : State} {a : Word} {n : Nat} {v : BitVec (8 * n)}
    (h : Writable s s.space a n) : Chain fl s ((s.store s.space a v).setSp a) :=
  (Relation.ReflTransGen.single (.store a v h)).tail (.sp a)

theorem Chain.writeLoc {fl : Bool} {k : Bank} {n : Nat} {l : Loc n} {v : BitVec (8 * n)} {s t : State}
    (h : Machine.writeLoc k l v s = .ok t) (hk : k = .float → fl = true) : Chain fl s t := by
  obtain ⟨hw, rfl⟩ := writeLoc_ok_iff.1 h
  cases l with
  | reg r => exact Chain.setRegValue s k r v hk
  | imm w => exact hw.elim
  | tos => exact Chain.pushed hw
  | mem a => exact .single (.store a v hw)

theorem Chain.writePlace {fl : Bool} {k : Bank} {n : Nat} {l : Loc n} {v : BitVec (8 * n)}
    {s t : State} (h : Machine.writePlace k l v s = .ok t) (hk : k = .float → fl = true) :
    Chain fl s t := by
  obtain ⟨hw, rfl⟩ := writePlace_ok_iff.1 h
  cases l with
  | reg r => exact Chain.setRegValue s k r v hk
  | imm w => exact hw.elim
  | tos => exact .single (.store _ v hw)
  | mem a => exact .single (.store a v hw)

theorem Chain.fetchSource {fl : Bool} {k : Bank} {n m : Nat} {src : Gen n} {dst : Gen m} {s t : State}
    {dl : Loc m} {v : BitVec (8 * n)} (h : Machine.fetchSource k src dst s = .ok (dl, v, t)) :
    Chain fl s t := by
  obtain ⟨sl, -, -, -, -, rfl⟩ := fetchSource_ok_iff.1 h
  exact Chain.popped sl s

theorem Chain.moveThrough {fl : Bool} {n m : Nat} {f : BitVec (8 * n) → BitVec (8 * m)} {src : Gen n}
    {dst : Gen m} {s t : State} {v : BitVec (8 * n)}
    (h : Machine.moveThrough f src dst s = .ok (v, t)) : Chain fl s t := by
  obtain ⟨⟨dl, v', s1⟩, h1, h⟩ := bind_ok_iff.1 h
  obtain ⟨t', h2, h⟩ := bind_ok_iff.1 h
  cases h
  exact (Chain.fetchSource h1).trans (Chain.writeLoc h2 (fun h => by cases h))

theorem Chain.combineThrough {fl : Bool} {n : Nat}
    {f : BitVec (8 * n) → BitVec (8 * n) → Option (BitVec (8 * n))} {src dst : Gen n} {s t : State}
    (h : Machine.combineThrough f src dst s = .ok t) : Chain fl s t := by
  obtain ⟨⟨dl, v', s1⟩, h1, h⟩ := bind_ok_iff.1 h
  obtain ⟨d, -, h⟩ := bind_ok_iff.1 h
  split at h
  · cases h
  · exact (Chain.fetchSource h1).trans (Chain.writePlace h (fun h => by cases h))

/-! ## The integer bodies -/

theorem modBody_lawful {n : Nat} (fl : Bool) (i : Instr) (src dst : Gen n) (s : State) :
    Lawful fl s (modBody i src dst s) :=
  Lawful.bind combineThrough_plain fun _ h => Lawful.advance (Chain.combineThrough h)

theorem remBody_lawful {n : Nat} (fl : Bool) (i : Instr) (src dst : Gen n) (s : State) :
    Lawful fl s (remBody i src dst s) :=
  Lawful.bind combineThrough_plain fun _ h => Lawful.advance (Chain.combineThrough h)

theorem quickBody_lawful {n : Nat} (fl : Bool) (i : Instr) (quick : BitVec 4) (dst : Gen n)
    (s : State) : Lawful fl s (quickBody i quick dst s) :=
  Lawful.bind locate_plain fun _ _ => Lawful.bind writeLoc_plain fun _ h =>
    Lawful.advance (Chain.writeLoc h (fun h => by cases h))

theorem signExtendBody_lawful {n m : Nat} (fl : Bool) (i : Instr) (src : Gen n) (dst : Gen m)
    (s : State) : Lawful fl s (signExtendBody i src dst s) :=
  Lawful.bind moveThrough_plain fun _ h => Lawful.advance (Chain.moveThrough h)

theorem zeroExtendBody_lawful {n m : Nat} (fl : Bool) (i : Instr) (src : Gen n) (dst : Gen m)
    (s : State) : Lawful fl s (zeroExtendBody i src dst s) :=
  Lawful.bind moveThrough_plain fun _ h => Lawful.advance (Chain.moveThrough h)

theorem notBody_lawful {n : Nat} (fl : Bool) (i : Instr) (src dst : Gen n) (s : State) :
    Lawful fl s (notBody i src dst s) :=
  Lawful.bind moveThrough_plain fun _ h => Lawful.advance (Chain.moveThrough h)

theorem negateBody_lawful {n : Nat} (fl : Bool) (i : Instr) (src dst : Gen n) (s : State) :
    Lawful fl s (negateBody i src dst s) :=
  Lawful.bind moveThrough_plain fun _ h =>
    Lawful.advance ((Chain.moveThrough h).tail (.flags _ ⟨rfl, rfl, rfl, rfl, rfl⟩))

theorem moveUserBody_lawful {n : Nat} (fl : Bool) (i : Instr) (src dst : Gen n) (s : State) :
    Lawful fl s (moveUserBody i src dst s) := by
  unfold moveUserBody
  split
  · trivial
  · rename_i hu
    refine Lawful.bind addrOf_plain fun _ _ => Lawful.bind addrOf_plain fun _ _ =>
      Lawful.bind memRead_plain fun _ _ => Lawful.bind memWrite_plain fun t h => Lawful.advance ?_
    obtain ⟨hw, rfl⟩ := memWrite_ok_iff.1 h
    have hs : s.space = .supervisor := by simp [State.space, hu]
    rw [← hs] at hw ⊢
    exact .single (.store _ _ hw)

theorem validateBody_lawful (fl : Bool) (i : Instr) (loc : Gen 4) (s : State) :
    Lawful fl s (validateBody i loc s) := by
  unfold validateBody
  split
  · trivial
  · split
    · trivial
    · refine Lawful.bind addrOf_plain fun a _ => ?_
      split
      · exact Lawful.advance (.single (.flags _ ⟨rfl, rfl, rfl, rfl, rfl⟩))
      · trivial

theorem popRegs_plain (rs : List (Fin 8)) (s : State) :
    ∀ e, popRegs rs s = .error e → e.plain := by
  induction rs generalizing s with
  | nil => intro e h; cases h
  | cons r rs ih => exact bind_plain pop_plain fun a => ih _

theorem Chain.popRegs {fl : Bool} (rs : List (Fin 8)) {s t : State}
    (h : Machine.popRegs rs s = .ok t) : Chain fl s t := by
  induction rs generalizing s with
  | nil => cases h; exact .refl
  | cons r rs ih =>
    obtain ⟨⟨v, s1⟩, h1, h⟩ := bind_ok_iff.1 h
    obtain ⟨-, -, rfl⟩ := pop_ok_iff.1 h1
    exact ((Relation.ReflTransGen.single (.sp _)).tail (.reg r v)).trans (ih h)

/-! ## The floating-point bodies -/

theorem floatTrap_chain {m : Nat} {store : BitVec (8 * m) → Except Stop State} {fsr : Fsr}
    {s s1 : State} (h1 : Chain true s s1)
    (hstore : ∀ v t, store v = .ok t → Chain true s1 t)
    (hfsr : ∀ t : State, t.fsr = s.fsr → Change true t { t with fsr := fsr })
    (hkeep : ∀ v t, store v = .ok t → t.fsr = s.fsr) :
    ∃ u, floatTrap store fsr s = .trapFrom .fpu u ∧ Chain true s u ∧ StacksKept s u := by
  unfold floatTrap
  split
  · rename_i t ht
    refine ⟨_, rfl, ?_⟩
    exact ⟨(((h1.trans (hstore _ t ht)).tail (hfsr t (hkeep _ t ht))).tail
      (.free rfl (s.free + 1))).tail (.stack rfl s.sp0 s.sp1), rfl, rfl⟩
  · exact ⟨_, rfl, .single (hfsr s rfl), rfl, rfl⟩

/-- The FSR a result leaves keeps the controls and the sticky flags. -/
def FloatResult.keeps {w : Nat} (old : Fsr) : FloatResult w → Prop
  | .store _ f _ => f.rm = old.rm ∧ f.uen = old.uen ∧ f.ien = old.ien ∧ f.swf = old.swf ∧
      (old.uf = true → f.uf = true) ∧ (old.inx = true → f.inx = true)
  | .trap f => f.rm = old.rm ∧ f.uen = old.uen ∧ f.ien = old.ien ∧ f.swf = old.swf ∧
      (old.uf = true → f.uf = true) ∧ (old.inx = true → f.inx = true)

theorem finish_keeps (f : FloatFormat) (w : Nat) (x : Exact) (fsr : Fsr) (free : Nat) :
    (finish f w x fsr free).keeps fsr := by
  unfold finish
  dsimp only
  repeat' split
  all_goals simp_all [FloatResult.keeps]

theorem convertInt_keeps {n : Nat} (f : FloatFormat) (w : Nat) (v : BitVec n) (fsr : Fsr) (free : Nat) :
    (convertInt f w v fsr free).keeps fsr := by
  unfold convertInt
  split
  · simp [FloatResult.keeps]
  · exact finish_keeps _ _ _ _ _

theorem widen_keeps (v : BitVec 32) (fsr : Fsr) : (widen v fsr).keeps fsr := by
  unfold widen
  repeat' split
  all_goals simp [FloatResult.keeps]

theorem narrow_keeps (v : BitVec 64) (fsr : Fsr) (free : Nat) : (narrow v fsr free).keeps fsr := by
  unfold narrow
  split
  · simp [FloatResult.keeps]
  · split
    · simp [FloatResult.keeps]
    · exact finish_keeps _ _ _ _ _

theorem multiply_keeps (f : FloatFormat) {w : Nat} (a b : BitVec w) (fsr : Fsr) (free : Nat) :
    (multiply f a b fsr free).keeps fsr := by
  unfold multiply
  split
  · simp [FloatResult.keeps]
  · split
    · simp [FloatResult.keeps]
    · exact finish_keeps _ _ _ _ _

theorem deliver_lawful {m : Nat} {i : Instr} {store : State → BitVec (8 * m) → Except Stop State}
    {s s1 : State} {r : FloatResult (8 * m)} (h1 : Chain true s s1) (hf : s1.fsr = s.fsr)
    (hr : r.keeps s.fsr) (hstore : ∀ a v t, store a v = .ok t → Chain true a t ∧ t.fsr = a.fsr)
    (hplain : ∀ a v e, store a v = .error e → e.plain) :
    Lawful true s (deliver i store s s1 r) := by
  cases r with
  | store v fsr drawn =>
    refine Lawful.bind (hplain _ _) fun t h => Lawful.advance ?_
    refine ((h1.tail (.fsr rfl fsr (by rw [hf]; exact hr))).tail (.free rfl (s1.free + drawn))).trans
      (hstore _ _ _ h).1
  | trap fsr =>
    obtain ⟨u, hu, hc⟩ := floatTrap_chain (store := store s1) (fsr := fsr) h1
      (fun v t h => (hstore _ _ _ h).1)
      (fun t ht => .fsr rfl fsr (by rw [ht]; exact hr))
      (fun v t h => (hstore _ _ _ h).2.trans hf)
    simp only [deliver, hu]
    exact hc

@[simp] theorem Loc.popped_fsr {n : Nat} (l : Loc n) (s : State) : (l.popped s).fsr = s.fsr := by
  cases l <;> simp [Loc.popped]

theorem writeLoc_fsr {k : Bank} {n : Nat} {l : Loc n} {v : BitVec (8 * n)} {s t : State}
    (h : writeLoc k l v s = .ok t) : t.fsr = s.fsr := by
  obtain ⟨hw, rfl⟩ := writeLoc_ok_iff.1 h
  cases l <;> simp [Loc.stored]

theorem writePlace_fsr {k : Bank} {n : Nat} {l : Loc n} {v : BitVec (8 * n)} {s t : State}
    (h : writePlace k l v s = .ok t) : t.fsr = s.fsr := by
  obtain ⟨hw, rfl⟩ := writePlace_ok_iff.1 h
  cases l <;> simp [Loc.placed]

theorem convertBody_lawful {n m : Nat} (i : Instr) (k : Bank) (src : Gen n) (dst : Gen m)
    (f : BitVec (8 * n) → Fsr → Nat → FloatResult (8 * m)) (s : State)
    (hr : ∀ v, (f v s.fsr s.free).keeps s.fsr) : Lawful true s (convertBody i k src dst f s) := by
  unfold convertBody
  split
  · trivial
  · refine Lawful.bind fetchSource_plain fun ⟨dl, v, s1⟩ h => ?_
    obtain ⟨sl, -, -, -, -, rfl⟩ := fetchSource_ok_iff.1 h
    exact deliver_lawful (Chain.popped sl s) (by simp) (hr v)
      (fun a v t h => ⟨Chain.writeLoc h (fun _ => rfl), writeLoc_fsr h⟩)
      (fun a v => writeLoc_plain)

theorem multiplyBody_lawful {n : Nat} (i : Instr) (fmt : FloatFormat) (src dst : Gen n) (s : State) :
    Lawful true s (multiplyBody i fmt src dst s) := by
  unfold multiplyBody
  split
  · trivial
  · refine Lawful.bind fetchSource_plain fun ⟨dl, v, s1⟩ h => Lawful.bind readPlace_plain fun b _ => ?_
    obtain ⟨sl, -, -, -, -, rfl⟩ := fetchSource_ok_iff.1 h
    exact deliver_lawful (Chain.popped sl s) (by simp) (multiply_keeps _ _ _ _ _)
      (fun a v t h => ⟨Chain.writePlace h (fun _ => rfl), writePlace_fsr h⟩)
      (fun a v => writePlace_plain)

/-! ## The string bodies -/

theorem stringTurn_chain {fl : Bool} {n : Nat} {fetch : State → Except Stop (BitVec (8 * n))}
    {o : StringOptions} {s : State} {r : Turn} (h : stringTurn fetch o s = .ok r) :
    (∃ t, (r = .matched t ∨ r = .copied t) ∧ Chain fl s t ∧ StacksKept s t) := by
  obtain ⟨e, -, h⟩ := bind_ok_iff.1 h
  split at h
  · cases h
    exact ⟨_, .inl rfl, .single (.flags _ ⟨rfl, rfl, rfl, rfl, rfl⟩), rfl, rfl⟩
  · obtain ⟨t, h2, h⟩ := bind_ok_iff.1 h
    cases h
    obtain ⟨hw, rfl⟩ := memWrite_ok_iff.1 h2
    exact ⟨_, .inr rfl,
      (((Relation.ReflTransGen.single (.store _ _ hw)).tail (.reg 1 _)).tail (.reg 2 _)).tail (.reg 0 _),
      rfl, rfl⟩

theorem stringTurn_plain {n : Nat} {fetch : State → Except Stop (BitVec (8 * n))} {o : StringOptions}
    {s : State} (hf : ∀ e, fetch s = .error e → e.plain) :
    ∀ e, stringTurn fetch o s = .error e → e.plain := by
  refine bind_plain hf fun a e h => ?_
  split at h
  · cases h
  · exact bind_plain memWrite_plain (fun _ _ h => by cases h) e h

/-- Whether an interrupt is accepted depends on nothing an instruction changes. -/
theorem accepts_chain {fl : Bool} {s t : State} (h : Chain fl s t) (q : Interrupt) :
    t.accepts q = s.accepts q := by
  refine h.keeps (P := fun t => t.accepts q = s.accepts q) rfl fun a b ih hc => ?_
  cases hc <;> simp_all [State.accepts]

/-- What the loop answers. -/
def LoopLawful (fl : Bool) (s0 : State) : Except Stop State → Prop
  | .ok t => Chain fl s0 t
  | .error (.trapFrom _ u) => Chain fl s0 u ∧ StacksKept s0 u
  | .error (.interrupt q u) => (Chain fl s0 u ∧ StacksKept s0 u) ∧ s0.accepts q = true
  | .error _ => True

theorem stringLoop_lawful {fl : Bool} {n : Nat} {fetch : State → Except Stop (BitVec (8 * n))}
    {o : StringOptions} (hf : ∀ s e, fetch s = .error e → e.plain) (count : Nat) (s0 s : State)
    (h0 : Chain fl s0 s) (hk : StacksKept s0 s) : LoopLawful fl s0 (stringLoop fetch o count s) := by
  induction count generalizing s with
  | zero => exact h0
  | succ count ih =>
    unfold stringLoop
    cases hturn : stringTurn fetch o s with
    | error e =>
      have hp := stringTurn_plain (hf s) e hturn
      cases e with
      | trap k => exact ⟨h0, hk⟩
      | refuse r => trivial
      | trapFrom => cases hp
      | interrupt => cases hp
    | ok r =>
      obtain ⟨t, ht, hc, hkt⟩ := stringTurn_chain (fl := fl) hturn
      have h1 := h0.trans hc
      have hk1 : StacksKept s0 t := ⟨hkt.1.trans hk.1, hkt.2.trans hk.2⟩
      rcases ht with rfl | rfl
      · exact h1
      · dsimp only
        split
        · exact h1
        · obtain ⟨hu, hq⟩ := boundary_cases t
          cases hb : boundary t with
          | mk q u =>
            rw [hb] at hu hq
            dsimp only at hu
            subst hu
            cases q with
            | none => exact ih _ (h1.tail (.irq _)) hk1
            | some q =>
              refine ⟨⟨h1.tail (.irq _), hk1⟩, ?_⟩
              rw [← accepts_chain h1]
              exact (hq q rfl).2

theorem stringBody_lawful {n : Nat} (fl : Bool) (i : Instr)
    {fetch : State → Except Stop (BitVec (8 * n))} (o : StringOptions)
    (hf : ∀ s e, fetch s = .error e → e.plain) (s : State) :
    Lawful fl s (stringBody i fetch o s) := by
  have h := stringLoop_lawful (fl := fl) (o := o) hf (s.reg 0).toNat s
    { s with psr := s.psr.withF false } (.single (.flags _ ⟨rfl, rfl, rfl, rfl, rfl⟩)) ⟨rfl, rfl⟩
  unfold stringBody
  cases hl : stringLoop fetch o (s.reg 0).toNat { s with psr := s.psr.withF false } with
  | ok t =>
    rw [hl] at h
    exact Lawful.advance h
  | error e =>
    rw [hl] at h
    cases e with
    | trap k => trivial
    | refuse r => trivial
    | trapFrom k u => exact h
    | interrupt q u => exact h

theorem fetchElement_plain (n : Nat) (s : State) : ∀ e, fetchElement n s = .error e → e.plain :=
  memRead_plain

theorem fetchTranslated_plain (s : State) : ∀ e, fetchTranslated s = .error e → e.plain :=
  bind_plain memRead_plain fun _ => memRead_plain

/-! ## The returns -/

/-- RETI ends in one state only (rule R214). -/
theorem returnInterruptBody_ok_iff {s t : State} :
    returnInterruptBody s = .ok t ↔ s.psr.u = false ∧ FrameReady { s with eois := s.eois + 1 } ∧
      t = { State.unframed { s with eois := s.eois + 1 } with
        pc := State.frameAddress { s with eois := s.eois + 1 } } := by
  have hafter : ∀ (pc : Word) (x : Except Stop (Word × State)) (a : Word × State),
      afterEoi pc x = .ok a ↔ x = .ok a := by
    intro pc x a
    unfold afterEoi
    split
    · simp
    · rfl
  unfold returnInterruptBody
  split
  · simp_all
  · rename_i hu
    rw [bind_ok_iff]
    constructor
    · rintro ⟨⟨ra, u⟩, h, ht⟩
      rw [hafter, returnFrame_ok_iff] at h
      obtain ⟨hr, rfl, rfl⟩ := h
      cases ht
      exact ⟨by simpa using hu, hr, rfl⟩
    · rintro ⟨-, hr, rfl⟩
      exact ⟨_, (hafter _ _ _).2 (returnFrame_ok_iff.2 ⟨hr, rfl, rfl⟩), rfl⟩

/-- RETT ends in one state only (rules R215, R216). -/
theorem returnTrapBody_ok_iff {d : Disp} {s t : State} :
    returnTrapBody d s = .ok t ↔ s.psr.u = false ∧ FrameReady s ∧
      t = { s.unframed.setSp (s.unframed.sp + dispValue d) with pc := s.frameAddress } := by
  unfold returnTrapBody
  split
  · simp_all
  · rename_i hu
    rw [bind_ok_iff]
    constructor
    · rintro ⟨⟨ra, u⟩, h, ht⟩
      rw [returnFrame_ok_iff] at h
      obtain ⟨hr, rfl, rfl⟩ := h
      cases ht
      exact ⟨by simpa using hu, hr, rfl⟩
    · rintro ⟨-, hr, rfl⟩
      exact ⟨_, returnFrame_ok_iff.2 ⟨hr, rfl, rfl⟩, rfl⟩

theorem popFrame_plain {s : State} : ∀ e, popFrame s = .error e → e.plain :=
  bind_plain pop_plain fun _ => bind_plain pop_plain fun _ => bind_plain pop_plain
    fun _ _ h => by cases h

theorem returnFrame_plain {s : State} : ∀ e, returnFrame s = .error e → e.plain := by
  refine bind_plain popFrame_plain fun a e h => ?_
  dsimp only at h
  split at h
  · cases h
    trivial
  · exact bind_plain memRead_plain (fun _ _ h => by cases h) e h

theorem returnInterruptBody_plain {s : State} :
    ∀ e, returnInterruptBody s = .error e → e.plain := by
  intro e h
  unfold returnInterruptBody at h
  split at h
  · cases h
    trivial
  · refine bind_plain (fun e h => ?_) (fun _ _ h => by cases h) e h
    unfold afterEoi at h
    split at h
    · cases h
      trivial
    · exact returnFrame_plain e h

theorem returnTrapBody_plain {d : Disp} {s : State} :
    ∀ e, returnTrapBody d s = .error e → e.plain := by
  intro e h
  unfold returnTrapBody at h
  split at h
  · cases h
    trivial
  · exact bind_plain returnFrame_plain (fun _ _ h => by cases h) e h

/-! ## Every instruction -/

/-- RETI or RETT. -/
def Instr.isReturn : Instr → Bool
  | .reti => true
  | .rett _ => true
  | _ => false

theorem bodyOf_lawful (i : Instr) (s : State) (hi : Instr.isReturn i = false) :
    Lawful i.isFloat s (bodyOf i s) := by
  cases i with
  | reti => cases hi
  | rett d => cases hi
  | modb | modw | modd => exact modBody_lawful _ _ _ _ _
  | remb | remw | remd => exact remBody_lawful _ _ _ _ _
  | movbf | movwf | movdf | movbl | movwl | movdl =>
    exact convertBody_lawful _ _ _ _ _ _ fun v => convertInt_keeps _ _ _ _ _
  | movfl src dst =>
    exact convertBody_lawful (.movfl src dst) .float src dst (fun v fsr _ => widen v fsr) s
      fun v => widen_keeps v s.fsr
  | movlf => exact convertBody_lawful _ _ _ _ _ _ fun v => narrow_keeps _ _ _
  | mulf | mull => exact multiplyBody_lawful _ _ _ _ _
  | movqb | movqw | movqd => exact quickBody_lawful _ _ _ _ _
  | movsb o => exact stringBody_lawful _ _ o (fetchElement_plain 1) s
  | movsw o => exact stringBody_lawful _ _ o (fetchElement_plain 2) s
  | movsd o => exact stringBody_lawful _ _ o (fetchElement_plain 4) s
  | movst o => exact stringBody_lawful _ _ o fetchTranslated_plain s
  | movusb | movusw | movusd => exact moveUserBody_lawful _ _ _ _ _
  | movxbw | movxbd | movxwd => exact signExtendBody_lawful _ _ _ _ _
  | movzbw | movzbd | movzwd => exact zeroExtendBody_lawful _ _ _ _ _
  | negb | negw | negd => exact negateBody_lawful _ _ _ _ _
  | notb | notw | notd => exact notBody_lawful _ _ _ _ _
  | nop => exact Lawful.advance .refl
  | rdval => exact validateBody_lawful _ _ _ _
  | restore m => exact Lawful.bind (popRegs_plain _ _) fun _ h => Lawful.advance (Chain.popRegs _ h)
  | ret d =>
    refine Lawful.bind pop_plain fun ⟨ra, t⟩ h => ?_
    obtain ⟨-, -, rfl⟩ := pop_ok_iff.1 h
    exact ⟨_, ra, (Relation.ReflTransGen.single (.sp _)).tail (.sp _), rfl⟩

/-- What one instruction can do: its own changes and a new PC; a return; or a chain of changes and the
entry of a trap or, for a string instruction, an interrupt. -/
theorem exec_next_cases {i : Instr} {s t : State} (h : exec i s = .next t) :
    (∃ u v, Chain i.isFloat s u ∧ t = { u with pc := v }) ∨
    (i = .reti ∧ s.psr.u = false ∧ FrameReady { s with eois := s.eois + 1 } ∧
      t = { State.unframed { s with eois := s.eois + 1 } with
        pc := State.frameAddress { s with eois := s.eois + 1 } }) ∨
    (∃ d, i = .rett d ∧ s.psr.u = false ∧ FrameReady s ∧
      t = { s.unframed.setSp (s.unframed.sp + dispValue d) with pc := s.frameAddress }) ∨
    (∃ k u, (Chain i.isFloat s u ∧ StacksKept s u) ∧ takeTrap k u = .next t) ∨
    ∃ q u, (Chain i.isFloat s u ∧ StacksKept s u) ∧ s.accepts q = true ∧ takeInterrupt q u = .next t := by
  rw [exec_eq, complete_next_iff] at h
  obtain ⟨-, h⟩ := h
  cases hi : Instr.isReturn i with
  | false =>
    have hl := bodyOf_lawful i s hi
    rcases h with h | ⟨e, h, hs⟩
    · rw [h] at hl
      exact .inl hl
    · rw [h] at hl
      cases e with
      | trap k => exact .inr (.inr (.inr (.inl ⟨k, s, ⟨.refl, rfl, rfl⟩, hs⟩)))
      | trapFrom k u => exact .inr (.inr (.inr (.inl ⟨k, u, hl, hs⟩)))
      | interrupt q u => exact .inr (.inr (.inr (.inr ⟨q, u, hl.1, hl.2, hs⟩)))
      | refuse r => cases hs
  | true =>
    have plain : ∀ e, bodyOf i s = .error e → stopOutcome s e = .next t → e.plain →
        ∃ k u, (Chain i.isFloat s u ∧ StacksKept s u) ∧ takeTrap k u = .next t := by
      intro e _ hs hp
      cases e with
      | trap k => exact ⟨k, s, ⟨.refl, rfl, rfl⟩, hs⟩
      | refuse r => cases hs
      | trapFrom => cases hp
      | interrupt => cases hp
    rcases h with h | ⟨e, h, hs⟩
    · cases i with
      | reti => exact .inr (.inl ⟨rfl, returnInterruptBody_ok_iff.1 h⟩)
      | rett d => exact .inr (.inr (.inl ⟨d, rfl, returnTrapBody_ok_iff.1 h⟩))
      | _ => cases hi
    · refine .inr (.inr (.inr (.inl (plain e h hs ?_))))
      cases i with
      | reti => exact returnInterruptBody_plain e h
      | rett d => exact returnTrapBody_plain e h
      | _ => cases hi

end Sys2Proof.Machine
end

