-- ==== Sys2Proof/Laws/Encoding.lean ====
section
/-! SUPPORT. The parsers of the decoder read back what the encoder writes, and read nothing else: both
directions for displacements, immediates, base modes and general operands. -/

namespace Sys2Proof

/-! ## Results in sequence -/

theorem parse_bind_ok_iff {α β : Type} {x : Except DecodeError α} {f : α → Except DecodeError β} {b : β} :
    (x >>= f) = .ok b ↔ ∃ a, x = .ok a ∧ f a = .ok b := by
  cases x with
  | error e =>
    constructor
    · intro h; cases h
    · rintro ⟨a, h, -⟩; cases h
  | ok a =>
    constructor
    · intro h; exact ⟨a, rfl, h⟩
    · rintro ⟨a', h, h'⟩; cases h; exact h'

@[simp] theorem parse_ok_bind {α β : Type} (a : α) (f : α → Except DecodeError β) :
    ((Except.ok a : Except DecodeError α) >>= f) = f a := rfl

@[simp] theorem parse_pure {α : Type} (a : α) : (pure a : Except DecodeError α) = .ok a := rfl

/-! ## Bits as numbers -/

theorem toNat_cat {n m : Nat} (x : BitVec n) (y : BitVec m) :
    (x ++ y).toNat = x.toNat * 2 ^ m + y.toNat := by
  rw [BitVec.toNat_append, Nat.shiftLeft_eq, ← Nat.shiftLeft_eq, Nat.shiftLeft_add_eq_or_of_lt y.isLt]

theorem toNat_field {n : Nat} (x : BitVec n) (i k : Nat) :
    (x.extractLsb' i k).toNat = x.toNat / 2 ^ i % 2 ^ k := by
  rw [BitVec.extractLsb'_toNat, Nat.shiftRight_eq_div_pow]

theorem top_bit_clear (b : Byte) : b.extractLsb' 7 1 = 0#1 ↔ b.toNat < 128 := by
  rw [← BitVec.toNat_inj, toNat_field, BitVec.toNat_ofNat]
  have := b.isLt
  omega

theorem second_bit_clear (b : Byte) : b.extractLsb' 6 1 = 0#1 ↔ b.toNat / 64 % 2 = 0 := by
  rw [← BitVec.toNat_inj, toNat_field, BitVec.toNat_ofNat]
  omega

/-! ## Displacements (rule R107) -/

theorem Disp.length_encode (d : Disp) : 1 ≤ d.encode.length ∧ d.encode.length ≤ 4 := by
  cases d <;> simp [Disp.encode]

theorem takeDisp_encode (d : Disp) (rest : List Byte) : takeDisp (d.encode ++ rest) = .ok (d, rest) := by
  cases d with
  | short v =>
    have hv := v.isLt
    have hb : (0b0#1 ++ v : Byte).toNat = v.toNat := by rw [toNat_cat]; simp
    simp only [Disp.encode, List.cons_append, List.nil_append, takeDisp]
    rw [if_pos ((top_bit_clear _).2 (by omega))]
    congr 3
    refine BitVec.eq_of_toNat_eq ?_
    rw [BitVec.toNat_setWidth, hb]
    omega
  | medium v =>
    have hv := v.isLt
    have hb : (0b10#2 ++ v.extractLsb' 8 6 : Byte).toNat = 128 + v.toNat / 256 := by
      rw [toNat_cat, toNat_field, BitVec.toNat_ofNat]
      omega
    simp only [Disp.encode, List.cons_append, List.nil_append, takeDisp]
    rw [if_neg (fun h => by have := (top_bit_clear _).1 h; omega),
      if_pos ((second_bit_clear _).2 (by omega))]
    congr 3
    refine BitVec.eq_of_toNat_eq ?_
    rw [BitVec.toNat_setWidth, toNat_cat, hb, toNat_field]
    omega
  | long v =>
    have hv := v.isLt
    have hb : (0b11#2 ++ v.extractLsb' 24 6 : Byte).toNat = 192 + v.toNat / 16777216 := by
      rw [toNat_cat, toNat_field, BitVec.toNat_ofNat]
      omega
    simp only [Disp.encode, List.cons_append, List.nil_append, takeDisp]
    rw [if_neg (fun h => by have := (top_bit_clear _).1 h; omega),
      if_neg (fun h => by have := (second_bit_clear _).1 h; omega)]
    congr 3
    refine BitVec.eq_of_toNat_eq ?_
    rw [BitVec.toNat_setWidth, toNat_cat, toNat_cat, toNat_cat, hb, toNat_field, toNat_field,
      toNat_field]
    omega

theorem takeDisp_ok {bs rest : List Byte} {d : Disp} (h : takeDisp bs = .ok (d, rest)) :
    bs = d.encode ++ rest := by
  unfold takeDisp at h
  split at h
  · cases h
  · rename_i b0 bs
    have hb := b0.isLt
    split at h
    · rename_i h7
      rw [top_bit_clear] at h7
      cases h
      simp only [Disp.encode, List.cons_append, List.nil_append, List.cons.injEq, and_true]
      refine BitVec.eq_of_toNat_eq ?_
      rw [toNat_cat, BitVec.toNat_setWidth, BitVec.toNat_ofNat]
      omega
    · rename_i h7
      rw [top_bit_clear] at h7
      split at h
      · rename_i h6
        rw [second_bit_clear] at h6
        split at h
        · rename_i b1 bs
          cases h
          have hb1 := b1.isLt
          simp only [Disp.encode, List.cons_append, List.nil_append, List.cons.injEq, and_true]
          constructor
          · refine BitVec.eq_of_toNat_eq ?_
            rw [toNat_cat, toNat_field, BitVec.toNat_setWidth, toNat_cat, BitVec.toNat_ofNat]
            omega
          · refine BitVec.eq_of_toNat_eq ?_
            rw [toNat_field, BitVec.toNat_setWidth, toNat_cat]
            omega
        · cases h
      · rename_i h6
        rw [second_bit_clear] at h6
        split at h
        · rename_i b1 b2 b3 bs
          cases h
          have hb1 := b1.isLt
          have hb2 := b2.isLt
          have hb3 := b3.isLt
          simp only [Disp.encode, List.cons_append, List.nil_append, List.cons.injEq, and_true]
          refine ⟨?_, ?_, ?_, ?_⟩ <;> refine BitVec.eq_of_toNat_eq ?_
          · rw [toNat_cat, toNat_field, BitVec.toNat_setWidth, toNat_cat, toNat_cat, toNat_cat,
              BitVec.toNat_ofNat]
            omega
          all_goals
            rw [toNat_field, BitVec.toNat_setWidth, toNat_cat, toNat_cat, toNat_cat]
            omega
        · cases h

theorem takeDisps_encode (d1 d2 : Disp) (rest : List Byte) :
    takeDisps (d1.encode ++ d2.encode ++ rest) = .ok ((d1, d2), rest) := by
  simp [takeDisps, List.append_assoc, takeDisp_encode]

theorem takeDisps_ok {bs rest : List Byte} {d1 d2 : Disp} (h : takeDisps bs = .ok ((d1, d2), rest)) :
    bs = d1.encode ++ d2.encode ++ rest := by
  obtain ⟨⟨e1, bs1⟩, h1, h⟩ := parse_bind_ok_iff.1 h
  obtain ⟨⟨e2, bs2⟩, h2, h⟩ := parse_bind_ok_iff.1 h
  cases h
  rw [takeDisp_ok h1, takeDisp_ok h2, List.append_assoc]

/-! ## Immediates (rule R109) -/

theorem natOfBytesBE_append (bs : List Byte) (b : Byte) :
    natOfBytesBE (bs ++ [b]) = 256 * natOfBytesBE bs + b.toNat := by
  simp [natOfBytesBE]

theorem natOfBytesBE_lt (bs : List Byte) : natOfBytesBE bs < 256 ^ bs.length := by
  induction bs using List.reverseRecOn with
  | nil => simp [natOfBytesBE]
  | append_singleton bs b ih =>
    rw [natOfBytesBE_append, List.length_append, List.length_singleton, Nat.pow_succ]
    have := b.isLt
    omega

/-- The first bytes of a list, as numbers: byte `k` of `n` is the digit `n - 1 - k`. -/
theorem natOfBytesBE_digit (bs : List Byte) (k : Nat) (h : k < bs.length) :
    natOfBytesBE bs / 256 ^ (bs.length - 1 - k) % 256 = (bs[k]).toNat := by
  induction bs using List.reverseRecOn with
  | nil => simp at h
  | append_singleton bs b ih =>
    rw [natOfBytesBE_append, List.length_append, List.length_singleton, Nat.add_sub_cancel]
    have hb := b.isLt
    rw [List.length_append, List.length_singleton] at h
    rcases Nat.lt_or_ge k bs.length with hk | hk
    · rw [List.getElem_append_left hk, ← ih hk]
      have e : bs.length - k = (bs.length - 1 - k) + 1 := by omega
      rw [e, Nat.pow_succ, Nat.mul_comm (256 ^ _), ← Nat.div_div_eq_div_mul]
      congr 2
      omega
    · have e : k = bs.length := by omega
      subst e
      simpa using hb

theorem length_bytesBE {n : Nat} (v : BitVec (8 * n)) : (bytesBE v).length = n := by
  simp [bytesBE]

theorem bytesBE_natOfBytesBE {n : Nat} (bs : List Byte) (h : bs.length = n) :
    bytesBE (BitVec.ofNat (8 * n) (natOfBytesBE bs)) = bs := by
  refine List.ext_getElem (by simp [length_bytesBE, h]) fun k h1 h2 => ?_
  simp only [bytesBE, List.getElem_map, List.getElem_range]
  refine BitVec.eq_of_toNat_eq ?_
  rw [toNat_field, BitVec.toNat_ofNat, ← natOfBytesBE_digit bs k h2, h]
  have hl := natOfBytesBE_lt bs
  rw [h] at hl
  have e : ∀ m, (256 : Nat) ^ m = 2 ^ (8 * m) := fun m => (Nat.pow_mul 2 8 m).symm
  rw [e] at hl
  rw [e, Nat.mod_eq_of_lt hl]
  rfl

theorem natOfBytesBE_bytesBE {n : Nat} (v : BitVec (8 * n)) : natOfBytesBE (bytesBE v) = v.toNat := by
  have h1 := natOfBytesBE_lt (bytesBE v)
  rw [length_bytesBE] at h1
  have hv := v.isLt
  rw [Nat.pow_mul] at hv
  have digits : ∀ (a b m : Nat), a < 256 ^ m → b < 256 ^ m →
      (∀ j < m, a / 256 ^ j % 256 = b / 256 ^ j % 256) → a = b := by
    intro a b m
    induction m generalizing a b with
    | zero => intro ha hb _; simp at ha hb; omega
    | succ m ih =>
      intro ha hb hd
      have h0 := hd 0 (by omega)
      simp only [Nat.pow_zero, Nat.div_one] at h0
      have hq := ih (a / 256) (b / 256) (by rw [Nat.pow_succ] at ha; omega)
        (by rw [Nat.pow_succ] at hb; omega) (fun j hj => by
          have := hd (j + 1) (by omega)
          rwa [Nat.pow_succ, Nat.mul_comm, ← Nat.div_div_eq_div_mul, ← Nat.div_div_eq_div_mul] at this)
      omega
  refine digits _ _ n h1 hv fun j hj => ?_
  have hd := natOfBytesBE_digit (bytesBE v) (n - 1 - j) (by rw [length_bytesBE]; omega)
  have e : n - 1 - (n - 1 - j) = j := by omega
  simp only [length_bytesBE, e] at hd
  rw [hd]
  simp only [bytesBE, List.getElem_map, List.getElem_range]
  rw [toNat_field, e]
  have e2 : (256 : Nat) = 2 ^ 8 := rfl
  rw [e2, ← Nat.pow_mul]

theorem takeImm_bytesBE {n : Nat} (v : BitVec (8 * n)) (rest : List Byte) :
    takeImm n (bytesBE v ++ rest) = .ok (v, rest) := by
  have hl := length_bytesBE v
  unfold takeImm
  rw [if_neg (by simp [hl])]
  rw [List.take_left' hl, List.drop_left' hl, natOfBytesBE_bytesBE, BitVec.ofNat_toNat,
    BitVec.setWidth_eq]

theorem takeImm_ok {n : Nat} {v : BitVec (8 * n)} {bs rest : List Byte}
    (h : takeImm n bs = .ok (v, rest)) : bs = bytesBE v ++ rest := by
  unfold takeImm at h
  split at h
  · cases h
  · cases h
    rw [bytesBE_natOfBytesBE _ (by rw [List.length_take]; omega), List.take_append_drop]

/-! ## Base modes (rule R100) -/

theorem Base.code_range (b : Base) : 8 ≤ b.code ∧ b.code < 28 ∧ b.code ≠ 20 := by
  cases b with
  | regRel r d => have := r.isLt; simp [Base.code]; omega
  | memRel p d1 d2 => cases p <;> simp [Base.code]
  | absolute d => simp [Base.code]
  | external d1 d2 => simp [Base.code]
  | tos => simp [Base.code]
  | space p d => cases p <;> simp [Base.code]

theorem takeBase_encode (b : Base) (rest : List Byte) :
    takeBase b.code (b.extension ++ rest) = .ok (b, rest) := by
  cases b with
  | regRel r d =>
    have key : ∀ r : Fin 8, takeBase (8 + r.val) (d.encode ++ rest) = .ok (.regRel r d, rest) := by
      intro r
      match r with
      | 0 | 1 | 2 | 3 | 4 | 5 | 6 | 7 => simp [takeBase, takeDisp_encode]
    exact key r
  | memRel p d1 d2 => cases p <;> simp only [Base.code, Base.extension, takeBase, takeDisps_encode] <;> rfl
  | absolute d => simp only [Base.code, Base.extension, takeBase, takeDisp_encode]; rfl
  | external d1 d2 => simp only [Base.code, Base.extension, takeBase, takeDisps_encode]; rfl
  | tos => rfl
  | space p d => cases p <;> simp only [Base.code, Base.extension, takeBase, takeDisp_encode] <;> rfl

theorem takeBase_ok {code : Nat} {b : Base} {bs rest : List Byte}
    (h : takeBase code bs = .ok (b, rest)) : b.code = code ∧ bs = b.extension ++ rest := by
  unfold takeBase at h
  split at h
  all_goals first
    | (obtain ⟨⟨⟨e1, e2⟩, bs1⟩, h1, h⟩ := parse_bind_ok_iff.1 h
       cases h
       exact ⟨rfl, takeDisps_ok h1⟩)
    | (obtain ⟨⟨e, bs1⟩, h1, h⟩ := parse_bind_ok_iff.1 h
       cases h
       exact ⟨rfl, takeDisp_ok h1⟩)
    | (cases h
       exact ⟨rfl, rfl⟩)
    | cases h

/-! ## General operands (rules R100, R109, R113) -/

theorem Scale.code_range (s : Scale) : scaleOfCode s.code = some s ∧ s.code < 32 := by
  cases s <;> decide

theorem scaleOfCode_some {code : Nat} {s : Scale} (h : scaleOfCode code = some s) : code = s.code := by
  unfold scaleOfCode at h
  split at h <;> cases h <;> rfl

theorem scaleOfCode_none {code : Nat} (h : code < 28) : scaleOfCode code = none := by
  unfold scaleOfCode
  split <;> first | omega | rfl

theorem Gen.code_lt {n : Nat} (g : Gen n) : g.code < 32 := by
  cases g with
  | reg r => have := r.isLt; simp [Gen.code]; omega
  | imm v => simp [Gen.code]
  | base b => have := b.code_range; simp [Gen.code]; omega
  | scaled s b r => exact (Scale.code_range s).2

/-- The scale and index byte that an operand has. -/
def Gen.index {n : Nat} : Gen n → Option (Scale × Byte)
  | .scaled s b r => some (s, BitVec.ofNat 5 b.code ++ BitVec.ofNat 3 r.val)
  | _ => none

theorem takeIndex_encode {n : Nat} (g : Gen n) (rest : List Byte) :
    takeIndex g.code (g.indexByte ++ rest) = .ok (g.index, rest) := by
  unfold takeIndex
  cases g with
  | reg r =>
    have := r.isLt
    rw [scaleOfCode_none (by simp [Gen.code]; omega)]
    rfl
  | imm v => rfl
  | base b =>
    have := b.code_range
    rw [scaleOfCode_none (by simp [Gen.code]; omega)]
    rfl
  | scaled s b r =>
    rw [show (Gen.scaled s b r : Gen n).code = s.code from rfl, (Scale.code_range s).1]
    rfl

/-- The operand is no immediate, or immediates are admitted. -/
def Gen.immAllowed {n : Nat} (imm : Bool) : Gen n → Bool
  | .imm _ => imm
  | _ => true

theorem index_fields (b : Base) (r : Fin 8) :
    ((BitVec.ofNat 5 b.code ++ BitVec.ofNat 3 r.val : Byte).extractLsb' 3 5).toNat = b.code ∧
      Fin.ofNat 8 (BitVec.ofNat 5 b.code ++ BitVec.ofNat 3 r.val : Byte).toNat = r := by
  have h1 := b.code_range
  have h2 := r.isLt
  constructor
  · rw [toNat_field, toNat_cat, BitVec.toNat_ofNat, BitVec.toNat_ofNat]
    omega
  · refine Fin.ext ?_
    simp only [Fin.ofNat]
    rw [toNat_cat, BitVec.toNat_ofNat, BitVec.toNat_ofNat]
    omega

theorem takeGen_encode {n : Nat} (imm : Bool) (g : Gen n) (rest : List Byte)
    (h : g.immAllowed imm = true) :
    takeGen n imm g.code g.index (g.extension ++ rest) = .ok (g, rest) := by
  cases g with
  | reg r =>
    have hr := r.isLt
    simp only [takeGen, Gen.index, Gen.code, Gen.extension, hr, if_true, List.nil_append]
    congr 3
    refine Fin.ext ?_
    simp only [Fin.ofNat]
    omega
  | imm v =>
    simp only [Gen.immAllowed] at h
    subst h
    simp only [takeGen, Gen.index, Gen.code, Gen.extension, takeImm_bytesBE]
    rfl
  | base b =>
    obtain ⟨h1, h2, h3⟩ := b.code_range
    have e : takeGen n imm (Gen.base b : Gen n).code (Gen.base b : Gen n).index
        ((Gen.base b : Gen n).extension ++ rest) =
      (if b.code < 8 then .ok (.reg (Fin.ofNat 8 b.code), b.extension ++ rest)
      else if b.code = 20 then
        if imm then do
          let (v, bs) ← takeImm n (b.extension ++ rest)
          pure (.imm v, bs)
        else .error .operandForm
      else do
        let (b', bs) ← takeBase b.code (b.extension ++ rest)
        pure (.base b', bs)) := rfl
    rw [e, if_neg (by omega), if_neg h3, takeBase_encode]
    rfl
  | scaled s b r =>
    obtain ⟨h1, h2⟩ := index_fields b r
    simp only [takeGen, Gen.index, Gen.extension]
    rw [h1, takeBase_encode, parse_ok_bind]
    simp only [h2]
    rfl

/-- Reading an operand's index byte and then the rest of it, after bytes in between. -/
theorem takeIndex_ok {code : Nat} {ix : Option (Scale × Byte)} {bs rest : List Byte}
    (h : takeIndex code bs = .ok (ix, rest)) :
    (ix = none ∧ bs = rest ∧ scaleOfCode code = none) ∨
      ∃ s b, ix = some (s, b) ∧ bs = b :: rest ∧ code = s.code := by
  unfold takeIndex at h
  split at h
  · rename_i hn
    cases h
    exact .inl ⟨rfl, rfl, hn⟩
  · rename_i s hs
    split at h
    · cases h
    · cases h
      exact .inr ⟨s, _, rfl, rfl, scaleOfCode_some hs⟩

theorem takeGen_ok {n : Nat} {imm : Bool} {code : Nat} {ix : Option (Scale × Byte)} {g : Gen n}
    {bs rest ibs ibs' : List Byte} (hi : takeIndex code ibs = .ok (ix, ibs'))
    (h : takeGen n imm code ix bs = .ok (g, rest)) :
    g.code = code ∧ ibs = g.indexByte ++ ibs' ∧ bs = g.extension ++ rest ∧
      g.immAllowed imm = true := by
  rcases takeIndex_ok hi with ⟨rfl, rfl, hn⟩ | ⟨s, b, rfl, rfl, rfl⟩
  · simp only [takeGen] at h
    split at h
    · rename_i hc
      cases h
      refine ⟨?_, rfl, rfl, rfl⟩
      simp only [Gen.code, Fin.ofNat]
      omega
    · split at h
      · rename_i hc
        split at h
        · rename_i him
          obtain ⟨⟨v, bs1⟩, h1, h⟩ := parse_bind_ok_iff.1 h
          cases h
          exact ⟨hc.symm, rfl, takeImm_ok h1, him⟩
        · cases h
      · obtain ⟨⟨b, bs1⟩, h1, h⟩ := parse_bind_ok_iff.1 h
        cases h
        obtain ⟨hb, hbs⟩ := takeBase_ok h1
        exact ⟨hb, rfl, hbs, rfl⟩
  · simp only [takeGen] at h
    obtain ⟨⟨base, bs1⟩, h1, h⟩ := parse_bind_ok_iff.1 h
    cases h
    obtain ⟨hb, hbs⟩ := takeBase_ok h1
    refine ⟨rfl, ?_, hbs, rfl⟩
    simp only [Gen.indexByte, List.cons_append, List.nil_append, List.cons.injEq, and_true]
    refine BitVec.eq_of_toNat_eq ?_
    have hlt := b.isLt
    rw [toNat_cat, BitVec.toNat_ofNat, BitVec.toNat_ofNat, hb, toNat_field]
    simp only [Fin.ofNat]
    omega

theorem takeTwo_encode {n m : Nat} (imm : Bool) (g1 : Gen n) (g2 : Gen m)
    (mk : Gen n → Gen m → Instr) (rest : List Byte) (h1 : g1.immAllowed imm = true)
    (h2 : g2.immAllowed false = true) :
    takeTwo imm g1.code g2.code mk
      (g1.indexByte ++ g2.indexByte ++ g1.extension ++ g2.extension ++ rest) = .ok (mk g1 g2, rest) := by
  unfold takeTwo
  rw [List.append_assoc, List.append_assoc, List.append_assoc, takeIndex_encode, parse_ok_bind]
  simp only
  rw [takeIndex_encode, parse_ok_bind]
  simp only
  rw [takeGen_encode imm g1 _ h1, parse_ok_bind]
  simp only
  rw [takeGen_encode false g2 _ h2]
  rfl

theorem takeTwo_ok {n m : Nat} {imm : Bool} {c1 c2 : Nat} {mk : Gen n → Gen m → Instr} {i : Instr}
    {bs rest : List Byte} (h : takeTwo imm c1 c2 mk bs = .ok (i, rest)) :
    ∃ g1 g2, i = mk g1 g2 ∧ g1.code = c1 ∧ g2.code = c2 ∧
      bs = g1.indexByte ++ g2.indexByte ++ g1.extension ++ g2.extension ++ rest := by
  obtain ⟨⟨ix1, bs1⟩, h1, h⟩ := parse_bind_ok_iff.1 h
  obtain ⟨⟨ix2, bs2⟩, h2, h⟩ := parse_bind_ok_iff.1 h
  obtain ⟨⟨g1, bs3⟩, h3, h⟩ := parse_bind_ok_iff.1 h
  obtain ⟨⟨g2, bs4⟩, h4, h⟩ := parse_bind_ok_iff.1 h
  cases h
  obtain ⟨a1, a2, a3, -⟩ := takeGen_ok h1 h3
  obtain ⟨b1, b2, b3, -⟩ := takeGen_ok h2 h4
  exact ⟨g1, g2, rfl, a1, b1, by rw [a2, b2, a3, b3]; simp [List.append_assoc]⟩

theorem takeOne_encode {n : Nat} (imm : Bool) (g : Gen n) (mk : Gen n → Instr) (rest : List Byte)
    (h : g.immAllowed imm = true) :
    takeOne imm g.code mk (g.indexByte ++ g.extension ++ rest) = .ok (mk g, rest) := by
  unfold takeOne
  rw [List.append_assoc, takeIndex_encode, parse_ok_bind]
  simp only
  rw [takeGen_encode imm g _ h]
  rfl

theorem takeOne_ok {n : Nat} {imm : Bool} {c : Nat} {mk : Gen n → Instr} {i : Instr}
    {bs rest : List Byte} (h : takeOne imm c mk bs = .ok (i, rest)) :
    ∃ g, i = mk g ∧ g.code = c ∧ bs = g.indexByte ++ g.extension ++ rest := by
  obtain ⟨⟨ix, bs1⟩, h1, h⟩ := parse_bind_ok_iff.1 h
  obtain ⟨⟨g, bs2⟩, h2, h⟩ := parse_bind_ok_iff.1 h
  cases h
  obtain ⟨a1, a2, a3, -⟩ := takeGen_ok h1 h2
  exact ⟨g, rfl, a1, by rw [a2, a3, List.append_assoc]⟩

/-- An operand that rule R121 admits is no immediate where the decoder refuses one. -/
theorem Gen.immAllowed_of_admitted {n : Nat} {g : Gen n} {a : Access} {k : Bank}
    (h : g.admitted a k = true) : g.immAllowed (a == .read) = true := by
  cases g <;> simp_all [Gen.admitted, Gen.immAllowed]

end Sys2Proof
end

