-- ==== Sys2Proof/Laws/Exposure.lean ====
section
/-! SUPPORT. What settling the bytes below the stack pointers can do, said once. -/

namespace Sys2Proof.Machine

/-- `u` is `t` with some bytes that a stack pointer has risen past since `s` at other values: no program
text, no byte without a value, and each where a push in a space of the stack would store. -/
structure Settles (s t u : State) : Prop where
  other : u = { t with mem := u.mem, free := u.free }
  wf : t.mem.wf → u.mem.wf
  memory : ∀ x, u.mem.read x ≠ t.mem.read x → inRanges t.text x = false ∧
    (t.mem.read x).isSome = true ∧ (u.mem.read x).isSome = true ∧
    ∃ one, ∃ j < rise s t one, ∃ sp ∈ stackSpaces s t one,
      t.physical sp .write (byteAt (s.stackPointer one) j) = some x
  level : rise s t false = 0 → rise s t true = 0 → u = t

theorem Settles.refl (s t : State) : Settles s t t :=
  ⟨rfl, id, fun _ h => (h rfl).elim, fun _ _ => rfl⟩

theorem mem_exposed {s t : State} {one : Bool} {x : Nat} :
    x ∈ exposed s t one ↔ ∃ j < rise s t one, ∃ sp ∈ stackSpaces s t one,
      t.physical sp .write (byteAt (s.stackPointer one) j) = some x := by
  simp only [exposed, List.mem_flatMap, List.mem_range, List.mem_filterMap]

/-- Bytes freed one after the other. -/
theorem freeBytes_frame (xs : List Nat) (t : State) :
    freeBytes xs t = { t with mem := (freeBytes xs t).mem, free := (freeBytes xs t).free } ∧
    ((∀ x ∈ xs, x < Config.addrSpace) → t.mem.wf → (freeBytes xs t).mem.wf) ∧
    (∀ x, (t.mem.read x).isSome = true → ((freeBytes xs t).mem.read x).isSome = true) ∧
    ∀ x, (freeBytes xs t).mem.read x ≠ t.mem.read x →
      x ∈ xs ∧ inRanges t.text x = false ∧ (t.mem.read x).isSome = true := by
  induction xs generalizing t with
  | nil => exact ⟨rfl, fun _ => id, fun _ => id, fun _ h => (h rfl).elim⟩
  | cons y ys ih =>
    unfold freeBytes
    split
    · rename_i hy
      simp only [Bool.and_eq_true, Bool.not_eq_true'] at hy
      obtain ⟨h1, h2, h3, h4⟩ :=
        ih { t with mem := t.mem.write y (Config.freeByte t.free), free := t.free + 1 }
      refine ⟨h1, fun hx hw => ?_, fun x hs => h3 x ?_, fun x hx => ?_⟩
      · exact h2 (fun x hm => hx x (.tail _ hm)) (Memory.wf_write hw (hx y (.head _)) _)
      · dsimp only
        rw [Memory.read_write]
        split
        · rfl
        · exact hs
      · by_cases hyx : x = y
        · subst hyx
          exact ⟨.head _, hy.2, hy.1⟩
        · have he : (t.mem.write y (Config.freeByte t.free)).read x = t.mem.read x :=
            Memory.read_write_other _ _ _ _ hyx
          obtain ⟨a, b, c⟩ := h4 x (by rw [he]; exact hx)
          rw [he] at c
          exact ⟨.tail _ a, b, c⟩
    · obtain ⟨h1, h2, h3, h4⟩ := ih t
      refine ⟨h1, fun hx => h2 fun x hm => hx x (.tail _ hm), h3, fun x hx => ?_⟩
      obtain ⟨a, b, c⟩ := h4 x hx
      exact ⟨.tail _ a, b, c⟩

/-- A byte among them that holds a value, and is no program text, has a free value afterwards. -/
theorem freeBytes_value {xs : List Nat} {t : State} {x : Nat} (hx : x ∈ xs)
    (hv : (t.mem.read x).isSome = true) (ht : inRanges t.text x = false) :
    ∃ k, t.free ≤ k ∧ (freeBytes xs t).mem.read x = some (Config.freeByte k) := by
  induction xs generalizing t with
  | nil => cases hx
  | cons y ys ih =>
    by_cases hys : x ∈ ys
    · unfold freeBytes
      split
      · obtain ⟨k, hk, h⟩ := ih (t := { t with mem := t.mem.write y (Config.freeByte t.free), free := t.free + 1 })
          hys (by simp only [Memory.read_write]; split <;> simp [hv]) ht
        exact ⟨k, Nat.le_of_succ_le hk, h⟩
      · exact ih hys hv ht
    · obtain rfl | h := List.mem_cons.1 hx
      · rw [freeBytes, if_pos (by simp [hv, ht])]
        refine ⟨t.free, Nat.le_refl _, ?_⟩
        by_contra hc
        obtain ⟨-, -, -, h⟩ := freeBytes_frame ys
          { t with mem := t.mem.write x (Config.freeByte t.free), free := t.free + 1 }
        exact hys (h x fun e => hc (e.trans (by rw [Memory.read_write, if_pos rfl]))).1
      · exact (hys h).elim

/-- What `State.settled` can do. -/
theorem settled_settles (s t : State) : Settles s t (s.settled t) := by
  unfold State.settled
  split
  · obtain ⟨h1, h2, h3, h4⟩ := freeBytes_frame (exposed s t false ++ exposed s t true) t
    refine ⟨h1, h2 fun x hx => ?_, fun x hx => ?_, fun hf ht => ?_⟩
    · rcases List.mem_append.1 hx with h | h <;> obtain ⟨j, -, sp, -, hp⟩ := mem_exposed.1 h <;>
        exact State.physical_lt hp
    · obtain ⟨a, b, c⟩ := h4 x hx
      refine ⟨b, c, h3 x c, ?_⟩
      rcases List.mem_append.1 a with h | h
      · exact ⟨false, mem_exposed.1 h⟩
      · exact ⟨true, mem_exposed.1 h⟩
    · simp [exposed, hf, ht, freeBytes]
  · exact .refl s t

/-- With no entry possible memory keeps its values (rule R68). -/
theorem settled_fault {s t : State} (h : s.entryPossible = false) : s.settled t = t := by
  simp [State.settled, h]

/-- Stack pointers that have not risen uncover nothing. -/
theorem settled_level {s t : State} (h0 : t.sp0 = s.sp0) (h1 : t.sp1 = s.sp1) : s.settled t = t :=
  (settled_settles s t).level (by simp [rise, State.stackPointer, h0]) (by simp [rise, State.stackPointer, h1])

/-- An entry lowers SP0 and leaves SP1. -/
theorem settled_entered {s u : State} {v ra : Word} {interrupt : Bool} (h0 : u.sp0 = s.sp0)
    (h1 : u.sp1 = s.sp1) : s.settled (u.entered v ra interrupt) = u.entered v ra interrupt := by
  refine (settled_settles s _).level ?_ ?_
  · have : u.sp0 - 8#32 - s.sp0 = (-8 : BitVec 32) := by
      rw [h0]
      bv_omega
    show (u.sp0 - 8#32 - s.sp0).toInt.toNat = 0
    rw [this]
    decide
  · show (u.sp1 - s.sp1).toInt.toNat = 0
    simp [h1]

@[simp] theorem settle_next (s t : State) : settle s (.next t) = .next (s.settled t) := rfl
@[simp] theorem settle_fault (s : State) (f : Fault) : settle s (.fault f) = .fault f := rfl
@[simp] theorem settle_refused (s : State) (r : Refusal) : settle s (.refused r) = .refused r := rfl

theorem settle_next_iff {s t : State} {o : Host.Outcome State Fault Refusal} :
    settle s o = .next t ↔ ∃ u, o = .next u ∧ t = s.settled u := by
  cases o <;> simp [eq_comm]

end Sys2Proof.Machine
end

