-- ==== Sys2Proof/Laws/Step.lean ====
section
/-! SUPPORT. What one step can do: fetching, the outcome of bytes that do not decode, and the cases of a
step that answers a next state. -/

namespace Sys2Proof.Machine

/-- A fetch depends on PC, the mode, translation and memory alone. -/
theorem fetchByte_congr {s t : State} (hp : t.pc = s.pc) (hu : t.psr = s.psr) (hc : t.cfg = s.cfg)
    (hm : t.mmu = s.mmu) (hr : t.mem = s.mem) (k : Nat) : fetchByte t k = fetchByte s k := by
  simp only [fetchByte, hp, State.physical_congr hc hm, State.space, hu, hr]

theorem fetch_congr {s t : State} (hp : t.pc = s.pc) (hu : t.psr = s.psr) (hc : t.cfg = s.cfg)
    (hm : t.mmu = s.mmu) (hr : t.mem = s.mem) : fetch t = fetch s := by
  have h : ∀ n k, fetchFrom t n k = fetchFrom s n k := by
    intro n
    induction n with
    | zero => intro k; simp only [fetchFrom, hp]
    | succ n ih => intro k; simp only [fetchFrom, fetchByte_congr hp hu hc hm hr, ih]
  exact h _ _

/-- The interrupts presented do not matter to a fetch. -/
@[simp] theorem fetch_irq (s : State) (l : List (Option Interrupt)) : fetch { s with irq := l } = fetch s :=
  fetch_congr rfl rfl rfl rfl rfl

theorem fetchByte_plain {s : State} {k : Nat} : ∀ e, fetchByte s k = .error e → e.plain := by
  intro e h
  unfold fetchByte at h
  split at h
  · split at h
    · cases h; trivial
    · split at h <;> cases h
      trivial
  · cases h; trivial

theorem fetch_plain (s : State) : (fetch s).2.plain := by
  have h : ∀ n k, (fetchFrom s n k).2.plain := by
    intro n
    induction n with
    | zero => intro k; trivial
    | succ n ih =>
      intro k
      unfold fetchFrom
      split
      · rename_i e he
        exact fetchByte_plain e he
      · exact ih _
  exact h _ _

/-- Bytes that do not decode can only lead to a trap of the fetch. -/
theorem undecoded_next {s t : State} {e : Stop} {d : DecodeError} (he : e.plain)
    (h : undecoded s e d = .next t) : ∃ k, e = .trap k ∧ takeTrap k s = .next t := by
  cases d with
  | truncated =>
    cases e with
    | trap k => exact ⟨k, rfl, h⟩
    | refuse r => cases h
    | trapFrom => cases he
    | interrupt => cases he
  | unknownEncoding => cases h
  | operandForm => cases h

/-- The interrupts presented do not matter to whether PC has reached the end address. -/
@[simp] theorem State.finished_irq (s : State) (l : List (Option Interrupt)) :
    State.finished { s with irq := l } = s.finished := rfl

/-- At the end address a step ends the run, whatever is presented and whatever stands there. -/
theorem step_finished {s : State} (h : s.finished = true) : step s = .fault (.done s) := by
  simp only [step, h, ↓reduceIte]

/-- Elsewhere a step is the boundary and, where no interrupt is taken there, the instruction. -/
theorem step_running {s : State} (h : s.finished = false) :
    step s = match boundary s with
      | (some q, t) => takeInterrupt q t
      | (none, t) => runNext t := by
  unfold step
  rw [h]
  rfl

/-- Where no interrupt is taken a step is the instruction, the boundary behind it. -/
theorem step_untaken {s : State} (h : s.finished = false) (hn : NoneTaken s) :
    step s = runNext { s with irq := s.irq.tail } := by
  have ha : ∀ q, s.irq.head? = some (some q) → s.accepts q = false := fun q hq => by
    rcases hn q hq with hf | ⟨hq, hi⟩ <;> simp [State.accepts, *]
  obtain ⟨hu, hb⟩ := boundary_cases s
  rw [step_running h]
  cases hc : boundary s with
  | mk q u =>
    rw [hc] at hu hb
    cases q with
    | none => exact congrArg runNext hu
    | some q =>
      obtain ⟨h1, h2⟩ := hb q rfl
      rw [ha q h1] at h2
      cases h2

/-- The cases of a step that answers a next state; the boundary is behind it in each. -/
theorem step_next_cases {s t : State} (h : step s = .next t) : s.finished = false ∧
    ((∃ q, s.irq.head? = some (some q) ∧ s.accepts q = true ∧
      takeInterrupt q { s with irq := s.irq.tail } = .next t) ∨
    (boundary s).1 = none ∧
      ((∃ i rest u, decode (fetch s).1 = .ok (i, rest) ∧ exec i { s with irq := s.irq.tail } = .next u ∧
        t = State.settled { s with irq := s.irq.tail } u) ∨
      ∃ k, takeTrap k { s with irq := s.irq.tail } = .next t)) := by
  obtain ⟨hs, hq⟩ := boundary_cases s
  have hf : s.finished = false := by
    cases hf : s.finished with
    | false => rfl
    | true => rw [step_finished hf] at h; cases h
  refine ⟨hf, ?_⟩
  rw [step_running hf] at h
  cases hb : boundary s with
  | mk q u =>
    rw [hb] at h hs hq
    dsimp only at h hs hq
    subst hs
    cases q with
    | some q => exact .inl ⟨q, (hq q rfl).1, (hq q rfl).2, h⟩
    | none =>
      dsimp only at h
      unfold runNext at h
      rw [fetch_irq] at h
      cases hd : decode (fetch s).1 with
      | ok p =>
        obtain ⟨i, rest⟩ := p
        rw [hd] at h
        obtain ⟨u, hu, rfl⟩ := settle_next_iff.1 h
        exact .inr ⟨rfl, .inl ⟨i, rest, u, rfl, hu, rfl⟩⟩
      | error d =>
        rw [hd] at h
        obtain ⟨k, -, hk⟩ := undecoded_next (fetch_plain s) h
        exact .inr ⟨rfl, .inr ⟨k, hk⟩⟩

/-- The same with the instruction's own cases: a chain of changes and a new PC, or a return, each with the
bytes it uncovered settled; or a chain of changes and an entry, which uncovers none. `fl` may be taken false
where an interrupt is taken at the boundary or the instruction is no floating-point instruction. -/
theorem step_cases {s t : State} (h : step s = .next t) :
    ∃ fl, (fl = true → (boundary s).1 = none ∧
      ∃ i rest, decode (fetch s).1 = .ok (i, rest) ∧ i.isFloat = true) ∧
    ((∃ w, Settles s w t ∧
      ((∃ u v, Chain fl s u ∧ w = { u with pc := v }) ∨
      (∃ rest s', decode (fetch s).1 = .ok (.reti, rest) ∧ s' = { s with irq := s.irq.tail } ∧
        s.psr.u = false ∧ FrameReady { s' with eois := s'.eois + 1 } ∧
        w = { State.unframed { s' with eois := s'.eois + 1 } with
          pc := State.frameAddress { s' with eois := s'.eois + 1 } }) ∨
      (∃ d rest s', decode (fetch s).1 = .ok (.rett d, rest) ∧ s' = { s with irq := s.irq.tail } ∧
        s.psr.u = false ∧ FrameReady s' ∧
        w = { s'.unframed.setSp (s'.unframed.sp + dispValue d) with pc := s'.frameAddress }))) ∨
    ∃ v interrupt u, (Chain fl s u ∧ StacksKept s u) ∧ s.trapEntry = .sequence ∧ EntryReady v u ∧
      t = u.entered v u.pc interrupt) := by
  have hseq : ∀ {fl u}, Chain fl s u → u.trapEntry = s.trapEntry := fun hc =>
    hc.keeps (P := fun u => u.trapEntry = s.trapEntry) rfl fun a b ih c => by cases c <;> simp_all
  have hacc : ∀ {u : State} {q}, u.accepts q = true → u.trapEntry = .sequence := by
    intro u q hq
    unfold State.accepts at hq
    simp only [Bool.and_eq_true, beq_iff_eq] at hq
    exact hq.1
  have h0 : ∀ fl, Chain fl s { s with irq := s.irq.tail } := fun fl => .single (.irq _)
  have hset : ∀ u, Settles s u (State.settled { s with irq := s.irq.tail } u) := fun u =>
    let h := settled_settles { s with irq := s.irq.tail } u
    ⟨h.other, h.wf, h.memory, h.level⟩
  rcases (step_next_cases h).2 with ⟨q, -, ha, hi⟩ | ⟨hb, ⟨i, rest, w, hd, he, rfl⟩ | ⟨k, hk⟩⟩
  · obtain ⟨hr, ht⟩ := takeInterrupt_next_iff.1 hi
    exact ⟨false, by simp, .inr ⟨_, true, _, ⟨h0 _, rfl, rfl⟩, hacc ha, hr, ht⟩⟩
  · refine ⟨i.isFloat, fun hf => ⟨hb, i, rest, hd, hf⟩, ?_⟩
    rcases exec_next_cases he with ⟨u, v, hc, ht⟩ | ⟨hi, hu, hr, ht⟩ | ⟨d, hi, hu, hr, ht⟩ |
        ⟨k, u, ⟨hc, hsp⟩, hk⟩ | ⟨q, u, ⟨hc, hsp⟩, ha, hk⟩
    · exact .inl ⟨w, hset w, .inl ⟨u, v, (h0 _).trans hc, ht⟩⟩
    · subst hi
      exact .inl ⟨w, hset w, .inr (.inl ⟨rest, _, hd, rfl, hu, hr, ht⟩)⟩
    · subst hi
      exact .inl ⟨w, hset w, .inr (.inr ⟨d, rest, _, hd, rfl, hu, hr, ht⟩)⟩
    · obtain ⟨hs, hr, rfl⟩ := takeTrap_next_iff.1 hk
      have hc' := (h0 _).trans hc
      exact .inr ⟨_, false, u, ⟨hc', hsp⟩, (hseq hc').symm.trans hs, hr, settled_entered hsp.1 hsp.2⟩
    · obtain ⟨hr, rfl⟩ := takeInterrupt_next_iff.1 hk
      exact .inr ⟨_, true, u, ⟨(h0 _).trans hc, hsp⟩, hacc ha, hr, settled_entered hsp.1 hsp.2⟩
  · obtain ⟨hs, hr, ht⟩ := takeTrap_next_iff.1 hk
    exact ⟨false, by simp, .inr ⟨_, false, _, ⟨h0 _, rfl, rfl⟩, hs, hr, ht⟩⟩

end Sys2Proof.Machine
end

