-- ==== Sys2Proof/Laws/Exec.lean ====
section
/-! SUPPORT. From an instruction's body to its outcome: the body that runs to its end, the fields a stored
result leaves alone, the delivery of a floating result, the copying loop of a string instruction, and the
registers RESTORE pops. -/

namespace Sys2Proof.Machine

/-! ## The outcome -/

theorem exec_ok {i : Instr} {s t : State} (hw : i.wellFormed = true) (h : bodyOf i s = .ok t) :
    exec i s = .next t := by
  rw [exec_eq, h, complete_ok hw]

theorem exec_stop {i : Instr} {s : State} {e : Stop} (hw : i.wellFormed = true)
    (h : bodyOf i s = .error e) : exec i s = stopOutcome s e := by
  rw [exec_eq, h]
  simp [complete, hw]

theorem exec_malformed {i : Instr} {s : State} (hw : i.wellFormed = false) :
    exec i s = .refused (.operandForm s.pc) := by
  rw [exec_eq]
  simp [complete, hw]

theorem fits_congr {s t : State} (h : t.pc = s.pc) (n : Nat) : t.fits n = s.fits n := by
  simp [State.fits, h]

/-- The end of an instruction that has kept PC since its start `s`. -/
theorem advance_eq {i : Instr} {s t : State} (hf : s.fits i.length = true) (h : t.pc = s.pc) :
    advance i t = .ok { t with pc := s.after i } := by
  rw [advance_ok (by rw [fits_congr h]; exact hf), h]
  rfl

/-! ## What a stored result leaves alone -/

@[simp] theorem Loc.stored_pc {n : Nat} (k : Bank) (l : Loc n) (v : BitVec (8 * n)) (s : State) :
    (l.stored k v s).pc = s.pc := by
  cases l <;> simp [Loc.stored]

@[simp] theorem Loc.stored_psr {n : Nat} (k : Bank) (l : Loc n) (v : BitVec (8 * n)) (s : State) :
    (l.stored k v s).psr = s.psr := by
  cases l <;> simp [Loc.stored]

@[simp] theorem Loc.placed_pc {n : Nat} (k : Bank) (l : Loc n) (v : BitVec (8 * n)) (s : State) :
    (l.placed k v s).pc = s.pc := by
  cases l <;> simp [Loc.placed]

@[simp] theorem Loc.placed_psr {n : Nat} (k : Bank) (l : Loc n) (v : BitVec (8 * n)) (s : State) :
    (l.placed k v s).psr = s.psr := by
  cases l <;> simp [Loc.placed]

/-! ## Floating results -/

theorem deliver_store {m : Nat} {i : Instr} {store : State → BitVec (8 * m) → Except Stop State}
    {s s1 : State} {v : BitVec (8 * m)} {fsr : Fsr} {drawn : Nat} :
    deliver i store s s1 (.store v fsr drawn) =
      store { s1 with fsr := fsr, free := s1.free + drawn } v >>= advance i := rfl

theorem deliver_trap {m : Nat} {i : Instr} {store : State → BitVec (8 * m) → Except Stop State}
    {s s1 : State} {fsr : Fsr} :
    deliver i store s s1 (.trap fsr) = .error (floatTrap (store s1) fsr s) := rfl

/-- Trap(FPU) where the destination can be stored. -/
theorem floatTrap_ok {m : Nat} {store : BitVec (8 * m) → Except Stop State} {fsr : Fsr} {s t : State}
    (h : store ((Config.freeOperand s.free).setWidth (8 * m)) = .ok t) :
    floatTrap store fsr s =
      .trapFrom .fpu { t with sp0 := s.sp0, sp1 := s.sp1, fsr := fsr, free := s.free + 1 } := by
  rw [floatTrap, h]

/-! ## String instructions -/

/-- One turn that copies its element. -/
theorem stringTurn_copied {n : Nat} {fetch : State → Except Stop (BitVec (8 * n))} {o : StringOptions}
    {s : State} {e : BitVec (8 * n)} (hf : fetch s = .ok e)
    (hm : matchEnds o.matching e (s.regValue .int n 4) = false) (hw : Writable s s.space (s.reg 2) n) :
    stringTurn fetch o s = .ok (.copied (stepPointers n o.backward (s.store s.space (s.reg 2) e))) := by
  rw [stringTurn, hf, ok_bind, hm, memWrite_ok hw]
  rfl

/-- One turn that a match option ends. -/
theorem stringTurn_matched {n : Nat} {fetch : State → Except Stop (BitVec (8 * n))} {o : StringOptions}
    {s : State} {e : BitVec (8 * n)} (hf : fetch s = .ok e)
    (hm : matchEnds o.matching e (s.regValue .int n 4) = true) :
    stringTurn fetch o s = .ok (.matched { s with psr := s.psr.withF true }) := by
  rw [stringTurn, hf, ok_bind, hm]
  rfl

@[simp] theorem stepPointers_irq (n : Nat) (b : Bool) (s : State) : (stepPointers n b s).irq = s.irq := rfl

/-- The first `k` of `k + count` elements, with nothing presented in between. -/
theorem stringLoop_copied {n : Nat} {fetch : State → Except Stop (BitVec (8 * n))} {o : StringOptions}
    {e : State → BitVec (8 * n)} {readable : State → Prop}
    (hf : ∀ u, readable u → fetch u = .ok (e u)) :
    ∀ (k count : Nat) (s : State), s.irq = [] → CopyReady e readable o k s →
      stringLoop fetch o (k + count) s = stringLoop fetch o count (s.copied e o.backward k)
  | 0, count, s, _, _ => by simp [State.copied]
  | k + 1, count, s, hq, h => by
    obtain ⟨hr, hm, hw⟩ := h 0 (Nat.succ_pos k)
    have hq' : (stepPointers n o.backward (s.store s.space (s.reg 2) (e s))).irq = [] := by simp [hq]
    have ht := stringTurn_copied (hf _ hr) hm hw
    simp only [State.copied] at ht
    have hk : k + 1 + count = (k + count) + 1 := by omega
    rw [hk, stringLoop, ht]
    dsimp only
    rw [State.copied]
    split
    · obtain ⟨rfl, rfl⟩ : k = 0 ∧ count = 0 := by omega
      simp [State.copied, stringLoop]
    · rw [boundary_quiet hq']
      dsimp only
      refine stringLoop_copied hf k count _ hq' fun j hj => ?_
      exact h (j + 1) (Nat.succ_lt_succ hj)

/-! ## RESTORE -/

/-- Registers popped one after the other: SP rises by 4 for each, and only those registers change. -/
theorem popRegs_cons {r : Fin 8} {rs : List (Fin 8)} {s : State} (h : Readable s s.space s.sp 4) :
    popRegs (r :: rs) s =
      popRegs rs ((s.setSp (s.sp + 4#32)).setReg r (s.memValue s.space s.sp 4)) := by
  rw [popRegs, pop_ok h]
  rfl

end Sys2Proof.Machine
end

