-- ==== Sys2Proof/Tests/Slice0.lean ====
section
/-! SUPPORT. Tests: which operand forms are refused, the words of every instruction written from the
encoding tables, single steps whose expected results are those of 95_test_vectors.md, and states that meet
the hypotheses of the statements. -/

namespace Sys2Proof.Tests

-- One theorem at a time: each asks the kernel, and asking in parallel takes a thread for each.
set_option Elab.async false

open Sys2Proof Sys2Proof.Machine

/-! ## Operand forms that are refused (rules R120, R121) -/

theorem test_immediate_destination : Instr.wellFormed (.negb (.reg 0) (.imm 1#8)) = false := by decide
theorem test_immediate_updated : Instr.wellFormed (.modb (.reg 0) (.imm 1#8)) = false := by decide
theorem test_immediate_address : Instr.wellFormed (.rdval (.imm 1#32)) = false := by decide
theorem test_register_address : Instr.wellFormed (.movusd (.reg 0) (.base .tos)) = false := by decide
theorem test_register_second_address :
    Instr.wellFormed (.movusd (.base .tos) (.reg 0)) = false := by decide
theorem test_odd_pair_destination : Instr.wellFormed (.movfl (.reg 0) (.reg 1)) = false := by decide
theorem test_odd_pair_source : Instr.wellFormed (.movlf (.reg 3) (.reg 1)) = false := by decide
theorem test_odd_pair_updated : Instr.wellFormed (.mull (.reg 2) (.reg 5)) = false := by decide
theorem test_popped_then_sp_based :
    Instr.wellFormed (.negw (.base .tos) (.base (.space .sp (.short 4#7)))) = false := by decide
theorem test_popped_then_stack_relative :
    Instr.wellFormed (.negw (.base .tos) (.base (.memRel .sp (.short 4#7) (.short 0#7)))) = false := by
  decide
theorem test_popped_then_scaled :
    Instr.wellFormed (.negw (.base .tos) (.scaled .b .tos 1)) = false := by decide
theorem test_odd_integer_register : Instr.wellFormed (.movdl (.reg 3) (.reg 2)) = true := by decide
theorem test_both_top_of_stack : Instr.wellFormed (.negw (.base .tos) (.base .tos)) = true := by decide
theorem test_decoder_refuses_form :
    decode [0x4E#8, 0x20#8, 0x05#8] = .error .operandForm := by decide +kernel
theorem test_decoder_refuses_reserved_mode :
    decode [0x4E#8, 0x24#8, 0x98#8] = .error .operandForm := by decide +kernel
theorem test_decoder_refuses_both_matches :
    decode [0x0E#8, 0x00#8, 0x04#8] = .error .operandForm := by decide +kernel
theorem test_decoder_refuses_length :
    decode [0x4E#8, 0x22#8, 0x00#8] = .error .unknownEncoding := by decide +kernel
theorem test_decoder_refuses_translate_word :
    decode [0x0E#8, 0x81#8, 0x00#8] = .error .unknownEncoding := by decide +kernel

/-! ## The word of every instruction, written from rules R93 to R113 -/

theorem test_decode_modb : decode [0xCE#8, 0xB8#8, 0xD6#8, 0x04#8, 0x08#8] =
    .ok (.modb (.base (.space .sb (.short 4#7))) (.base (.space .sb (.short 8#7))), []) := by decide +kernel
theorem test_decode_modw : decode [0xCE#8, 0x79#8, 0xA5#8, 0x12#8, 0x34#8, 0x81#8, 0x00#8] =
    .ok (.modw (.imm 0x1234#16) (.base (.absolute (.medium 0x100#14))), []) := by decide +kernel
theorem test_decode_modd : decode [0xCE#8, 0xBB#8, 0x82#8, 0x7C#8, 0x08#8, 0x40#8] =
    .ok (.modd (.base (.memRel .fp (.short 124#7) (.short 8#7))) (.base (.regRel 2 (.short 64#7))), []) := by decide +kernel
theorem test_decode_movbf : decode [0x3E#8, 0x04#8, 0x00#8] =
    .ok (.movbf (.reg 0) (.reg 0), []) := by decide +kernel
theorem test_decode_movwf : decode [0x3E#8, 0xC5#8, 0x91#8, 0x01#8, 0x02#8] =
    .ok (.movwf (.base (.memRel .sb (.short 1#7) (.short 2#7))) (.reg 7), []) := by decide +kernel
theorem test_decode_movdf : decode [0x3E#8, 0x87#8, 0xA6#8, 0x01#8, 0x00#8, 0x00#8, 0x01#8, 0xA0#8, 0x00#8] =
    .ok (.movdf (.imm 0x1000001#32) (.base (.space .sb (.medium 0x2000#14))), []) := by decide +kernel
theorem test_decode_movbl : decode [0x3E#8, 0x80#8, 0xB8#8] =
    .ok (.movbl (.base .tos) (.reg 2), []) := by decide +kernel
theorem test_decode_movwl : decode [0x3E#8, 0x81#8, 0xB1#8, 0x01#8, 0x02#8] =
    .ok (.movwl (.base (.external (.short 1#7) (.short 2#7))) (.reg 6), []) := by decide +kernel
theorem test_decode_movdl : decode [0x3E#8, 0x03#8, 0x1E#8, 0xDF#8, 0xFF#8, 0xFF#8, 0xFF#8] =
    .ok (.movdl (.reg 3) (.base (.space .fp (.long 0x1fffffff#30))), []) := by decide +kernel
theorem test_decode_movfl : decode [0x3E#8, 0x1B#8, 0xD0#8, 0x08#8] =
    .ok (.movfl (.base (.space .sb (.short 8#7))) (.reg 0), []) := by decide +kernel
theorem test_decode_movlf : decode [0x3E#8, 0x96#8, 0x06#8, 0x0C#8] =
    .ok (.movlf (.reg 0) (.base (.space .sb (.short 12#7))), []) := by decide +kernel
theorem test_decode_movusb : decode [0xAE#8, 0x5C#8, 0xD6#8, 0x09#8, 0x05#8] =
    .ok (.movusb (.base (.space .sb (.short 9#7))) (.base (.space .sp (.short 5#7))), []) := by decide +kernel
theorem test_decode_movusw : decode [0xAE#8, 0x5D#8, 0x8A#8, 0x00#8, 0x7F#8, 0x00#8] =
    .ok (.movusw (.base (.memRel .sp (.short 0#7) (.short 127#7))) (.base (.regRel 1 (.short 0#7))), []) := by decide +kernel
theorem test_decode_movusd : decode [0xAE#8, 0xDF#8, 0xBE#8, 0xE0#8, 0x00#8, 0x00#8, 0x00#8] =
    .ok (.movusd (.base .tos) (.base (.space .pc (.long 0x20000000#30))), []) := by decide +kernel
theorem test_decode_movxbw : decode [0xCE#8, 0x10#8, 0xD0#8, 0x02#8] =
    .ok (.movxbw (.base (.space .sb (.short 2#7))) (.reg 0), []) := by decide +kernel
theorem test_decode_movxbd : decode [0xCE#8, 0x5C#8, 0xF1#8, 0xD3#8, 0x01#8] =
    .ok (.movxbd (.scaled .d (.space .sb (.short 1#7)) 3) (.reg 5), []) := by decide +kernel
theorem test_decode_movxwd : decode [0xCE#8, 0xDD#8, 0xEF#8, 0x67#8, 0xB9#8, 0x3F#8] =
    .ok (.movxwd (.scaled .w (.regRel 4 (.short 63#7)) 7) (.scaled .q (.tos) 1), []) := by decide +kernel
theorem test_decode_movzbw : decode [0xCE#8, 0x14#8, 0xC0#8, 0x7C#8] =
    .ok (.movzbw (.base (.space .fp (.short 124#7))) (.reg 0), []) := by decide +kernel
theorem test_decode_movzbd : decode [0xCE#8, 0xD8#8, 0xA5#8, 0xFF#8] =
    .ok (.movzbd (.imm 0xff#8) (.base .tos), []) := by decide +kernel
theorem test_decode_movzwd : decode [0xCE#8, 0x99#8, 0xE0#8, 0xA8#8, 0x9F#8, 0xFF#8] =
    .ok (.movzwd (.scaled .b (.absolute (.medium 0x1fff#14)) 0) (.reg 2), []) := by decide +kernel
theorem test_decode_mulf : decode [0xBE#8, 0x31#8, 0x00#8] =
    .ok (.mulf (.reg 0) (.reg 0), []) := by decide +kernel
theorem test_decode_mull : decode [0xBE#8, 0x30#8, 0xA1#8, 0x3F#8, 0xF0#8, 0x00#8, 0x00#8, 0x00#8, 0x00#8, 0x00#8, 0x01#8] =
    .ok (.mull (.imm 0x3ff0000000000001#64) (.reg 4), []) := by decide +kernel
theorem test_decode_negb : decode [0x4E#8, 0xA0#8, 0x29#8] =
    .ok (.negb (.reg 5) (.reg 6), []) := by decide +kernel
theorem test_decode_negw : decode [0x4E#8, 0xA1#8, 0xD6#8, 0x04#8, 0x06#8] =
    .ok (.negw (.base (.space .sb (.short 4#7))) (.base (.space .sb (.short 6#7))), []) := by decide +kernel
theorem test_decode_negd : decode [0x4E#8, 0xA3#8, 0x7C#8, 0x80#8, 0x40#8, 0x02#8, 0x7E#8] =
    .ok (.negd (.base (.regRel 7 (.medium 0x40#14))) (.base (.memRel .sb (.short 2#7) (.short 126#7))), []) := by decide +kernel
theorem test_decode_notb : decode [0x4E#8, 0x24#8, 0x00#8] =
    .ok (.notb (.reg 0) (.reg 0), []) := by decide +kernel
theorem test_decode_notw : decode [0x4E#8, 0xE5#8, 0x4D#8, 0x0A#8] =
    .ok (.notw (.base (.regRel 1 (.short 10#7))) (.base .tos), []) := by decide +kernel
theorem test_decode_notd : decode [0x4E#8, 0xA7#8, 0xDD#8, 0x06#8, 0x7F#8, 0x03#8] =
    .ok (.notd (.base (.space .pc (.short 6#7))) (.base (.external (.short 127#7) (.short 3#7))), []) := by decide +kernel
theorem test_decode_remb : decode [0xCE#8, 0xB4#8, 0xD6#8, 0x04#8, 0x08#8] =
    .ok (.remb (.base (.space .sb (.short 4#7))) (.base (.space .sb (.short 8#7))), []) := by decide +kernel
theorem test_decode_remw : decode [0xCE#8, 0xB5#8, 0x08#8] =
    .ok (.remw (.reg 1) (.reg 2), []) := by decide +kernel
theorem test_decode_remd : decode [0xCE#8, 0x77#8, 0x08#8] =
    .ok (.remd (.reg 1) (.reg 1), []) := by decide +kernel
theorem test_decode_movqb : decode [0x5C#8, 0x00#8] =
    .ok (.movqb 0x0#4 (.reg 0), []) := by decide +kernel
theorem test_decode_movqw : decode [0xDD#8, 0xBB#8] =
    .ok (.movqw 0x7#4 (.base .tos), []) := by decide +kernel
theorem test_decode_movqd : decode [0x5F#8, 0xE4#8, 0xCE#8, 0x02#8] =
    .ok (.movqd 0x8#4 (.scaled .b (.space .sp (.short 2#7)) 6), []) := by decide +kernel
theorem test_decode_movsb : decode [0x0E#8, 0x00#8, 0x00#8] =
    .ok (.movsb ⟨false, .none⟩, []) := by decide +kernel
theorem test_decode_movsw : decode [0x0E#8, 0x01#8, 0x03#8] =
    .ok (.movsw ⟨true, .whileMatch⟩, []) := by decide +kernel
theorem test_decode_movsd : decode [0x0E#8, 0x03#8, 0x06#8] =
    .ok (.movsd ⟨false, .untilMatch⟩, []) := by decide +kernel
theorem test_decode_movst : decode [0x0E#8, 0x80#8, 0x01#8] =
    .ok (.movst ⟨true, .none⟩, []) := by decide +kernel
theorem test_decode_rdval : decode [0x1E#8, 0x03#8, 0x40#8, 0x82#8, 0x00#8] =
    .ok (.rdval (.base (.regRel 0 (.medium 0x200#14))), []) := by decide +kernel
theorem test_decode_nop : decode [0xA2#8] =
    .ok (.nop, []) := by decide +kernel
theorem test_decode_restore : decode [0x72#8, 0xA1#8] =
    .ok (.restore 0xA1#8, []) := by decide +kernel
theorem test_decode_ret : decode [0x12#8, 0x10#8] =
    .ok (.ret (.short 16#7), []) := by decide +kernel
theorem test_decode_reti : decode [0x52#8] =
    .ok (.reti, []) := by decide +kernel
theorem test_decode_rett : decode [0x42#8, 0x82#8, 0x00#8] =
    .ok (.rett (.medium 0x200#14), []) := by decide +kernel

/-! ## The host's word and its place in memory -/

theorem test_host_word : decodeTableWord 24 0x38CE = some (.modb (.reg 0) (.reg 0)) := by
  decide +kernel
theorem test_host_step :
    (match step (State.reset.withFetchWord 24 0x204E) with
      | .next t => t.pc == 3#32
      | _ => false) = true := by decide +kernel

end Sys2Proof.Tests

namespace Sys2Proof.Machine

/-- The state with bytes stored from an address on. -/
def State.bytes (s : State) (a : Nat) (bs : List Byte) : State :=
  { s with mem := bs.zipIdx.foldl (fun m p => m.write (a + p.2) p.1) s.mem }

end Sys2Proof.Machine

namespace Sys2Proof.Tests

set_option Elab.async false

open Sys2Proof Sys2Proof.Machine

/-! ## One step -/

/-- The vectors' start: PC 2000, SB 8000 (hexadecimal), the rest as after reset. -/
def start : State := { State.reset with pc := 0x2000#32, sb := 0x8000#32 }

/-- The start of S20: RETI's frame at 1000 and a Module Table entry at 10. -/
def inService : State :=
  (({ start with sp0 := 0x1000#32, sp1 := 0x7000#32, mod := 0x20#16 }).bytes 0x1000
    [0x05#8, 0x90#8, 0#8, 0#8, 0x10#8, 0#8, 0x20#8, 0x0B#8]).bytes 0x10 [0x80#8, 0x90#8, 0#8, 0#8]

/-- The code at PC runs one step to a state of which `p` holds. -/
def after (s : State) (code : List Byte) (p : State → Bool) : Bool :=
  match step (s.bytes s.pc.toNat code) with
  | .next t => p t
  | _ => false

/-- S1, case 2. -/
theorem test_modb_negative_divisor : after ((start.bytes 0x8004 [0xF6#8]).bytes 0x8008 [0x1F#8]) [0xCE#8, 0xB8#8, 0xD6#8, 0x04#8, 0x08#8]
    (fun t => t.mem.read 0x8008 == some 0xF7#8 && t.mem.read 0x8004 == some 0xF6#8) = true := by decide +kernel

/-- A20. -/
theorem test_modw_keeps_high_half : after ((start.setReg 1 0xAAAA0007#32).setReg 2 0xBBBBFFFE#32) [0xCE#8, 0xB9#8, 0x08#8]
    (fun t => t.reg 2 == 0xBBBB0005#32 && t.reg 1 == 0xAAAA0007#32) = true := by decide +kernel

/-- A10. -/
theorem test_modd_negative_divisor : after ((start.setReg 1 0xFFFFFFF9#32).setReg 2 2#32) [0xCE#8, 0xBB#8, 0x08#8]
    (fun t => t.reg 2 == 0xFFFFFFFB#32) = true := by decide +kernel

/-- S17, case 4. -/
theorem test_remb_negative_dividend : after ((start.bytes 0x8004 [0x0F#8]).bytes 0x8008 [0xDF#8]) [0xCE#8, 0xB4#8, 0xD6#8, 0x04#8, 0x08#8]
    (fun t => t.mem.read 0x8008 == some 0xFD#8) = true := by decide +kernel

/-- A8. -/
theorem test_remw_minimum : after ((start.setReg 1 0xFFF9#32).setReg 2 0xFFFE#32) [0xCE#8, 0xB5#8, 0x08#8]
    (fun t => t.reg 2 == 0xFFFE#32) = true := by decide +kernel

/-- A21. -/
theorem test_remd_same_register : after (start.setReg 1 5#32) [0xCE#8, 0x77#8, 0x08#8]
    (fun t => t.reg 1 == 0#32) = true := by decide +kernel

/-- F2. -/
theorem test_movbf_minimum : after (start.setReg 0 0x80#32) [0x3E#8, 0x04#8, 0x00#8]
    (fun t => t.freg 0 == 0xC3000000#32) = true := by decide +kernel

/-- F5. -/
theorem test_movwf : after (start.setReg 0 0x8000#32) [0x3E#8, 0x45#8, 0x00#8]
    (fun t => t.freg 1 == 0xC7000000#32) = true := by decide +kernel

/-- F14. -/
theorem test_movdf_tie_to_even : after (start.setReg 0 0x01000003#32) [0x3E#8, 0x07#8, 0x00#8]
    (fun t => t.freg 0 == 0x4B800002#32 && t.fsr.inx) = true := by decide +kernel

/-- F12. -/
theorem test_movdf_toward_minus : after ({ start.setReg 0 0xFEFFFFFF#32 with fsr := { rm := .towardMinus } }) [0x3E#8, 0x07#8, 0x00#8]
    (fun t => t.freg 0 == 0xCB800001#32 && t.fsr.inx) = true := by decide +kernel

/-- F6. -/
theorem test_movbl : after (start.setReg 0 3#32) [0x3E#8, 0x80#8, 0x00#8]
    (fun t => t.freg 2 == 0#32 && t.freg 3 == 0x40080000#32) = true := by decide +kernel

/-- F7. -/
theorem test_movwl : after (start.setReg 0 0x8000#32) [0x3E#8, 0x81#8, 0x00#8]
    (fun t => t.freg 2 == 0#32 && t.freg 3 == 0xC0E00000#32) = true := by decide +kernel

/-- F8. -/
theorem test_movdl : after (start.setReg 0 0x7FFFFFFF#32) [0x3E#8, 0x03#8, 0x00#8]
    (fun t => t.freg 0 == 0xFFC00000#32 && t.freg 1 == 0x41DFFFFF#32 && !t.fsr.inx) = true := by decide +kernel

/-- F25. -/
theorem test_movfl : after (start.setFreg 1 0x3DCCCCCD#32) [0x3E#8, 0x9B#8, 0x08#8]
    (fun t => t.freg 2 == 0xA0000000#32 && t.freg 3 == 0x3FB99999#32) = true := by decide +kernel

/-- F31, to nearest. -/
theorem test_movlf_rounds : after ((start.setFreg 0 0x9999999A#32).setFreg 1 0x3FB99999#32) [0x3E#8, 0x96#8, 0x00#8]
    (fun t => t.freg 2 == 0x3DCCCCCD#32 && t.fsr.inx) = true := by decide +kernel

/-- F37: UF is set and the instruction completes. -/
theorem test_movlf_underflow : after ((start.setFreg 2 0x7F7FFFFF#32).setFreg 1 0x38000000#32) [0x3E#8, 0x96#8, 0x00#8]
    (fun t => t.fsr.uf && t.pc == 0x2003#32) = true := by decide +kernel

/-- F47, toward positive infinity. -/
theorem test_mulf_rounds : after ({ start.setFreg 0 0x3F800001#32 with fsr := { rm := .towardPlus } }) [0xBE#8, 0x31#8, 0x00#8]
    (fun t => t.freg 0 == 0x3F800003#32 && t.fsr.inx) = true := by decide +kernel

/-- F44. -/
theorem test_mulf_signed_zero : after (start.setFreg 0 0xC0400000#32) [0xBE#8, 0x31#8, 0x08#8]
    (fun t => t.freg 0 == 0x80000000#32 && !t.fsr.inx) = true := by decide +kernel

/-- F52. -/
theorem test_mull : after ((start.setFreg 1 0x40080000#32).setFreg 3 0x40080000#32) [0xBE#8, 0xB0#8, 0x00#8]
    (fun t => t.freg 2 == 0#32 && t.freg 3 == 0x40220000#32) = true := by decide +kernel

/-- Q1. -/
theorem test_movqb : after (start.setReg 0 0xAAAAAAAA#32) [0xDC#8, 0x07#8]
    (fun t => t.reg 0 == 0xAAAAAAFF#32 && t.pc == 0x2002#32) = true := by decide +kernel

/-- S5. -/
theorem test_movqw_top_of_stack : after ({ start with sp0 := 0xFFEE#32 }) [0xDD#8, 0xBB#8]
    (fun t => t.sp0 == 0xFFEC#32 && t.mem.read 0xFFEC == some 7#8 && t.mem.read 0xFFED == some 0#8) = true := by decide +kernel

/-- Q3. -/
theorem test_movqd : after (start) [0x5F#8, 0x1C#8]
    (fun t => t.reg 3 == 0xFFFFFFF8#32) = true := by decide +kernel

/-- T5. -/
theorem test_movsb_overlapping : after ((((start.setReg 0 3#32).setReg 1 0x5000#32).setReg 2 0x5001#32).bytes 0x5000 [0x11#8, 0x22#8, 0x33#8, 0x44#8]) [0x0E#8, 0x00#8, 0x00#8]
    (fun t => t.mem.read 0x5003 == some 0x11#8 && t.reg 0 == 0#32 && t.reg 1 == 0x5003#32 && t.reg 2 == 0x5004#32) = true := by decide +kernel

/-- T7. -/
theorem test_movsb_until_match : after (((((start.setReg 0 4#32).setReg 1 0x5000#32).setReg 2 0x6000#32).setReg 4 0x33#32).bytes 0x5000 [0x11#8, 0x22#8, 0x33#8]) [0x0E#8, 0x00#8, 0x06#8]
    (fun t => t.psr.f && t.reg 0 == 2#32 && t.reg 1 == 0x5002#32 && t.mem.read 0x6001 == some 0x22#8 && t.mem.read 0x6002 == none) = true := by decide +kernel

/-- T11. -/
theorem test_movsw_compares_low_half : after (((((start.setReg 0 1#32).setReg 1 0x5000#32).setReg 2 0x6000#32).setReg 4 0xAAAA1234#32).bytes 0x5000 [0x34#8, 0x12#8]) [0x0E#8, 0x01#8, 0x06#8]
    (fun t => t.psr.f && t.reg 0 == 1#32 && t.mem.read 0x6000 == none) = true := by decide +kernel

/-- T4. -/
theorem test_movsd_backward : after ((((start.setReg 0 2#32).setReg 1 0x5004#32).setReg 2 0x6004#32).bytes 0x5000 [1#8, 2#8, 3#8, 4#8, 5#8, 6#8, 7#8, 8#8]) [0x0E#8, 0x03#8, 0x01#8]
    (fun t => t.mem.read 0x6000 == some 1#8 && t.mem.read 0x6007 == some 8#8 && t.reg 1 == 0x4FFC#32 && t.reg 2 == 0x5FFC#32) = true := by decide +kernel

/-- T10, the first two elements: the translated value is compared. -/
theorem test_movst_translates : after (((((((start.setReg 0 3#32).setReg 1 0x5000#32).setReg 2 0x6000#32).setReg 3 0x7000#32).setReg 4 0x10#32).bytes 0x5000 [0x05#8, 0x0A#8]).bytes 0x7005 [0x05#8, 0#8, 0#8, 0#8, 0#8, 0x10#8]) [0x0E#8, 0x80#8, 0x06#8]
    (fun t => t.psr.f && t.reg 0 == 2#32 && t.mem.read 0x6000 == some 5#8) = true := by decide +kernel

/-- S7. -/
theorem test_movusb : after (({ start with sp0 := 0x7000#32 }).bytes 0x8009 [0x10#8]) [0xAE#8, 0x5C#8, 0xD6#8, 0x09#8, 0x05#8]
    (fun t => t.mem.read 0x7005 == some 0x10#8 && t.sp0 == 0x7000#32) = true := by decide +kernel

/-- M2. -/
theorem test_movusw : after (((start.setReg 1 0x5000#32).setReg 2 0x6000#32).bytes 0x5000 [0x34#8, 0x12#8]) [0xAE#8, 0x9D#8, 0x4A#8, 0x00#8, 0x00#8]
    (fun t => t.mem.read 0x6000 == some 0x34#8 && t.mem.read 0x6001 == some 0x12#8) = true := by decide +kernel

/-- R118: TOS gives SP, unchanged. -/
theorem test_movusd_top_of_stack : after (({ start with sp0 := 0x7000#32 }).bytes 0x8009 [1#8, 2#8, 3#8, 4#8]) [0xAE#8, 0xDF#8, 0xD5#8, 0x09#8]
    (fun t => t.mem.read 0x7003 == some 4#8 && t.sp0 == 0x7000#32) = true := by decide +kernel

/-- S8, case 1. -/
theorem test_movxbw : after ((start.setReg 0 0xAAAAAAAA#32).bytes 0x8002 [0xF0#8]) [0xCE#8, 0x10#8, 0xD0#8, 0x02#8]
    (fun t => t.reg 0 == 0xAAAAFFF0#32) = true := by decide +kernel

/-- X4. -/
theorem test_movxbw_pops : after (({ start.setReg 0 0xAAAAAAAA#32 with sp0 := 0xFFED#32 }).bytes 0xFFED [0x80#8]) [0xCE#8, 0x10#8, 0xB8#8]
    (fun t => t.reg 0 == 0xAAAAFF80#32 && t.sp0 == 0xFFEE#32) = true := by decide +kernel

/-- X1. -/
theorem test_movxbd_same_register : after (start.setReg 1 0xAAAAAA80#32) [0xCE#8, 0x5C#8, 0x08#8]
    (fun t => t.reg 1 == 0xFFFFFF80#32) = true := by decide +kernel

/-- X2. -/
theorem test_movxwd : after (start.setReg 1 0xAAAA8000#32) [0xCE#8, 0x9D#8, 0x08#8]
    (fun t => t.reg 2 == 0xFFFF8000#32) = true := by decide +kernel

/-- S9. -/
theorem test_movzbw : after (({ start.setReg 0 0xAAAAAAAA#32 with fp := 0x8004#32 }).bytes 0x8000 [0xFF#8]) [0xCE#8, 0x14#8, 0xC0#8, 0x7C#8]
    (fun t => t.reg 0 == 0xAAAA00FF#32) = true := by decide +kernel

/-- Z3. -/
theorem test_movzbd : after (start.bytes 0x8000 [0x80#8]) [0xCE#8, 0xD8#8, 0xD0#8, 0x00#8]
    (fun t => t.reg 3 == 0x80#32) = true := by decide +kernel

/-- Z1. -/
theorem test_movzwd : after (start.setReg 1 0xAAAA8000#32) [0xCE#8, 0x99#8, 0x08#8]
    (fun t => t.reg 2 == 0x8000#32) = true := by decide +kernel

/-- N8. -/
theorem test_negb_flags : after ({ (start.setReg 5 0xAAAAAAFF#32).setReg 6 0xBBBBBBBB#32 with psr := Psr.ofBits 0x00E4#16 }) [0x4E#8, 0xA0#8, 0x29#8]
    (fun t => t.reg 6 == 0xBBBBBB01#32 && t.psr.toBits == 0x00C5#16) = true := by decide +kernel

/-- S12. -/
theorem test_negw : after (start.bytes 0x8004 [0x41#8, 0#8]) [0x4E#8, 0xA1#8, 0xD6#8, 0x04#8, 0x06#8]
    (fun t => t.mem.read 0x8006 == some 0xBF#8 && t.mem.read 0x8007 == some 0xFF#8 && t.psr.c) = true := by decide +kernel

/-- N6. -/
theorem test_negd_minimum : after (start.setReg 0 0x80000000#32) [0x4E#8, 0x23#8, 0x00#8]
    (fun t => t.reg 0 == 0x80000000#32 && t.psr.c && t.psr.f) = true := by decide +kernel

/-- S13, N9. -/
theorem test_nop : after (start) [0xA2#8]
    (fun t => t == { start.bytes 0x2000 [0xA2#8] with pc := 0x2001#32 }) = true := by decide +kernel

/-- N10. -/
theorem test_notb_keeps_other_bits : after (start.setReg 1 0xAAAAAAFE#32) [0x4E#8, 0x64#8, 0x08#8]
    (fun t => t.reg 1 == 0xAAAAAAFF#32) = true := by decide +kernel

/-- S15. -/
theorem test_notw_top_of_stack : after (({ start.setReg 1 0x3000#32 with sp0 := 0xFFE2#32 }).bytes 0x300A [0#8, 0#8]) [0x4E#8, 0xE5#8, 0x4D#8, 0x0A#8]
    (fun t => t.sp0 == 0xFFE0#32 && t.mem.read 0xFFE0 == some 1#8) = true := by decide +kernel

/-- N14. -/
theorem test_notd : after (start.setReg 0 0xFFFFFFFF#32) [0x4E#8, 0x67#8, 0x00#8]
    (fun t => t.reg 1 == 0xFFFFFFFE#32) = true := by decide +kernel

/-- M14. -/
theorem test_rdval_readable : after ({ start.setReg 0 0x1000#32 with mmu.on := true, psr.f := true }) [0x1E#8, 0x03#8, 0x40#8, 0x82#8, 0x00#8]
    (fun t => !t.psr.f && t.pc == 0x2005#32) = true := by decide +kernel

/-- M15. -/
theorem test_rdval_protected : after ({ start.setReg 0 0x1000#32 with mmu.on := true, mmu.noUserRead := [⟨0x1200, 0x1400⟩] }) [0x1E#8, 0x03#8, 0x40#8, 0x82#8, 0x00#8]
    (fun t => t.psr.f) = true := by decide +kernel

/-- S18. -/
theorem test_restore_order : after (({ start with sp0 := 0xFFE0#32 }).bytes 0xFFE0 [0xAB#8, 0xF9#8, 0xFF#8, 0xFF#8, 0xEF#8, 0xFF#8, 0xFF#8, 0xFF#8, 0x10#8, 0#8, 0#8, 0#8]) [0x72#8, 0xA1#8]
    (fun t => t.reg 7 == 0xFFFFF9AB#32 && t.reg 2 == 0xFFFFFFEF#32 && t.reg 0 == 0x10#32 && t.sp0 == 0xFFEC#32) = true := by decide +kernel

/-- S19. -/
theorem test_ret : after (({ start with sp0 := 0xF000#32 }).bytes 0xF000 [0x10#8, 0x90#8, 0#8, 0#8]) [0x12#8, 0x10#8]
    (fun t => t.pc == 0x9010#32 && t.sp0 == 0xF014#32) = true := by decide +kernel

/-- Rule R68, and R213's bytes printed XXXXXXXX: what RET takes takes four free values where an entry can
occur, and keeps its values where none can. -/
theorem test_ret_uncovers :
    (after { inService with trapEntry := .fault } [0x12#8, 0x00#8]
      (fun t => t.mem.read 0x1001 == some 0x90#8 && t.free == 0) &&
    after inService [0x12#8, 0x00#8]
      (fun t => t.sp0 == 0x1004#32 && t.mem.read 0x1004 == some 0x10#8 && t.free == 4)) = true := by decide +kernel

/-- K11. -/
theorem test_ret_negative_constant : after (({ start with sp0 := 0xF000#32 }).bytes 0xF000 [0x10#8, 0x90#8, 0#8, 0#8]) [0x12#8, 0x7C#8]
    (fun t => t.pc == 0x9010#32 && t.sp0 == 0xF000#32) = true := by decide +kernel

/-- S20. -/
theorem test_reti : after (inService) [0x52#8]
    (fun t => t.pc == 0x9005#32 && t.sb == 0x9080#32 && t.mod == 0x10#16 && t.sp0 == 0x1008#32 && t.sp1 == 0x7000#32 && t.psr.toBits == 0x0B20#16 && t.eois == 1) = true := by decide +kernel

/-- K23. -/
theorem test_rett_switches_stack : after (inService) [0x42#8, 0x04#8]
    (fun t => t.pc == 0x9005#32 && t.sp0 == 0x1008#32 && t.sp1 == 0x7004#32 && t.eois == 0) = true := by decide +kernel

/-! ## Traps (95_test_vectors.md, 2.2, 2.3, 2.6, 2.8, 2.9) -/

/-- The code at PC ends in `Fault(k, PC)` where TRAP_ENTRY is `fault`, in a final state of which `p`
holds. -/
def faultsTo (s : State) (code : List Byte) (k : Trap) (p : State → Bool) : Bool :=
  match step ({ s with trapEntry := .fault }.bytes s.pc.toNat code) with
  | .fault (.trap l t) => l == k && t.pc == s.pc && p t
  | _ => false

/-- The same, with the general registers, the stack pointers and the PSR as they were. -/
def faults (s : State) (code : List Byte) (k : Trap) : Bool :=
  faultsTo s code k fun t => t.regs == s.regs && t.sp0 == s.sp0 && t.sp1 == s.sp1 && t.psr == s.psr

/-- A22. -/
theorem test_divide_by_zero : faults (start.setReg 0 0xAAAAAA00#32) [0xCE#8, 0x38#8, 0x00#8] .dvz = true := by
  decide +kernel

/-- F18. -/
theorem test_no_float_unit :
    faults { start with cfg.f := false } [0x3E#8, 0x04#8, 0x00#8] .und = true := by decide +kernel

/-- F34. -/
theorem test_overflow : faults (start.setFreg 1 0x47F00000#32) [0x3E#8, 0x96#8, 0x00#8] .fpu = true := by
  decide +kernel

/-- F17: the final state keeps IF and TT. -/
theorem test_inexact_trap :
    faultsTo { start.setReg 0 0x01000001#32 with fsr.ien := true } [0x3E#8, 0x07#8, 0x00#8] .fpu
      (fun t => t.fsr.inx && t.fsr.tt == .inexact && t.reg 0 == 0x01000001#32) = true := by decide +kernel

/-- F26. -/
theorem test_reserved_operand :
    faults (start.setFreg 1 1#32) [0x3E#8, 0x9B#8, 0x08#8] .fpu = true := by decide +kernel

/-- M11: UND before ILL. -/
theorem test_undefined_first :
    faults { start with cfg.m := false, psr.u := true } [0x1E#8, 0x03#8, 0x40#8, 0x82#8, 0x00#8] .und =
      true := by decide +kernel

/-- M13. -/
theorem test_level_one_invalid :
    faults { start with mmu.on := true, mmu.l1Invalid := [⟨0, 0x400⟩] }
      [0x1E#8, 0x03#8, 0x40#8, 0x82#8, 0x00#8] .abt = true := by decide +kernel

/-- K20. -/
theorem test_privileged : faults { inService with psr.u := true } [0x52#8] .ill = true := by
  decide +kernel

/-- Rules R185, R233: MOVSB whose second store aborts; the final state keeps its progress. -/
theorem test_string_abort :
    faultsTo { ((start.setReg 0 2#32).setReg 1 0x5000#32).setReg 2 0x2FFF#32 with
        mem := [⟨0x5000, 0xA1#8⟩, ⟨0x5001, 0xA2#8⟩]
        mmu := ⟨true, [⟨.supervisor, .write, ⟨0x3000, 0x4000⟩, .abort⟩], [], []⟩ }
      [0x0E#8, 0x00#8, 0x00#8] .abt
      (fun t => t.reg 0 == 1#32 && t.reg 1 == 0x5001#32 && t.reg 2 == 0x3000#32 &&
        t.mem.read 0x2FFF == some 0xA1#8) = true := by decide +kernel

/-- Rule R275: RET to the end address, and the end of the run there; TRAP_ENTRY = fault. -/
theorem test_done :
    let s := { inService with endAt := some 0x9005, trapEntry := .fault }.bytes 0x2000 [0x12#8, 0x00#8]
    (match step s with
      | .next t => (match step t with
        | .fault (.done u) => u == t && u.sp0 == 0x1004#32
        | _ => false)
      | _ => false) = true := by decide +kernel

/-- V1: entry through vector 6. -/
def beforeEntry : State :=
  ((({ start with
      psr := Psr.ofBits 0x0300#16, mod := 0x40#16, sb := 0x6000#32, intbase := 0x400#32,
      sp0 := 0x1000#32, sp1 := 0x7000#32 }).bytes 0x418 [0x50#8, 0#8, 0x20#8, 0#8]).bytes 0x50
    [0#8, 0xA0#8, 0#8, 0#8, 0#8, 0#8, 0#8, 0#8, 0#8, 0xB0#8, 0#8, 0#8])

/-- V1. -/
theorem test_entry : after beforeEntry [0xCE#8, 0x38#8, 0x00#8]
    (fun t => t.pc == 0xB020#32 && t.mod == 0x50#16 && t.sb == 0xA000#32 && t.sp0 == 0x0FF8#32 &&
      t.psr.toBits == 0#16 && t.mem.read 0x0FFF == some 0x03#8 && t.mem.read 0x0FFC == some 0x40#8 &&
      t.mem.read 0x0FF9 == some 0x20#8) = true := by decide +kernel

/-! ## States and operands that meet the hypotheses of the statements

One theorem or more for each statement of Certificates/Slice0/Obligations.lean that has hypotheses, named
after it. Instructions of one shape share operand forms: both operands on top of the stack, both in
registers, or R0 and R2. -/

/-- A state with something at every place the witnesses use: stacks at 1000 (RETI's frame) and 7000, Module
Table entries at 10 and 20 with the link table at 8000, data at 5000 and 8000, registers that point there. -/
def ready : State :=
  ((((((inService.setReg 0 2#32).setReg 1 0x5000#32).setReg 2 0x6000#32).setReg 3 0x7000#32).bytes 0x5000
    [1#8, 2#8, 3#8, 4#8, 5#8, 6#8, 7#8, 8#8]).bytes 0x8000
    [0#8, 0x50#8, 0#8, 0#8, 0#8, 0x60#8, 0#8, 0#8]).bytes 0x20
    [0#8, 0#8, 0#8, 0#8, 0#8, 0x80#8, 0#8, 0#8]

/-- The same with the User-mode address 5000 to 5FFF protected and 3000 to 3FFF unmapped in both spaces. -/
def guarded : State :=
  { ready with mmu := ⟨true,
    [⟨.user, .read, ⟨0x3000, 0x4000⟩, .abort⟩, ⟨.supervisor, .read, ⟨0x3000, 0x4000⟩, .abort⟩,
      ⟨.user, .write, ⟨0x3000, 0x4000⟩, .abort⟩, ⟨.supervisor, .write, ⟨0x3000, 0x4000⟩, .abort⟩,
      ⟨.user, .fetch, ⟨0x3000, 0x4000⟩, .abort⟩, ⟨.supervisor, .fetch, ⟨0x3000, 0x4000⟩, .abort⟩],
    [⟨0x4000, 0x5000⟩], [⟨0x5000, 0x6000⟩]⟩ }

/-- The same in User mode. -/
def asUser (s : State) : State := { s with psr.u := true }

/-- The instruction completes. -/
def completes (i : Instr) (s : State) : Bool :=
  match exec i s with
  | .next _ => true
  | _ => false

theorem next_of_completes {i : Instr} {s : State} (h : completes i s = true) :
    ∃ t, exec i s = .next t := by
  unfold completes at h
  split at h
  · exact ⟨_, ‹_›⟩
  · cases h

/-- The step completes. -/
def stepCompletes (s : State) : Bool :=
  match step s with
  | .next _ => true
  | _ => false

theorem next_of_stepCompletes {s : State} (h : stepCompletes s = true) : ∃ t, step s = .next t := by
  unfold stepCompletes at h
  split at h
  · exact ⟨_, ‹_›⟩
  · cases h

/-! ### Encoding -/

theorem witness_DecodeEncode :
    Instr.wellFormed (.movxwd (.scaled .w (.regRel 4 (.short 63#7)) 7) (.scaled .q (.tos) 1)) = true := by
  decide

theorem witness_EncodeDecode :
    decode [0x4E#8, 0xE5#8, 0x4D#8, 0x0A#8, 0xFF#8] =
      .ok (.notw (.base (.regRel 1 (.short 10#7))) (.base .tos), [0xFF#8]) := by decide +kernel

theorem no_row {w : BitVec 24} (h : (threeByteRows.all fun row => w &&& row.1 != row.2) = true) :
    ∀ row ∈ threeByteRows, w &&& row.1 ≠ row.2 := by
  intro row hr
  simpa using List.all_eq_true.1 h row hr

/-- Clause 1 at a byte of no format and at the length code 10 of format 2; clause 2 at a byte beside RET;
clause 3 at a reserved opcode, at MOVST's word with bit 14 set and at RDVAL's with gen2 not 0. -/
theorem witness_UnknownEncodings :
    ((0x00#8).extractLsb' 0 4 ≠ 0b0010#4 ∧ (0x00#8).extractLsb' 2 5 ≠ 0b10111#5 ∧
      0x00#8 ∉ threeByteFormats) ∧
    ((0x5E#8).extractLsb' 0 4 ≠ 0b0010#4 ∧ (0x5E#8).extractLsb' 0 2 = 0b10#2 ∧
      0x5E#8 ∉ threeByteFormats) ∧
    ((0x92#8).extractLsb' 0 4 = 0b0010#4 ∧ 0x92#8 ∉ [0x12#8, 0x42#8, 0x52#8, 0x72#8, 0xA2#8]) ∧
    (∀ row ∈ threeByteRows, (0x00#8 ++ 0x02#8 ++ 0x0E#8) &&& row.1 ≠ row.2) ∧
    (∀ row ∈ threeByteRows, (0x00#8 ++ 0xC0#8 ++ 0x0E#8) &&& row.1 ≠ row.2) ∧
    ∀ row ∈ threeByteRows, (0x00#8 ++ 0x43#8 ++ 0x1E#8) &&& row.1 ≠ row.2 :=
  ⟨by decide +kernel, by decide +kernel, by decide +kernel, no_row (by decide +kernel),
    no_row (by decide +kernel), no_row (by decide +kernel)⟩

/-! ### State, registers and memory -/

theorem witness_RegisterLayouts : (0 : Fin 8).val % 2 = 0 ∧ (6 : Fin 8).val % 2 = 0 := by decide

theorem witness_ReadAfterWrite : start.translating = false ∧ 8 ≤ 8 := by decide

/-- Each clause: an unaligned read that completes up to the last byte that holds a value, one that aborts on
its last byte, one of a byte without a value; a write that completes, one that aborts, one to text. -/
theorem witness_AccessOutcomes :
    Readable ready .user 0x5001#32 7 ∧ guarded.mapped .supervisor .read 0x2FFD#32 4 = false ∧
    (ready.mapped .supervisor .read 0x5005#32 4 = true ∧
      ready.written .supervisor 0x5005#32 4 = false) ∧
    Writable ready .supervisor 0xFFFFFFFF#32 8 ∧ guarded.mapped .user .write 0x3FFF#32 4 = false ∧
    ({ ready with text := [⟨0x2000, 0x3000⟩] }.mapped .user .write 0x1FFD#32 4 = true ∧
      { ready with text := [⟨0x2000, 0x3000⟩] }.clearOfText .user 0x1FFD#32 4 = false) ∧
    ready.mem.wf := by decide +kernel

theorem witness_TranslationRules :
    { guarded with cfg.m := false }.cfg.m = false ∧ ready.mmu.on = false ∧
      guarded.userReadAllowed 0x5FFF = false := by decide

theorem witness_PushThenPop : ready.translating = false ∧ ∃ t, push (n := 4) 0x12345678#32 ready = .ok t :=
  ⟨by decide, _, rfl⟩

/-- Four bytes popped at 1000, the last of them at an address that holds no value; nothing popped; and an
interrupt to come under TRAP_ENTRY = fault. -/
theorem witness_PushThenPop_uncovers :
    let s := start.bytes 0x1000 [1#8, 2#8, 3#8]
    let s := { s with sp0 := 0x1000#32 }
    let t := { s with sp0 := 0x1004#32 }
    (s.trapEntry = .sequence ∧ inRanges t.text 0x1002 = false ∧ t.mem.read 0x1002 = some 3#8 ∧
      t.mem.read 0x1003 = none ∧ rise s t false = 4 ∧ rise s t true = 0 ∧ Space.supervisor ∈ stackSpaces s t false ∧
      t.physical .supervisor .write (byteAt (s.stackPointer false) 2) = some 0x1002) ∧
    rise s s false = 0 ∧
    { s with trapEntry := .fault, irq := [some .nmi] }.entryPossible = true ∧
    { s with trapEntry := .fault }.entryPossible = false := by decide +kernel

/-! ### Operands -/

theorem witness_PointerAddresses :
    Readable ready ready.space (ready.pointerBase .sb + dispValue (.short 0#7)) 4 ∧
    Readable ready ready.space (ready.mod.setWidth 32 + 4#32) 4 ∧
    ready.memValue ready.space (ready.mod.setWidth 32 + 4#32) 4 = 0x8000#32 ∧
    Readable ready ready.space (0x8000#32 + 4#32 * dispValue (.short 1#7)) 4 ∧
    locate (n := 2) (.base (.absolute (.short 0x7F#7))) ready = .ok (.mem 0xFFFFFFFF#32) := by
  decide +kernel

/-! ### MODi and REMi -/

/-- A divisor of either sign, the most negative dividend, like and unlike signs, and a dividend 0. -/
theorem witness_DivisionResults :
    0xF6#8 ≠ 0#8 ∧ modulus 0xF6#8 0x1F#8 = some 0xF7#8 ∧ remainder 0xF6#8 0x1F#8 = some 1#8 ∧
    modulus 3#8 0x1F#8 = remainder 3#8 0x1F#8 ∧ modulus 0xFF#8 0x80#8 = some 0#8 ∧
    modulus 5#8 0#8 = some 0#8 ∧ remainder 5#8 0#8 = some 0#8 := by decide +kernel

theorem witness_DivisionLaws :
    (∃ m r, modulus 0xF6#8 0x1F#8 = some m ∧ remainder 0xF6#8 0x1F#8 = some r ∧
      ¬(r = 0#8 ∨ (0 < (0x1F#8).toInt ↔ 0 < (0xF6#8).toInt)) ∧ m ≠ 0#8 ∧ r ≠ 0#8) ∧
    ∃ m r, modulus 0xF6#8 0#8 = some m ∧ remainder 0xF6#8 0#8 = some r ∧ r = 0#8 :=
  ⟨⟨0xF7#8, 1#8, by decide +kernel⟩, ⟨0#8, 0#8, by decide +kernel⟩⟩

/-- Both operands on top of the stack; the source is popped first. -/
abbrev UpdateAtTop {n : Nat} (i : Gen n → Gen n → Instr) (s : State) : Prop :=
  UpdateReady (n := n) (m := n) (i (.base .tos) (.base .tos)) (.base .tos) (.base .tos) s .tos .tos

theorem updateAtTop_of {n : Nat} {i : Gen n → Gen n → Instr} {s : State}
    (h : ((i (.base .tos) (.base .tos)).wellFormed && s.fits (i (.base .tos) (.base .tos)).length &&
      s.mapped s.space .read s.sp n && s.written s.space s.sp n) = true)
    (hd : (Loc.tos : Loc n).updatable ((Loc.tos : Loc n).popped s)) : UpdateAtTop i s := by
  simp only [Bool.and_eq_true] at h
  exact ⟨h.1.1.1, h.1.1.2, rfl, rfl, ⟨h.1.2, h.2⟩, hd⟩

/-- Both operands in registers: R0 and R2. -/
abbrev UpdateAtReg {n : Nat} (i : Gen n → Gen n → Instr) (s : State) : Prop :=
  UpdateReady (n := n) (m := n) (i (.reg 0) (.reg 2)) (.reg 0) (.reg 2) s (.reg 0) (.reg 2)

theorem updateAtReg_of {n : Nat} {i : Gen n → Gen n → Instr} {s : State}
    (h : ((i (.reg 0) (.reg 2)).wellFormed && s.fits (i (.reg 0) (.reg 2)).length) = true) :
    UpdateAtReg i s := by
  simp only [Bool.and_eq_true] at h
  exact ⟨h.1, h.2, rfl, rfl, trivial, trivial⟩

theorem witness_DivideCompletes_memory :
    UpdateAtTop .modb ready ∧ UpdateAtTop .modw ready ∧ UpdateAtTop .modd ready ∧
    UpdateAtTop .remb ready ∧ UpdateAtTop .remw ready ∧ UpdateAtTop .remd ready ∧
    ((Loc.tos : Loc 4).value .int ready) ≠ 0#32 := by
  refine ⟨updateAtTop_of (by decide +kernel) ⟨⟨by decide +kernel, by decide +kernel⟩, by decide +kernel⟩,
    updateAtTop_of (by decide +kernel) ⟨⟨by decide +kernel, by decide +kernel⟩, by decide +kernel⟩,
    updateAtTop_of (by decide +kernel) ⟨⟨by decide +kernel, by decide +kernel⟩, by decide +kernel⟩,
    updateAtTop_of (by decide +kernel) ⟨⟨by decide +kernel, by decide +kernel⟩, by decide +kernel⟩,
    updateAtTop_of (by decide +kernel) ⟨⟨by decide +kernel, by decide +kernel⟩, by decide +kernel⟩,
    updateAtTop_of (by decide +kernel) ⟨⟨by decide +kernel, by decide +kernel⟩, by decide +kernel⟩,
    by decide +kernel⟩

/-- Clause 2: a source of 0; and the last address at which a three-byte instruction ends below the top. -/
theorem witness_DivideCompletes_zero :
    UpdateAtReg .modb { start with pc := 0xFFFFFC#32 } ∧ UpdateAtReg .modw start ∧
    UpdateAtReg .modd start ∧ UpdateAtReg .remb start ∧ UpdateAtReg .remw start ∧
    UpdateAtReg .remd start ∧ (Loc.reg 0 : Loc 4).value .int start = 0#32 :=
  ⟨updateAtReg_of (by decide +kernel), updateAtReg_of (by decide +kernel),
    updateAtReg_of (by decide +kernel), updateAtReg_of (by decide +kernel),
    updateAtReg_of (by decide +kernel), updateAtReg_of (by decide +kernel), by decide +kernel⟩

/-- Operands on top of the stack and in registers. -/
theorem witness_DivideFrame :
    (completes (.modb (.base .tos) (.base .tos)) ready && completes (.modw (.reg 0) (.base .tos)) ready &&
      completes (.modd (.reg 0) (.reg 2)) ready && completes (.remb (.base .tos) (.base .tos)) ready &&
      completes (.remw (.reg 0) (.base .tos)) ready && completes (.remd (.reg 0) (.reg 2)) ready) =
    true := by decide +kernel

/-! ### Integer moves -/

/-- Both operands on top of the stack. -/
abbrev MoveAtTop {n m : Nat} (i : Gen n → Gen m → Instr) (s : State) : Prop :=
  MoveReady (n := n) (m := m) (i (.base .tos) (.base .tos)) (.base .tos) (.base .tos) s .tos .tos

theorem moveAtTop_of {n m : Nat} {i : Gen n → Gen m → Instr} {s : State}
    (h : ((i (.base .tos) (.base .tos)).wellFormed && s.fits (i (.base .tos) (.base .tos)).length &&
      s.mapped s.space .read s.sp n && s.written s.space s.sp n) = true)
    (hd : (Loc.tos : Loc m).writable ((Loc.tos : Loc n).popped s)) : MoveAtTop i s := by
  simp only [Bool.and_eq_true] at h
  exact ⟨h.1.1.1, h.1.1.2, rfl, rfl, ⟨h.1.2, h.2⟩, hd⟩

/-- Both operands in registers: R0 and R2, or F0 and F2. -/
abbrev MoveAtReg {n m : Nat} (i : Gen n → Gen m → Instr) (s : State) : Prop :=
  MoveReady (n := n) (m := m) (i (.reg 0) (.reg 2)) (.reg 0) (.reg 2) s (.reg 0) (.reg 2)

theorem moveAtReg_of {n m : Nat} {i : Gen n → Gen m → Instr} {s : State}
    (h : ((i (.reg 0) (.reg 2)).wellFormed && s.fits (i (.reg 0) (.reg 2)).length) = true) :
    MoveAtReg i s := by
  simp only [Bool.and_eq_true] at h
  exact ⟨h.1, h.2, rfl, rfl, trivial, trivial⟩

theorem witness_QuickCompletes :
    (Instr.movqb 8#4 (.reg 2)).wellFormed = true ∧ start.fits (Instr.movqb 8#4 (.reg 2)).length = true ∧
    locate (n := 1) (.reg 2) start = .ok (.reg 2) ∧
    (Instr.movqw 7#4 (.base .tos)).wellFormed = true ∧
    ready.fits (Instr.movqw 7#4 (.base .tos)).length = true ∧
    locate (n := 2) (.base .tos) ready = .ok .tos ∧ Writable ready ready.space (ready.sp - 2#32) 2 ∧
    (Instr.movqd 7#4 (.base (.regRel 2 (.short 1#7)))).wellFormed = true ∧
    ready.fits (Instr.movqd 7#4 (.base (.regRel 2 (.short 1#7)))).length = true ∧
    locate (n := 4) (.base (.regRel 2 (.short 1#7))) ready = .ok (.mem 0x6001#32) ∧
    Writable ready ready.space 0x6001#32 4 := by decide +kernel

/-- The source's DD BB, and -8 and -1 of the other two lengths. -/
theorem witness_QuickCompletes_field :
    decode [0xDD#8, 0xBB#8] = .ok (.movqw 7#4 (.base .tos), []) ∧
    decode [0x5C#8, 0x14#8] = .ok (.movqb 8#4 (.reg 2), []) ∧
    decode [0xDF#8, 0x17#8] = .ok (.movqd 15#4 (.reg 2), []) := by decide +kernel

theorem witness_ExtendCompletes :
    MoveAtTop .movxbw ready ∧ MoveAtTop .movxbd ready ∧ MoveAtTop .movxwd ready ∧
    MoveAtTop .movzbw ready ∧ MoveAtTop .movzbd ready ∧ MoveAtTop .movzwd ready :=
  ⟨moveAtTop_of (by decide +kernel) ⟨by decide +kernel, by decide +kernel⟩,
    moveAtTop_of (by decide +kernel) ⟨by decide +kernel, by decide +kernel⟩,
    moveAtTop_of (by decide +kernel) ⟨by decide +kernel, by decide +kernel⟩,
    moveAtTop_of (by decide +kernel) ⟨by decide +kernel, by decide +kernel⟩,
    moveAtTop_of (by decide +kernel) ⟨by decide +kernel, by decide +kernel⟩,
    moveAtTop_of (by decide +kernel) ⟨by decide +kernel, by decide +kernel⟩⟩

theorem witness_NegateCompletes :
    MoveAtTop .negb ready ∧ MoveAtReg .negw ready ∧ MoveAtReg .negd { start with pc := 0xFFFFFC#32 } :=
  ⟨moveAtTop_of (by decide +kernel) ⟨by decide +kernel, by decide +kernel⟩,
    moveAtReg_of (by decide +kernel), moveAtReg_of (by decide +kernel)⟩

theorem witness_NotCompletes :
    MoveAtTop .notb ready ∧ MoveAtReg .notw ready ∧ MoveAtReg .notd { start with pc := 0xFFFFFC#32 } :=
  ⟨moveAtTop_of (by decide +kernel) ⟨by decide +kernel, by decide +kernel⟩,
    moveAtReg_of (by decide +kernel), moveAtReg_of (by decide +kernel)⟩

/-- Both clauses where they meet: the last address but one, and the last. -/
theorem witness_NopCompletes :
    busAddress 0x12FFFFFE#32 + 1 < Config.addrSpace ∧ busAddress 0x12FFFFFF#32 + 1 = Config.addrSpace := by decide

theorem witness_IntegerMoveFrame :
    (completes (.movqb 1#4 (.reg 2)) ready && completes (.movqw 1#4 (.base .tos)) ready &&
      completes (.movqd 1#4 (.base (.regRel 2 (.short 1#7)))) ready &&
      completes (.movxbw (.base .tos) (.base .tos)) ready &&
      completes (.movxbd (.base .tos) (.base .tos)) ready &&
      completes (.movxwd (.base .tos) (.reg 2)) ready &&
      completes (.movzbw (.base .tos) (.base .tos)) ready &&
      completes (.movzbd (.base .tos) (.base .tos)) ready &&
      completes (.movzwd (.base .tos) (.reg 2)) ready &&
      completes (.notb (.base .tos) (.base .tos)) ready && completes (.notw (.reg 0) (.base .tos)) ready &&
      completes (.notd (.reg 0) (.reg 2)) ready && completes (.negb (.base .tos) (.base .tos)) ready &&
      completes (.negw (.reg 0) (.base .tos)) ready && completes (.negd (.reg 0) (.reg 2)) ready) =
    true := by decide +kernel

/-! ### Floating point -/

/-- F0 and F1 hold one operand, F2 and F3 the other, of double precision. -/
def doubles (a b : BitVec 64) (fsr : Fsr) : State :=
  { (((ready.setFreg 0 (a.extractLsb' 0 32)).setFreg 1 (a.extractLsb' 32 32)).setFreg 2
    (b.extractLsb' 0 32)).setFreg 3 (b.extractLsb' 32 32) with fsr := fsr }

/-- F0 and F2 hold one operand each, of single precision. -/
def singles (a b : Word) (fsr : Fsr) : State :=
  { (ready.setFreg 0 a).setFreg 2 b with fsr := fsr }

theorem witness_ExactConversions :
    ready.cfg.f = true ∧ MoveAtReg .movbf ready ∧ MoveAtReg .movwf ready ∧ MoveAtTop .movbl ready ∧
    MoveAtTop .movwl ready ∧ MoveAtReg .movdl ready ∧
    (MoveAtReg .movdf (ready.setReg 0 0xFF000000#32) ∧
      ((Loc.reg 0 : Loc 4).value .int (ready.setReg 0 0xFF000000#32)).toInt.natAbs ≤ 2 ^ 24) ∧
    MoveAtReg .movdf (ready.setReg 0 0#32) :=
  ⟨by decide, moveAtReg_of (by decide +kernel), moveAtReg_of (by decide +kernel),
    moveAtTop_of (by decide +kernel) ⟨by decide +kernel, by decide +kernel⟩,
    moveAtTop_of (by decide +kernel) ⟨by decide +kernel, by decide +kernel⟩,
    moveAtReg_of (by decide +kernel), ⟨moveAtReg_of (by decide +kernel), by decide +kernel⟩,
    moveAtReg_of (by decide +kernel)⟩

/-- The trap enabled, on an integer that a single cannot hold. -/
theorem witness_RoundedConversion :
    let s := { ready.setReg 0 0x01000001#32 with fsr := { ien := true } }
    s.cfg.f = true ∧ MoveAtReg .movdf s ∧ ((Loc.reg 0 : Loc 4).value .int s).toInt ≠ 0 :=
  ⟨by decide, moveAtReg_of (by decide +kernel), by decide +kernel⟩

/-- A reserved operand, a zero, and the largest and smallest numbers. -/
theorem witness_WidenCompletes :
    (MoveAtReg .movfl (singles 0x7F800000#32 0#32 {}) ∧
      FloatFormat.single.isReserved ((Loc.reg 0 : Loc 4).value .float (singles 0x7F800000#32 0#32 {})) =
        true) ∧
    (MoveAtReg .movfl (singles 0x80000000#32 0#32 {}) ∧
      FloatFormat.single.isZero ((Loc.reg 0 : Loc 4).value .float (singles 0x80000000#32 0#32 {})) = true) ∧
    (MoveAtReg .movfl (singles 0xFF7FFFFF#32 0#32 {}) ∧ FloatFormat.single.isNormalized 0xFF7FFFFF#32 = true) ∧
    (MoveAtReg .movfl (singles 0x00800000#32 0#32 {}) ∧
      FloatFormat.single.isNormalized 0x00800000#32 = true) :=
  ⟨⟨moveAtReg_of (by decide +kernel), by decide +kernel⟩, ⟨moveAtReg_of (by decide +kernel), by decide +kernel⟩,
    ⟨moveAtReg_of (by decide +kernel), by decide +kernel⟩, ⟨moveAtReg_of (by decide +kernel), by decide +kernel⟩⟩

/-- What becomes of an operand of MOVLF under the rounding mode: the case of rule R158 it falls under. -/
def narrowed (v : BitVec 64) : Bool × Bool × Bool :=
  let y := roundExact .single .nearest (FloatFormat.double.value v)
  (y.over .single, y.under .single, y.inexact)

/-- A reserved operand, a zero, the least number that overflows, the greatest that underflows with its trap
enabled and not, an inexact result with its trap enabled, and the least number that does not underflow. -/
theorem witness_NarrowCompletes :
    (MoveAtReg .movlf (doubles 1#64 0#64 {}) ∧ FloatFormat.double.isReserved 1#64 = true) ∧
    (MoveAtReg .movlf (doubles (BitVec.intMin 64) 0#64 {}) ∧
      FloatFormat.double.isZero (BitVec.intMin 64) = true) ∧
    (MoveAtReg .movlf (doubles 0x47EFFFFFF0000000#64 0#64 {}) ∧
      narrowed 0x47EFFFFFF0000000#64 = (true, false, true)) ∧
    (MoveAtReg .movlf (doubles 0x380FFFFFE0000000#64 0#64 {}) ∧
      MoveAtReg .movlf (doubles 0x380FFFFFE0000000#64 0#64 { uen := true }) ∧
      narrowed 0x380FFFFFE0000000#64 = (false, true, false)) ∧
    (MoveAtReg .movlf (doubles 0x3FB999999999999A#64 0#64 { ien := true }) ∧
      narrowed 0x3FB999999999999A#64 = (false, false, true)) ∧
    (MoveAtReg .movlf (doubles 0x3810000000000000#64 0#64 {}) ∧
      narrowed 0x3810000000000000#64 = (false, false, false)) :=
  ⟨⟨moveAtReg_of (by decide +kernel), by decide +kernel⟩, ⟨moveAtReg_of (by decide +kernel), by decide +kernel⟩,
    ⟨moveAtReg_of (by decide +kernel), by decide +kernel⟩,
    ⟨moveAtReg_of (by decide +kernel), moveAtReg_of (by decide +kernel), by decide +kernel⟩,
    ⟨moveAtReg_of (by decide +kernel), by decide +kernel⟩, ⟨moveAtReg_of (by decide +kernel), by decide +kernel⟩⟩

/-- The same of a product. -/
def product (f : FloatFormat) {w : Nat} (a b : BitVec w) : Bool × Bool × Bool :=
  let y := roundExact f .nearest ((f.value a).mul (f.value b))
  (y.over f, y.under f, y.inexact)

/-- MULF: a reserved operand, a zero, an overflow, an underflow, an inexact and an exact product. -/
theorem witness_MultiplyCompletes_single :
    (UpdateAtReg .mulf (singles 0x3F800000#32 0x7F800000#32 {}) ∧
      FloatFormat.single.isReserved 0x7F800000#32 = true) ∧
    (UpdateAtReg .mulf (singles 0#32 0xBF800000#32 {}) ∧ FloatFormat.single.isZero 0#32 = true) ∧
    (UpdateAtReg .mulf (singles 0x7F000000#32 0x40000000#32 {}) ∧
      product .single 0x7F000000#32 0x40000000#32 = (true, false, false)) ∧
    (UpdateAtReg .mulf (singles 0x00800000#32 0x3F000000#32 { uen := true }) ∧
      product .single 0x00800000#32 0x3F000000#32 = (false, true, false)) ∧
    (UpdateAtReg .mulf (singles 0x3F800001#32 0x3F800001#32 { ien := true }) ∧
      product .single 0x3F800001#32 0x3F800001#32 = (false, false, true)) ∧
    (UpdateAtReg .mulf (singles 0x40400000#32 0xC0400000#32 {}) ∧
      product .single 0x40400000#32 0xC0400000#32 = (false, false, false)) :=
  ⟨⟨updateAtReg_of (by decide +kernel), by decide +kernel⟩, ⟨updateAtReg_of (by decide +kernel), by decide +kernel⟩,
    ⟨updateAtReg_of (by decide +kernel), by decide +kernel⟩, ⟨updateAtReg_of (by decide +kernel), by decide +kernel⟩,
    ⟨updateAtReg_of (by decide +kernel), by decide +kernel⟩, ⟨updateAtReg_of (by decide +kernel), by decide +kernel⟩⟩

/-- MULL: the same cases. -/
theorem witness_MultiplyCompletes_double :
    (UpdateAtReg .mull (doubles 0x7FF0000000000000#64 0x3FF0000000000000#64 {}) ∧
      FloatFormat.double.isReserved 0x7FF0000000000000#64 = true) ∧
    (UpdateAtReg .mull (doubles 0x3FF0000000000000#64 0#64 {}) ∧ FloatFormat.double.isZero 0#64 = true) ∧
    (UpdateAtReg .mull (doubles 0x7FE0000000000000#64 0x4000000000000000#64 {}) ∧
      product .double 0x7FE0000000000000#64 0x4000000000000000#64 = (true, false, false)) ∧
    (UpdateAtReg .mull (doubles 0x0010000000000000#64 0x3FE0000000000000#64 {}) ∧
      product .double 0x0010000000000000#64 0x3FE0000000000000#64 = (false, true, false)) ∧
    (UpdateAtReg .mull (doubles 0x3FF0000000000001#64 0x3FF0000000000001#64 { ien := true }) ∧
      product .double 0x3FF0000000000001#64 0x3FF0000000000001#64 = (false, false, true)) ∧
    (UpdateAtReg .mull (doubles 0x4008000000000000#64 0x4008000000000000#64 {}) ∧
      product .double 0x4008000000000000#64 0x4008000000000000#64 = (false, false, false)) :=
  ⟨⟨updateAtReg_of (by decide +kernel), by decide +kernel⟩, ⟨updateAtReg_of (by decide +kernel), by decide +kernel⟩,
    ⟨updateAtReg_of (by decide +kernel), by decide +kernel⟩, ⟨updateAtReg_of (by decide +kernel), by decide +kernel⟩,
    ⟨updateAtReg_of (by decide +kernel), by decide +kernel⟩, ⟨updateAtReg_of (by decide +kernel), by decide +kernel⟩⟩

/-- The narrowest fraction, and a number of one bit. -/
theorem witness_RoundingIsCorrect :
    0 < (FloatFormat.mk 1 2).fracBits ∧ (Exact.mk true 7 (-3)).mant ≠ 0 ∧ 0 < FloatFormat.double.fracBits ∧
      (Exact.mk false 1 0).mant ≠ 0 := by decide

/-- Each limit from both sides: 2^128 and the largest number below it that rounds to it, and 2^-126 and the
number of one bit less; the same for double. -/
theorem witness_RoundingIsCorrect_limits :
    let high := fun f m e => (roundExact f .nearest (Exact.mk false m e)).over f
    let low := fun f m e => (roundExact f .nearest (Exact.mk false m e)).under f
    (high .single 1 128 && high .single (2 ^ 26 - 1) 102 && !high .single (2 ^ 24 - 1) 104 &&
      !low .single 1 (-126) && low .single (2 ^ 24 - 1) (-150)) = true ∧
    (high .double 1 1024 && high .double (2 ^ 55 - 1) 969 && !high .double (2 ^ 53 - 1) 971 &&
      !low .double 1 (-1022) && low .double (2 ^ 53 - 1) (-1075)) = true := by decide +kernel

theorem witness_ProductTable :
    (FloatFormat.single.isReserved 0x80000000#32 = false ∧ FloatFormat.single.isReserved 0xBF800000#32 = false ∧
      FloatFormat.single.isZero 0x80000000#32 = true) ∧
    (FloatFormat.double.isReserved 0x7FEFFFFFFFFFFFFF#64 = false ∧
      FloatFormat.double.isReserved 0#64 = false ∧ FloatFormat.double.isZero 0#64 = true) ∧
    FloatFormat.single.isNormalized 0x00800000#32 = true ∧
    FloatFormat.double.isNormalized 0x7FEFFFFFFFFFFFFF#64 = true := by decide +kernel

/-- The ten floating-point instructions, in registers. -/
def floats : List Instr :=
  [.movbf (.reg 0) (.reg 2), .movwf (.reg 0) (.reg 2), .movdf (.reg 0) (.reg 2), .movbl (.reg 0) (.reg 2),
    .movwl (.reg 0) (.reg 2), .movdl (.reg 0) (.reg 2), .movfl (.reg 0) (.reg 2), .movlf (.reg 0) (.reg 2),
    .mulf (.reg 0) (.reg 2), .mull (.reg 0) (.reg 2)]

theorem witness_FloatUnitAbsent :
    (∀ i ∈ floats, i.isFloat = true ∧ i.wellFormed = true) ∧
      { ready with cfg.f := false }.cfg.f = false := by decide

/-- A dispatch table at 400 whose descriptors all name the module at 20. -/
def served : State :=
  { (ready.bytes 0x28 [0#8, 0xB0#8, 0#8, 0#8]).bytes 0x400
    (List.replicate 16 [0x20#8, 0#8, 0#8, 0#8]).flatten with intbase := 0x400#32 }

/-- Every instruction completes, and MULF, MULL, MOVLF and MOVFL enter the service procedure of Trap(FPU). -/
theorem witness_FloatFrame :
    (floats.all fun i => completes i ready) = true ∧
    (completes (.mulf (.reg 0) (.reg 2)) (served.setFreg 0 1#32) &&
      completes (.mull (.reg 0) (.reg 2)) (served.setFreg 0 1#32) &&
      completes (.movlf (.reg 0) (.reg 2)) (served.setFreg 0 1#32) &&
      completes (.movfl (.reg 0) (.reg 2)) (served.setFreg 0 1#32)) = true := by decide +kernel

/-! ### String instructions -/

/-- F clear, as a string instruction leaves it at its start, with a translation table at 7000. -/
def strings : State :=
  { ready.bytes 0x7000 [0x10#8, 0x11#8, 0x12#8, 0x13#8] with psr := ready.psr.withF false }

/-- Two elements copied: the instruction has run all R0 = 2 of them, forward or backward. -/
theorem witness_StringCompletes_all :
    strings.irq = [] ∧ (strings.reg 0).toNat = 2 ∧
    (strings.fits (Instr.movsb ⟨false, .none⟩).length && strings.fits (Instr.movsw ⟨true, .none⟩).length &&
      strings.fits (Instr.movsd ⟨false, .untilMatch⟩).length &&
      strings.fits (Instr.movst ⟨false, .none⟩).length) = true ∧
    CopyReady (State.element 1) (State.elementReadable 1) ⟨false, .none⟩ 2 strings ∧
    CopyReady (State.element 2) (State.elementReadable 2) ⟨true, .none⟩ 2 (strings.setReg 1 0x5002#32) ∧
    CopyReady (State.element 4) (State.elementReadable 4) ⟨false, .untilMatch⟩ 2 strings ∧
    CopyReady State.translated State.translationReadable ⟨false, .none⟩ 2 strings := by
  unfold CopyReady
  decide +kernel

/-- One element copied, and the next ends the instruction; and the first of all ends it. -/
theorem witness_StringCompletes_match :
    (CopyReady (State.element 1) (State.elementReadable 1) ⟨false, .untilMatch⟩ 1 (strings.setReg 4 2#32) ∧
      matchEnds .untilMatch (2#8) 2#8 = true ∧
      completes (.movsb ⟨false, .untilMatch⟩) (strings.setReg 4 2#32) = true) ∧
    (CopyReady (State.element 2) (State.elementReadable 2) ⟨false, .whileMatch⟩ 1
        (strings.setReg 4 0x0201#32) ∧
      completes (.movsw ⟨false, .whileMatch⟩) (strings.setReg 4 0x0201#32) = true) ∧
    (CopyReady (State.element 4) (State.elementReadable 4) ⟨false, .untilMatch⟩ 1
        (strings.setReg 4 0x08070605#32) ∧
      State.elementReadable 4 (strings.setReg 1 0x5004#32)) ∧
    (CopyReady State.translated State.translationReadable ⟨false, .untilMatch⟩ 0
        (strings.setReg 4 0x11#32) ∧
      State.translationReadable (strings.setReg 4 0x11#32) ∧
      matchEnds .untilMatch (strings.setReg 4 0x11#32).translated
        ((strings.setReg 4 0x11#32).regValue .int 1 4) = true) := by
  unfold CopyReady
  decide +kernel

theorem witness_StringCopy :
    strings.translating = false ∧
    (∀ j < 4 * (strings.reg 0).toNat, (strings.byteRead strings.space (byteAt (strings.reg 1) j)).isSome = true ∧
      inRanges strings.text (busAddress (byteAt (strings.reg 2) j)) = false) ∧
    ∀ j < 4 * (strings.reg 0).toNat, ∀ l < 4 * (strings.reg 0).toNat,
      busAddress (byteAt (strings.reg 1) j) ≠ busAddress (byteAt (strings.reg 2) l) := by decide +kernel

/-- An interrupt after the first element; an abort at the first element, and at the second. -/
theorem witness_StringProgress :
    1 < (strings.reg 0).toNat ∧
    { strings with irq := [some .nmi] }.irq = List.replicate (1 - 1) none ++ some .nmi :: [] ∧
    strings.accepts .nmi = true ∧
    CopyReady (State.element 1) (State.elementReadable 1) ⟨false, .none⟩ 1 { strings with irq := [some .nmi] } ∧
    CopyReady (State.element 2) (State.elementReadable 2) ⟨false, .none⟩ 1 { strings with irq := [some .nmi] } ∧
    CopyReady (State.element 4) (State.elementReadable 4) ⟨false, .none⟩ 1 { strings with irq := [some .nmi] } ∧
    CopyReady State.translated State.translationReadable ⟨false, .none⟩ 1
      { strings with irq := [some .nmi] } ∧
    (guarded.setReg 1 0x3FFF#32).mapped guarded.space .read 0x3FFF#32 4 = false ∧
    (CopyReady (State.element 1) (State.elementReadable 1) ⟨false, .none⟩ 1
        { guarded.setReg 2 0x2FFF#32 with psr := guarded.psr.withF false } ∧
      guarded.mapped guarded.space .write 0x3000#32 1 = false) := by
  unfold CopyReady
  decide +kernel

/-- An element whose last byte is unmapped; for MOVST the element, and its translation. -/
theorem witness_StringProgress_abort :
    State.elementAborts 4 (guarded.setReg 1 0x2FFD#32) ∧
      State.translationAborts (guarded.setReg 1 0x3FFF#32) ∧
      State.elementReadable 1 (guarded.setReg 3 0x2FFF#32) ∧
      State.translationAborts (guarded.setReg 3 0x2FFF#32) := by decide +kernel

/-! ### Memory management -/

/-- The operand at an absolute address. -/
def source {n : Nat} (d : Word) : Gen n := .base (.absolute (.long (d.extractLsb' 0 30)))

theorem witness_UserMoveCompletes :
    (Instr.movusb (source 0x5000#32) (.base .tos)).wellFormed = true ∧
    (Instr.movusw (source 0x5000#32) (.base .tos)).wellFormed = true ∧
    (Instr.movusd (source 0x5000#32) (.base .tos)).wellFormed = true ∧ ready.psr.u = false ∧
    locate (n := 4) (source 0x5000#32) ready = .ok (.mem 0x5000#32) ∧
    locate (n := 4) (.base .tos) ready = .ok .tos ∧ (Loc.tos : Loc 4).address ready = some ready.sp ∧
    ready.fits (Instr.movusd (source 0x5000#32) (.base .tos)).length = true ∧
    Readable ready .user 0x5000#32 4 ∧ Writable ready .supervisor ready.sp 4 ∧
    guarded.mapped .user .read 0x5000#32 1 = false ∧ guarded.mapped .user .read 0x2FFE#32 4 = false ∧
    (Readable guarded .user 0x1000#32 4 ∧ guarded.mapped .supervisor .write 0x2FFD#32 4 = false ∧
      locate (n := 4) (source 0x1000#32) guarded = .ok (.mem 0x1000#32) ∧
      locate (n := 4) (source 0x2FFD#32) guarded = .ok (.mem 0x2FFD#32)) := by
  decide +kernel

/-- Protected and readable addresses where they meet, and the last address under an invalid entry. -/
theorem witness_ValidateCompletes :
    (Instr.rdval (source 0x5FFF#32)).wellFormed = true ∧ guarded.cfg.m = true ∧ guarded.psr.u = false ∧
    locate (n := 4) (source 0x5FFF#32) guarded = .ok (.mem 0x5FFF#32) ∧
    (guarded.l1Valid (busAddress 0x5FFF#32) = true ∧ guarded.userReadAllowed (busAddress 0x5FFF#32) = false) ∧
    (guarded.l1Valid (busAddress 0x6000#32) = true ∧ guarded.userReadAllowed (busAddress 0x6000#32) = true) ∧
    guarded.l1Valid (busAddress 0x4FFF#32) = false ∧
    guarded.fits (Instr.rdval (source 0x5FFF#32)).length = true := by decide +kernel

theorem witness_PrivilegedTraps :
    (∀ i ∈ [.movusb (source 0x5000#32) (.base .tos), .movusw (source 0x5000#32) (.base .tos),
        .movusd (source 0x5000#32) (.base .tos), .rdval (source 0x5000#32), .reti, .rett (.short 0#7)],
      Instr.privileged i = true ∧ i.wellFormed = true) ∧
    (asUser ready).psr.u = true ∧ (asUser ready).cfg.m = true ∧
    { ready with cfg.m := false }.cfg.m = false := by decide +kernel

/-! ### Returns and entries -/

/-- All eight registers, and none. -/
theorem witness_RestoreCompletes :
    let s := ready.bytes 0x1000 (List.replicate 32 0x5A#8)
    s.fits 2 = true ∧ (∀ r, listed 0xFF#8 r = true → Readable s s.space (s.slot 0xFF#8 r) 4) ∧
      ∀ r, listed 0x00#8 r = false := by decide +kernel

theorem witness_RetCompletes : Readable inService inService.space inService.sp 4 := by decide +kernel

theorem witness_RetiCompletes : inService.psr.u = false ∧ FrameReady inService :=
  ⟨by decide, ⟨by decide +kernel, by decide +kernel, by decide +kernel, by decide +kernel,
    by decide +kernel, by decide +kernel⟩⟩

/-- A frame on SP1. -/
theorem witness_RettCompletes :
    let s := { inService with psr.s := true, sp1 := 0x1000#32 }
    s.psr.u = false ∧ FrameReady s :=
  ⟨by decide, ⟨by decide +kernel, by decide +kernel, by decide +kernel, by decide +kernel,
    by decide +kernel, by decide +kernel⟩⟩

/-- A stack at an unmapped address; frames whose PSR has T, and P. -/
theorem witness_ReturnStops :
    { guarded with sp0 := 0x2FFD#32 }.mapped guarded.space .read 0x2FFD#32 4 = false ∧
    guarded.psr.u = false ∧
    (let s := inService.bytes 0x1006 [2#8, 0#8]
     Readable s .supervisor s.sp 4 ∧ Readable s .supervisor (s.sp + 4#32) 2 ∧
        Readable s .supervisor (s.sp + 6#32) 2 ∧ s.framePsr.t = true) ∧
    (let s := inService.bytes 0x1006 [0#8, 4#8]
     Readable s .supervisor (s.sp + 6#32) 2 ∧ s.framePsr.p = true) := by decide +kernel

/-- The return address, MOD, the PSR, and the Module Table entry, each the first access that aborts. -/
theorem witness_ReturnStops_frame :
    { guarded with sp0 := 0x2FFD#32 }.frameAborts ∧
    { guarded.bytes 0x2FFC [0#8, 0#8, 0#8, 0#8] with sp0 := 0x2FFC#32 }.frameAborts ∧
    { guarded.bytes 0x2FFA [0#8, 0#8, 0#8, 0#8, 0#8, 0#8] with sp0 := 0x2FFA#32 }.frameAborts ∧
    (guarded.bytes 0x1004 [0xFF#8, 0x2F#8]).frameAborts := by
  unfold State.frameAborts
  decide +kernel

theorem entryReady (k : Trap) : EntryReady k.vector served := by
  cases k <;> exact ⟨by decide +kernel, by decide +kernel, by decide +kernel, by decide +kernel,
    by decide +kernel, by decide +kernel⟩

/-- The state `served`, with one range of addresses that an access of kind `k` cannot use. -/
def barred (k : AccessKind) (lo hi : Nat) : State :=
  { served with mmu := ⟨true, [⟨.supervisor, k, ⟨lo, hi⟩, .abort⟩], [], []⟩ }

/-- Each access of the entry in turn: the descriptor, the static base, the program base, and the pushes of
PSR, MOD and the return address at SP0 = 1000. -/
theorem witness_TrapEntrySequence_aborts :
    (barred .read 0x42B 0x42C).entryAborts Trap.und.vector ∧ (barred .read 0x23 0x24).entryAborts Trap.und.vector ∧
    (barred .read 0x28 0x29).entryAborts Trap.und.vector ∧
    (barred .write 0xFFE 0xFFF).entryAborts (Interrupt.vector .nmi) ∧
    (barred .write 0xFFD 0xFFE).entryAborts (Interrupt.vector .nmi) ∧
    (barred .write 0xFF8 0xFF9).entryAborts (Interrupt.vector .nmi) ∧
    EntryReady (Interrupt.vector .nmi) served := by
  refine ⟨?_, ?_, ?_, ?_, ?_, ?_, ⟨by decide +kernel, by decide +kernel, by decide +kernel, by decide +kernel,
    by decide +kernel, by decide +kernel⟩⟩ <;> unfold State.entryAborts <;> decide +kernel

theorem witness_TrapEntrySequence :
    { ready with trapEntry := .fault }.trapEntry = .fault ∧ served.trapEntry = .sequence ∧
    (∀ k : Trap, EntryReady k.vector served) ∧
    { guarded with intbase := 0x3000#32 }.mapped .supervisor .read (0x3000#32 + 4#32 * Trap.und.vector) 4 =
      false :=
  ⟨by decide, by decide, entryReady, by decide +kernel⟩

theorem witness_EnteredState : served.translating = false := by decide

theorem witness_EntryThenReturn :
    served.translating = false ∧ served.psr.t = false ∧ served.psr.p = false ∧
    Readable served .supervisor (served.mod.setWidth 32) 4 ∧
    ∀ j < 8, ∀ l < 4,
      busAddress (byteAt (served.sp0 - 8#32) j) ≠ busAddress (byteAt (served.mod.setWidth 32) l) := by
  decide +kernel

/-- NMI while masked, a vectored interrupt while enabled, one masked, and one under TRAP_ENTRY = fault. -/
theorem witness_InterruptBoundary :
    { served with irq := [some .nmi] }.finished = false ∧
    EntryReady (Interrupt.vector .nmi) { served with irq := [some .nmi] } ∧
    (EntryReady (Interrupt.vector (.vec 15#32)) { served with irq := [some (.vec 15#32)], psr.i := true } ∧
      { served with irq := [some (.vec 15#32)], psr.i := true }.trapEntry = .sequence) ∧
    (Interrupt.nvi ≠ .nmi ∧ served.psr.i = false) ∧
    { served with irq := [some .nmi], trapEntry := .fault }.trapEntry = .fault :=
  ⟨by decide, ⟨by decide +kernel, by decide +kernel, by decide +kernel, by decide +kernel, by decide +kernel,
      by decide +kernel⟩,
    ⟨⟨by decide +kernel, by decide +kernel, by decide +kernel, by decide +kernel, by decide +kernel,
      by decide +kernel⟩, by decide⟩, by decide, by decide⟩

/-- The pointer of a memory-relative operand, at the first unmapped address. -/
def pointer {n : Nat} : Gen n := .base (.memRel .fp (.long 0x3000#30) (.short 0#7))

/-- Memory that can be read at 5000 and not written. -/
def locked : State :=
  { ready with mmu := ⟨true, [⟨.supervisor, .write, ⟨0x5000, 0x6000⟩, .abort⟩], [], []⟩ }

/-- A source, and a destination of class write, whose last byte is the first unmapped one; a popped
source. -/
theorem witness_AbortsArePrecise :
    (Instr.modd (source 0x2FFD#32) (.reg 2)).wellFormed = true ∧
    (Instr.remd (source 0x2FFD#32) (.reg 2)).wellFormed = true ∧
    (Instr.movqw 7#4 (source 0x2FFF#32)).wellFormed = true ∧
    (Instr.movxbw (.base .tos) (source 0x2FFF#32)).wellFormed = true ∧
    (Instr.movzbd (.base .tos) (source 0x2FFF#32)).wellFormed = true ∧
    (Instr.negd (.base .tos) (source 0x2FFD#32)).wellFormed = true ∧
    (Instr.notw (.base .tos) (source 0x2FFF#32)).wellFormed = true ∧
    (Instr.movwf (.base .tos) (source 0x2FFD#32)).wellFormed = true ∧
    locate (n := 4) (source 0x2FFD#32) guarded = .ok (.mem 0x2FFD#32) ∧
    locate (n := 2) (source 0x2FFF#32) guarded = .ok (.mem 0x2FFF#32) ∧
    guarded.mapped guarded.space .read 0x2FFD#32 4 = false ∧
    guarded.mapped guarded.space .read 0x3FFF#32 1 = false ∧
    Readable guarded guarded.space guarded.sp 4 ∧
    guarded.mapped guarded.space .write 0x2FFF#32 2 = false ∧
    guarded.mapped guarded.space .write 0x2FFD#32 4 = false := by decide +kernel

/-- An address whose pointer fetch aborts, of either operand, of a privileged instruction and of RDVAL. -/
theorem witness_AbortsArePrecise_address :
    (Instr.movusb pointer (.base .tos)).wellFormed = true ∧
    (Instr.mulf (.reg 0) pointer).wellFormed = true ∧ (Instr.rdval pointer).wellFormed = true ∧
    (guarded.cfg.f = true ∧ guarded.psr.u = false ∧ guarded.cfg.m = true) ∧
    locate (n := 1) pointer guarded = .error (.trap .abt) ∧
    locate (n := 4) pointer guarded = .error (.trap .abt) ∧
    locate (n := 4) (.reg 0) guarded = .ok (.reg 0) := by decide +kernel

/-- A destination of class rmw whose read aborts, and one that can be read and not written, with a result to
store; the same result of a conversion. -/
theorem witness_AbortsArePrecise_update :
    (Instr.modd (.reg 0) (source 0x5000#32)).wellFormed = true ∧
    (Instr.mull (.reg 0) (source 0x5000#32)).wellFormed = true ∧
    guarded.mapped guarded.space .read 0x2FFD#32 4 = false ∧
    locate (n := 4) (source 0x5000#32) locked = .ok (.mem 0x5000#32) ∧
    Readable locked locked.space 0x5000#32 4 ∧ Readable locked locked.space 0x5000#32 8 ∧
    locked.mapped locked.space .write 0x5000#32 4 = false ∧
    locked.mapped locked.space .write 0x5000#32 8 = false ∧
    (Loc.reg 0 : Loc 4).value .int locked ≠ 0 ∧
    (multiply .double ((Loc.reg 0 : Loc 8).value .float locked)
      ((Loc.mem 0x5000#32 : Loc 8).value .float locked) locked.fsr locked.free).stores = true ∧
    (convertInt .single 32 ((Loc.reg 0 : Loc 4).value .int locked) locked.fsr locked.free).stores = true := by
  decide +kernel

/-- RESTORE of R0 and R7: the second double-word aborts, the first having been read. -/
theorem witness_AbortsArePrecise_restore :
    let s := { guarded.bytes 0x2FFC [1#8, 2#8, 3#8, 4#8] with sp0 := 0x2FFC#32 }
    listed 0x81#8 0 = true ∧
    (∀ q, listed 0x81#8 q = true → 0 < q → Readable s s.space (s.slot 0x81#8 q) 4) ∧
    s.mapped s.space .read (s.slot 0x81#8 0) 4 = false := by decide +kernel

/-! ### The step -/

theorem witness_StepRunsDecoded :
    { inService with endAt := some 0x002000, pc := 0x05002000#32 }.endAt = some (busAddress 0x05002000#32) ∧
    (inService.bytes 0x2000 [0x52#8]).finished = false ∧
    (inService.bytes 0x2000 [0x52#8]).irq = [] ∧
    decode (fetch (inService.bytes 0x2000 [0x52#8])).1 = .ok (.reti, []) ∧
    (completes .reti inService = true ∧ { inService with trapEntry := .fault }.trapEntry = .fault) ∧
    ∃ t, exec .nop inService = .next t ∧ rise inService t false = 0 ∧ rise inService t true = 0 := by
  refine ⟨by decide +kernel, by decide +kernel, by decide +kernel, by decide +kernel, by decide +kernel, _, rfl,
    by decide +kernel, by decide +kernel⟩

/-- No interrupt is taken where none is presented any more, where none is presented before one that is, where
one is masked, and under TRAP_ENTRY = fault; the step completes in each, and leaves the later entries. -/
theorem witness_StepRunsDecoded_boundary :
    let s := ready.bytes 0x2000 [0xA2#8]
    (NoneTaken s ∧ NoneTaken { s with irq := [none, some .nmi] } ∧
      NoneTaken { s with irq := [some .nvi], psr.i := false } ∧
      NoneTaken { s with irq := [some .nmi, none], trapEntry := .fault }) ∧
    (s.finished = false ∧ decode (fetch s).1 = .ok (.nop, [])) ∧
    after { ready with irq := [none, some .nmi] } [0xA2#8]
      (fun t => t.pc == 0x2001#32 && t.irq == [some .nmi]) = true := by
  refine ⟨⟨?_, ?_, ?_, ?_⟩, ⟨by decide +kernel, by decide +kernel⟩, by decide +kernel⟩ <;> intro q h
  · cases h
  · cases h
  · cases h
    exact .inr (by decide)
  · exact .inl rfl

theorem witness_StepRunsStored :
    (ready.bytes 0x2000 [0xA2#8]).finished = false ∧ { guarded with pc := 0x3000#32 }.finished = false ∧
    (ready.bytes 0x2000 [0xA2#8]).irq = [] ∧ Instr.nop.wellFormed = true ∧
    (∀ (k : Nat) (b : Byte), (encode .nop)[k]? = some b →
      fetchByte (ready.bytes 0x2000 [0xA2#8]) k = .ok b) ∧
    { guarded with pc := 0x3000#32 }.physical guarded.space .fetch 0x3000#32 = none ∧
    (ready.physical ready.space .fetch ready.pc = some 0x2000 ∧ ready.mem.read 0x2000 = none) := by
  refine ⟨by decide, by decide, by decide, by decide, fun k b h => ?_, by decide +kernel,
    by decide +kernel⟩
  match k with
  | 0 =>
    cases h
    decide +kernel
  | k + 1 => cases h

/-! ### Every step -/

/-- A state of the kind reset leaves, and a step from it. -/
theorem witness_InvariantKept :
    Inv (ready.bytes 0x2000 [0xA2#8]) ∧ ∃ t, step (ready.bytes 0x2000 [0xA2#8]) = .next t :=
  ⟨⟨by decide +kernel, by decide, by decide⟩, next_of_stepCompletes (by decide +kernel)⟩

theorem witness_PlatformConstant :
    ∃ t, step ((start.setReg 0 0x01000003#32).bytes 0x2000 [0x3E#8, 0x07#8, 0x00#8]) = .next t :=
  next_of_stepCompletes (by decide +kernel)

/-- A step that stores beside the text it runs from. -/
theorem witness_TextNeverChanges :
    let s := { ready.bytes 0x2000 [0xDD#8, 0xBB#8] with text := [⟨0x1000, 0x3000⟩] }
    (∃ t, step s = .next t) ∧ inRanges s.text 0x1000 = true :=
  ⟨next_of_stepCompletes (by decide +kernel), by decide⟩

/-- A step that stays in User mode, and one that takes Trap(ILL). -/
theorem witness_UserConfinement :
    (asUser ready).psr.u = true ∧
    (∃ t, step (asUser (ready.bytes 0x2000 [0xDD#8, 0x3B#8])) = .next t) ∧
    ∃ t, step (asUser (served.bytes 0x2000 [0x52#8])) = .next t :=
  ⟨by decide, next_of_stepCompletes (by decide +kernel), next_of_stepCompletes (by decide +kernel)⟩

theorem witness_OnlyRetiEmits :
    (∃ t, step (inService.bytes 0x2000 [0x52#8]) = .next t) ∧
    ∃ t, step (inService.bytes 0x2000 [0xA2#8]) = .next t :=
  ⟨next_of_stepCompletes (by decide +kernel), next_of_stepCompletes (by decide +kernel)⟩

/-- A step that runs NOP, and one that takes an interrupt with MOVDF at PC. -/
theorem witness_FloatStateFrame :
    (let s := { served.bytes 0x2000 [0x3E#8, 0x07#8, 0x00#8] with irq := [some .nmi] }
     (∃ t, step s = .next t) ∧ (boundary s).1 = some .nmi ∧
       decode (fetch s).1 = .ok (.movdf (.reg 0) (.reg 0), [])) ∧
    (∃ t, step (ready.bytes 0x2000 [0xA2#8]) = .next t) ∧
    ∀ i rest, decode (fetch (ready.bytes 0x2000 [0xA2#8])).1 = .ok (i, rest) → i.isFloat = false := by
  refine ⟨⟨next_of_stepCompletes (by decide +kernel), by decide +kernel, by decide +kernel⟩,
    next_of_stepCompletes (by decide +kernel), fun i rest h => ?_⟩
  have hd : decode (fetch (ready.bytes 0x2000 [0xA2#8])).1 = .ok (.nop, []) := by decide +kernel
  rw [hd] at h
  cases h
  rfl

end Sys2Proof.Tests
end

section
/-! Proofs of what every step keeps: the platform's state and the FSR's controls (PlatformConstant), and the
floating state where no floating-point instruction runs (FloatStateFrame). Both go through `step_cases`: one
case per primitive change, one per return, one for an entry, and then what settling leaves. -/

namespace Sys2Proof.Machine

/-! ## The FSR's controls and sticky flags (rules R34, R161) -/

/-- FSR `g` has the controls of `f`, and UF and IF where `f` has them. -/
structure FsrKept (f g : Fsr) : Prop where
  rm : g.rm = f.rm
  uen : g.uen = f.uen
  ien : g.ien = f.ien
  swf : g.swf = f.swf
  uf : f.uf = true → g.uf = true
  inx : f.inx = true → g.inx = true

theorem FsrKept.refl (f : Fsr) : FsrKept f f :=
  ⟨rfl, rfl, rfl, rfl, id, id⟩

theorem FsrKept.trans {f g h : Fsr} (hfg : FsrKept f g) (hgh : FsrKept g h) : FsrKept f h where
  rm := hgh.rm.trans hfg.rm
  uen := hgh.uen.trans hfg.uen
  ien := hgh.ien.trans hfg.ien
  swf := hgh.swf.trans hfg.swf
  uf := hgh.uf ∘ hfg.uf
  inx := hgh.inx ∘ hfg.inx

/-! ## The platform's state (rules R27, R33, R35, R36, R272, R275) -/

theorem PlatformKept.refl (s : State) : PlatformKept s s :=
  ⟨rfl, rfl, rfl, rfl, rfl, rfl, rfl⟩

theorem PlatformKept.trans {s t u : State} (hst : PlatformKept s t) (htu : PlatformKept t u) :
    PlatformKept s u where
  fp := htu.fp.trans hst.fp
  cfg := htu.cfg.trans hst.cfg
  intbase := htu.intbase.trans hst.intbase
  mmu := htu.mmu.trans hst.mmu
  text := htu.text.trans hst.text
  trapEntry := htu.trapEntry.trans hst.trapEntry
  endAt := htu.endAt.trans hst.endAt

/-- What PlatformConstant says of two states. -/
structure PlatformFixed (s t : State) : Prop where
  platform : PlatformKept s t
  fsr : FsrKept s.fsr t.fsr

theorem PlatformFixed.refl (s : State) : PlatformFixed s s :=
  ⟨.refl s, .refl s.fsr⟩

theorem PlatformFixed.trans {s t u : State} (hst : PlatformFixed s t) (htu : PlatformFixed t u) :
    PlatformFixed s u :=
  ⟨hst.platform.trans htu.platform, hst.fsr.trans htu.fsr⟩

theorem Change.platformKept {fl : Bool} {s t : State} (h : Change fl s t) : PlatformKept s t := by
  cases h <;> constructor <;> simp

theorem Change.fsrKept {fl : Bool} {s t : State} (h : Change fl s t) : FsrKept s.fsr t.fsr := by
  cases h with
  | fsr _ f keep =>
    obtain ⟨hrm, huen, hien, hswf, huf, hinx⟩ := keep
    exact ⟨hrm, huen, hien, hswf, huf, hinx⟩
  | sp v =>
    rw [State.setSp_fsr]
    exact .refl _
  | reg | flags | store | irq | freg | free | stack => exact .refl _

theorem Chain.platformFixed {fl : Bool} {s t : State} (h : Chain fl s t) : PlatformFixed s t :=
  h.keeps (.refl s) fun _ _ ih hc => ih.trans ⟨hc.platformKept, hc.fsrKept⟩

/-- Settling changes memory and the counter of free values alone. -/
theorem Settles.platformFixed {s t u : State} (h : Settles s t u) : PlatformFixed t u := by
  rw [h.other]
  exact ⟨⟨rfl, rfl, rfl, rfl, rfl, rfl, rfl⟩, .refl _⟩

theorem platformFixed_unframed (s : State) : PlatformFixed s s.unframed where
  platform := by constructor <;> simp [State.unframed]
  fsr := by simpa [State.unframed] using FsrKept.refl s.fsr

theorem platformFixed_setSp (s : State) (a : Word) : PlatformFixed s (s.setSp a) :=
  Chain.platformFixed (fl := false) (.single (.sp a))

theorem platformFixed_entered (s : State) (v ra : Word) (interrupt : Bool) :
    PlatformFixed s (s.entered v ra interrupt) :=
  ⟨⟨rfl, rfl, rfl, rfl, rfl, rfl, rfl⟩, .refl _⟩

/-- PlatformFixed does not speak of PC, the interrupts presented or the EOI count. -/
theorem PlatformFixed.aside {s t : State} (h : PlatformFixed s t) (pc : Word)
    (irq : List (Option Interrupt)) (eois : Nat) :
    PlatformFixed s { t with pc := pc, irq := irq, eois := eois } :=
  ⟨⟨h.platform.fp, h.platform.cfg, h.platform.intbase, h.platform.mmu, h.platform.text,
    h.platform.trapEntry, h.platform.endAt⟩, h.fsr⟩

theorem step_platformFixed {s t : State} (h : step s = .next t) : PlatformFixed s t := by
  obtain ⟨fl, -, ⟨w, hset, hw⟩ | ⟨v, interrupt, u, ⟨hc, -⟩, -, -, rfl⟩⟩ := step_cases h
  · refine PlatformFixed.trans ?_ hset.platformFixed
    rcases hw with ⟨u, v, hc, rfl⟩ | ⟨rest, s', -, rfl, -, -, rfl⟩ | ⟨d, rest, s', -, rfl, -, -, rfl⟩
    · exact hc.platformFixed.aside v u.irq u.eois
    · have hstart := (PlatformFixed.refl s).aside s.pc s.irq.tail (s.eois + 1)
      exact (hstart.trans (platformFixed_unframed _)).aside _ _ _
    · have hstart := (PlatformFixed.refl s).aside s.pc s.irq.tail s.eois
      exact ((hstart.trans (platformFixed_unframed _)).trans (platformFixed_setSp _ _)).aside _ _ _
  · exact hc.platformFixed.trans (platformFixed_entered u v u.pc interrupt)

/-- Settles O56, by the cases of a step. -/
theorem platformConstant : Obligations.PlatformConstant := by
  unfold Obligations.PlatformConstant
  intro s t h
  obtain ⟨hp, hf⟩ := step_platformFixed h
  exact ⟨hp, hf.rm, hf.uen, hf.ien, hf.swf, hf.uf, hf.inx⟩

/-! ## The floating state (rules R22, R34) -/

/-- The F registers and the FSR are as before. -/
structure FloatKept (s t : State) : Prop where
  fregs : t.fregs = s.fregs
  fsr : t.fsr = s.fsr

theorem FloatKept.trans {s t u : State} (hst : FloatKept s t) (htu : FloatKept t u) : FloatKept s u :=
  ⟨htu.fregs.trans hst.fregs, htu.fsr.trans hst.fsr⟩

/-- A change that may not touch the floating state draws no free value either. -/
theorem Change.floatKept {s t : State} (h : Change false s t) : FloatKept s t ∧ t.free = s.free := by
  cases h with
  | sp v => exact ⟨⟨s.setSp_fregs v, s.setSp_fsr v⟩, s.setSp_free v⟩
  | reg | flags | store | irq => exact ⟨⟨rfl, rfl⟩, rfl⟩
  | freg h | fsr h | free h | stack h => cases h

theorem Chain.floatKept {s t : State} (h : Chain false s t) : FloatKept s t ∧ t.free = s.free :=
  h.keeps (P := fun t => FloatKept s t ∧ t.free = s.free) ⟨⟨rfl, rfl⟩, rfl⟩ fun _ _ ih hc =>
    ⟨ih.1.trans hc.floatKept.1, hc.floatKept.2.trans ih.2⟩

theorem floatKept_unframed (s : State) : FloatKept s s.unframed ∧ s.unframed.free = s.free := by
  simp [State.unframed, FloatKept.mk]

/-- Settling draws free values only for bytes a stack pointer has risen past. -/
theorem Settles.floatKept {s t u : State} (h : Settles s t u) :
    FloatKept t u ∧ (u.free = t.free ∨ 0 < rise s u false ∨ 0 < rise s u true) := by
  have hother := h.other
  have hrise : ∀ one, rise s u one = rise s t one := by
    intro one
    rw [hother]
    rfl
  refine ⟨by rw [hother]; exact ⟨rfl, rfl⟩, ?_⟩
  by_cases hlevel : rise s t false = 0 ∧ rise s t true = 0
  · exact .inl (by rw [h.level hlevel.1 hlevel.2])
  · rw [hrise, hrise]
    omega

theorem step_floatKept {s t : State} (h : step s = .next t)
    (hi : (boundary s).1 = none → ∀ i rest, decode (fetch s).1 = .ok (i, rest) → i.isFloat = false) :
    FloatKept s t ∧ (t.free = s.free ∨ 0 < rise s t false ∨ 0 < rise s t true) := by
  obtain ⟨fl, hfl, hcases⟩ := step_cases h
  obtain rfl : fl = false := by
    by_contra hne
    obtain ⟨hb, i, rest, hd, hf⟩ := hfl (by simpa using hne)
    rw [hi hb i rest hd] at hf
    cases hf
  rcases hcases with ⟨w, hset, hw⟩ | ⟨v, interrupt, u, ⟨hc, -⟩, -, -, rfl⟩
  · have hsw : FloatKept s w ∧ w.free = s.free := by
      rcases hw with ⟨u, v, hc, rfl⟩ | ⟨rest, s', -, rfl, -, -, rfl⟩ | ⟨d, rest, s', -, rfl, -, -, rfl⟩
      · obtain ⟨⟨hfregs, hfsr⟩, hfree⟩ := hc.floatKept
        exact ⟨⟨hfregs, hfsr⟩, hfree⟩
      · obtain ⟨⟨hfregs, hfsr⟩, hfree⟩ :=
          floatKept_unframed { s with irq := s.irq.tail, eois := s.eois + 1 }
        exact ⟨⟨hfregs, hfsr⟩, hfree⟩
      · obtain ⟨⟨hfregs, hfsr⟩, hfree⟩ := floatKept_unframed { s with irq := s.irq.tail }
        exact ⟨⟨(State.setSp_fregs _ _).trans hfregs, (State.setSp_fsr _ _).trans hfsr⟩,
          (State.setSp_free _ _).trans hfree⟩
    obtain ⟨hwt, hfree⟩ := hset.floatKept
    exact ⟨hsw.1.trans hwt, hsw.2 ▸ hfree⟩
  · obtain ⟨⟨hfregs, hfsr⟩, hfree⟩ := hc.floatKept
    exact ⟨⟨hfregs, hfsr⟩, .inl hfree⟩

/-- Settles O60, by the cases of a step: without a floating-point instruction the chain of changes is one that
leaves the floating state alone. -/
theorem floatStateFrame : Obligations.FloatStateFrame := by
  unfold Obligations.FloatStateFrame
  intro s t h hi
  obtain ⟨⟨hfregs, hfsr⟩, hfree⟩ := step_floatKept h hi
  exact ⟨hfregs, hfsr, hfree⟩

end Sys2Proof.Machine
end

section
/-! Proofs about memory accesses and the stack: what one access answers (AccessOutcomes), that what is pushed
is popped, and what settling leaves of a state (PushThenPop). -/

namespace Sys2Proof.Machine

/-! ## What one access answers (rules R38, R63, R77) -/

theorem memRead_unwritten {sp : Space} {a : Word} {n : Nat} {s : State}
    (hm : s.mapped sp .read a n = true) (hw : s.written sp a n = false) :
    memRead sp a n s = .error (.refuse (.unwritten s.pc)) := by
  simp [memRead, hm, hw]

theorem memWrite_storeToText {sp : Space} {a : Word} {n : Nat} {v : BitVec (8 * n)} {s : State}
    (hm : s.mapped sp .write a n = true) (hc : s.clearOfText sp a n = false) :
    memWrite sp a v s = .error (.refuse (.storeToText s.pc)) := by
  simp [memWrite, hm, hc]

theorem memoryKept_store (s : State) (sp : Space) (a : Word) {n : Nat} (v : BitVec (8 * n)) :
    MemoryKept s (s.store sp a v) sp (some a) n :=
  fun _ hx => State.read_storeBytes_other (hx a rfl)

/-- Settles O11, by the laws of one access. -/
theorem accessOutcomes : Obligations.AccessOutcomes := by
  unfold Obligations.AccessOutcomes
  intro s sp a n v
  exact ⟨memRead_ok, memRead_abort, memRead_unwritten, memWrite_ok, memWrite_abort, memWrite_storeToText,
    memoryKept_store s sp a v, fun h => State.storeBytes_wf h sp a v⟩

/-! ## Reading back a datum with translation off (rules R61, R63, R74) -/

/-- The bytes of a number, least significant first, give it back. -/
theorem natOfBytesLE_digits (n x : Nat) :
    natOfBytesLE ((List.range n).map fun j => BitVec.ofNat 8 (x / 2 ^ (8 * j))) = x % 2 ^ (8 * n) := by
  induction n generalizing x with
  | zero => simp [natOfBytesLE, Nat.mod_one]
  | succ n ih =>
    have htail := ih (x / 256)
    simp only [Nat.div_div_eq_div_mul, show (256 : Nat) = 2 ^ 8 from rfl, ← Nat.pow_add] at htail
    rw [List.range_succ_eq_map, List.map_cons, List.map_map, natOfBytesLE]
    simp only [Function.comp_def, Nat.succ_eq_add_one, Nat.mul_add, Nat.mul_one, Nat.add_comm _ 8]
    rw [htail, Nat.pow_add 2 8, Nat.mod_mul]
    simp

theorem natOfBytesLE_extract {n : Nat} (v : BitVec (8 * n)) :
    natOfBytesLE ((List.range n).map fun j => v.extractLsb' (8 * j) 8) = v.toNat := by
  have hbytes : ∀ j, v.extractLsb' (8 * j) 8 = BitVec.ofNat 8 (v.toNat / 2 ^ (8 * j)) := fun j =>
    BitVec.eq_of_toNat_eq (by rw [toNat_field, BitVec.toNat_ofNat])
  simp only [hbytes]
  rw [natOfBytesLE_digits, Nat.mod_eq_of_lt v.isLt]

/-- The bytes of a datum of at most 8 bytes stand at different addresses, at the top of memory too. -/
theorem busAddress_byteAt_ne {a : Word} {i j : Nat} (hi : i < 8) (hj : j < 8) (hne : i ≠ j) :
    busAddress (byteAt a i) ≠ busAddress (byteAt a j) := by
  have ha := a.isLt
  simp only [busAddress, byteAt, Config.addrSpace, Config.addrBits, BitVec.toNat_add, BitVec.toNat_ofNat]
  omega

theorem mapped_off {s : State} (h : s.translating = false) (sp : Space) (k : AccessKind) (a : Word)
    (n : Nat) : s.mapped sp k a n = true := by
  simp [State.mapped, State.physical_off h]

/-- A stored byte is read back. -/
theorem byteRead_store {s : State} {sp : Space} {a : Word} {n j : Nat} (v : BitVec (8 * n))
    (h : s.translating = false) (hn : n ≤ 8) (hj : j < n) :
    (s.store sp a v).byteRead sp (byteAt a j) = some (v.extractLsb' (8 * j) 8) := by
  rw [State.byteRead, State.physical_off (s := s.store sp a v) h, Option.bind_some, State.store_mem]
  refine State.read_storeBytes_same hj (State.physical_off h _ _ _) fun i hji hin => ?_
  rw [State.physical_off h, Ne, Option.some.injEq]
  exact busAddress_byteAt_ne (by omega) (by omega) (by omega)

theorem readable_store {s : State} {sp : Space} {a : Word} {n : Nat} (v : BitVec (8 * n))
    (h : s.translating = false) (hn : n ≤ 8) : Readable (s.store sp a v) sp a n := by
  refine ⟨mapped_off h sp .read a n, List.all_eq_true.2 fun j hj => ?_⟩
  rw [byteRead_store v h hn (List.mem_range.1 hj)]
  rfl

theorem memValue_store {s : State} {sp : Space} {a : Word} {n : Nat} (v : BitVec (8 * n))
    (h : s.translating = false) (hn : n ≤ 8) : (s.store sp a v).memValue sp a n = v := by
  have hbytes : ((List.range n).map fun j => ((s.store sp a v).byteRead sp (byteAt a j)).getD 0#8) =
      (List.range n).map fun j => v.extractLsb' (8 * j) 8 :=
    List.map_congr_left fun j hj => by rw [byteRead_store v h hn (List.mem_range.1 hj), Option.getD_some]
  rw [State.memValue, hbytes, natOfBytesLE_extract, BitVec.ofNat_toNat, BitVec.setWidth_eq]

/-! ## Push and pop (rules R65 to R67) -/

/-- A pop with the stack pointer put at `a`: what memory holds does not depend on the stack pointers. -/
theorem pop_setSp {s : State} {n : Nat} {a : Word} (h : Readable s s.space a n) :
    pop n (s.setSp a) = .ok (s.memValue s.space a n, s.setSp (a + BitVec.ofNat 32 n)) := by
  refine pop_ok_iff.2 ⟨?_, ?_, ?_⟩
  · rw [State.space_setSp, State.sp_setSp]
    exact (Readable.congr (s.setSp_cfg a) (s.setSp_mmu a) (s.setSp_mem a)).2 h
  · rw [State.space_setSp, State.sp_setSp]
    exact (State.memValue_congr (s.setSp_cfg a) (s.setSp_mmu a) (s.setSp_mem a) _ _ _).symm
  · rw [State.sp_setSp]
    cases hs : s.psr.s <;> simp [State.setSp, hs]

/-- Putting SP back where it was. -/
theorem setSp_store_sp (s : State) (sp : Space) (a : Word) {n : Nat} (v : BitVec (8 * n)) :
    (s.store sp a v).setSp s.sp = { s with mem := s.storeBytes sp a v } := by
  cases hs : s.psr.s <;> simp [State.setSp, State.sp, State.store, hs]

theorem pop_of_push {s t : State} {n : Nat} {v : BitVec (8 * n)} (h : s.translating = false) (hn : n ≤ 8)
    (hp : push v s = .ok t) :
    t.sp = s.sp - BitVec.ofNat 32 n ∧ pop n t = .ok (v, { s with mem := t.mem }) := by
  obtain ⟨-, rfl⟩ := push_ok_iff.1 hp
  refine ⟨State.sp_setSp _ _, ?_⟩
  rw [pop_setSp (readable_store v h hn), State.space_store, memValue_store v h hn, BitVec.sub_add_cancel,
    setSp_store_sp, State.setSp_mem, State.store_mem]

/-! ## What settling leaves (rules R37, R68, item I1) -/

theorem entryPossible_iff {s : State} : s.entryPossible = true ↔ s.trapEntry = .sequence ∨ s.irq ≠ [] := by
  simp [State.entryPossible]

/-- A byte that a stack pointer has risen past, with an entry possible, takes a free value. -/
theorem settled_value {s t : State} {x : Nat} (he : s.entryPossible = true)
    (ht : inRanges t.text x = false) (hv : t.mem.read x ≠ none)
    (hx : ∃ one, ∃ j < rise s t one, ∃ sp ∈ stackSpaces s t one,
      t.physical sp .write (byteAt (s.stackPointer one) j) = some x) :
    ∃ k, t.free ≤ k ∧ (s.settled t).mem.read x = some (Config.freeByte k) := by
  obtain ⟨one, hone⟩ := hx
  have hmem : x ∈ exposed s t false ++ exposed s t true := by
    rw [List.mem_append]
    cases one with
    | false => exact .inl (mem_exposed.2 hone)
    | true => exact .inr (mem_exposed.2 hone)
  rw [State.settled, if_pos he]
  exact freeBytes_value hmem (Option.isSome_iff_ne_none.2 hv) ht

theorem uncovers (s t : State) : Uncovers s t := by
  have hset := settled_settles s t
  refine ⟨fun hf hq => settled_fault (by simp [State.entryPossible, hf, hq]), hset.level, hset.other,
    fun x => ?_⟩
  split
  · rename_i hx
    obtain ⟨he, ht, hv, hone⟩ := hx
    exact settled_value (entryPossible_iff.2 he) ht hv hone
  · rename_i hx
    by_contra hne
    obtain ⟨ht, hv, -, hone⟩ := hset.memory x hne
    refine hx ⟨entryPossible_iff.1 ?_, ht, Option.isSome_iff_ne_none.1 hv, hone⟩
    by_contra he
    exact hne (by rw [settled_fault (by simpa using he)])

/-- Settles O13: the bytes pushed are read back, and settling is an account of the addresses exposed. -/
theorem pushThenPop : Obligations.PushThenPop := by
  unfold Obligations.PushThenPop
  exact ⟨fun _ _ _ _ h hn hp => pop_of_push h hn hp, uncovers⟩

end Sys2Proof.Machine
end

section
/-! Proof of StepRunsStored. The decoder reads back the words of an admitted instruction whatever follows them
(rules R123, R126): one lemma per layout of the basic instruction, used for every row of that layout. The words
are at most `maxLength` bytes (rule R122), so that the bytes fetched at PC begin with them. -/

namespace Sys2Proof

/-! ## The three-byte basic instruction (rules R91, R95 to R102) -/

/-- The low byte of a three-byte format is none of format 1 and none of format 2 (rule R123 steps 1, 2). -/
theorem threeByteFormats_apart : ∀ b ∈ threeByteFormats,
    b.extractLsb' 0 4 ≠ 0b0010#4 ∧ ¬(b.extractLsb' 2 5 = 0b10111#5 ∧ b.extractLsb' 0 2 ≠ 0b10#2) := by
  decide

theorem decodeRaw_three {b0 : Byte} (b1 b2 : Byte) (rest : List Byte) (h : b0 ∈ threeByteFormats) :
    decodeRaw (b0 :: b1 :: b2 :: rest) =
      decodeThree ((b2 ++ b1 ++ b0).extractLsb' 19 5).toNat ((b2 ++ b1 ++ b0).extractLsb' 14 5).toNat
        ((b2 ++ b1 ++ b0).extractLsb' 0 14).toNat rest := by
  obtain ⟨h1, h2⟩ := threeByteFormats_apart b0 h
  simp only [decodeRaw, if_neg h1, if_neg h2, if_pos h]

/-- A 24-bit word is its three bytes. -/
theorem bytes_of_word (w : BitVec 24) :
    w.extractLsb' 16 8 ++ w.extractLsb' 8 8 ++ w.extractLsb' 0 8 = w := by
  refine BitVec.eq_of_toNat_eq ?_
  rw [toNat_cat, toNat_cat, toNat_field, toNat_field, toNat_field]
  have := w.isLt
  omega

theorem toNat_basicThree {code1 code2 : Nat} (op : BitVec 14) (h1 : code1 < 32) (h2 : code2 < 32) :
    (BitVec.ofNat 5 code1 ++ BitVec.ofNat 5 code2 ++ op : BitVec 24).toNat =
      code1 * 2 ^ 19 + code2 * 2 ^ 14 + op.toNat := by
  rw [toNat_cat, toNat_cat, BitVec.toNat_ofNat, BitVec.toNat_ofNat]
  omega

/-- Rules R91 and R123: the decoder finds the fields of a three-byte basic instruction. -/
theorem decodeRaw_basicThree {code1 code2 : Nat} {op : BitVec 14} (rest : List Byte) (h1 : code1 < 32)
    (h2 : code2 < 32) (hop : op.extractLsb' 0 8 ∈ threeByteFormats) :
    decodeRaw (basicThree code1 code2 op ++ rest) = decodeThree code1 code2 op.toNat rest := by
  have hw := toNat_basicThree op h1 h2
  have hlt := op.isLt
  simp only [basicThree, List.cons_append, List.nil_append]
  rw [decodeRaw_three, bytes_of_word, toNat_field, toNat_field, toNat_field, hw]
  · congr 1 <;> omega
  · have hlow : (BitVec.ofNat 5 code1 ++ BitVec.ofNat 5 code2 ++ op : BitVec 24).extractLsb' 0 8 =
        op.extractLsb' 0 8 := by
      refine BitVec.eq_of_toNat_eq ?_
      rw [toNat_field, toNat_field, hw]
      omega
    rw [hlow]
    exact hop

/-- A two-operand row. -/
theorem decodeRaw_encodeTwo {n m : Nat} {op : BitVec 14} {imm : Bool} {mk : Gen n → Gen m → Instr}
    (g1 : Gen n) (g2 : Gen m) (rest : List Byte) (hop : op.extractLsb' 0 8 ∈ threeByteFormats)
    (hrow : ∀ bs, decodeThree g1.code g2.code op.toNat bs = takeTwo imm g1.code g2.code mk bs)
    (h1 : g1.immAllowed imm = true) (h2 : g2.immAllowed false = true) :
    decodeRaw (encodeTwo op g1 g2 ++ rest) = .ok (mk g1 g2, rest) := by
  simp only [encodeTwo, List.append_assoc]
  rw [decodeRaw_basicThree _ g1.code_lt g2.code_lt hop, hrow]
  simpa only [List.append_assoc] using takeTwo_encode imm g1 g2 mk rest h1 h2

/-- A two-operand row whose gen1 has class read. -/
theorem decodeRaw_pair {n m : Nat} {op : BitVec 14} {mk : Gen n → Gen m → Instr} {ks kd : Bank} {a : Access}
    {g1 : Gen n} {g2 : Gen m} (rest : List Byte) (hop : op.extractLsb' 0 8 ∈ threeByteFormats)
    (hrow : ∀ bs, decodeThree g1.code g2.code op.toNat bs = takeTwo true g1.code g2.code mk bs)
    (h : pairAdmitted ks kd a g1 g2 = true) (ha : (a == .read) = false) :
    decodeRaw (encodeTwo op g1 g2 ++ rest) = .ok (mk g1 g2, rest) := by
  simp only [pairAdmitted, Bool.and_eq_true] at h
  obtain ⟨⟨h1, h2⟩, -⟩ := h
  exact decodeRaw_encodeTwo g1 g2 rest hop hrow (Gen.immAllowed_of_admitted h1)
    (ha ▸ Gen.immAllowed_of_admitted h2)

/-- A two-operand row whose operands are both addresses. -/
theorem decodeRaw_addresses {n : Nat} {op : BitVec 14} {mk : Gen n → Gen n → Instr} {g1 g2 : Gen n}
    (rest : List Byte) (hop : op.extractLsb' 0 8 ∈ threeByteFormats)
    (hrow : ∀ bs, decodeThree g1.code g2.code op.toNat bs = takeTwo false g1.code g2.code mk bs)
    (h : (g1.admitted .addr .int && g2.admitted .addr .int) = true) :
    decodeRaw (encodeTwo op g1 g2 ++ rest) = .ok (mk g1 g2, rest) := by
  obtain ⟨h1, h2⟩ := Bool.and_eq_true_iff.1 h
  exact decodeRaw_encodeTwo g1 g2 rest hop hrow (Gen.immAllowed_of_admitted h1)
    (Gen.immAllowed_of_admitted h2)

/-! ## String instructions (rules R95, R112) -/

/-- `w[18:14]` of a string instruction: the match option, B, T and 0. -/
def stringCode (translate : Bool) (o : StringOptions) : Nat :=
  8 * o.matching.code + (if o.backward then 4 else 0) + (if translate then 2 else 0)

theorem encodeString_eq (op : BitVec 14) (translate : Bool) (o : StringOptions) :
    encodeString op translate o = basicThree 0 (stringCode translate o) op := rfl

theorem stringCode_lt (translate : Bool) (o : StringOptions) : stringCode translate o < 32 := by
  obtain ⟨backward, matching⟩ := o
  cases translate <;> cases backward <;> cases matching <;> decide

theorem takeString_encode (translate : Bool) (o : StringOptions) (mk : StringOptions → Instr)
    (rest : List Byte) : takeString translate 0 (stringCode translate o) mk rest = .ok (mk o, rest) := by
  obtain ⟨backward, matching⟩ := o
  cases translate <;> cases backward <;> cases matching <;> rfl

/-- Bit 1 of the code is T, by which MOVSB and MOVST are told apart. -/
theorem stringCode_translate (translate : Bool) (o : StringOptions) :
    stringCode translate o / 2 % 2 = if translate then 1 else 0 := by
  obtain ⟨backward, matching⟩ := o
  cases translate <;> cases backward <;> cases matching <;> rfl

theorem takeStringB_encode (translate : Bool) (o : StringOptions) (rest : List Byte) :
    takeStringB 0 (stringCode translate o) rest = .ok (if translate then .movst o else .movsb o, rest) := by
  rw [takeStringB, stringCode_translate]
  cases translate with
  | true => exact takeString_encode true o .movst rest
  | false => exact takeString_encode false o .movsb rest

theorem decodeRaw_encodeString {op : BitVec 14} (translate : Bool) (o : StringOptions) (rest : List Byte)
    (hop : op.extractLsb' 0 8 ∈ threeByteFormats) :
    decodeRaw (encodeString op translate o ++ rest) = decodeThree 0 (stringCode translate o) op.toNat rest := by
  rw [encodeString_eq]
  exact decodeRaw_basicThree rest (by decide) (stringCode_lt translate o) hop

/-! ## The two-byte basic instruction (rules R91, R94) -/

theorem toNat_basicTwo {code : Nat} (quick : BitVec 4) (op : BitVec 7) (h : code < 32) :
    (BitVec.ofNat 5 code ++ quick ++ op : BitVec 16).toNat = code * 2 ^ 11 + quick.toNat * 2 ^ 7 + op.toNat := by
  rw [toNat_cat, toNat_cat, BitVec.toNat_ofNat]
  omega

/-- The word of a two-byte basic instruction is its two bytes. -/
theorem bytes_of_half (w : BitVec 16) : w.extractLsb' 8 8 ++ w.extractLsb' 0 8 = w := by
  refine BitVec.eq_of_toNat_eq ?_
  rw [toNat_cat, toNat_field, toNat_field]
  have := w.isLt
  omega

/-- The decoder finds the fields of a two-byte basic instruction, whose `w[6:0]` is of format 2 and none of
format 1 (rule R123 steps 1, 2). -/
theorem decodeRaw_basicTwo {code : Nat} {op : BitVec 7} (quick : BitVec 4) (rest : List Byte)
    (h : code < 32) (hop : op.extractLsb' 0 4 ≠ 0b0010#4 ∧
      op.extractLsb' 2 5 = 0b10111#5 ∧ op.extractLsb' 0 2 ≠ 0b10#2) :
    decodeRaw (basicTwo code quick op ++ rest) = decodeTwo code quick (op.extractLsb' 0 2).toNat rest := by
  have hw := toNat_basicTwo quick op h
  have hlt := op.isLt
  have hq := quick.isLt
  obtain ⟨h4, h5, h2⟩ := hop
  generalize hwd : (BitVec.ofNat 5 code ++ quick ++ op : BitVec 16) = w at hw
  have low : ∀ i k, i + k ≤ 7 → (w.extractLsb' 0 8).extractLsb' i k = op.extractLsb' i k := by
    intro i k hik
    subst hwd
    ext j hj
    simp only [BitVec.getElem_extractLsb', BitVec.getLsbD_extractLsb', BitVec.getLsbD_append]
    simp [show i + j < 8 by omega, show i + j < 7 by omega]
  have hcode : (w.extractLsb' 11 5).toNat = code := by rw [toNat_field, hw]; omega
  have hquick : w.extractLsb' 7 4 = quick := BitVec.eq_of_toNat_eq (by rw [toNat_field, hw]; omega)
  have hi : (w.extractLsb' 0 2).toNat = (op.extractLsb' 0 2).toNat := by
    rw [toNat_field, toNat_field, hw]
    omega
  simp only [basicTwo, hwd, List.cons_append, List.nil_append, decodeRaw]
  rw [low 0 4 (by omega), low 2 5 (by omega), low 0 2 (by omega), if_neg h4, if_pos ⟨h5, h2⟩, bytes_of_half,
    hcode, hquick, hi]

/-- A quick row, whose operand is of class write. -/
theorem decodeRaw_encodeQuick {n : Nat} {op : BitVec 7} {mk : Gen n → Instr} {quick : BitVec 4} {g : Gen n}
    (rest : List Byte) (hop : op.extractLsb' 0 4 ≠ 0b0010#4 ∧
      op.extractLsb' 2 5 = 0b10111#5 ∧ op.extractLsb' 0 2 ≠ 0b10#2)
    (hrow : ∀ bs, decodeTwo g.code quick (op.extractLsb' 0 2).toNat bs = takeOne false g.code mk bs)
    (h : g.admitted .write .int = true) :
    decodeRaw (encodeQuick op quick g ++ rest) = .ok (mk g, rest) := by
  simp only [encodeQuick, List.append_assoc]
  rw [decodeRaw_basicTwo quick _ g.code_lt hop, hrow]
  simpa only [List.append_assoc] using takeOne_encode false g mk rest (Gen.immAllowed_of_admitted h)

/-! ## Every row (rule R126) -/

theorem decodeRaw_rdval (g : Gen 4) (rest : List Byte) (h : g.admitted .addr .int = true) :
    decodeRaw (encode (.rdval g) ++ rest) = .ok (.rdval g, rest) := by
  simp only [encode, List.append_assoc]
  rw [decodeRaw_basicThree _ g.code_lt (by decide) (by decide)]
  refine Eq.trans (b := takeOne false g.code .rdval _) rfl ?_
  simpa only [List.append_assoc] using takeOne_encode false g .rdval rest (Gen.immAllowed_of_admitted h)

/-- RET and RETT, whose one operand is a displacement (rules R107, R212, R216). -/
theorem decodeRaw_disp {b0 : Byte} {mk : Disp → Instr} (d : Disp) (rest : List Byte)
    (hrow : ∀ bs, decodeRaw (b0 :: bs) = takeDisp bs >>= fun p => pure (mk p.1, p.2)) :
    decodeRaw (b0 :: d.encode ++ rest) = .ok (mk d, rest) := by
  rw [List.cons_append, hrow, takeDisp_encode, parse_ok_bind, parse_pure]

theorem decodeRaw_encode (i : Instr) (rest : List Byte) (h : i.wellFormed = true) :
    decodeRaw (encode i ++ rest) = .ok (i, rest) := by
  cases i with
  | modb | modw | modd | remb | remw | remd | mulf | mull
  | movbf | movwf | movdf | movbl | movwl | movdl | movfl | movlf
  | movxbw | movxbd | movxwd | movzbw | movzbd | movzwd
  | negb | negw | negd | notb | notw | notd =>
    exact decodeRaw_pair rest (by decide) (fun _ => rfl) h rfl
  | movusb | movusw | movusd => exact decodeRaw_addresses rest (by decide) (fun _ => rfl) h
  | movqb | movqw | movqd => exact decodeRaw_encodeQuick rest (by decide) (fun _ => rfl) h
  | movsb o => exact (decodeRaw_encodeString false o rest (by decide)).trans (takeStringB_encode false o rest)
  | movst o => exact (decodeRaw_encodeString true o rest (by decide)).trans (takeStringB_encode true o rest)
  | movsw o =>
    exact (decodeRaw_encodeString false o rest (by decide)).trans (takeString_encode false o .movsw rest)
  | movsd o =>
    exact (decodeRaw_encodeString false o rest (by decide)).trans (takeString_encode false o .movsd rest)
  | rdval g => exact decodeRaw_rdval g rest h
  | nop | reti | restore => rfl
  | ret d => exact decodeRaw_disp d rest fun _ => rfl
  | rett d => exact decodeRaw_disp d rest fun _ => rfl

/-- The words of an admitted instruction decode to it, whatever bytes follow. -/
theorem decode_encode_append (i : Instr) (rest : List Byte) (h : i.wellFormed = true) :
    decode (encode i ++ rest) = .ok (i, rest) := by
  rw [decode, decodeRaw_encode i rest h, parse_ok_bind]
  exact if_pos h

/-! ## The length of an instruction (rule R122) -/

theorem Base.length_extension (b : Base) : b.extension.length ≤ 8 := by
  cases b with
  | regRel r d | absolute d | space p d =>
    have := d.length_encode
    simp only [Base.extension]
    omega
  | memRel p d1 d2 | external d1 d2 =>
    have := d1.length_encode
    have := d2.length_encode
    simp only [Base.extension, List.length_append]
    omega
  | tos => decide

/-- An index byte and two displacements are the most an operand adds. -/
theorem Gen.length_added {n : Nat} (g : Gen n) (hn : n ≤ 8) :
    g.indexByte.length + g.extension.length ≤ 9 := by
  cases g with
  | reg r => exact Nat.zero_le 9
  | imm v =>
    simp only [Gen.indexByte, Gen.extension, length_bytesBE, List.length_nil]
    omega
  | base b =>
    have := b.length_extension
    simp only [Gen.indexByte, Gen.extension, List.length_nil]
    omega
  | scaled s b r =>
    have := b.length_extension
    simp only [Gen.indexByte, Gen.extension, List.length_cons, List.length_nil]
    omega

theorem length_encodeTwo {n m : Nat} (op : BitVec 14) (g1 : Gen n) (g2 : Gen m) (hn : n ≤ 8) (hm : m ≤ 8) :
    (encodeTwo op g1 g2).length ≤ maxLength := by
  have := g1.length_added hn
  have := g2.length_added hm
  simp only [encodeTwo, basicThree, List.length_append, List.length_cons, List.length_nil, maxLength]
  omega

theorem length_encodeQuick {n : Nat} (op : BitVec 7) (quick : BitVec 4) (g : Gen n) (hn : n ≤ 8) :
    (encodeQuick op quick g).length ≤ maxLength := by
  have := g.length_added hn
  simp only [encodeQuick, basicTwo, List.length_append, List.length_cons, List.length_nil, maxLength]
  omega

theorem length_encode_le (i : Instr) : (encode i).length ≤ maxLength := by
  cases i with
  | modb | modw | modd | remb | remw | remd | mulf | mull
  | movbf | movwf | movdf | movbl | movwl | movdl | movfl | movlf
  | movxbw | movxbd | movxwd | movzbw | movzbd | movzwd
  | negb | negw | negd | notb | notw | notd | movusb | movusw | movusd =>
    exact length_encodeTwo _ _ _ (by decide) (by decide)
  | movqb | movqw | movqd => exact length_encodeQuick _ _ _ (by decide)
  | movsb | movst | movsw | movsd | nop | reti | restore =>
    simp [encode, encodeString, basicThree, maxLength]
  | rdval g =>
    have := g.length_added (by decide)
    simp only [encode, basicThree, List.length_append, List.length_cons, List.length_nil, maxLength]
    omega
  | ret d | rett d =>
    have := d.length_encode
    simp only [encode, List.length_cons, maxLength]
    omega

end Sys2Proof

namespace Sys2Proof.Machine

/-! ## Fetching (rules R74, R236) -/

/-- Bytes that can be fetched one by one are the first bytes fetched. -/
theorem fetchFrom_begins {s : State} (bs : List Byte) (fuel k : Nat) (hl : bs.length ≤ fuel)
    (h : ∀ (j : Nat) (b : Byte), bs[j]? = some b → fetchByte s (k + j) = .ok b) :
    ∃ rest, (fetchFrom s fuel k).1 = bs ++ rest := by
  induction bs generalizing fuel k with
  | nil => exact ⟨_, rfl⟩
  | cons b bs ih =>
    obtain ⟨fuel, rfl⟩ : ∃ m, fuel = m + 1 := Nat.exists_eq_succ_of_ne_zero (by simp at hl; omega)
    obtain ⟨rest, hrest⟩ := ih fuel (k + 1) (by simpa using hl) fun j c hj => by
      rw [Nat.add_assoc, Nat.add_comm 1 j]
      exact h (j + 1) c (by simpa using hj)
    refine ⟨rest, ?_⟩
    have hb := h 0 b rfl
    rw [Nat.add_zero] at hb
    rw [fetchFrom, hb]
    exact congrArg (b :: ·) hrest

theorem decode_fetch_of_stored {s : State} {i : Instr} (hw : i.wellFormed = true)
    (h : ∀ (k : Nat) (b : Byte), (encode i)[k]? = some b → fetchByte s k = .ok b) :
    ∃ rest, decode (fetch s).1 = .ok (i, rest) := by
  obtain ⟨rest, hrest⟩ := fetchFrom_begins (encode i) maxLength 0 (length_encode_le i)
    (by simpa only [Nat.zero_add] using h)
  exact ⟨rest, by rw [fetch, hrest, decode_encode_append i rest hw]⟩

theorem busAddress_lt (a : Word) : busAddress a < Config.addrSpace :=
  Nat.mod_lt _ (by decide)

@[simp] theorem byteAt_zero (a : Word) : byteAt a 0 = a := by
  simp [byteAt]

/-- Byte 0 of the instruction lies below the top of the address space, so that its fetch can only abort or
find no value. -/
theorem fetchByte_zero_abort {s : State} (h : s.physical s.space .fetch s.pc = none) :
    fetchByte s 0 = .error (.trap .abt) := by
  simp only [fetchByte, Nat.add_zero, if_pos (busAddress_lt s.pc), byteAt_zero, h]

theorem fetchByte_zero_unwritten {s : State} {x : Nat} (h : s.physical s.space .fetch s.pc = some x)
    (hm : s.mem.read x = none) : fetchByte s 0 = .error (.refuse (.unwritten s.pc)) := by
  simp only [fetchByte, Nat.add_zero, if_pos (busAddress_lt s.pc), byteAt_zero, h, hm]

theorem fetch_of_first_error {s : State} {e : Stop} (h : fetchByte s 0 = .error e) : fetch s = ([], e) := by
  rw [fetch, maxLength, fetchFrom, h]

/-! ## The instruction at PC -/

theorem runNext_of_decode {s : State} {i : Instr} {rest : List Byte}
    (h : decode (fetch s).1 = .ok (i, rest)) (l : List (Option Interrupt)) :
    runNext { s with irq := l } = settle { s with irq := l } (exec i { s with irq := l }) := by
  rw [runNext, fetch_irq, h]

/-- A first byte that cannot be fetched stops the step with its own reason. -/
theorem runNext_of_first_error {s : State} {e : Stop} (h : fetchByte s 0 = .error e)
    (l : List (Option Interrupt)) : runNext { s with irq := l } = stopOutcome { s with irq := l } e := by
  rw [runNext, fetch_irq, fetch_of_first_error h]
  rfl

/-- Settles O53, by the round trip of the decoder over the bytes fetched. -/
theorem stepRunsStored : Obligations.StepRunsStored := by
  unfold Obligations.StepRunsStored
  intro s hf hn
  refine ⟨fun i hw h => ?_, fun ha => ?_, fun x hx hm => ?_⟩
  · obtain ⟨rest, hd⟩ := decode_fetch_of_stored hw h
    rw [step_untaken hf hn, runNext_of_decode hd]
  · rw [step_untaken hf hn, runNext_of_first_error (fetchByte_zero_abort ha)]
    rfl
  · rw [step_untaken hf hn, runNext_of_first_error (fetchByte_zero_unwritten hx hm)]
    rfl

end Sys2Proof.Machine
end

section
/-! Proofs about the registers, the PSR and reset: PartialRegisters, RegisterLayouts, ResetState,
ResetInvariant, and NOP, which changes PC alone (NopCompletes). -/

namespace Sys2Proof.Machine

/-! ## General registers (rule R21) -/

theorem getLsbD_mergeLow {w : Nat} (old : Word) (v : BitVec w) (i : Nat) (hi : i < 32) :
    (mergeLow old v).getLsbD i = if i < w then v.getLsbD i else old.getLsbD i := by
  by_cases hw : i < w
  · simp [mergeLow, hi, hw]
  · simp [mergeLow, hi, hw, BitVec.getLsbD_of_ge v i (by omega)]

/-- The low bits are replaced. -/
theorem mergeLow_low {w : Nat} (old : Word) (v : BitVec w) (hw : w ≤ 32) :
    (mergeLow old v).extractLsb' 0 w = v := by
  refine BitVec.eq_of_getLsbD_eq fun i hi => ?_
  rw [BitVec.getLsbD_extractLsb', Nat.zero_add, getLsbD_mergeLow old v i (by omega)]
  simp [hi]

/-- The high bits are kept. -/
theorem mergeLow_high {w : Nat} (old : Word) (v : BitVec w) (k : Nat) (hk : w + k ≤ 32) :
    (mergeLow old v).extractLsb' w k = old.extractLsb' w k := by
  refine BitVec.eq_of_getLsbD_eq fun i hi => ?_
  rw [BitVec.getLsbD_extractLsb', BitVec.getLsbD_extractLsb', getLsbD_mergeLow old v (w + i) (by omega)]
  simp

theorem State.reg_setRegValue_int (s : State) {n : Nat} (r q : Fin 8) (v : BitVec (8 * n)) :
    (s.setRegValue .int r v).reg q = if r = q then mergeLow (s.reg r) v else s.reg q :=
  s.reg_setReg r q _

/-- What rule R21 says of an operand whose length leaves `k` bits of the register. -/
theorem setRegValue_int_low (s : State) (r : Fin 8) {n : Nat} (k : Nat) (hk : 8 * n + k ≤ 32)
    (v : BitVec (8 * n)) :
    s.regValue .int n r = (s.reg r).extractLsb' 0 (8 * n) ∧
    ((s.setRegValue .int r v).reg r).extractLsb' 0 (8 * n) = v ∧
    ((s.setRegValue .int r v).reg r).extractLsb' (8 * n) k = (s.reg r).extractLsb' (8 * n) k ∧
    ∀ q, q ≠ r → (s.setRegValue .int r v).reg q = s.reg q := by
  rw [State.reg_setRegValue_int, if_pos rfl]
  refine ⟨BitVec.setWidth_eq_extractLsb' (by omega), mergeLow_low _ v (by omega), mergeLow_high _ v k hk,
    fun q hq => ?_⟩
  rw [State.reg_setRegValue_int, if_neg (Ne.symm hq)]

/-- Settles O8, one length at a time. -/
theorem partialRegisters : Obligations.PartialRegisters := by
  unfold Obligations.PartialRegisters
  exact fun s r => ⟨setRegValue_int_low s r 24 (by decide), setRegValue_int_low s r 16 (by decide)⟩

/-! ## Floating registers (rules R22, R23) -/

/-- The low half of a pair. -/
theorem setWidth_pair (x y : Word) : (x ++ y).setWidth 32 = y := by
  refine BitVec.eq_of_toNat_eq ?_
  have := y.isLt
  rw [BitVec.toNat_setWidth, toNat_cat]
  omega

theorem setRegValue_float_single (s : State) (r : Fin 8) (v : BitVec (8 * 4)) :
    s.regValue .float 4 r = s.freg r ∧ (s.setRegValue .float r v).freg r = v ∧
    ∀ q, q ≠ r → (s.setRegValue .float r v).freg q = s.freg q := by
  have hset : s.setRegValue .float r v = s.setFreg r v := by
    simp [State.setRegValue]
  refine ⟨?_, ?_, fun q hq => ?_⟩
  · exact setWidth_pair _ _
  · rw [hset, State.freg_setFreg, if_pos rfl]
  · rw [hset, State.freg_setFreg, if_neg (Ne.symm hq)]

/-- The two registers of a pair differ. -/
theorem pair_ne (r : Fin 8) : r + 1 ≠ r := by
  decide +revert

theorem setRegValue_float_double (s : State) (r : Fin 8) (v : BitVec (8 * 8)) :
    s.regValue .float 8 r = s.freg (r + 1) ++ s.freg r ∧
    (s.setRegValue .float r v).freg r = v.extractLsb' 0 32 ∧
    (s.setRegValue .float r v).freg (r + 1) = v.extractLsb' 32 32 ∧
    ∀ q, q ≠ r → q ≠ r + 1 → (s.setRegValue .float r v).freg q = s.freg q := by
  have hset : s.setRegValue .float r v =
      (s.setFreg r (v.extractLsb' 0 32)).setFreg (r + 1) (v.extractLsb' 32 32) := rfl
  refine ⟨BitVec.setWidth_eq _, ?_, ?_, fun q hq hq1 => ?_⟩
  · rw [hset, State.freg_setFreg, if_neg (pair_ne r), State.freg_setFreg, if_pos rfl]
  · rw [hset, State.freg_setFreg, if_pos rfl]
  · rw [hset, State.freg_setFreg, if_neg (Ne.symm hq1), State.freg_setFreg, if_neg (Ne.symm hq)]

/-! ## The PSR as a value (rule R29) -/

/-- The ten bits determine the 16-bit value. -/
theorem Psr.ofBits_toBits (p : Psr) : Psr.ofBits p.toBits = p := by
  simp only [Psr.ofBits, Psr.toBits, BitVec.getLsbD_append]
  simp [-BitVec.getLsbD_eq_getElem, BitVec.getLsbD_ofBool]

/-- The value, bit by bit: the six bits that are not state read 0. -/
theorem Psr.toBits_ofBits (v : Half) : (Psr.ofBits v).toBits = v &&& 0x0FE7#16 := by
  refine BitVec.eq_of_getLsbD_eq fun i hi => ?_
  simp only [Psr.ofBits, Psr.toBits, BitVec.getLsbD_append, BitVec.getLsbD_and]
  interval_cases i <;> simp

/-- Settles O9, the floating registers and the PSR each by their own lemmas. -/
theorem registerLayouts : Obligations.RegisterLayouts := by
  unfold Obligations.RegisterLayouts
  refine ⟨fun s r => ⟨setRegValue_float_single s r, fun v _ => setRegValue_float_double s r v⟩, fun v => ?_,
    Psr.ofBits_toBits, Psr.toBits_ofBits, by decide⟩
  exact ⟨rfl, rfl, rfl, rfl, rfl, rfl, rfl, rfl, rfl, rfl⟩

/-! ## Reset (rules R39, R271) -/

theorem reset_translating : State.reset.translating = false := by
  simp [State.translating, State.reset]

/-- Settles O7: translation is off and memory is empty. -/
theorem resetState : Obligations.ResetState := by
  unfold Obligations.ResetState
  refine ⟨rfl, by decide, reset_translating, fun a => ?_, fun sp k a => ?_, rfl, rfl, fun x => rfl⟩
  · simp [State.l1Valid, State.userReadAllowed, reset_translating]
  · exact State.physical_off reset_translating sp k a

/-- Settles O54: the empty memory is in canonical form. -/
theorem resetInvariant : Obligations.ResetInvariant := by
  unfold Obligations.ResetInvariant
  exact { wf := ⟨.nil, by simp [State.reset]⟩, noTrace := rfl, noPending := rfl }

/-! ## NOP (rule R202) -/

theorem exec_nop_fits {s : State} (h : s.fits 1 = true) : exec .nop s = .next { s with pc := s.pc + 1#32 } :=
  exec_ok rfl (advance_ok (i := .nop) h)

theorem exec_nop_wraps {s : State} (h : s.fits 1 = false) : exec .nop s = .refused (.addressWrap s.pc) := by
  have hend : bodyOf .nop s = .error (.refuse (.addressWrap s.pc)) := if_neg (Bool.eq_false_iff.1 h)
  exact exec_stop rfl hend

/-- Settles O24, by whether PC + 1 stays below the top of the address space. -/
theorem nopCompletes : Obligations.NopCompletes := by
  unfold Obligations.NopCompletes
  refine ⟨rfl, fun s => ⟨fun h => exec_nop_fits ?_, fun h => exec_nop_wraps ?_⟩⟩
  · exact decide_eq_true h
  · exact decide_eq_false (by omega)

end Sys2Proof.Machine
end

section
/-! Proofs of the memory side of every step: the canonical form and the trace bits (InvariantKept), program text
(TextNeverChanges) and what User mode may touch (UserConfinement). Each goes through `step_cases`: what one
primitive change keeps, then the returns, the entry and what settling leaves. -/

namespace Sys2Proof.Machine

/-! ## The invariant (rules R60, R252) -/

/-- The invariant speaks of memory, T and P alone. -/
theorem Inv.congr {s t : State} (h : Inv s) (hm : t.mem = s.mem) (ht : t.psr.t = s.psr.t)
    (hp : t.psr.p = s.psr.p) : Inv t :=
  ⟨hm ▸ h.wf, ht.trans h.noTrace, hp.trans h.noPending⟩

theorem Inv.store {s : State} (h : Inv s) (sp : Space) (a : Word) {n : Nat} (v : BitVec (8 * n)) :
    Inv (s.store sp a v) :=
  ⟨State.storeBytes_wf h.wf sp a v, h.noTrace, h.noPending⟩

theorem Change.inv {fl : Bool} {s t : State} (h : Change fl s t) (hs : Inv s) : Inv t := by
  cases h with
  | flags p mode =>
    obtain ⟨ht, hp, -⟩ := mode
    exact hs.congr rfl ht hp
  | store a v _ => exact hs.store s.space a v
  | sp v => exact hs.congr (s.setSp_mem v) (by rw [State.setSp_psr]) (by rw [State.setSp_psr])
  | reg | irq | freg | fsr | free | stack => exact hs.congr rfl rfl rfl

theorem Chain.inv {fl : Bool} {s t : State} (h : Chain fl s t) (hs : Inv s) : Inv t :=
  h.keeps hs fun _ _ ha hc => hc.inv ha

theorem Settles.inv {s t u : State} (h : Settles s t u) (ht : Inv t) : Inv u := by
  have hpsr : u.psr = t.psr := by rw [h.other]
  exact ⟨h.wf ht.wf, hpsr ▸ ht.noTrace, hpsr ▸ ht.noPending⟩

/-- A return loads a PSR with T = 0 and P = 0, or is refused (rule R252). -/
theorem FrameReady.inv_unframed {s : State} (hr : FrameReady s) (h : Inv s) : Inv s.unframed :=
  ⟨(s.setSp_mem _).symm ▸ h.wf, hr.noTrace, hr.noPending⟩

/-- An entry stores its frame and clears T and P (rule R245). -/
theorem Inv.entered {s : State} (h : Inv s) (v ra : Word) (interrupt : Bool) :
    Inv (s.entered v ra interrupt) :=
  ⟨(((h.store _ _ _).store _ _ _).store _ _ _ : Inv (s.framed ra)).wf, rfl, rfl⟩

/-- Settles O55, by the cases of a step. -/
theorem invariantKept : Obligations.InvariantKept := by
  unfold Obligations.InvariantKept
  intro s t hs h
  obtain ⟨fl, -, ⟨w, hset, hw⟩ | ⟨v, interrupt, u, ⟨hc, -⟩, -, -, rfl⟩⟩ := step_cases h
  · refine hset.inv ?_
    rcases hw with ⟨u, v, hc, rfl⟩ | ⟨rest, s', -, rfl, -, hr, rfl⟩ | ⟨d, rest, s', -, rfl, -, hr, rfl⟩
    · exact (hc.inv hs).congr rfl rfl rfl
    · exact (hr.inv_unframed (hs.congr rfl rfl rfl)).congr rfl rfl rfl
    · refine (hr.inv_unframed (hs.congr rfl rfl rfl)).congr (State.setSp_mem _ _) ?_ ?_ <;>
        rw [State.setSp_psr]
  · exact (hc.inv hs).entered v u.pc interrupt

/-! ## Program text (rule R77) -/

/-- The text marks are as before, and so is every byte they mark. -/
structure TextKept (s t : State) : Prop where
  marks : t.text = s.text
  bytes : ∀ x, inRanges s.text x = true → t.mem.read x = s.mem.read x

theorem TextKept.trans {s t u : State} (hst : TextKept s t) (htu : TextKept t u) : TextKept s u where
  marks := htu.marks.trans hst.marks
  bytes x hx := (htu.bytes x (hst.marks ▸ hx)).trans (hst.bytes x hx)

theorem TextKept.of_mem {s t : State} (ht : t.text = s.text) (hm : t.mem = s.mem) : TextKept s t :=
  ⟨ht, fun x _ => by rw [hm]⟩

/-- No byte of a write that completes is marked. -/
theorem Writable.not_marked {s : State} {sp : Space} {a : Word} {n j x : Nat} (h : Writable s sp a n)
    (hj : j < n) (hx : s.physical sp .write (byteAt a j) = some x) : inRanges s.text x = false := by
  have hclear := List.all_eq_true.1 h.2 j (List.mem_range.2 hj)
  rw [hx] at hclear
  simpa using hclear

theorem TextKept.store {s : State} {sp : Space} {a : Word} {n : Nat} (v : BitVec (8 * n))
    (h : Writable s sp a n) : TextKept s (s.store sp a v) where
  marks := rfl
  bytes x hx := State.read_storeBytes_other fun j hj hp => by
    rw [h.not_marked hj hp] at hx
    cases hx

theorem Change.textKept {fl : Bool} {s t : State} (h : Change fl s t) : TextKept s t := by
  cases h with
  | store a v hw => exact .store v hw
  | sp v => exact .of_mem (s.setSp_text v) (s.setSp_mem v)
  | reg | flags | irq | freg | fsr | free | stack => exact .of_mem rfl rfl

theorem Chain.textKept {fl : Bool} {s t : State} (h : Chain fl s t) : TextKept s t :=
  h.keeps (.of_mem rfl rfl) fun _ _ ih hc => ih.trans hc.textKept

theorem Settles.textKept {s t u : State} (h : Settles s t u) : TextKept t u where
  marks := by rw [h.other]
  bytes x hx := by
    by_contra hne
    obtain ⟨hfree, -⟩ := h.memory x hne
    rw [hfree] at hx
    cases hx

/-- The three stores of a frame are writes that complete. -/
theorem EntryReady.textKept {v : Word} {s : State} (h : EntryReady v s) (ra : Word) (interrupt : Bool) :
    TextKept s (s.entered v ra interrupt) := by
  have hframed : TextKept s (s.framed ra) :=
    ((TextKept.store _ h.psr).trans (.store _ ((Writable.congr rfl rfl rfl).2 h.mod))).trans
      (.store _ ((Writable.congr rfl rfl rfl).2 h.address))
  exact hframed.trans (.of_mem rfl rfl)

theorem step_textKept {s t : State} (h : step s = .next t) : TextKept s t := by
  obtain ⟨fl, -, ⟨w, hset, hw⟩ | ⟨v, interrupt, u, ⟨hc, -⟩, -, hr, rfl⟩⟩ := step_cases h
  · refine TextKept.trans ?_ hset.textKept
    rcases hw with ⟨u, v, hc, rfl⟩ | ⟨rest, s', -, rfl, -, -, rfl⟩ | ⟨d, rest, s', -, rfl, -, -, rfl⟩
    · exact hc.textKept.trans (.of_mem rfl rfl)
    · exact .of_mem (State.setSp_text _ _) (State.setSp_mem _ _)
    · exact .of_mem ((State.setSp_text _ _).trans (State.setSp_text _ _))
        ((State.setSp_mem _ _).trans (State.setSp_mem _ _))
  · exact hc.textKept.trans (hr.textKept u.pc interrupt)

/-- Settles O57, by the cases of a step: every store is a write that completes, which no marked byte is in. -/
theorem textNeverChanges : Obligations.TextNeverChanges := by
  unfold Obligations.TextNeverChanges
  exact fun _ _ x h hx => (step_textKept h).bytes x hx

/-! ## User mode (rules R247, R248) -/

theorem ModuleKept.trans {s t u : State} (hst : ModuleKept s t) (htu : ModuleKept t u) : ModuleKept s u :=
  ⟨htu.sb.trans hst.sb, htu.mod.trans hst.mod, htu.eois.trans hst.eois⟩

theorem Change.moduleKept {fl : Bool} {s t : State} (h : Change fl s t) : ModuleKept s t := by
  cases h with
  | sp v => exact ⟨s.setSp_sb v, s.setSp_mod v, s.setSp_eois v⟩
  | reg | flags | store | irq | freg | fsr | free | stack => exact ⟨rfl, rfl, rfl⟩

theorem Change.pc {fl : Bool} {s t : State} (h : Change fl s t) : t.pc = s.pc := by
  cases h with
  | sp v => exact s.setSp_pc v
  | reg | flags | store | irq | freg | fsr | free | stack => rfl

theorem Chain.pc {fl : Bool} {s t : State} (h : Chain fl s t) : t.pc = s.pc :=
  h.keeps (P := fun t => t.pc = s.pc) rfl fun _ _ ih hc => hc.pc.trans ih

/-- Two states whose memory and PSR agree, in User mode. -/
theorem Confined.of_mem {s t : State} (hu : s.psr.u = true) (hpsr : t.psr = s.psr) (hm : t.mem = s.mem)
    (hmod : ModuleKept s t) (hplat : PlatformKept s t) : Confined s t where
  user := hpsr ▸ hu
  stack := by rw [hpsr]
  enable := by rw [hpsr]
  trace := by rw [hpsr]
  pending := by rw [hpsr]
  module := hmod
  platform := hplat
  memory x hx := (hx (by rw [hm])).elim

theorem Confined.refl {s : State} (hu : s.psr.u = true) : Confined s s :=
  .of_mem hu rfl rfl ⟨rfl, rfl, rfl⟩ (.refl s)

/-- A byte that changed changed in one of two steps, each confined under the same translation. -/
theorem Confined.trans {s t u : State} (hst : Confined s t) (htu : Confined t u) : Confined s u where
  user := htu.user
  stack := htu.stack.trans hst.stack
  enable := htu.enable.trans hst.enable
  trace := htu.trace.trans hst.trace
  pending := htu.pending.trans hst.pending
  module := hst.module.trans htu.module
  platform := hst.platform.trans htu.platform
  memory x hx := by
    by_cases htx : u.mem.read x = t.mem.read x
    · exact hst.memory x (htx ▸ hx)
    · obtain ⟨a, ha⟩ := htu.memory x htx
      exact ⟨a, by rwa [State.physical_congr hst.platform.cfg hst.platform.mmu] at ha⟩

/-- The accesses of User mode are in User space (rule R69). -/
theorem State.space_user {s : State} (hu : s.psr.u = true) : s.space = .user := by
  simp [State.space, hu]

theorem Confined.store {s : State} (hu : s.psr.u = true) (a : Word) {n : Nat} (v : BitVec (8 * n)) :
    Confined s (s.store s.space a v) where
  user := hu
  stack := rfl
  enable := rfl
  trace := rfl
  pending := rfl
  module := ⟨rfl, rfl, rfl⟩
  platform := ⟨rfl, rfl, rfl, rfl, rfl, rfl, rfl⟩
  memory x hx := by
    by_contra hno
    refine hx (State.read_storeBytes_other fun j _ hp => hno ⟨byteAt a j, ?_⟩)
    rwa [State.space_user hu] at hp

theorem Change.confined {fl : Bool} {s t : State} (h : Change fl s t) (hu : s.psr.u = true) :
    Confined s t := by
  have hmod := h.moduleKept
  have hplat := h.platformKept
  cases h with
  | flags p mode =>
    obtain ⟨ht, hp, huser, hs, hi⟩ := mode
    exact ⟨huser.trans hu, hs, hi, ht, hp, hmod, hplat, fun x hx => (hx rfl).elim⟩
  | store a v _ => exact .store hu a v
  | sp v => exact .of_mem hu (s.setSp_psr v) (s.setSp_mem v) hmod hplat
  | reg | irq | freg | fsr | free | stack => exact .of_mem hu rfl rfl hmod hplat

theorem Chain.confined {fl : Bool} {s t : State} (h : Chain fl s t) (hu : s.psr.u = true) : Confined s t :=
  h.keeps (.refl hu) fun _ _ ih hc => ih.trans (hc.confined ih.user)

/-- In User mode, at the start and at the end, the stack pointers move in User space alone. -/
theorem stackSpaces_user {s t : State} {one : Bool} {sp : Space} (hs : s.psr.u = true) (ht : t.psr.u = true)
    (h : sp ∈ stackSpaces s t one) : sp = .user := by
  rw [stackSpaces, State.space_user hs, State.space_user ht, List.mem_append] at h
  rcases h with h | h <;> split at h <;> simp_all

theorem Settles.confined {s t u : State} (h : Settles s t u) (hs : s.psr.u = true) (ht : t.psr.u = true) :
    Confined t u := by
  have hother := h.other
  have hmemory : ∀ x, u.mem.read x ≠ t.mem.read x → ∃ a, t.physical .user .write a = some x := by
    intro x hx
    obtain ⟨-, -, -, one, j, -, sp, hsp, hp⟩ := h.memory x hx
    exact ⟨_, stackSpaces_user hs ht hsp ▸ hp⟩
  rw [hother] at hmemory ⊢
  exact ⟨ht, rfl, rfl, rfl, rfl, ⟨rfl, rfl, rfl⟩, ⟨rfl, rfl, rfl, rfl, rfl, rfl, rfl⟩, hmemory⟩

/-- Settles O58, by the cases of a step: a return is none of User mode's, since RETI and RETT are privileged. -/
theorem userConfinement : Obligations.UserConfinement := by
  unfold Obligations.UserConfinement
  intro s t hu h
  obtain ⟨fl, -, ⟨w, hset, hw⟩ | ⟨v, interrupt, u, ⟨hc, hsp0, hsp1⟩, hseq, hr, rfl⟩⟩ := step_cases h
  · left
    rcases hw with ⟨u, v, hc, rfl⟩ | ⟨rest, s', -, -, hsuper, -⟩ | ⟨d, rest, s', -, -, hsuper, -⟩
    · have hend : Confined s { u with pc := v } :=
        (hc.confined hu).trans (.of_mem (hc.confined hu).user rfl rfl ⟨rfl, rfl, rfl⟩
          ⟨rfl, rfl, rfl, rfl, rfl, rfl, rfl⟩)
      exact hend.trans (hset.confined hu hend.user)
    · cases hu.symm.trans hsuper
    · cases hu.symm.trans hsuper
  · exact .inr ⟨u, v, interrupt, rfl, hc.confined hu, hc.pc, hsp0, hsp1, hseq, hr, rfl, rfl⟩

end Sys2Proof.Machine
end

section
/-! Proofs about one access and one instruction that reads or writes memory: reading back a datum
(ReadAfterWrite), translation off (TranslationRules), MOVUSi (UserMoveCompletes), RESTORE and RET
(RestoreCompletes, RetCompletes), and the step around an instruction (StepRunsDecoded). -/

namespace Sys2Proof.Machine

/-! ## One datum (rules R61, R63, R74) -/

/-- A read of one byte answers that byte. -/
theorem memRead_byte {s : State} {sp : Space} {a : Word} {b : Byte} (hm : s.mapped sp .read a 1 = true)
    (h : s.byteRead sp a = some b) : memRead sp a 1 s = .ok b := by
  refine memRead_ok_iff.2 ⟨⟨hm, ?_⟩, ?_⟩
  · simp [State.written, h]
  · simp [State.memValue, natOfBytesLE, h]

/-- Settles O10: the whole datum, then its byte k as a datum of one byte. -/
theorem readAfterWrite : Obligations.ReadAfterWrite := by
  unfold Obligations.ReadAfterWrite
  intro s sp a n v h hn
  refine ⟨?_, fun k hk => ?_⟩
  · rw [memRead_ok (readable_store v h hn), memValue_store v h hn]
  · exact memRead_byte (mapped_off h sp .read _ 1) (byteRead_store v h hn hk)

/-! ## Translation (rules R71, R193) -/

theorem translating_eq_false_iff {s : State} : s.translating = false ↔ s.cfg.m = false ∨ s.mmu.on = false :=
  Bool.and_eq_false_iff

/-- With translation off the oracle is the identity and forbids nothing. -/
theorem oracle_off {s : State} (h : s.translating = false) (a : Nat) :
    s.l1Valid a = true ∧ s.userReadAllowed a = true ∧ ∀ sp k, s.translate sp k a = some a := by
  simp [State.l1Valid, State.userReadAllowed, State.translate, h]

/-- A User read is forbidden only while translation is on. -/
theorem translating_of_forbidden {s : State} {a : Nat} (h : s.userReadAllowed a = false) :
    s.translating = true := by
  by_contra hoff
  obtain ⟨-, hallowed, -⟩ := oracle_off (eq_false_of_ne_true hoff) a
  cases h.symm.trans hallowed

/-- An address that may not be read in User mode has no User translation of any kind. -/
theorem translate_user_forbidden {s : State} {a : Nat} (h : s.userReadAllowed a = false) (k : AccessKind) :
    s.translate .user k a = none := by
  rw [State.translate, if_pos (translating_of_forbidden h), if_pos ⟨rfl, h⟩]

/-- Settles O12, by whether translation is on. -/
theorem translationRules : Obligations.TranslationRules := by
  unfold Obligations.TranslationRules
  exact fun s => ⟨fun h => oracle_off (translating_eq_false_iff.2 h),
    fun a h => translate_user_forbidden h .write⟩

/-! ## MOVUSi (rules R190, R191) -/

theorem exec_trap {i : Instr} {s : State} {k : Trap} (hw : i.wellFormed = true)
    (h : bodyOf i s = .error (.trap k)) : exec i s = takeTrap k s :=
  exec_stop hw h

/-- In Supervisor mode, the two addresses computed, what is left is the two accesses. -/
theorem moveUserBody_eq {n : Nat} {i : Instr} {src dst : Gen n} {s : State} {ls ld : Loc n} {sa da : Word}
    (hu : s.psr.u = false) (hls : locate src s = .ok ls) (hld : locate dst s = .ok ld)
    (hsa : ls.address s = some sa) (hda : ld.address s = some da) :
    moveUserBody i src dst s = (do
      let v ← memRead .user sa n s
      let t ← memWrite .supervisor da v s
      advance i t) := by
  simp only [moveUserBody, hu, addrOf_ok_iff.2 ⟨ls, hls, hsa⟩, addrOf_ok_iff.2 ⟨ld, hld, hda⟩, ok_bind]
  rfl

/-- One MOVUSi, of whatever length. -/
theorem userMoveRuns {n : Nat} {i : Instr} {src dst : Gen n} (hbody : bodyOf i = moveUserBody i src dst) :
    UserMoveRuns i src dst := by
  intro s ls ld sa da hwf hu hls hld hsa hda
  have hs : bodyOf i s = _ := (congrFun hbody s).trans (moveUserBody_eq hu hls hld hsa hda)
  refine ⟨fun hfits hr hw => ⟨exec_ok hwf ?_, memoryKept_store s .supervisor da _⟩,
    fun ha => exec_trap hwf ?_, fun hr ha => exec_trap hwf ?_⟩
  · rw [hs, memRead_ok hr, ok_bind, memWrite_ok hw, ok_bind]
    exact advance_eq hfits rfl
  · rw [hs, memRead_abort ha]
    rfl
  · rw [hs, memRead_ok hr, ok_bind, memWrite_abort ha]
    rfl

/-- Settles O39, one length at a time. -/
theorem userMoveCompletes : Obligations.UserMoveCompletes := by
  unfold Obligations.UserMoveCompletes
  exact ⟨fun _ _ => userMoveRuns rfl, fun _ _ => userMoveRuns rfl, fun _ _ => userMoveRuns rfl⟩

/-! ## RET (rules R68, R212) -/

@[simp] theorem State.setSp_setSp (s : State) (a b : Word) : (s.setSp a).setSp b = s.setSp b := by
  cases h : s.psr.s <;> simp [State.setSp, h]

@[simp] theorem State.setSp_sp (s : State) : s.setSp s.sp = s := by
  cases h : s.psr.s <;> simp [State.setSp, State.sp, h]

/-- Settles O43: one pop, and SP put past the constant as well. -/
theorem retCompletes : Obligations.RetCompletes := by
  unfold Obligations.RetCompletes
  intro d s hr
  refine exec_ok rfl ?_
  simp only [bodyOf, pop_ok hr, ok_bind, State.sp_setSp, State.setSp_setSp, pure_eq_ok]

/-! ## RESTORE (rules R111, R210) -/

/-- Where the double-word for Rr lies when the registers `rs` are popped from `s`: above those of the
higher-numbered ones. -/
def State.slotIn (s : State) (rs : List (Fin 8)) (r : Fin 8) : Word :=
  s.sp + BitVec.ofNat 32 (4 * rs.countP (r < ·))

theorem add_four_mul (a : Word) (k : Nat) :
    a + 4#32 + BitVec.ofNat 32 (4 * k) = a + BitVec.ofNat 32 (4 * (k + 1)) := by
  rw [BitVec.add_assoc, ← BitVec.ofNat_add, Nat.mul_succ, Nat.add_comm]

/-- The first register popped has the double-word at SP. -/
theorem State.slotIn_head {s : State} {q : Fin 8} {rs : List (Fin 8)} (h : ∀ r ∈ rs, q > r) :
    s.slotIn (q :: rs) q = s.sp := by
  have hcount : (q :: rs).countP (q < ·) = 0 := List.countP_eq_zero.2 fun r hr => by
    rcases List.mem_cons.1 hr with rfl | hr
    · simp
    · simpa using (h r hr).le
  simp [State.slotIn, hcount]

/-- The others have theirs from the stack pointer past it. -/
theorem State.slotIn_tail {s t : State} {q r : Fin 8} {rs : List (Fin 8)} (hqr : q > r)
    (ht : t.sp = s.sp + 4#32) : t.slotIn rs r = s.slotIn (q :: rs) r := by
  rw [State.slotIn, State.slotIn, List.countP_cons_of_pos (by simpa using hqr), ht, add_four_mul]

/-- Registers popped in falling order: each takes the double-word of its slot, SP is higher by 4 for each, and
nothing else changes. -/
theorem popRegs_falling (rs : List (Fin 8)) (hfall : rs.Pairwise (· > ·)) (s : State)
    (hr : ∀ r ∈ rs, Readable s s.space (s.slotIn rs r) 4) :
    ∃ t, popRegs rs s = .ok t ∧
      (∀ r, t.reg r = if r ∈ rs then s.memValue s.space (s.slotIn rs r) 4 else s.reg r) ∧
      t = { s.setSp (s.sp + BitVec.ofNat 32 (4 * rs.length)) with regs := t.regs } := by
  induction rs generalizing s with
  | nil => exact ⟨s, rfl, fun r => by simp, by simp⟩
  | cons q rs ih =>
    obtain ⟨hq, hrs⟩ := List.pairwise_cons.1 hfall
    have hhead := hr q (.head _)
    rw [State.slotIn_head hq] at hhead
    obtain ⟨s1, hs1⟩ : ∃ s1, s1 = (s.setSp (s.sp + 4#32)).setReg q (s.memValue s.space s.sp 4) := ⟨_, rfl⟩
    have hcfg : s1.cfg = s.cfg := by simp [hs1]
    have hmmu : s1.mmu = s.mmu := by simp [hs1]
    have hmem : s1.mem = s.mem := by simp [hs1]
    have hsp : s1.sp = s.sp + 4#32 := by simp [hs1]
    have hspace : s1.space = s.space := by simp [hs1]
    have hslot : ∀ r ∈ rs, s1.slotIn rs r = s.slotIn (q :: rs) r := fun r h => State.slotIn_tail (hq r h) hsp
    obtain ⟨t, hpop, hreg, ht⟩ := ih hrs s1 fun r h => by
      rw [hspace, hslot r h]
      exact (Readable.congr hcfg hmmu hmem).2 (hr r (.tail _ h))
    refine ⟨t, by rw [popRegs_cons hhead, ← hs1, hpop], fun r => ?_, ?_⟩
    · rw [hreg]
      by_cases h : r ∈ rs
      · rw [if_pos h, if_pos (.tail _ h), hspace, hslot r h, State.memValue_congr hcfg hmmu hmem]
      · rw [if_neg h, hs1, State.reg_setReg, State.reg_setSp]
        by_cases hqr : q = r
        · subst hqr
          rw [if_pos rfl, if_pos (.head _), State.slotIn_head hq]
        · rw [if_neg hqr, if_neg (by simpa [h] using Ne.symm hqr)]
    · rw [ht, hsp, add_four_mul, hs1]
      cases hsel : s.psr.s <;> simp [State.setSp, State.setReg, hsel]

/-- The registers are popped from the highest number down. -/
theorem reglistRegs_eq (m : BitVec 8) : reglistRegs m = ((List.finRange 8).filter (listed m)).reverse := by
  have hrev : listed m ∘ Fin.rev = fun b => m.getLsbD b.val := funext fun b => by
    simp only [Function.comp_apply, listed, Fin.val_rev]
    congr 1
    omega
  rw [← List.filter_reverse, List.finRange_reverse, List.filter_map, hrev, ← List.filterMap_eq_filter,
    List.map_filterMap, reglistRegs]
  refine List.filterMap_congr fun b _ => ?_
  rw [Option.guard]
  split <;> rfl

theorem reglistRegs_falling (m : BitVec 8) : (reglistRegs m).Pairwise (· > ·) := by
  rw [reglistRegs_eq, List.pairwise_reverse]
  exact (List.pairwise_lt_finRange 8).filter _

theorem mem_reglistRegs {m : BitVec 8} {r : Fin 8} : r ∈ reglistRegs m ↔ listed m r = true := by
  simp [reglistRegs_eq]

theorem length_reglistRegs (m : BitVec 8) : (reglistRegs m).length = listedCount m := by
  rw [reglistRegs_eq, List.length_reverse, listedCount]

theorem slotIn_reglistRegs (s : State) (m : BitVec 8) (r : Fin 8) : s.slotIn (reglistRegs m) r = s.slot m r := by
  have hcount : (reglistRegs m).countP (r < ·) = poppedBefore m r := by
    rw [reglistRegs_eq, List.countP_reverse, List.countP_filter, List.countP_eq_length_filter, poppedBefore]
    simp only [Bool.and_comm]
  rw [State.slotIn, hcount, State.slot]

/-- Settles O42: the registers named are popped in falling order, and then PC moves past the two bytes. -/
theorem restoreCompletes : Obligations.RestoreCompletes := by
  unfold Obligations.RestoreCompletes
  intro m s hfits hr
  obtain ⟨t, hpop, hreg, ht⟩ := popRegs_falling (reglistRegs m) (reglistRegs_falling m) s fun r h => by
    rw [slotIn_reglistRegs]
    exact hr r (mem_reglistRegs.1 h)
  have hpc : t.pc = s.pc := by
    rw [ht]
    exact s.setSp_pc _
  refine ⟨{ t with pc := s.pc + 2#32 }, exec_ok rfl ?_, fun r => ?_, ?_⟩
  · simp only [bodyOf, hpop, ok_bind]
    exact advance_eq (i := .restore m) hfits hpc
  · have h := hreg r
    simp only [mem_reglistRegs, slotIn_reglistRegs] at h
    exact h
  · rw [length_reglistRegs] at ht
    rw [ht]

/-! ## The step (rules R74, R123, R240, R275) -/

/-- Settling does nothing to an outcome whose state it leaves as it is. -/
theorem settle_eq_self {s : State} {o : Host.Outcome State Fault Refusal}
    (h : ∀ t, o = .next t → s.settled t = t) : settle s o = o := by
  cases o with
  | next t => rw [settle_next, h t rfl]
  | fault f => rfl
  | refused r => rfl

/-- Settles O52: the boundary is behind the instruction, and settling is all that comes after it. -/
theorem stepRunsDecoded : Obligations.StepRunsDecoded := by
  unfold Obligations.StepRunsDecoded
  refine ⟨fun s i rest hf hn hd => ?_, fun s he => step_finished (by simp [State.finished, he])⟩
  intro u
  have hstep : step s = settle u (exec i u) := (step_untaken hf hn).trans (runNext_of_decode hd _)
  refine ⟨fun hq => ?_, hstep, fun hfault hq => ?_, fun t ht => ?_, fun t ht h0 h1 => ?_, fun f he => ?_,
    fun r he => ?_⟩
  · simp only [u, hq, List.tail_nil]
    rw [← hq]
  · rw [hstep]
    exact settle_eq_self fun t _ => settled_fault (by
      simp [State.entryPossible, hq, show u.trapEntry = .fault from hfault])
  · rw [hstep, ht, settle_next]
  · rw [hstep, ht, settle_next, (settled_settles u t).level h0 h1]
  · rw [hstep, he, settle_fault]
  · rw [hstep, he, settle_refused]

end Sys2Proof.Machine
end

section
/-! Proofs about the encoding: both directions of the round trip (DecodeEncode, EncodeDecode), the row each
instruction's words match (EncodingShape), the bytes of no row (UnknownEncodings), the forms of a displacement
(DisplacementForms) and the example words (ExampleWords). -/

namespace Sys2Proof

/-- Settles O1, by the round trip of each layout of the basic instruction. -/
theorem decodeEncode : Obligations.DecodeEncode := by
  unfold Obligations.DecodeEncode
  exact decode_encode_append

/-! ## The bytes of a decoded basic instruction (rules R91, R94) -/

/-- The three bytes read are the basic instruction of the fields found in them. -/
theorem basicThree_fields (b0 b1 b2 : Byte) :
    basicThree ((b2 ++ b1 ++ b0).extractLsb' 19 5).toNat ((b2 ++ b1 ++ b0).extractLsb' 14 5).toNat
      (BitVec.ofNat 14 ((b2 ++ b1 ++ b0).extractLsb' 0 14).toNat) = [b0, b1, b2] := by
  have hw : ∀ w : BitVec 24, w.extractLsb' 19 5 ++ w.extractLsb' 14 5 ++ w.extractLsb' 0 14 = w := by
    intro w
    refine BitVec.eq_of_toNat_eq ?_
    rw [toNat_cat, toNat_cat, toNat_field, toNat_field, toNat_field]
    have := w.isLt
    omega
  have hbytes : (b2 ++ b1 ++ b0).extractLsb' 0 8 = b0 ∧ (b2 ++ b1 ++ b0).extractLsb' 8 8 = b1 ∧
      (b2 ++ b1 ++ b0).extractLsb' 16 8 = b2 := by
    have h0 := b0.isLt
    have h1 := b1.isLt
    have h2 := b2.isLt
    refine ⟨?_, ?_, ?_⟩ <;> exact BitVec.eq_of_toNat_eq (by rw [toNat_field, toNat_cat, toNat_cat]; omega)
  obtain ⟨h0, h1, h2⟩ := hbytes
  simp only [basicThree, BitVec.ofNat_toNat, BitVec.setWidth_eq, hw, h0, h1, h2]

/-- The two bytes read are the basic instruction of the fields found in them. -/
theorem basicTwo_fields (b0 b1 : Byte) (h : b0.extractLsb' 2 5 = 0b10111#5) :
    basicTwo ((b1 ++ b0).extractLsb' 11 5).toNat ((b1 ++ b0).extractLsb' 7 4)
      (0b10111#5 ++ BitVec.ofNat 2 ((b1 ++ b0).extractLsb' 0 2).toNat) = [b0, b1] := by
  have h0 := b0.isLt
  have h1 := b1.isLt
  have hn := congrArg BitVec.toNat h
  rw [toNat_field, BitVec.toNat_ofNat] at hn
  have hw : (b1 ++ b0).extractLsb' 11 5 ++ (b1 ++ b0).extractLsb' 7 4 ++
      (0b10111#5 ++ (b1 ++ b0).extractLsb' 0 2) = b1 ++ b0 := by
    refine BitVec.eq_of_toNat_eq ?_
    rw [toNat_cat, toNat_cat, toNat_cat, toNat_field, toNat_field, toNat_field, toNat_cat, BitVec.toNat_ofNat]
    omega
  have hlow : (b1 ++ b0).extractLsb' 0 8 = b0 := BitVec.extractLsb'_append_eq_right
  have hhigh : (b1 ++ b0).extractLsb' 8 8 = b1 := BitVec.extractLsb'_append_eq_left
  simp only [basicTwo, BitVec.ofNat_toNat, BitVec.setWidth_eq, hw, hlow, hhigh]

/-! ## What each layout reads (rules R90, R112, R113) -/

theorem words_of_takeTwo {n m c1 c2 : Nat} {imm : Bool} {mk : Gen n → Gen m → Instr} {i : Instr}
    {bs rest : List Byte} {op : BitVec 14} (h : takeTwo imm c1 c2 mk bs = .ok (i, rest))
    (henc : ∀ g1 g2, encode (mk g1 g2) = encodeTwo op g1 g2) :
    basicThree c1 c2 op ++ bs = encode i ++ rest := by
  obtain ⟨g1, g2, rfl, rfl, rfl, rfl⟩ := takeTwo_ok h
  simp only [henc, encodeTwo, List.append_assoc]

theorem words_of_takeOne {n c : Nat} {imm : Bool} {mk : Gen n → Instr} {i : Instr} {bs rest : List Byte}
    {head : Nat → List Byte} (h : takeOne imm c mk bs = .ok (i, rest))
    (henc : ∀ g : Gen n, encode (mk g) = head g.code ++ g.indexByte ++ g.extension) :
    head c ++ bs = encode i ++ rest := by
  obtain ⟨g, rfl, rfl, rfl⟩ := takeOne_ok h
  simp only [henc, List.append_assoc]

theorem matchOfCode_ok {code : Nat} {m : MatchOption} (h : matchOfCode code = .ok m) : m.code = code := by
  unfold matchOfCode at h
  split at h <;> cases h <;> rfl

theorem takeString_ok {translate : Bool} {c1 c2 : Nat} {mk : StringOptions → Instr} {i : Instr}
    {bs rest : List Byte} (h : takeString translate c1 c2 mk bs = .ok (i, rest)) :
    ∃ o, i = mk o ∧ c1 = 0 ∧ c2 = stringCode translate o ∧ bs = rest := by
  unfold takeString at h
  by_cases hc : c1 = 0 ∧ c2 % 4 = if translate then 2 else 0
  · rw [if_pos hc] at h
    obtain ⟨m, hm, h⟩ := parse_bind_ok_iff.1 h
    cases h
    obtain ⟨h1, h2⟩ := hc
    have hm := matchOfCode_ok hm
    refine ⟨_, rfl, h1, ?_, rfl⟩
    have hb : (if (c2 / 4 % 2 == 1) = true then 4 else 0) = 4 * (c2 / 4 % 2) := by
      rcases Nat.mod_two_eq_zero_or_one (c2 / 4) with h | h <;> simp [h]
    simp only [stringCode, hm, hb, ← h2]
    omega
  · rw [if_neg hc] at h
    cases h

theorem words_of_takeString {translate : Bool} {c1 c2 : Nat} {mk : StringOptions → Instr} {i : Instr}
    {bs rest : List Byte} {op : BitVec 14} (h : takeString translate c1 c2 mk bs = .ok (i, rest))
    (henc : ∀ o, encode (mk o) = encodeString op translate o) :
    basicThree c1 c2 op ++ bs = encode i ++ rest := by
  obtain ⟨o, rfl, rfl, rfl, rfl⟩ := takeString_ok h
  rw [henc, encodeString_eq]

theorem words_of_takeStringB {c1 c2 : Nat} {i : Instr} {bs rest : List Byte}
    (h : takeStringB c1 c2 bs = .ok (i, rest)) : basicThree c1 c2 0x000E#14 ++ bs = encode i ++ rest := by
  unfold takeStringB at h
  split at h
  · exact words_of_takeString h fun _ => rfl
  · exact words_of_takeString h fun _ => rfl

/-! ## Every row (rules R123, R126) -/

/-- The three-byte rows: the string rows, RDVAL, and the rows of two general operands. -/
theorem words_of_decodeThree {c1 c2 op : Nat} {i : Instr} {bs rest : List Byte}
    (h : decodeThree c1 c2 op bs = .ok (i, rest)) :
    basicThree c1 c2 (BitVec.ofNat 14 op) ++ bs = encode i ++ rest := by
  unfold decodeThree at h
  split at h
  case h_12 => exact words_of_takeStringB h
  case h_13 | h_14 => exact words_of_takeString h fun _ => rfl
  case h_32 =>
    split at h
    · rename_i hc
      subst hc
      exact words_of_takeOne (head := fun c => basicThree c 0 0x031E#14) h fun _ => rfl
    · cases h
  case h_36 => cases h
  all_goals exact words_of_takeTwo h fun _ _ => rfl

theorem words_of_decodeTwo {c k : Nat} {quick : BitVec 4} {i : Instr} {bs rest : List Byte}
    (h : decodeTwo c quick k bs = .ok (i, rest)) :
    basicTwo c quick (0b10111#5 ++ BitVec.ofNat 2 k) ++ bs = encode i ++ rest := by
  unfold decodeTwo at h
  split at h
  case h_4 => cases h
  all_goals exact words_of_takeOne (head := fun c => basicTwo c quick _) h fun _ => rfl

theorem words_of_decodeOne {b0 : Byte} {i : Instr} {bs rest : List Byte}
    (h : decodeOne b0 bs = .ok (i, rest)) : b0 :: bs = encode i ++ rest := by
  unfold decodeOne at h
  split at h
  · cases h
    rw [‹b0 = _›]
    rfl
  split at h
  · cases h
    rw [‹b0 = _›]
    rfl
  split at h
  · split at h
    · cases h
    · cases h
      rw [‹b0 = _›]
      rfl
  split at h
  · obtain ⟨⟨d, bs1⟩, hd, h⟩ := parse_bind_ok_iff.1 h
    cases h
    rw [‹b0 = _›, takeDisp_ok hd]
    rfl
  split at h
  · obtain ⟨⟨d, bs1⟩, hd, h⟩ := parse_bind_ok_iff.1 h
    cases h
    rw [‹b0 = _›, takeDisp_ok hd]
    rfl
  · cases h

theorem words_of_decodeRaw {i : Instr} {bs rest : List Byte} (h : decodeRaw bs = .ok (i, rest)) :
    bs = encode i ++ rest := by
  unfold decodeRaw at h
  split at h
  · cases h
  split at h
  · exact words_of_decodeOne h
  split at h
  · rename_i h2
    split at h
    · cases h
    · rw [← words_of_decodeTwo h, basicTwo_fields _ _ h2.1]
      rfl
  split at h
  · split at h
    · rw [← words_of_decodeThree h, basicThree_fields]
      rfl
    · cases h
  · cases h

theorem decode_ok_iff {bs rest : List Byte} {i : Instr} :
    decode bs = .ok (i, rest) ↔ i.wellFormed = true ∧ decodeRaw bs = .ok (i, rest) := by
  unfold decode
  rw [parse_bind_ok_iff]
  constructor
  · rintro ⟨⟨j, rest'⟩, hraw, h⟩
    cases hw : j.wellFormed with
    | true =>
      simp only [hw, if_true, parse_pure] at h
      cases h
      exact ⟨hw, hraw⟩
    | false => simp [hw] at h
  · rintro ⟨hw, hraw⟩
    exact ⟨(i, rest), hraw, if_pos hw⟩

theorem words_of_decode {i : Instr} {bs rest : List Byte} (h : decode bs = .ok (i, rest)) :
    bs = encode i ++ rest :=
  words_of_decodeRaw (decode_ok_iff.1 h).2

/-- Settles O2: every parser reads back only the words of what it answers. -/
theorem encodeDecode : Obligations.EncodeDecode := by
  unfold Obligations.EncodeDecode
  exact fun _ _ _ h => ⟨(decode_ok_iff.1 h).1, words_of_decode h⟩

/-! ## Rows (rules R91, R126) -/

theorem headWord_basicThree {c1 c2 : Nat} (op : BitVec 14) (xs : List Byte) (h1 : c1 < 32) (h2 : c2 < 32) :
    headWord 3 (basicThree c1 c2 op ++ xs) = c1 * 2 ^ 19 + c2 * 2 ^ 14 + op.toNat := by
  have hw := toNat_basicThree op h1 h2
  have hlt := op.isLt
  simp only [headWord, basicThree, List.cons_append, List.nil_append, List.take_succ_cons, List.take_zero,
    List.foldr_cons, List.foldr_nil, toNat_field, hw]
  omega

theorem headWord_basicTwo {c : Nat} (quick : BitVec 4) (op : BitVec 7) (xs : List Byte) (h : c < 32) :
    headWord 2 (basicTwo c quick op ++ xs) = c * 2 ^ 11 + quick.toNat * 2 ^ 7 + op.toNat := by
  have hw := toNat_basicTwo quick op h
  have hlt := op.isLt
  have hq := quick.isLt
  simp only [headWord, basicTwo, List.cons_append, List.nil_append, List.take_succ_cons, List.take_zero,
    List.foldr_cons, List.foldr_nil, toNat_field, hw]
  omega

/-- The mask of a row of two general operands leaves `w[13:0]`. -/
theorem encodeTwo_row {n m : Nat} (op : BitVec 14) (g1 : Gen n) (g2 : Gen m) :
    headWord 3 (encodeTwo op g1 g2) &&& 0x003FFF = op.toNat := by
  have hlt := op.isLt
  simp only [encodeTwo, List.append_assoc]
  rw [headWord_basicThree op _ g1.code_lt g2.code_lt, Nat.and_two_pow_sub_one_eq_mod _ 14]
  omega

/-- The mask of a quick row leaves `w[6:0]`. -/
theorem encodeQuick_row {n : Nat} (op : BitVec 7) (quick : BitVec 4) (g : Gen n) :
    headWord 2 (encodeQuick op quick g) &&& 0x007F = op.toNat := by
  have hlt := op.isLt
  simp only [encodeQuick, List.append_assoc]
  rw [headWord_basicTwo quick op _ g.code_lt, Nat.and_two_pow_sub_one_eq_mod _ 7]
  omega

/-- The mask of a string row leaves out the bits 18 to 16, its match option and B. -/
theorem and_stringMask {x : Nat} (hx : x < 2 ^ 24) : x &&& 0xF8FFFF = x / 2 ^ 19 * 2 ^ 19 + x % 2 ^ 16 := by
  obtain ⟨w, rfl⟩ : ∃ w : BitVec 24, x = w.toNat := ⟨BitVec.ofNat 24 x, (Nat.mod_eq_of_lt hx).symm⟩
  have hfields : w &&& 0xF8FFFF#24 = w.extractLsb' 19 5 ++ 0#3 ++ w.extractLsb' 0 16 := by
    refine BitVec.eq_of_getLsbD_eq fun i hi => ?_
    rw [BitVec.getLsbD_and, BitVec.getLsbD_append, BitVec.getLsbD_append]
    interval_cases i <;> simp
  have h := congrArg BitVec.toNat hfields
  rw [BitVec.toNat_and, toNat_cat, toNat_cat, toNat_field, toNat_field, BitVec.toNat_ofNat] at h
  refine h.trans ?_
  rw [BitVec.toNat_ofNat]
  omega

theorem stringCode_mod (translate : Bool) (o : StringOptions) :
    stringCode translate o % 4 = if translate then 2 else 0 := by
  unfold stringCode
  split <;> split <;> omega

theorem encodeString_row (op : BitVec 14) (translate : Bool) (o : StringOptions) :
    headWord 3 (encodeString op translate o) &&& 0xF8FFFF = (if translate then 0x8000 else 0) + op.toNat := by
  have hcode := stringCode_lt translate o
  have hmod := stringCode_mod translate o
  have hlt := op.isLt
  have hhead := headWord_basicThree op [] (by decide : 0 < 32) hcode
  rw [List.append_nil] at hhead
  rw [encodeString_eq, hhead, and_stringMask (by omega)]
  split at hmod <;> simp_all <;> omega

/-- The mask of RDVAL's row leaves `w[18:0]`. -/
theorem encode_rdval_row (g : Gen 4) : headWord 3 (encode (.rdval g)) &&& 0x07FFFF = 0x00031E := by
  simp only [encode, List.append_assoc]
  rw [headWord_basicThree _ _ g.code_lt (by decide), Nat.and_two_pow_sub_one_eq_mod _ 19]
  have := g.code_lt
  simp only [BitVec.toNat_ofNat]
  omega

theorem encode_row (i : Instr) : headWord i.row.1 (encode i) &&& i.row.2.1 = i.row.2.2 := by
  cases i with
  | modb | modw | modd | remb | remw | remd | mulf | mull
  | movbf | movwf | movdf | movbl | movwl | movdl | movfl | movlf
  | movxbw | movxbd | movxwd | movzbw | movzbd | movzwd
  | negb | negw | negd | notb | notw | notd | movusb | movusw | movusd => exact encodeTwo_row _ _ _
  | movqb | movqw | movqd => exact encodeQuick_row _ _ _
  | movsb o | movsw o | movsd o => exact encodeString_row _ false o
  | movst o => exact encodeString_row _ true o
  | rdval g => exact encode_rdval_row g
  | nop | reti | restore | ret | rett => simp [Instr.row, encode, headWord]

theorem encode_ne_nil (i : Instr) : encode i ≠ [] := by
  intro h
  have hrow := encode_row i
  rw [h, headWord, List.take_nil, List.foldr_nil, Nat.zero_and] at hrow
  cases i <;> cases hrow

/-- Settles O3, by the row of each layout and the longest operands. -/
theorem encodingShape : Obligations.EncodingShape := by
  unfold Obligations.EncodingShape
  exact fun i => ⟨encode_row i, List.length_pos_iff.2 (encode_ne_nil i), length_encode_le i⟩

/-! ## Bytes of no row (rules R123, R124) -/

theorem decode_error {bs : List Byte} {e : DecodeError} (h : decodeRaw bs = .error e) :
    decode bs = .error e := by
  rw [decode, h]
  rfl

theorem decodeRaw_no_format {b0 : Byte} (rest : List Byte) (h1 : b0.extractLsb' 0 4 ≠ 0b0010#4)
    (h2 : b0.extractLsb' 2 5 ≠ 0b10111#5 ∨ b0.extractLsb' 0 2 = 0b10#2) (h3 : b0 ∉ threeByteFormats) :
    decodeRaw (b0 :: rest) = .error .unknownEncoding := by
  have h2' : ¬(b0.extractLsb' 2 5 = 0b10111#5 ∧ b0.extractLsb' 0 2 ≠ 0b10#2) := fun h =>
    h2.elim (fun hn => hn h.1) h.2
  simp only [decodeRaw, if_neg h1, if_neg h2', if_neg h3]

theorem decodeRaw_no_opcode {b0 : Byte} (rest : List Byte) (h1 : b0.extractLsb' 0 4 = 0b0010#4)
    (h : b0 ∉ [0x12#8, 0x42#8, 0x52#8, 0x72#8, 0xA2#8]) :
    decodeRaw (b0 :: rest) = .error .unknownEncoding := by
  simp only [List.mem_cons, List.not_mem_nil, or_false, not_or] at h
  obtain ⟨hret, hrett, hreti, hrestore, hnop⟩ := h
  simp only [decodeRaw, if_pos h1, decodeOne, if_neg hnop, if_neg hreti, if_neg hrestore, if_neg hret,
    if_neg hrett]

/-- The three masks of the three-byte rows, by the fields they leave. -/
theorem mask_op (w : BitVec 24) :
    w &&& 0x003FFF#24 = BitVec.ofNat 24 (w.extractLsb' 0 14).toNat := by
  refine BitVec.eq_of_toNat_eq ?_
  rw [BitVec.toNat_and, BitVec.toNat_ofNat, BitVec.toNat_ofNat, toNat_field]
  rw [show 0x003FFF % 2 ^ 24 = 2 ^ 14 - 1 from rfl, Nat.and_two_pow_sub_one_eq_mod]
  omega

theorem mask_rdval (w : BitVec 24) :
    w &&& 0x07FFFF#24 =
      BitVec.ofNat 24 ((w.extractLsb' 14 5).toNat * 2 ^ 14 + (w.extractLsb' 0 14).toNat) := by
  refine BitVec.eq_of_toNat_eq ?_
  rw [BitVec.toNat_and, BitVec.toNat_ofNat, BitVec.toNat_ofNat, toNat_field, toNat_field]
  rw [show 0x07FFFF % 2 ^ 24 = 2 ^ 19 - 1 from rfl, Nat.and_two_pow_sub_one_eq_mod]
  omega

theorem mask_string (w : BitVec 24) :
    w &&& 0xF8FFFF#24 = BitVec.ofNat 24 ((w.extractLsb' 19 5).toNat * 2 ^ 19 +
      (w.extractLsb' 14 5).toNat % 4 * 2 ^ 14 + (w.extractLsb' 0 14).toNat) := by
  refine BitVec.eq_of_toNat_eq ?_
  rw [BitVec.toNat_and, BitVec.toNat_ofNat, BitVec.toNat_ofNat, toNat_field, toNat_field, toNat_field]
  have hw := w.isLt
  refine (and_stringMask hw).trans ?_
  omega

theorem takeString_unknown {translate : Bool} {w : BitVec 24} {m : Nat} {mk : StringOptions → Instr}
    (bs : List Byte) (hm : (w.extractLsb' 0 14).toNat = m)
    (hrow : w &&& 0xF8FFFF#24 ≠ BitVec.ofNat 24 ((if translate then 0x8000 else 0) + m)) :
    takeString translate (w.extractLsb' 19 5).toNat (w.extractLsb' 14 5).toNat mk bs =
      .error .unknownEncoding := by
  refine if_neg fun h => hrow ?_
  obtain ⟨h1, h2⟩ := h
  rw [mask_string, h1, h2, hm]
  cases translate <;> simp

/-- The decoder's table has no row that `threeByteRows` lacks. -/
theorem decodeThree_no_row {w : BitVec 24} (bs : List Byte)
    (hrow : ∀ mask val, (mask, val) ∈ threeByteRows → w &&& mask ≠ val) :
    decodeThree (w.extractLsb' 19 5).toNat (w.extractLsb' 14 5).toNat (w.extractLsb' 0 14).toNat bs =
      .error .unknownEncoding := by
  have hop := mask_op w
  unfold decodeThree
  split
  case h_12 =>
    unfold takeStringB
    split
    · exact takeString_unknown bs ‹_› (hrow _ _ (by decide))
    · exact takeString_unknown bs ‹_› (hrow _ _ (by decide))
  case h_13 | h_14 => exact takeString_unknown bs ‹_› (hrow _ _ (by decide))
  case h_32 =>
    refine if_neg fun h => hrow 0x07FFFF#24 0x00031E#24 (by decide) ?_
    rw [mask_rdval, h, ‹(w.extractLsb' 0 14).toNat = _›]
    rfl
  case h_36 => rfl
  all_goals
    rw [‹(w.extractLsb' 0 14).toNat = _›] at hop
    exact absurd hop (hrow _ _ (by decide))

/-- Settles O4, one step of rule R123 at a time. -/
theorem unknownEncodings : Obligations.UnknownEncodings := by
  unfold Obligations.UnknownEncodings
  refine ⟨fun _ rest h1 h2 h3 => decode_error (decodeRaw_no_format rest h1 h2 h3),
    fun _ rest h1 h => decode_error (decodeRaw_no_opcode rest h1 h), fun b0 b1 b2 rest h hrow => ?_⟩
  refine decode_error ?_
  rw [decodeRaw_three b1 b2 rest h]
  exact decodeThree_no_row rest fun mask val hmem => hrow (mask, val) hmem

/-! ## The forms of a displacement (rule R107) -/

theorem toInt_dispValue_bounds {w : Nat} (v : BitVec (w + 1)) (hw : w + 1 ≤ 32) :
    -(2 ^ w : Int) ≤ (v.signExtend 32).toInt ∧ (v.signExtend 32).toInt ≤ 2 ^ w - 1 := by
  rw [BitVec.toInt_signExtend_of_le hw]
  have hlt := v.toInt_lt
  have hle := v.le_toInt
  simp only [Nat.add_sub_cancel] at hlt hle
  exact ⟨hle, by omega⟩

theorem takeDisp_short (x : BitVec 7) (rest : List Byte) :
    takeDisp ((0#1 ++ x) :: rest) = .ok (.short x, rest) :=
  takeDisp_encode (.short x) rest

theorem takeDisp_medium (x : BitVec 6) (b1 : Byte) (rest : List Byte) :
    takeDisp ((0b10#2 ++ x) :: b1 :: rest) = .ok (.medium (x ++ b1), rest) := by
  have hwords : (Disp.medium (x ++ b1)).encode = [0b10#2 ++ x, b1] := by
    have hhigh : (x ++ b1).extractLsb' 8 6 = x := BitVec.extractLsb'_append_eq_left
    have hlow : (x ++ b1).extractLsb' 0 8 = b1 := BitVec.extractLsb'_append_eq_right
    rw [Disp.encode, hhigh, hlow]
  have h := takeDisp_encode (.medium (x ++ b1)) rest
  rwa [hwords] at h

theorem takeDisp_long (x : BitVec 6) (b1 b2 b3 : Byte) (rest : List Byte) :
    takeDisp ((0b11#2 ++ x) :: b1 :: b2 :: b3 :: rest) = .ok (.long (x ++ b1 ++ b2 ++ b3), rest) := by
  have hwords : (Disp.long (x ++ b1 ++ b2 ++ b3)).encode = [0b11#2 ++ x, b1, b2, b3] := by
    have h1 := b1.isLt
    have h2 := b2.isLt
    have h3 := b3.isLt
    have hx := x.isLt
    have hfields : (x ++ b1 ++ b2 ++ b3).extractLsb' 24 6 = x ∧ (x ++ b1 ++ b2 ++ b3).extractLsb' 16 8 = b1 ∧
        (x ++ b1 ++ b2 ++ b3).extractLsb' 8 8 = b2 ∧ (x ++ b1 ++ b2 ++ b3).extractLsb' 0 8 = b3 := by
      refine ⟨?_, ?_, ?_, ?_⟩ <;>
        exact BitVec.eq_of_toNat_eq (by rw [toNat_field, toNat_cat, toNat_cat, toNat_cat]; omega)
    obtain ⟨hx', h1', h2', h3'⟩ := hfields
    rw [Disp.encode, hx', h1', h2', h3']
  have h := takeDisp_encode (.long (x ++ b1 ++ b2 ++ b3)) rest
  rwa [hwords] at h

/-- Settles O5: the ranges are those of 7, 14 and 30 signed bits, and each form is read back. -/
theorem displacementForms : Obligations.DisplacementForms := by
  unfold Obligations.DisplacementForms
  refine ⟨fun v => toInt_dispValue_bounds v (by decide), fun v => toInt_dispValue_bounds v (by decide),
    fun v => toInt_dispValue_bounds v (by decide), takeDisp_short, takeDisp_medium, takeDisp_long,
    fun rest => ?_, fun rest => ?_⟩
  · exact ⟨.short 0x7C#7, takeDisp_short 0x7C#7 rest, by decide⟩
  · exact ⟨.medium 512#14, takeDisp_medium 2#6 0#8 rest, by decide⟩

/-! ## Example words (rules R92, R100, R109, R112, R113) -/

/-- Bytes that are the words of an admitted instruction decode to it. -/
theorem decode_of_words {i : Instr} {bs : List Byte} (hw : i.wellFormed = true) (hb : encode i = bs) :
    decode bs = .ok (i, []) := by
  have h := decode_encode_append i [] hw
  rwa [List.append_nil, hb] at h

/-- Settles O6: the words are those the encoder writes, but for the two forms that are refused. -/
theorem exampleWords : Obligations.ExampleWords := by
  unfold Obligations.ExampleWords
  refine ⟨?_, ?_, ?_, ?_, ?_, ?_, ?_, ?_, ?_, ⟨?_, ?_, ?_, rfl, ?_, ?_, ?_, ?_, ?_, ?_, ?_, ?_⟩,
    ⟨?_, ?_, ?_, ?_, ?_, ?_⟩, ?_, ?_, ?_, ?_, ?_, rfl⟩
  all_goals exact decode_of_words rfl (by decide)

end Sys2Proof
end

section
/-! Proofs about operands and the integer instructions: effective addresses (SimpleAddresses,
PointerAddresses), the completion of MODi, REMi, MOVQi, MOVXi and MOVZi (DivideCompletes, QuickCompletes,
ExtendCompletes), and what these and the other integer moves leave unchanged (DivideFrame, IntegerMoveFrame). -/

namespace Sys2Proof.Machine

/-! ## Effective addresses (rules R104, R105, R108, R109) -/

/-- Settles O14: these addresses take no access. -/
theorem simpleAddresses : Obligations.SimpleAddresses := by
  unfold Obligations.SimpleAddresses
  exact fun _ _ _ _ => ⟨rfl, rfl, rfl, rfl, rfl⟩

/-- A base mode other than top of stack is at its effective address. -/
theorem locate_base {n : Nat} {b : Base} (s : State) (hb : b ≠ .tos) :
    locate (n := n) (.base b) s = baseAddress b s >>= fun a => .ok (.mem a) := by
  cases b with
  | tos => exact absurd rfl hb
  | regRel | memRel | absolute | external | space => rfl

theorem baseAddress_of_locate {n : Nat} {b : Base} {s : State} {a : Word}
    (h : locate (n := n) (.base b) s = .ok (.mem a)) : baseAddress b s = .ok a := by
  by_cases hb : b = .tos
  · subst hb
    cases h
  · rw [locate_base s hb] at h
    obtain ⟨a', ha, h⟩ := bind_ok_iff.1 h
    cases h
    exact ha

theorem locate_scaled {n : Nat} {b : Base} {s : State} {a : Word} (h : baseAddress b s = .ok a) (c : Scale)
    (r : Fin 8) : locate (n := n) (.scaled c b r) s = .ok (.mem (a + s.reg r * scaleFactor c)) := by
  rw [locate, h]
  rfl

/-- The four scales over one base. -/
theorem locate_scales {n : Nat} {b : Base} {s : State} {a : Word} (h : baseAddress b s = .ok a) (r : Fin 8) :
    locate (n := n) (.scaled .b b r) s = .ok (.mem (a + s.reg r)) ∧
    locate (n := n) (.scaled .w b r) s = .ok (.mem (a + s.reg r * 2#32)) ∧
    locate (n := n) (.scaled .d b r) s = .ok (.mem (a + s.reg r * 4#32)) ∧
    locate (n := n) (.scaled .q b r) s = .ok (.mem (a + s.reg r * 8#32)) := by
  refine ⟨?_, locate_scaled h .w r, locate_scaled h .d r, locate_scaled h .q r⟩
  have hb := locate_scaled (n := n) h .b r
  rwa [scaleFactor, BitVec.mul_one] at hb

theorem readWord_abort {sp : Space} {a : Word} {s : State} (h : s.mapped sp .read a 4 = false) :
    readWord sp a s = .error (.trap .abt) :=
  memRead_abort h

theorem baseAddress_memRel {p : PointerBase} {d1 d2 : Disp} {s : State}
    (h : Readable s s.space (s.pointerBase p + dispValue d1) 4) :
    baseAddress (.memRel p d1 d2) s =
      .ok (s.memValue s.space (s.pointerBase p + dispValue d1) 4 + dispValue d2) := by
  rw [baseAddress, readWord_ok h]
  rfl

theorem baseAddress_external {d1 d2 : Disp} {s : State} {link : Word}
    (h : Readable s s.space (s.mod.setWidth 32 + 4#32) 4)
    (hlink : link = s.memValue s.space (s.mod.setWidth 32 + 4#32) 4) :
    baseAddress (.external d1 d2) s =
      readWord s.space (link + 4#32 * dispValue d1) s >>= fun q => .ok (q + dispValue d2) := by
  rw [baseAddress, readWord_ok h, hlink]
  rfl

/-- Settles O15: each pointer fetch completes or aborts, and a scaled index adds to its base's address. -/
theorem pointerAddresses : Obligations.PointerAddresses := by
  unfold Obligations.PointerAddresses
  intro n s d1 d2
  refine ⟨fun p h => ?_, fun p h => ?_, rfl, fun link h hlink h2 => ?_, fun h => ?_, fun link h hlink h2 => ?_,
    fun b a r h => locate_scales (baseAddress_of_locate h) r, fun r => locate_scales rfl r⟩
  · rw [locate_base s (by simp), baseAddress_memRel h]
    rfl
  · rw [locate_base s (by simp), baseAddress, readWord_abort h]
    rfl
  · rw [locate_base s (by simp), baseAddress_external h hlink, readWord_ok h2]
    rfl
  · rw [locate_base s (by simp), baseAddress, readWord_abort h]
    rfl
  · rw [locate_base s (by simp), baseAddress_external h hlink, readWord_abort h2]
    rfl

/-! ## MODi and REMi (rules R140, R142) -/

theorem modulus_zero {w : Nat} (dest : BitVec w) : modulus 0#w dest = none := if_pos rfl

theorem remainder_zero {w : Nat} (dest : BitVec w) : remainder 0#w dest = none := if_pos rfl

/-- One MODi or REMi, of whatever length. -/
theorem divideRuns {n : Nat} {i : Instr} {src dst : Gen n}
    {f : BitVec (8 * n) → BitVec (8 * n) → Option (BitVec (8 * n))}
    (hbody : ∀ s, bodyOf i s = combineThrough f src dst s >>= advance i) (hzero : ∀ d, f 0#(8 * n) d = none) :
    DivideRuns i src dst f := by
  intro s ls ld h
  have hc := combineThrough_eq (f := f) h.source h.dest h.readable h.updatable
  refine ⟨fun r hf => exec_ok h.form ?_, fun hz => exec_trap h.form ?_⟩
  · rw [hbody, hc, hf]
    exact advance_eq h.fits (by simp)
  · rw [hbody, hc, hz, hzero]
    rfl

/-- Settles O18, one length at a time. -/
theorem divideCompletes : Obligations.DivideCompletes := by
  unfold Obligations.DivideCompletes
  exact ⟨fun _ _ => divideRuns (fun _ => rfl) modulus_zero, fun _ _ => divideRuns (fun _ => rfl) modulus_zero,
    fun _ _ => divideRuns (fun _ => rfl) modulus_zero, fun _ _ => divideRuns (fun _ => rfl) remainder_zero,
    fun _ _ => divideRuns (fun _ => rfl) remainder_zero, fun _ _ => divideRuns (fun _ => rfl) remainder_zero⟩

/-! ## Moves of class read to class write (rules R115, R116) -/

/-- What one integer move does: `f` on the source, `g` on the PSR. -/
def MovesBy {n m : Nat} (i : Instr) (src : Gen n) (dst : Gen m) (f : BitVec (8 * n) → BitVec (8 * m))
    (g : BitVec (8 * n) → Psr → Psr) : Prop :=
  ∀ s, bodyOf i s = moveThrough f src dst s >>= fun p => advance i { p.2 with psr := g p.1 p.2.psr }

theorem MovesBy.runs {n m : Nat} {i : Instr} {src : Gen n} {dst : Gen m} {f f' : BitVec (8 * n) → BitVec (8 * m)}
    {g : BitVec (8 * n) → Psr → Psr} (hbody : MovesBy i src dst f g) (hf : ∀ v, f v = f' v) :
    MoveRuns i src dst f' g := by
  intro s ls ld h
  refine exec_ok h.form ?_
  rw [hbody s, moveThrough_ok_iff.2 ⟨ls, ld, h.source, h.dest, h.readable, rfl, h.writable, rfl⟩, ok_bind, hf]
  refine (advance_eq h.fits ?_).trans ?_
  · exact (Loc.stored_pc _ _ _ _).trans (Loc.popped_pc _ _)
  · simp only [Loc.stored_psr, Loc.popped_psr]

/-- Zeros above a value extend it. -/
theorem setWidth_eq_zeros_append {w k : Nat} (v : BitVec w) : v.setWidth (k + w) = 0#k ++ v := by
  refine BitVec.eq_of_toNat_eq ?_
  rw [toNat_cat, BitVec.toNat_setWidth, BitVec.toNat_ofNat, Nat.zero_mod, Nat.zero_mul, Nat.zero_add]
  exact Nat.mod_eq_of_lt (v.isLt.trans_le (Nat.pow_le_pow_right (by decide) (Nat.le_add_left w k)))

/-- One MOVXi, of whatever lengths: sign extension is that of the integer. -/
theorem signExtendRuns {n m : Nat} {i : Instr} {src : Gen n} {dst : Gen m}
    (hbody : bodyOf i = signExtendBody i src dst) :
    MoveRuns i src dst (fun v => BitVec.ofInt (8 * m) v.toInt) fun _ p => p :=
  MovesBy.runs (f := fun v => v.signExtend (8 * m)) (congrFun hbody) fun _ => rfl

/-- One MOVZi, of whatever lengths. -/
theorem zeroExtendRuns {n m : Nat} {i : Instr} {src : Gen n} {dst : Gen m}
    {f : BitVec (8 * n) → BitVec (8 * m)} (hbody : bodyOf i = zeroExtendBody i src dst)
    (hf : ∀ v, v.setWidth (8 * m) = f v) : MoveRuns i src dst f fun _ p => p :=
  MovesBy.runs (congrFun hbody) hf

/-- Settles O21, one pair of lengths at a time. -/
theorem extendCompletes : Obligations.ExtendCompletes := by
  unfold Obligations.ExtendCompletes
  exact ⟨fun _ _ => signExtendRuns rfl, fun _ _ => signExtendRuns rfl, fun _ _ => signExtendRuns rfl,
    fun _ _ => zeroExtendRuns rfl (setWidth_eq_zeros_append (k := 8)),
    fun _ _ => zeroExtendRuns rfl (setWidth_eq_zeros_append (k := 24)),
    fun _ _ => zeroExtendRuns rfl (setWidth_eq_zeros_append (k := 16))⟩

/-! ## MOVQi (rules R110, R170) -/

/-- The decoder reads the quick value from the field it is encoded in. -/
theorem quickField {n : Nat} {i : Instr} {op : BitVec 7} {quick : BitVec 4} {dst : Gen n}
    (henc : encode i = encodeQuick op quick dst) : QuickField i quick := by
  intro bs rest h
  have hop := op.isLt
  have hcode := dst.code_lt
  have hq := quick.isLt
  refine BitVec.eq_of_toNat_eq ?_
  rw [words_of_decode h, henc]
  simp only [encodeQuick, List.append_assoc]
  rw [headWord_basicTwo quick op _ hcode, toNat_field, BitVec.toNat_ofNat]
  omega

theorem quickRuns {m : Nat} {i : Instr} {quick : BitVec 4} {dst : Gen m}
    (hbody : bodyOf i = quickBody i quick dst) : QuickRuns i quick dst := by
  intro s ld hw hfits hd hwrite
  refine exec_ok hw ?_
  rw [hbody, quickBody, hd, ok_bind, writeLoc_ok_iff.2 ⟨hwrite, rfl⟩, ok_bind]
  exact advance_eq hfits (Loc.stored_pc _ _ _ _)

/-- Settles O20: the range of four signed bits, the field, and one length at a time. -/
theorem quickCompletes : Obligations.QuickCompletes := by
  unfold Obligations.QuickCompletes
  exact ⟨by decide, by decide, fun _ _ => ⟨quickField rfl, quickRuns rfl⟩,
    fun _ _ => ⟨quickField rfl, quickRuns rfl⟩, fun _ _ => ⟨quickField rfl, quickRuns rfl⟩⟩

/-! ## Where an operand is -/

/-- What `locate` says of an operand: a register, an immediate, top of stack, or another place in memory. -/
inductive Located {n : Nat} : Gen n → Loc n → Prop
  | reg (r : Fin 8) : Located (.reg r) (.reg r)
  | imm (v : BitVec (8 * n)) : Located (.imm v) (.imm v)
  | tos : Located (.base .tos) .tos
  | mem {g : Gen n} (a : Word) (htos : g.isTos = false) (hreg : ∀ r, g ≠ .reg r) : Located g (.mem a)

theorem located_of_locate {n : Nat} {g : Gen n} {s : State} {l : Loc n} (h : locate g s = .ok l) :
    Located g l := by
  cases g with
  | reg r => cases h; exact .reg r
  | imm v => cases h; exact .imm v
  | base b =>
    by_cases hb : b = .tos
    · subst hb
      cases h
      exact .tos
    · rw [locate_base s hb] at h
      obtain ⟨a, -, h⟩ := bind_ok_iff.1 h
      cases h
      exact .mem a (by cases b <;> simp_all [Gen.isTos]) (by simp)
  | scaled c b r =>
    obtain ⟨a, -, h⟩ := bind_ok_iff.1 h
    cases h
    exact .mem _ rfl (by simp)

/-! ## What an operand access leaves unchanged (rules R21 to R23, R115 to R117) -/

theorem ModuleKept.refl (s : State) : ModuleKept s s := ⟨rfl, rfl, rfl⟩

section
variable {m : Nat} {k : Bank} {dst : Gen m} {s t u : State}

theorem OperandsKept.refl (k : Bank) (dst : Gen m) (s : State) : OperandsKept k dst 0#32 s s where
  regs _ _ := rfl
  fregs _ _ := rfl
  sp := (BitVec.add_zero _).symm
  other := by split <;> rfl
  platform := .refl s
  module := .refl s
  irq := rfl

/-- One access after another: the moves of SP add up. -/
theorem OperandsKept.trans {a b : Word} (hst : OperandsKept k dst a s t) (htu : OperandsKept k dst b t u)
    (hsel : t.psr.s = s.psr.s) : OperandsKept k dst (a + b) s u where
  regs r hr := (htu.regs r hr).trans (hst.regs r hr)
  fregs r hr := (htu.fregs r hr).trans (hst.fregs r hr)
  sp := by rw [htu.sp, hst.sp, BitVec.add_assoc]
  other := by
    have h1 := hst.other
    have h2 := htu.other
    rw [hsel] at h2
    split at h1
    · rw [if_pos ‹_›] at h2 ⊢
      exact h2.trans h1
    · rw [if_neg ‹_›] at h2 ⊢
      exact h2.trans h1
  platform := hst.platform.trans htu.platform
  module := hst.module.trans htu.module
  irq := htu.irq.trans hst.irq

/-- The frame speaks of no flag and of neither PC, FSR nor the counter of free values. -/
theorem OperandsKept.aside {a : Word} (h : OperandsKept k dst a s t) {p : Psr} (hp : p.s = t.psr.s) (pc : Word)
    (fsr : Fsr) (free : Nat) :
    OperandsKept k dst a s { t with psr := p, pc := pc, fsr := fsr, free := free } where
  regs := h.regs
  fregs := h.fregs
  sp := by
    rw [← h.sp]
    simp only [State.sp, hp]
  other := h.other
  platform := ⟨h.platform.fp, h.platform.cfg, h.platform.intbase, h.platform.mmu, h.platform.text,
    h.platform.trapEntry, h.platform.endAt⟩
  module := ⟨h.module.sb, h.module.mod, h.module.eois⟩
  irq := h.irq

theorem OperandsKept.setSp (k : Bank) (dst : Gen m) (s : State) (a : Word) :
    OperandsKept k dst a s (s.setSp (s.sp + a)) where
  regs r _ := s.reg_setSp r _
  fregs r _ := s.freg_setSp r _
  sp := s.sp_setSp _
  other := by
    rw [State.sp0_setSp, State.sp1_setSp]
    split <;> rfl
  platform := by constructor <;> simp
  module := by constructor <;> simp
  irq := by simp

theorem OperandsKept.store (k : Bank) (dst : Gen m) (s : State) (sp : Space) (a : Word) {n : Nat}
    (v : BitVec (8 * n)) : OperandsKept k dst 0#32 s (s.store sp a v) where
  regs _ _ := rfl
  fregs _ _ := rfl
  sp := (BitVec.add_zero _).symm
  other := by split <;> rfl
  platform := ⟨rfl, rfl, rfl, rfl, rfl, rfl, rfl⟩
  module := ⟨rfl, rfl, rfl⟩
  irq := rfl

theorem OperandsKept.setRegValue (k : Bank) (r : Fin 8) (v : BitVec (8 * m)) (s : State) :
    OperandsKept k (.reg r : Gen m) 0#32 s (s.setRegValue k r v) where
  regs q hq := by
    cases k with
    | int =>
      rw [State.reg_setRegValue_int, if_neg (fun h => hq rfl (by rw [h]))]
    | float =>
      simp only [State.setRegValue]
      split <;> rfl
  fregs q hq := by
    cases k with
    | int => rfl
    | float =>
      obtain ⟨h1, h2⟩ := hq rfl
      have hr : r ≠ q := fun h => h1 (by rw [h])
      simp only [State.setRegValue]
      split
      · have hr1 : r + 1 ≠ q := fun h => h2 ‹_› (by rw [← h, add_sub_cancel_right])
        rw [State.freg_setFreg, if_neg hr1, State.freg_setFreg, if_neg hr]
      · rw [State.freg_setFreg, if_neg hr]
  sp := by rw [State.sp_setRegValue]; exact (BitVec.add_zero _).symm
  other := by split <;> simp
  platform := by constructor <;> simp
  module := by constructor <;> simp
  irq := by simp

/-- Reading a source: SP moves where it is popped. -/
theorem OperandsKept.popped {n : Nat} {src : Gen n} {l : Loc n} (h : Located src l) (k : Bank) (dst : Gen m)
    (s : State) : OperandsKept k dst src.popMove s (l.popped s) := by
  cases h with
  | reg | imm => exact .refl k dst s
  | tos => exact .setSp k dst s _
  | mem a htos => simpa [Gen.popMove, htos, Loc.popped] using OperandsKept.refl k dst s

/-- Rewriting a destination in place. -/
theorem OperandsKept.placed {l : Loc m} (h : Located dst l) (k : Bank) (v : BitVec (8 * m)) (s : State) :
    OperandsKept k dst 0#32 s (l.placed k v s) := by
  cases h with
  | reg r => exact .setRegValue k r v s
  | imm => exact .refl k _ s
  | tos | mem => exact .store k _ s _ _ v

theorem OperandsKept.pushed (k : Bank) (dst : Gen m) (s : State) (sp : Space) {n : Nat} (v : BitVec (8 * n)) :
    OperandsKept k dst (0#32 - BitVec.ofNat 32 n) s
      ((s.store sp (s.sp - BitVec.ofNat 32 n) v).setSp (s.sp - BitVec.ofNat 32 n)) := by
  have h := (OperandsKept.store k dst s sp (s.sp - BitVec.ofNat 32 n) v).trans
    (.setSp k dst _ (0#32 - BitVec.ofNat 32 n)) rfl
  rwa [BitVec.zero_add, State.sp_store, BitVec.zero_sub, ← BitVec.sub_eq_add_neg] at h

/-- Writing a destination: SP moves where it is pushed. -/
theorem OperandsKept.stored {l : Loc m} (h : Located dst l) (k : Bank) (v : BitVec (8 * m)) (s : State) :
    OperandsKept k dst dst.pushMove s (l.stored k v s) := by
  cases h with
  | reg r => exact .setRegValue k r v s
  | imm => exact .refl k _ s
  | tos => exact .pushed k _ s s.space v
  | mem a htos => simpa [Gen.pushMove, htos, Loc.stored] using OperandsKept.store k dst s s.space a v

/-- A source read, then a destination rewritten in place. -/
theorem OperandsKept.updated {n : Nat} {src : Gen n} {ls : Loc n} {ld : Loc m} (hs : Located src ls)
    (hd : Located dst ld) (k : Bank) (v : BitVec (8 * m)) (s : State) :
    OperandsKept k dst src.popMove s (ld.placed k v (ls.popped s)) := by
  have h := (OperandsKept.popped hs k dst s).trans (.placed hd k v _) (by rw [Loc.popped_psr])
  rwa [BitVec.add_zero] at h

/-- A source read, then a destination written. -/
theorem OperandsKept.moved {n : Nat} {src : Gen n} {ls : Loc n} {ld : Loc m} (hs : Located src ls)
    (hd : Located dst ld) (k : Bank) (v : BitVec (8 * m)) (s : State) :
    OperandsKept k dst (src.popMove + dst.pushMove) s (ld.stored k v (ls.popped s)) :=
  (OperandsKept.popped hs k dst s).trans (.stored hd k v _) (by rw [Loc.popped_psr])

end

/-! ## Where a destination is stored -/

theorem memoryKept_of_mem {s t : State} (h : t.mem = s.mem) (sp : Space) (dest : Option Word) (n : Nat) :
    MemoryKept s t sp dest n :=
  fun x _ => by rw [h]

theorem memoryKept_placed {n : Nat} (k : Bank) (l : Loc n) (v : BitVec (8 * n)) (s : State) :
    MemoryKept s (l.placed k v s) s.space (l.place s) n := by
  cases l with
  | reg r => exact memoryKept_of_mem (s.setRegValue_mem k r v) _ _ _
  | imm => exact memoryKept_of_mem rfl _ _ _
  | tos => exact memoryKept_store s s.space s.sp v
  | mem a => exact memoryKept_store s s.space a v

theorem memoryKept_stored {n : Nat} (k : Bank) (l : Loc n) (v : BitVec (8 * n)) (s : State) :
    MemoryKept s (l.stored k v s) s.space (l.target s) n := by
  cases l with
  | reg r => exact memoryKept_of_mem (s.setRegValue_mem k r v) _ _ _
  | imm => exact memoryKept_of_mem rfl _ _ _
  | tos =>
    intro x hx
    rw [Loc.stored, State.setSp_mem]
    exact memoryKept_store s s.space _ v x hx
  | mem a => exact memoryKept_store s s.space a v

/-- The stores of an instruction reach the same bytes whether or not its source was popped. -/
theorem MemoryKept.of_popped {n m : Nat} {l : Loc n} {s t : State} {dest : Option Word}
    (h : MemoryKept (l.popped s) t (l.popped s).space dest m) : MemoryKept s t s.space dest m := by
  intro x hx
  refine (h x fun a ha j hj => ?_).trans (by rw [Loc.popped_mem])
  rw [Loc.space_popped, State.physical_congr (l.popped_cfg s) (l.popped_mmu s)]
  exact hx a ha j hj

@[simp] theorem Loc.placed_fsr {n : Nat} (k : Bank) (l : Loc n) (v : BitVec (8 * n)) (s : State) :
    (l.placed k v s).fsr = s.fsr := by
  cases l <;> simp [Loc.placed]

@[simp] theorem Loc.placed_free {n : Nat} (k : Bank) (l : Loc n) (v : BitVec (8 * n)) (s : State) :
    (l.placed k v s).free = s.free := by
  cases l <;> simp [Loc.placed]

@[simp] theorem Loc.stored_fsr {n : Nat} (k : Bank) (l : Loc n) (v : BitVec (8 * n)) (s : State) :
    (l.stored k v s).fsr = s.fsr := by
  cases l <;> simp [Loc.stored]

@[simp] theorem Loc.stored_free {n : Nat} (k : Bank) (l : Loc n) (v : BitVec (8 * n)) (s : State) :
    (l.stored k v s).free = s.free := by
  cases l <;> simp [Loc.stored]

/-! ## Frames of the integer instructions -/

/-- An instruction whose body stops only with the state at its start ends in its body's state or takes a
trap. -/
theorem exec_next_of_plain {i : Instr} {s t : State} (hplain : ∀ e, bodyOf i s = .error e → e.plain)
    (h : exec i s = .next t) : bodyOf i s = .ok t ∨ ∃ k, takeTrap k s = .next t := by
  rw [exec_eq, complete_next_iff] at h
  obtain ⟨-, h | ⟨e, he, hstop⟩⟩ := h
  · exact .inl h
  · have hp := hplain e he
    cases e with
    | trap k => exact .inr ⟨k, hstop⟩
    | refuse r => cases hstop
    | trapFrom | interrupt => exact hp.elim

theorem combineThrough_ok {n : Nat} {f : BitVec (8 * n) → BitVec (8 * n) → Option (BitVec (8 * n))}
    {src dst : Gen n} {s t : State} (h : combineThrough f src dst s = .ok t) :
    ∃ ls ld r, locate src s = .ok ls ∧ locate dst s = .ok ld ∧ t = ld.placed .int r (ls.popped s) := by
  obtain ⟨⟨ld, v, s1⟩, h1, h⟩ := bind_ok_iff.1 h
  obtain ⟨d, -, h⟩ := bind_ok_iff.1 h
  obtain ⟨ls, hs, hd, -, -, rfl⟩ := fetchSource_ok_iff.1 h1
  split at h
  · cases h
  · exact ⟨ls, ld, _, hs, hd, (writePlace_ok_iff.1 h).2⟩

/-- One MODi or REMi, of whatever length. -/
theorem divideKeeps {n : Nat} {i : Instr} {src dst : Gen n}
    {f : BitVec (8 * n) → BitVec (8 * n) → Option (BitVec (8 * n))}
    (hbody : ∀ s, bodyOf i s = combineThrough f src dst s >>= advance i) : DivideKeeps i src dst := by
  intro s t h
  rcases exec_next_of_plain (by
    rw [hbody]
    exact bind_plain combineThrough_plain fun _ => advance_plain) h with h | h
  · refine .inr ?_
    rw [hbody] at h
    obtain ⟨u, hu, ha⟩ := bind_ok_iff.1 h
    obtain ⟨-, rfl⟩ := advance_ok_iff.1 ha
    obtain ⟨ls, ld, r, hs, hd, rfl⟩ := combineThrough_ok hu
    have hkept := OperandsKept.updated (located_of_locate hs) (located_of_locate hd) .int r s
    refine ⟨hkept.aside rfl _ _ _, by simp, by simp, by simp, fun ls' ld' hs' hd' => ?_⟩
    cases hs.symm.trans hs'
    cases hd.symm.trans hd'
    exact MemoryKept.of_popped (memoryKept_placed .int ld r (ls.popped s))
  · exact .inl h

/-- Settles O19, one length at a time. -/
theorem divideFrame : Obligations.DivideFrame := by
  unfold Obligations.DivideFrame
  exact ⟨fun _ _ => divideKeeps fun _ => rfl, fun _ _ => divideKeeps fun _ => rfl,
    fun _ _ => divideKeeps fun _ => rfl, fun _ _ => divideKeeps fun _ => rfl,
    fun _ _ => divideKeeps fun _ => rfl, fun _ _ => divideKeeps fun _ => rfl⟩

/-- One integer move whose flags keep the stack selection. -/
theorem MovesBy.keeps {n m : Nat} {i : Instr} {src : Gen n} {dst : Gen m} {f : BitVec (8 * n) → BitVec (8 * m)}
    {g : BitVec (8 * n) → Psr → Psr} {flags : Psr → Psr → Prop} (hbody : MovesBy i src dst f g)
    (hsel : ∀ v p, (g v p).s = p.s) (hflags : ∀ v p, flags p (g v p)) : MoveKeeps i src dst flags := by
  intro s t h
  rcases exec_next_of_plain (by
    rw [hbody s]
    exact bind_plain moveThrough_plain fun _ => advance_plain) h with h | h
  · refine .inr ?_
    rw [hbody s] at h
    obtain ⟨⟨v, u⟩, hu, ha⟩ := bind_ok_iff.1 h
    obtain ⟨-, rfl⟩ := advance_ok_iff.1 ha
    obtain ⟨ls, ld, hs, hd, -, -, -, rfl⟩ := moveThrough_ok_iff.1 hu
    have hkept := OperandsKept.moved (located_of_locate hs) (located_of_locate hd) .int (f v) s
    refine ⟨hkept.aside (hsel v _) _ _ _, ?_, by simp, by simp, fun ls' ld' hs' hd' => ?_⟩
    · simpa using hflags v s.psr
    · cases hs.symm.trans hs'
      cases hd.symm.trans hd'
      exact MemoryKept.of_popped (memoryKept_stored .int ld (f v) (ls.popped s))
  · exact .inl h

/-- MOVXi, MOVZi and NOTi write no flag. -/
theorem moveKeeps {n m : Nat} {i : Instr} {src : Gen n} {dst : Gen m} {f : BitVec (8 * n) → BitVec (8 * m)}
    (hbody : MovesBy i src dst f fun _ p => p) : MoveKeeps i src dst Eq :=
  hbody.keeps (fun _ _ => rfl) fun _ _ => rfl

/-- NEGi writes C and F. -/
theorem negateKeeps {n : Nat} {i : Instr} {src dst : Gen n} (hbody : bodyOf i = negateBody i src dst) :
    MoveKeeps i src dst fun p q => q = { p with c := q.c, f := q.f } :=
  MovesBy.keeps (g := fun v p => p.afterNegate v) (congrFun hbody) (fun _ _ => rfl) fun _ _ => rfl

/-- One MOVQi, of whatever length. -/
theorem quickKeeps {m : Nat} {i : Instr} {quick : BitVec 4} {dst : Gen m}
    (hbody : bodyOf i = quickBody i quick dst) : QuickKeeps i dst := by
  intro s t h
  rcases exec_next_of_plain (by
    rw [hbody]
    exact bind_plain locate_plain fun _ => bind_plain writeLoc_plain fun _ => advance_plain) h with h | h
  · refine .inr ?_
    rw [hbody] at h
    obtain ⟨ld, hd, h⟩ := bind_ok_iff.1 h
    obtain ⟨u, hu, ha⟩ := bind_ok_iff.1 h
    obtain ⟨-, rfl⟩ := advance_ok_iff.1 ha
    obtain ⟨-, rfl⟩ := writeLoc_ok_iff.1 hu
    refine ⟨(OperandsKept.stored (located_of_locate hd) .int _ s).aside rfl _ _ _, by simp, by simp, by simp,
      fun ld' hd' => ?_⟩
    cases hd.symm.trans hd'
    exact memoryKept_stored .int ld _ s
  · exact .inl h

/-- Settles O25, one mnemonic at a time. -/
theorem integerMoveFrame : Obligations.IntegerMoveFrame := by
  unfold Obligations.IntegerMoveFrame
  refine ⟨fun _ _ => quickKeeps rfl, fun _ _ => quickKeeps rfl, fun _ _ => quickKeeps rfl, ?_, ?_, ?_, ?_, ?_, ?_,
    ?_, ?_, ?_, fun _ _ => negateKeeps rfl, fun _ _ => negateKeeps rfl, fun _ _ => negateKeeps rfl⟩
  all_goals exact fun _ _ => moveKeeps fun _ => rfl

end Sys2Proof.Machine
end

section
/-! Proof of AbortsArePrecise. A body with a source and a destination stops at its first access that aborts,
and a stop that carries no state leaves the state as it was (rule R233): one lemma per access class, used for
every instruction of that class. -/

namespace Sys2Proof.Machine

/-! ## Addresses and the source's read -/

/-- The body of the instruction begins with steps 3 to 5 of rule R120 and goes on with `rest`; where that
stops, the body stops with it. -/
def BeginsWith {n m : Nat} {α : Type} (i : Instr) (k : Bank) (src : Gen n) (dst : Gen m)
    (rest : State → Loc m × BitVec (8 * n) × State → Except Stop α) : Prop :=
  ∀ s e, i.Permitted s → fetchSource k src dst s >>= rest s = .error e → bodyOf i s = .error e

section
variable {n m : Nat} {α : Type} {i : Instr} {k : Bank} {src : Gen n} {dst : Gen m}
  {rest : State → Loc m × BitVec (8 * n) × State → Except Stop α}

theorem BeginsWith.exec_fetch_abort (hbody : BeginsWith i k src dst rest) {s : State} (hw : i.wellFormed = true)
    (hp : i.Permitted s) (h : fetchSource k src dst s = .error (.trap .abt)) :
    exec i s = takeTrap .abt s :=
  exec_trap hw (hbody s _ hp (by rw [h]; rfl))

theorem BeginsWith.addressAborts (hbody : BeginsWith i k src dst rest) : AddressAborts i src dst :=
  fun _ hw hp h => hbody.exec_fetch_abort hw hp (fetchSource_abort_address h)

theorem BeginsWith.sourceAborts (hbody : BeginsWith i k src dst rest) : SourceAborts i src dst :=
  fun _ _ _ _ hw hp hs hd ha h => hbody.exec_fetch_abort hw hp (fetchSource_abort_read hs hd ha h)

/-- After the source is read, `rest` decides. -/
theorem BeginsWith.exec_rest_abort (hbody : BeginsWith i k src dst rest) {s : State} {ls : Loc n} {ld : Loc m}
    (hw : i.wellFormed = true) (hp : i.Permitted s) (hs : locate src s = .ok ls) (hd : locate dst s = .ok ld)
    (hr : ls.readable s) (h : rest s (ld, ls.value k s, ls.popped s) = .error (.trap .abt)) :
    exec i s = takeTrap .abt s :=
  exec_trap hw (hbody s _ hp (by rw [fetchSource_ok_iff.2 ⟨ls, hs, hd, hr, rfl, rfl⟩, ok_bind, h]))

end

/-! ## The destination -/

/-- The write of a destination whose translation fails, whatever the value, the FSR and the counter of free
values by then. -/
theorem writeLoc_abort_popped {n m : Nat} {l : Loc n} {k : Bank} {ld : Loc m} {s : State} {a : Word}
    (ha : ld.target (l.popped s) = some a) (h : s.mapped s.space .write a m = false) (w : BitVec (8 * m))
    (fsr : Fsr) (free : Nat) :
    writeLoc k ld w { l.popped s with fsr := fsr, free := free } = .error (.trap .abt) := by
  refine writeLoc_abort (a := a) (by cases ld <;> exact ha) ?_
  refine (State.mapped_congr (s := s) (l.popped_cfg s) (l.popped_mmu s) _ _ _ _).trans ?_
  exact (congrArg (s.mapped · .write a m) (l.space_popped s)).trans h

theorem writePlace_abort_popped {n m : Nat} {l : Loc n} {k : Bank} {ld : Loc m} {s : State} {a : Word}
    (ha : ld.place (l.popped s) = some a) (h : s.mapped s.space .write a m = false) (w : BitVec (8 * m))
    (fsr : Fsr) (free : Nat) :
    writePlace k ld w { l.popped s with fsr := fsr, free := free } = .error (.trap .abt) := by
  refine writePlace_abort (a := a) (by cases ld <;> exact ha) ?_
  refine (State.mapped_congr (s := s) (l.popped_cfg s) (l.popped_mmu s) _ _ _ _).trans ?_
  exact (congrArg (s.mapped · .write a m) (l.space_popped s)).trans h

/-- A destination of class write: `rest` aborts where every write of it does. -/
theorem BeginsWith.moveAborts {n m : Nat} {α : Type} {i : Instr} {k kd : Bank} {src : Gen n} {dst : Gen m}
    {rest : State → Loc m × BitVec (8 * n) × State → Except Stop α} {stores : BitVec (8 * n) → State → Prop}
    (hbody : BeginsWith i k src dst rest)
    (hrest : ∀ s ld v u, stores v s →
      (∀ w fsr free, writeLoc kd ld w { u with fsr := fsr, free := free } = .error (.trap .abt)) →
      rest s (ld, v, u) = .error (.trap .abt)) : MoveAborts i k src dst stores :=
  ⟨hbody.addressAborts, hbody.sourceAborts, fun s _ ld _ hw hp hs hd hr hst ha h =>
    hbody.exec_rest_abort hw hp hs hd hr (hrest s ld _ _ hst (writeLoc_abort_popped ha h))⟩

/-- A destination of class rmw: it is read before it is written. -/
theorem BeginsWith.updateAborts {n : Nat} {α : Type} {i : Instr} {k : Bank} {src dst : Gen n}
    {rest : State → Loc n → BitVec (8 * n) → State → BitVec (8 * n) → Except Stop α}
    {stores : BitVec (8 * n) → BitVec (8 * n) → State → Prop}
    (hbody : BeginsWith i k src dst fun s p => readPlace k p.1 p.2.2 >>= rest s p.1 p.2.1 p.2.2)
    (hrest : ∀ s ld v u b, stores v b s →
      (∀ w fsr free, writePlace k ld w { u with fsr := fsr, free := free } = .error (.trap .abt)) →
      rest s ld v u b = .error (.trap .abt)) : UpdateAborts i k src dst stores := by
  refine ⟨hbody.addressAborts, hbody.sourceAborts, fun s ls ld a hw hp hs hd hr ha => ⟨fun h => ?_,
    fun hread hst h => ?_⟩⟩
  · refine hbody.exec_rest_abort hw hp hs hd hr ?_
    have hm : (ls.popped s).mapped (ls.popped s).space .read a n = false := by
      rw [ls.mapped_popped, ls.space_popped, h]
    simp only [readPlace_abort ha hm, error_bind]
  · refine hbody.exec_rest_abort hw hp hs hd hr ?_
    have hread' : Readable (ls.popped s) (ls.popped s).space a n := by
      rw [ls.space_popped]
      exact (Readable.congr (ls.popped_cfg s) (ls.popped_mmu s) (ls.popped_mem s)).2 hread
    simp only [readPlace_place ha hread', ok_bind]
    exact hrest s ld _ _ _ hst (writePlace_abort_popped ha h)

/-! ## The integer instructions -/

theorem divideAborts {n : Nat} {i : Instr} {src dst : Gen n}
    {f : BitVec (8 * n) → BitVec (8 * n) → Option (BitVec (8 * n))}
    (hbody : ∀ s, bodyOf i s = combineThrough f src dst s >>= advance i)
    (hf : ∀ v b, v ≠ 0#(8 * n) → ∃ r, f v b = some r) :
    UpdateAborts i .int src dst fun v _ _ => v ≠ 0#(8 * n) := by
  refine BeginsWith.updateAborts (rest := fun _ ld v u b => match f v b with
    | none => .error (.trap .dvz)
    | some r => writePlace .int ld r u) (fun s e _ h => ?_) fun s ld v u b hv hwrite => ?_
  · have hc : combineThrough f src dst s = .error e := h
    rw [hbody, hc]
    rfl
  · obtain ⟨r, hr⟩ := hf v b hv
    simp only [hr]
    exact hwrite r u.fsr u.free

theorem modulus_of_ne {w : Nat} (src dest : BitVec w) (h : src ≠ 0#w) : ∃ r, modulus src dest = some r :=
  ⟨_, if_neg h⟩

theorem remainder_of_ne {w : Nat} (src dest : BitVec w) (h : src ≠ 0#w) : ∃ r, remainder src dest = some r :=
  ⟨_, if_neg h⟩

theorem MovesBy.aborts {n m : Nat} {i : Instr} {src : Gen n} {dst : Gen m} {f : BitVec (8 * n) → BitVec (8 * m)}
    {g : BitVec (8 * n) → Psr → Psr} (hbody : MovesBy i src dst f g) :
    MoveAborts i .int src dst fun _ _ => True := by
  refine BeginsWith.moveAborts (kd := .int) (rest := fun _ p => do
    let t ← writeLoc .int p.1 (f p.2.1) p.2.2
    return (p.2.1, t)) (fun s e _ h => ?_) fun s ld v u _ hwrite => ?_
  · have hm : moveThrough f src dst s = .error e := h
    rw [hbody s, hm]
    rfl
  · have hw : writeLoc .int ld (f v) u = .error (.trap .abt) := hwrite (f v) u.fsr u.free
    simp only [hw, error_bind]

theorem quickAborts {m : Nat} {i : Instr} {quick : BitVec 4} {dst : Gen m}
    (hbody : bodyOf i = quickBody i quick dst) : QuickAborts i dst := by
  refine fun s hw => ⟨fun h => exec_trap hw ?_, fun ld a hd ha h => exec_trap hw ?_⟩
  · rw [hbody, quickBody, h]
    rfl
  · rw [hbody, quickBody, hd, ok_bind, writeLoc_abort ha h]
    rfl

/-! ## The floating-point instructions -/

/-- A result to be stored is delivered by a store. -/
theorem deliver_abort {m : Nat} {i : Instr} {store : State → BitVec (8 * m) → Except Stop State} {s u : State}
    {r : FloatResult (8 * m)} (hr : r.stores = true)
    (h : ∀ w fsr free, store { u with fsr := fsr, free := free } w = .error (.trap .abt)) :
    deliver i store s u r = .error (.trap .abt) := by
  cases r with
  | store v fsr drawn =>
    rw [deliver_store, h]
    rfl
  | trap fsr => cases hr

theorem convertAborts {n m : Nat} {i : Instr} {k : Bank} {src : Gen n} {dst : Gen m}
    {f : BitVec (8 * n) → Fsr → Nat → FloatResult (8 * m)} (hfloat : i.isFloat = true)
    (hbody : bodyOf i = convertBody i k src dst f) :
    MoveAborts i k src dst fun v s => (f v s.fsr s.free).stores = true := by
  refine BeginsWith.moveAborts (kd := .float)
    (rest := fun s p => deliver i (fun t r => writeLoc .float p.1 r t) s p.2.2 (f p.2.1 s.fsr s.free))
    (fun s e hp h => ?_) fun s ld v u hst hwrite => deliver_abort hst hwrite
  rw [hbody, convertBody, hp.unit hfloat]
  exact h

theorem multiplyAborts {n : Nat} {i : Instr} {src dst : Gen n} {f : FloatFormat} (hfloat : i.isFloat = true)
    (hbody : bodyOf i = multiplyBody i f src dst) :
    UpdateAborts i .float src dst fun a b s => (multiply f a b s.fsr s.free).stores = true := by
  refine BeginsWith.updateAborts
    (rest := fun s ld a u b =>
      deliver i (fun t r => writePlace .float ld r t) s u (multiply f a b s.fsr s.free))
    (fun s e hp h => ?_) fun s ld a u b hst hwrite => deliver_abort hst hwrite
  rw [hbody, multiplyBody, hp.unit hfloat]
  exact h

/-! ## Operands of class addr -/

/-- An operand that rule R121 admits as an address has one. -/
theorem addrOf_ok_of_admitted {n : Nat} {g : Gen n} {k : Bank} {s : State} {l : Loc n}
    (hg : g.admitted .addr k = true) (h : locate g s = .ok l) : ∃ a, addrOf g s = .ok a := by
  cases located_of_locate h with
  | reg | imm => cases hg
  | tos => exact ⟨s.sp, addrOf_ok_iff.2 ⟨.tos, h, rfl⟩⟩
  | mem a => exact ⟨a, addrOf_ok_iff.2 ⟨.mem a, h, rfl⟩⟩

theorem moveUserAborts {n : Nat} {i : Instr} {src dst : Gen n} (hpriv : i.privileged = true)
    (hform : i.wellFormed = (src.admitted .addr .int && dst.admitted .addr .int))
    (hbody : bodyOf i = moveUserBody i src dst) : AddressAborts i src dst := by
  intro s hw hp h
  refine exec_trap hw ?_
  rw [hform, Bool.and_eq_true_iff] at hw
  rw [hbody, moveUserBody, hp.mode hpriv]
  rcases h with h | ⟨ls, hs, h⟩
  · rw [addrOf_abort h]
    rfl
  · obtain ⟨a, ha⟩ := addrOf_ok_of_admitted hw.1 hs
    rw [ha, addrOf_abort h]
    rfl

theorem validate_aborts (loc : Gen 4) (s : State) (hw : (Instr.rdval loc).wellFormed = true)
    (hp : (Instr.rdval loc).Permitted s) (h : locate loc s = .error (.trap .abt)) :
    exec (.rdval loc) s = takeTrap .abt s := by
  refine exec_trap hw ?_
  rw [bodyOf, validateBody, hp.mmu loc rfl, hp.mode rfl, addrOf_abort h]
  rfl

/-! ## RESTORE -/

/-- The pops before the one that aborts complete. -/
theorem popRegs_abort {r : Fin 8} (rs : List (Fin 8)) (hfall : rs.Pairwise (· > ·)) (s : State) (hr : r ∈ rs)
    (hbefore : ∀ q ∈ rs, r < q → Readable s s.space (s.slotIn rs q) 4)
    (h : s.mapped s.space .read (s.slotIn rs r) 4 = false) : popRegs rs s = .error (.trap .abt) := by
  induction rs generalizing s with
  | nil => cases hr
  | cons q rs ih =>
    obtain ⟨hq, hrs⟩ := List.pairwise_cons.1 hfall
    rcases List.mem_cons.1 hr with rfl | hr
    · rw [State.slotIn_head hq] at h
      rw [popRegs, pop_abort h]
      rfl
    · have hhead := hbefore q (.head _) (hq r hr)
      rw [State.slotIn_head hq] at hhead
      obtain ⟨s1, hs1⟩ : ∃ s1, s1 = (s.setSp (s.sp + 4#32)).setReg q (s.memValue s.space s.sp 4) := ⟨_, rfl⟩
      have hcfg : s1.cfg = s.cfg := by simp [hs1]
      have hmmu : s1.mmu = s.mmu := by simp [hs1]
      have hmem : s1.mem = s.mem := by simp [hs1]
      have hsp : s1.sp = s.sp + 4#32 := by simp [hs1]
      have hspace : s1.space = s.space := by simp [hs1]
      rw [popRegs_cons hhead, ← hs1]
      refine ih hrs s1 hr (fun p hp hrp => ?_) ?_
      · rw [hspace, State.slotIn_tail (hq p hp) hsp]
        exact (Readable.congr hcfg hmmu hmem).2 (hbefore p (.tail _ hp) hrp)
      · rw [hspace, State.slotIn_tail (hq r hr) hsp, State.mapped_congr hcfg hmmu, h]

theorem restore_aborts {m : BitVec 8} {s : State} {r : Fin 8} (hr : listed m r = true)
    (hbefore : ∀ q, listed m q = true → r < q → Readable s s.space (s.slot m q) 4)
    (h : s.mapped s.space .read (s.slot m r) 4 = false) : exec (.restore m) s = takeTrap .abt s := by
  refine exec_trap rfl ?_
  have hpop := popRegs_abort (reglistRegs m) (reglistRegs_falling m) s (mem_reglistRegs.2 hr)
    (fun q hq hrq => by
      rw [slotIn_reglistRegs]
      exact hbefore q (mem_reglistRegs.1 hq) hrq)
    (by rw [slotIn_reglistRegs, h])
  simp only [bodyOf, hpop, error_bind]

/-- Settles O51, one class of instructions at a time. -/
theorem abortsArePrecise : Obligations.AbortsArePrecise := by
  unfold Obligations.AbortsArePrecise
  refine ⟨?divide, ?quick, ?extend, ?logic, ?convert, ?multiply, ?address,
    fun _ _ _ hr hbefore h => restore_aborts hr hbefore h⟩
  case divide =>
    refine ⟨?_, ?_, ?_, ?_, ?_, ?_⟩
    case refine_1 | refine_2 | refine_3 => exact fun _ _ => divideAborts (fun _ => rfl) modulus_of_ne
    case refine_4 | refine_5 | refine_6 => exact fun _ _ => divideAborts (fun _ => rfl) remainder_of_ne
  case quick => exact ⟨fun _ _ => quickAborts rfl, fun _ _ => quickAborts rfl, fun _ _ => quickAborts rfl⟩
  case extend =>
    refine ⟨?_, ?_, ?_, ?_, ?_, ?_⟩
    all_goals exact fun _ _ => MovesBy.aborts (g := fun _ p => p) fun _ => rfl
  case logic =>
    refine ⟨?_, ?_, ?_, ?_, ?_, ?_⟩
    case refine_1 | refine_2 | refine_3 =>
      exact fun _ _ => MovesBy.aborts (g := fun v p => p.afterNegate v) fun _ => rfl
    case refine_4 | refine_5 | refine_6 => exact fun _ _ => MovesBy.aborts (g := fun _ p => p) fun _ => rfl
  case convert =>
    refine ⟨?_, ?_, ?_, ?_, ?_, ?_, ?widen, ?_⟩
    case widen => exact fun _ _ => convertAborts (n := 4) (m := 8) (f := fun v fsr _ => widen v fsr) rfl rfl
    all_goals exact fun _ _ => convertAborts rfl rfl
  case multiply => exact ⟨fun _ _ => multiplyAborts rfl rfl, fun _ _ => multiplyAborts rfl rfl⟩
  case address =>
    exact ⟨fun _ _ => moveUserAborts rfl rfl rfl, fun _ _ => moveUserAborts rfl rfl rfl,
      fun _ _ => moveUserAborts rfl rfl rfl, validate_aborts⟩

end Sys2Proof.Machine
end

section
/-! Proof of MultiplyCompletes. A rounded number has a full-width fraction, is inexact exactly where it
differs from the exact one, and is encoded as a normalized operand of its value (rules R151, R153); so the
finish of a result (rule R158) stores that number or raises Trap(FPU), whatever the instruction. -/

namespace Sys2Proof.Machine

/-! ## Signed multiples of powers of two -/

/-- The number `± m * 2 ^ e`. -/
def scaled (neg : Bool) (m : Nat) (e : Int) : Rat :=
  (if neg then -1 else 1) * (m : Rat) * (2 : Rat) ^ e

theorem Exact.toRat_eq_scaled (x : Exact) : x.toRat = scaled x.neg x.mant x.exp := rfl

theorem Rounded.toRat_eq_scaled (y : Rounded) : y.toRat = scaled y.neg y.sig y.exp := rfl

theorem scaled_inj {neg : Bool} {a b : Nat} {e : Int} : scaled neg a e = scaled neg b e ↔ a = b := by
  have hpow : (2 : Rat) ^ e ≠ 0 := zpow_ne_zero e two_ne_zero
  cases neg <;> simp [scaled, hpow]

/-- Factors of two move between the multiple and the power. -/
theorem scaled_mul_pow (neg : Bool) (a k : Nat) (e : Int) : scaled neg (a * 2 ^ k) e = scaled neg a (e + k) := by
  rw [scaled, scaled, zpow_add₀ two_ne_zero, zpow_natCast, Nat.cast_mul, Nat.cast_pow, Nat.cast_ofNat]
  ring

/-! ## Rounding (rule R153) -/

/-- What rule R153 asks of a rounded number: a full-width fraction, and inexact where the number changed. -/
structure Rounded.Sound (f : FloatFormat) (y : Rounded) (x : Exact) : Prop where
  low : 2 ^ f.fracBits ≤ y.sig
  high : y.sig < 2 ^ (f.fracBits + 1)
  inexact : y.inexact = true ↔ y.toRat ≠ x.toRat

theorem roundsUp_exact (rm : RoundMode) (neg : Bool) (q k : Nat) : roundsUp rm neg q 0 k = false := by
  have hk : (0 == 2 ^ k) = false := beq_false_of_ne (Nat.two_pow_pos k).ne
  cases rm <;> simp [roundsUp, hk]

/-- A number that fits the fraction is widened to it. -/
theorem roundExact_sound_short {f : FloatFormat} (rm : RoundMode) {x : Exact} (hx : x.mant ≠ 0)
    (h : x.mant.log2 + 1 ≤ f.fracBits + 1) : (roundExact f rm x).Sound f x := by
  have hy : roundExact f rm x = ⟨x.neg, x.mant * 2 ^ (f.fracBits - x.mant.log2),
      x.exp - ((f.fracBits - x.mant.log2 : Nat) : Int), false⟩ := by
    simp only [roundExact, if_pos h, Nat.add_sub_add_right]
  have hpow : 2 ^ x.mant.log2 * 2 ^ (f.fracBits - x.mant.log2) = 2 ^ f.fracBits := by
    rw [← Nat.pow_add, Nat.add_sub_cancel' (by omega)]
  have hpos := Nat.two_pow_pos (f.fracBits - x.mant.log2)
  rw [hy]
  refine ⟨?_, ?_, ?_⟩
  · rw [← hpow]
    exact Nat.mul_le_mul_right _ (Nat.log2_self_le hx)
  · rw [Nat.pow_succ, ← hpow, Nat.mul_right_comm, ← Nat.pow_succ]
    exact Nat.mul_lt_mul_of_pos_right Nat.lt_log2_self hpos
  · rw [Rounded.toRat_eq_scaled, Exact.toRat_eq_scaled, scaled_mul_pow, sub_add_cancel]
    simp

/-- Without its low `k` bits, a number of `p + 1 + k` bits has `p + 1`. -/
theorem quotient_width {a p k : Nat} (ha : a ≠ 0) (hk : a.log2 = p + k) :
    2 ^ p ≤ a / 2 ^ k ∧ a / 2 ^ k < 2 ^ (p + 1) := by
  have hpos := Nat.two_pow_pos k
  constructor
  · rw [Nat.le_div_iff_mul_le hpos, ← Nat.pow_add, ← hk]
    exact Nat.log2_self_le ha
  · rw [Nat.div_lt_iff_lt_mul hpos, ← Nat.pow_add, Nat.add_right_comm, ← hk]
    exact Nat.lt_log2_self

/-- The quotient that a number's magnitude is rounded to, its low `k` bits taken off. -/
def roundedQuotient (rm : RoundMode) (neg : Bool) (a k : Nat) : Nat :=
  if roundsUp rm neg (a / 2 ^ k) (a % 2 ^ k) k then a / 2 ^ k + 1 else a / 2 ^ k

/-- It is the quotient or one more, and the number itself exactly where no bit was lost. -/
theorem roundedQuotient_spec (rm : RoundMode) (neg : Bool) (a k : Nat) :
    a / 2 ^ k ≤ roundedQuotient rm neg a k ∧ roundedQuotient rm neg a k ≤ a / 2 ^ k + 1 ∧
      (roundedQuotient rm neg a k * 2 ^ k = a ↔ a % 2 ^ k = 0) := by
  have hdiv := Nat.div_add_mod' a (2 ^ k)
  have hrem := Nat.mod_lt a (Nat.two_pow_pos k)
  unfold roundedQuotient
  split
  · have hne : a % 2 ^ k ≠ 0 := fun h0 => by simp [h0, roundsUp_exact] at *
    refine ⟨by omega, le_rfl, ?_⟩
    rw [Nat.add_mul]
    omega
  · exact ⟨le_rfl, by omega, by omega⟩

/-- A longer one loses its low bits; where rounding up carries, the fraction is the least one. -/
theorem roundExact_sound_long {f : FloatFormat} (rm : RoundMode) {x : Exact} (hx : x.mant ≠ 0)
    (h : ¬x.mant.log2 + 1 ≤ f.fracBits + 1) : (roundExact f rm x).Sound f x := by
  obtain ⟨k, hk⟩ : ∃ k, x.mant.log2 = f.fracBits + k := Nat.exists_eq_add_of_le (by omega)
  have hlen : x.mant.log2 + 1 - (f.fracBits + 1) = k := by omega
  obtain ⟨hlow, hhigh⟩ := quotient_width hx hk
  obtain ⟨hge, hle, hlost⟩ := roundedQuotient_spec rm x.neg x.mant k
  have hy : roundExact f rm x = if roundedQuotient rm x.neg x.mant k = 2 ^ (f.fracBits + 1)
      then ⟨x.neg, 2 ^ f.fracBits, x.exp + k + 1, x.mant % 2 ^ k != 0⟩
      else ⟨x.neg, roundedQuotient rm x.neg x.mant k, x.exp + k, x.mant % 2 ^ k != 0⟩ := by
    rw [← hlen]
    exact if_neg h
  generalize roundedQuotient rm x.neg x.mant k = q at hge hle hlost hy
  have hexact : scaled x.neg q (x.exp + k) = x.toRat ↔ x.mant % 2 ^ k = 0 := by
    rw [Exact.toRat_eq_scaled, ← scaled_mul_pow, scaled_inj, hlost]
  rw [hy]
  split
  · have hcarry : scaled x.neg q (x.exp + k) = scaled x.neg (2 ^ f.fracBits) (x.exp + k + 1) := by
      rw [‹q = _›, Nat.pow_succ, ← Nat.pow_one 2, ← Nat.pow_mul, scaled_mul_pow]
      simp
    refine ⟨le_rfl, Nat.pow_lt_pow_succ (by decide), ?_⟩
    rw [Rounded.toRat_eq_scaled]
    simp only [bne_iff_ne, ne_eq, ← hcarry, hexact]
  · refine ⟨hlow.trans hge, ?_, ?_⟩
    · simp only
      omega
    · rw [Rounded.toRat_eq_scaled]
      simp only [bne_iff_ne, ne_eq, hexact]

theorem roundExact_sound (f : FloatFormat) (rm : RoundMode) {x : Exact} (hx : x.mant ≠ 0) :
    (roundExact f rm x).Sound f x := by
  by_cases h : x.mant.log2 + 1 ≤ f.fracBits + 1
  · exact roundExact_sound_short rm hx h
  · exact roundExact_sound_long rm hx h

/-! ## Encoding a rounded number (rule R151) -/

/-- An operand of the format has a sign, an exponent field and a fraction field, and at least the two codes
of the exponent that rule R152 takes out leave others. -/
structure FloatFormat.Layout (f : FloatFormat) (w : Nat) : Prop where
  width : w = f.fracBits + f.expBits + 1
  exponents : 2 ≤ f.expBits

theorem layout_single : FloatFormat.single.Layout 32 := ⟨rfl, by decide⟩

theorem layout_double : FloatFormat.double.Layout 64 := ⟨rfl, by decide⟩

theorem toNat_signedZero {f : FloatFormat} {w : Nat} (hl : f.Layout w) (neg : Bool) :
    (signedZero w neg).toNat = 2 ^ (f.fracBits + f.expBits) * neg.toNat := by
  obtain rfl := hl.width
  cases neg with
  | false => simp [signedZero]
  | true => simp [signedZero, BitVec.toNat_intMin, Nat.mod_eq_of_lt (Nat.pow_lt_pow_succ (by decide : 1 < 2))]

/-- An operand of sign `neg`, exponent field `e` and fraction field `fr`. -/
structure FloatFormat.Fields (f : FloatFormat) {w : Nat} (v : BitVec w) (neg : Bool) (e fr : Nat) : Prop where
  sign : v.msb = neg
  exponent : f.expField v = e
  fraction : f.fracField v = fr

theorem fields_of_toNat {f : FloatFormat} {w : Nat} (hl : f.Layout w) {v : BitVec w} {neg : Bool} {e fr : Nat}
    (he : e < 2 ^ f.expBits) (hfr : fr < 2 ^ f.fracBits)
    (hv : v.toNat = 2 ^ (f.fracBits + f.expBits) * neg.toNat + (e * 2 ^ f.fracBits + fr)) :
    f.Fields v neg e fr := by
  obtain rfl := hl.width
  have hpos := Nat.two_pow_pos f.fracBits
  have hlt : e * 2 ^ f.fracBits + fr < 2 ^ (f.fracBits + f.expBits) := by
    rw [Nat.pow_add]
    nlinarith
  have hfields : v.toNat = (2 ^ f.expBits * neg.toNat + e) * 2 ^ f.fracBits + fr := by
    rw [hv, Nat.pow_add]
    ring
  refine ⟨?_, ?_, ?_⟩
  · rw [BitVec.msb_eq_decide, hv, Nat.add_sub_cancel]
    cases neg with
    | false => simpa using hlt
    | true => simp
  · rw [FloatFormat.expField, hfields, Nat.add_comm, Nat.add_mul_div_right _ _ hpos, Nat.div_eq_of_lt hfr,
      Nat.zero_add, Nat.mul_add_mod, Nat.mod_eq_of_lt he]
  · rw [FloatFormat.fracField, hfields, Nat.add_comm, Nat.add_mul_mod_self_right, Nat.mod_eq_of_lt hfr]

theorem isZero_signedZero {f : FloatFormat} {w : Nat} (hl : f.Layout w) (neg : Bool) :
    f.isZero (signedZero w neg) = true := by
  have hfields := fields_of_toNat (neg := neg) (v := signedZero w neg) hl (Nat.two_pow_pos f.expBits)
    (Nat.two_pow_pos f.fracBits) (by rw [toNat_signedZero hl neg]; simp)
  simp [FloatFormat.isZero, hfields.exponent, hfields.fraction]

theorem isNormalized_of_fields {f : FloatFormat} {w : Nat} {v : BitVec w} {neg : Bool} {e fr : Nat}
    (h : f.Fields v neg e fr) (h0 : e ≠ 0) (h1 : e ≠ 2 ^ f.expBits - 1) : f.isNormalized v = true := by
  simp [FloatFormat.isNormalized, FloatFormat.isZero, FloatFormat.isReserved, h.exponent, h0, h1]

theorem rat_of_fields {f : FloatFormat} {w : Nat} {v : BitVec w} {neg : Bool} {e fr : Nat}
    (h : f.Fields v neg e fr) :
    f.rat v = scaled neg (2 ^ f.fracBits + fr) ((e : Int) - f.bias - f.fracBits) := by
  rw [FloatFormat.rat, Exact.toRat_eq_scaled, FloatFormat.value, h.sign, h.exponent, h.fraction]

/-- The encoding of a rounded number in range is a normalized operand of its value. -/
theorem encode_rounded {f : FloatFormat} {w : Nat} (hl : f.Layout w) {y : Rounded} {x : Exact}
    (hy : y.Sound f x) (hover : y.over f = false) (hunder : y.under f = false) :
    f.isNormalized (y.encode f w) = true ∧ f.rat (y.encode f w) = y.toRat := by
  rw [Rounded.over, decide_eq_false_iff_not, Int.not_lt] at hover
  rw [Rounded.under, decide_eq_false_iff_not, Int.not_lt] at hunder
  obtain ⟨e, he⟩ : ∃ e : Nat, (e : Int) = y.top f + f.bias := ⟨(y.top f + f.bias).toNat, by omega⟩
  obtain ⟨fr, hfr⟩ : ∃ fr, y.sig = 2 ^ f.fracBits + fr := Nat.exists_eq_add_of_le hy.low
  have hfrlt : fr < 2 ^ f.fracBits := by
    have := hy.high
    omega
  have hbias : 2 * (f.bias + 1) = 2 ^ f.expBits := by
    obtain ⟨k, hk⟩ : ∃ k, f.expBits = k + 1 := ⟨f.expBits - 1, by have := hl.exponents; omega⟩
    have := Nat.two_pow_pos k
    rw [FloatFormat.bias, hk, Nat.add_sub_cancel, Nat.pow_succ]
    omega
  have hlow : e * 2 ^ f.fracBits + fr < 2 ^ (f.fracBits + f.expBits) := by
    rw [Nat.pow_add, ← hbias]
    nlinarith
  have hfields : f.Fields (y.encode f w) y.neg e fr := by
    refine fields_of_toNat hl (by omega) hfrlt ?_
    rw [Rounded.encode, ← he, Int.toNat_natCast, hfr, Nat.add_sub_cancel_left, BitVec.toNat_or,
      toNat_signedZero hl, BitVec.toNat_ofNat, Nat.mod_eq_of_lt, Nat.two_pow_add_eq_or_of_lt hlow]
    rw [hl.width, Nat.pow_succ]
    omega
  refine ⟨isNormalized_of_fields hfields (by omega) (by omega), ?_⟩
  rw [rat_of_fields hfields, Rounded.toRat_eq_scaled, hfr, he, Rounded.top]
  congr 1
  omega

/-! ## The finish of a result (rules R158, R159) -/

/-- The state Trap(FPU) is taken in, where the destination holds whatever was stored there. -/
theorem floatTrapped_of_kept {m : Nat} {dst : Gen m} {dest : Option Word} {s u : State} {move : Word}
    (h : OperandsKept .float dst move s u) (hpsr : u.psr = s.psr) (hpc : u.pc = s.pc)
    (hmem : MemoryKept s u s.space dest m) (fsr : Fsr) (free : Nat) :
    FloatTrapped dst dest fsr s { u with sp0 := s.sp0, sp1 := s.sp1, fsr := fsr, free := free } where
  fsr := rfl
  psr := hpsr
  pc := hpc
  sp0 := rfl
  sp1 := rfl
  regs := Vector.ext fun r hr => h.regs ⟨r, hr⟩ (fun hk => by cases hk)
  fregs r hr := h.fregs r fun _ => hr
  memory := hmem
  platform := ⟨h.platform.fp, h.platform.cfg, h.platform.intbase, h.platform.mmu, h.platform.text,
    h.platform.trapEntry, h.platform.endAt⟩
  module := ⟨h.module.sb, h.module.mod, h.module.eois⟩
  irq := h.irq

/-- How one instruction ends for each result: a value is stored with the FSR and the count of free values
drawn, a trap is taken in a state that FloatTrapped admits. -/
structure Delivers {m : Nat} (i : Instr) (dst : Gen m) (dest : Option Word)
    (finished : BitVec (8 * m) → State) (s : State) (result : FloatResult (8 * m)) : Prop where
  free : ∀ v, (finished v).free = s.free
  store : ∀ v fsr drawn, result = .store v fsr drawn →
    exec i s = .next { finished v with fsr := fsr, free := s.free + drawn, pc := s.after i }
  trap : ∀ fsr, result = .trap fsr → ∃ t, exec i s = takeTrap .fpu t ∧ FloatTrapped dst dest fsr s t

/-- A result that draws no free value leaves the counter as it was. -/
theorem Delivers.stored {m : Nat} {i : Instr} {dst : Gen m} {dest : Option Word}
    {finished : BitVec (8 * m) → State} {s : State} {result : FloatResult (8 * m)}
    (h : Delivers i dst dest finished s result) {v : BitVec (8 * m)} {fsr : Fsr}
    (hr : result = .store v fsr 0) :
    exec i s = .next { finished v with fsr := fsr, pc := s.after i } := by
  rw [h.store v fsr 0 hr, Nat.add_zero, ← h.free v]

/-- Rule R158, whatever the instruction. -/
theorem Delivers.finishRuns {m : Nat} {i : Instr} {dst : Gen m} {dest : Option Word} {f : FloatFormat}
    {x : Exact} {finished : BitVec (8 * m) → State} {s : State}
    (h : Delivers i dst dest finished s (finish f (8 * m) x s.fsr s.free)) (hl : f.Layout (8 * m))
    (hx : x.mant ≠ 0) : FinishRuns i dst dest f x finished s := by
  have hy := roundExact_sound f s.fsr.rm hx
  unfold FinishRuns
  unfold finish at h
  dsimp only at h ⊢
  generalize roundExact f s.fsr.rm x = y at h hy ⊢
  cases hover : y.over f with
  | true =>
    simp only [hover, if_true] at h ⊢
    exact h.trap _ rfl
  | false =>
  cases hunder : y.under f with
  | true =>
    cases huen : s.fsr.uen with
    | true =>
      simp only [hover, hunder, huen, if_true] at h ⊢
      exact h.trap _ rfl
    | false =>
      simp only [hover, hunder, huen, if_true] at h ⊢
      exact ⟨_, Config.freeBit (s.free + 1), s.free + 2, isZero_signedZero hl _, h.store _ _ _ rfl⟩
  | false =>
    obtain ⟨hnorm, hrat⟩ := encode_rounded hl hy hover hunder
    cases hinx : y.inexact with
    | true =>
      have hne : y.toRat ≠ x.toRat := hy.inexact.1 hinx
      cases hien : s.fsr.ien with
      | true =>
        simp only [hover, hunder, hinx, hien, if_true] at h ⊢
        simpa [hne] using h.trap _ rfl
      | false =>
        simp only [hover, hunder, hinx, hien, if_true] at h ⊢
        simpa [hne] using ⟨_, hnorm, hrat, h.stored rfl⟩
    | false =>
      have heq : y.toRat = x.toRat := by
        by_contra hne
        simp [hy.inexact.2 hne] at hinx
      simp only [hover, hunder, hinx] at h ⊢
      simpa [heq] using ⟨_, hnorm, hrat.trans heq, h.stored rfl⟩

/-! ## MULf (rules R157, R160) -/

theorem Loc.updatable_aside {n : Nat} {l : Loc n} {s : State} (h : l.updatable s) (fsr : Fsr) (free : Nat) :
    l.updatable { s with fsr := fsr, free := free } := by
  cases l <;> exact h

theorem Loc.placed_aside {n : Nat} (k : Bank) (l : Loc n) (v : BitVec (8 * n)) (s : State) (fsr : Fsr)
    (free : Nat) :
    l.placed k v { s with fsr := fsr, free := free } = { l.placed k v s with fsr := fsr, free := free } := by
  cases l with
  | reg r =>
    cases k with
    | int => rfl
    | float =>
      simp only [Loc.placed, State.setRegValue]
      split <;> rfl
  | imm | tos | mem => rfl

theorem multiplyBody_eq {n : Nat} {i : Instr} {f : FloatFormat} {src dst : Gen n} {s : State} {ls ld : Loc n}
    (hf : s.cfg.f = true) (h : UpdateReady i src dst s ls ld) :
    multiplyBody i f src dst s = deliver i (fun t r => writePlace .float ld r t) s (ls.popped s)
      (multiply f (ls.value .float s) (ld.value .float (ls.popped s)) s.fsr s.free) := by
  rw [multiplyBody, hf, fetchSource_ok_iff.2 ⟨ls, h.source, h.dest, h.readable, rfl, rfl⟩]
  simp only [Bool.not_true, Bool.false_eq_true, if_false, ok_bind, readPlace_ok h.updatable]

/-- One MULf, of whatever length, for each result. -/
theorem multiply_delivers {n : Nat} {i : Instr} {f : FloatFormat} {src dst : Gen n} {s : State} {ls ld : Loc n}
    (hbody : bodyOf i = multiplyBody i f src dst) (hf : s.cfg.f = true) (h : UpdateReady i src dst s ls ld) :
    Delivers i dst (ld.place (ls.popped s)) (fun r => ld.placed .float r (ls.popped s)) s
      (multiply f (ls.value .float s) (ld.value .float (ls.popped s)) s.fsr s.free) where
  free v := by simp
  store v fsr drawn hr := by
    refine exec_ok h.form ?_
    rw [hbody, multiplyBody_eq hf h, hr, deliver_store, writePlace_ok v (Loc.updatable_aside h.updatable _ _),
      Loc.placed_aside, Loc.popped_free]
    exact advance_eq h.fits (by simp)
  trap fsr hr := by
    have hbody := (congrFun hbody s).trans (multiplyBody_eq hf h)
    rw [hr, deliver_trap, floatTrap_ok (writePlace_ok _ h.updatable)] at hbody
    have hkept := OperandsKept.updated (located_of_locate h.source) (located_of_locate h.dest) .float
      ((Config.freeOperand s.free).setWidth (8 * n)) s
    refine ⟨_, exec_stop h.form hbody, floatTrapped_of_kept hkept ?_ ?_ ?_ fsr (s.free + 1)⟩
    · simp
    · simp
    · exact MemoryKept.of_popped (memoryKept_placed .float ld _ (ls.popped s))

theorem value_mul_ne_zero (f : FloatFormat) {w : Nat} (a b : BitVec w) :
    ((f.value a).mul (f.value b)).mant ≠ 0 := by
  have hpos := Nat.two_pow_pos f.fracBits
  exact Nat.mul_ne_zero (Nat.add_pos_left hpos _).ne' (Nat.add_pos_left hpos _).ne'

theorem multiplyRuns {n : Nat} {i : Instr} {f : FloatFormat} {src dst : Gen n}
    (hbody : bodyOf i = multiplyBody i f src dst) (hl : f.Layout (8 * n)) : MultiplyRuns i src dst f := by
  intro s ls ld hf h
  have hd := multiply_delivers hbody hf h
  unfold multiply at hd
  simp only [Bool.or_eq_true] at hd
  dsimp only
  split
  · rw [if_pos ‹_›] at hd
    exact hd.trap _ rfl
  · rw [if_neg ‹_›] at hd
    split
    · rw [if_pos ‹_›] at hd
      rw [hd.stored rfl]
      simp
    · rw [if_neg ‹_›] at hd
      exact hd.finishRuns hl (value_mul_ne_zero f _ _)

/-- Settles O30, one format at a time. -/
theorem multiplyCompletes : Obligations.MultiplyCompletes := by
  unfold Obligations.MultiplyCompletes
  exact ⟨fun _ _ => multiplyRuns rfl layout_single, fun _ _ => multiplyRuns rfl layout_double⟩

end Sys2Proof.Machine
end

section
/-! Proof of DivisionResults and DivisionLaws. Neither result of rule R144 wraps: as integers they are Lean's
floor and truncated remainders of the signed operands. The two definitions of rule R144 over the rationals and
the laws of rule R145 are then facts about these integer remainders. -/

namespace Sys2Proof.Machine

/-! ## The two results as integers -/

/-- The word stored is `BitVec.smod`, whose signed value is the integer remainder itself. -/
theorem modulus_eq_some_iff {w : Nat} {src dest r : BitVec w} :
    modulus src dest = some r ↔ src ≠ 0#w ∧ r.toInt = dest.toInt.fmod src.toInt := by
  rw [← BitVec.toInt_smod, BitVec.toInt_inj, eq_comm (a := r)]
  simp [modulus, ← BitVec.toInt_smod]

/-- The word stored is `BitVec.srem`, whose signed value is the integer remainder itself. -/
theorem remainder_eq_some_iff {w : Nat} {src dest r : BitVec w} :
    remainder src dest = some r ↔ src ≠ 0#w ∧ r.toInt = dest.toInt.tmod src.toInt := by
  rw [← BitVec.toInt_srem, BitVec.toInt_inj, eq_comm (a := r)]
  simp [remainder, ← BitVec.toInt_srem]

/-! ## The quotients over the rationals (rule R144) -/

/-- A negative divisor is made positive by changing the sign of both operands. -/
theorem floor_div_eq_fdiv (a b : Int) : ⌊(a : Rat) / b⌋ = a.fdiv b := by
  have hpos (a : Int) (n : Nat) : ⌊(a : Rat) / (n : Int)⌋ = a.fdiv n := by
    rw [Int.cast_natCast, Rat.floor_intCast_div_natCast, Int.fdiv_eq_ediv_of_nonneg a (Int.natCast_nonneg n)]
  rcases Int.natAbs_eq b with hb | hb
  · rw [hb, hpos]
  · rw [hb, Int.cast_neg, div_neg, ← neg_div, ← Int.cast_neg, hpos, ← Int.neg_fdiv_neg, neg_neg]

theorem ceil_div_eq_neg_fdiv (a b : Int) : ⌈(a : Rat) / b⌉ = -(-a).fdiv b := by
  rw [← floor_div_eq_fdiv, Int.cast_neg, neg_div, Int.floor_neg, neg_neg]

/-- Truncation is floor where the quotient is not negative. -/
theorem tdiv_eq_fdiv_of_quotient_nonneg {a b : Int} (h : 0 ≤ a ∧ 0 ≤ b ∨ a ≤ 0 ∧ b ≤ 0) :
    a.tdiv b = a.fdiv b := by
  rcases h with ⟨ha, hb⟩ | ⟨ha, hb⟩
  · rw [Int.fdiv_eq_tdiv_of_nonneg ha hb]
  · rw [← Int.neg_tdiv_neg, ← Int.neg_fdiv_neg, Int.fdiv_eq_tdiv_of_nonneg (by omega) (by omega)]

theorem trunc_div_eq_tdiv (a b : Int) :
    (if 0 ≤ (a : Rat) / b then ⌊(a : Rat) / b⌋ else ⌈(a : Rat) / b⌉) = a.tdiv b := by
  have hsign : 0 ≤ (a : Rat) / b ↔ 0 ≤ a ∧ 0 ≤ b ∨ a ≤ 0 ∧ b ≤ 0 := by
    simp only [div_nonneg_iff, Int.cast_nonneg_iff, Int.cast_nonpos]
  by_cases h : 0 ≤ (a : Rat) / b
  · rw [if_pos h, floor_div_eq_fdiv, tdiv_eq_fdiv_of_quotient_nonneg (hsign.1 h)]
  · have hneg : 0 ≤ -a ∧ 0 ≤ b ∨ -a ≤ 0 ∧ b ≤ 0 := by
      rw [hsign] at h
      omega
    rw [if_neg h, ceil_div_eq_neg_fdiv, ← tdiv_eq_fdiv_of_quotient_nonneg hneg, Int.neg_tdiv, neg_neg]

/-- Settles O16: the quotients of the two remainders are the floor and the truncation. -/
theorem divisionResults : Obligations.DivisionResults := by
  unfold Obligations.DivisionResults
  intro w src dest hsrc
  rw [trunc_div_eq_tdiv, floor_div_eq_fdiv, ← Int.fmod_def, ← Int.tmod_def]
  obtain ⟨m, hm⟩ := modulus_of_ne src dest hsrc
  obtain ⟨r, hr⟩ := remainder_of_ne src dest hsrc
  exact ⟨⟨m, hm, (modulus_eq_some_iff.1 hm).2⟩, r, hr, (remainder_eq_some_iff.1 hr).2⟩

/-! ## Laws of the two remainders (rule R145) -/

/-- The remainders differ, by one divisor, only where the exact quotient is a negative fraction. -/
theorem fmod_eq_ite_tmod (a b : Int) :
    a.fmod b = if a.tmod b = 0 ∨ (0 < a ↔ 0 < b) then a.tmod b else a.tmod b + b := by
  by_cases hdvd : b ∣ a
  · rw [Int.fmod_eq_zero_of_dvd hdvd, Int.tmod_eq_zero_of_dvd hdvd, if_pos (.inl rfl)]
  · have ha : a ≠ 0 := fun ha => hdvd (ha ▸ Int.dvd_zero b)
    have hrem : a.tmod b ≠ 0 := mt Int.dvd_of_tmod_eq_zero hdvd
    rw [Int.fmod_eq_tmod, if_neg hdvd]
    omega

theorem fmod_nonpos_of_neg (a : Int) {b : Int} (hb : b < 0) : a.fmod b ≤ 0 := by
  have := Int.fmod_nonneg_of_pos (-a) (b := -b) (by omega)
  rw [Int.neg_fmod_neg] at this
  omega

theorem lt_fmod_of_neg (a : Int) {b : Int} (hb : b < 0) : b < a.fmod b := by
  have := Int.fmod_lt_of_pos (-a) (b := -b) (by omega)
  rw [Int.neg_fmod_neg] at this
  omega

theorem fmod_pos_iff {a b : Int} (hb : b ≠ 0) (h : a.fmod b ≠ 0) : 0 < a.fmod b ↔ 0 < b := by
  rcases Int.lt_or_gt_of_ne hb with hneg | hpos
  · have := fmod_nonpos_of_neg a hneg
    omega
  · have := Int.fmod_nonneg_of_pos a hpos
    omega

theorem natAbs_fmod_lt (a : Int) {b : Int} (hb : b ≠ 0) : (a.fmod b).natAbs < b.natAbs := by
  rcases Int.lt_or_gt_of_ne hb with hneg | hpos
  · have := fmod_nonpos_of_neg a hneg
    have := lt_fmod_of_neg a hneg
    omega
  · have := Int.fmod_nonneg_of_pos a hpos
    have := Int.fmod_lt_of_pos a hpos
    omega

theorem tmod_pos_iff {a b : Int} (h : a.tmod b ≠ 0) : 0 < a.tmod b ↔ 0 < a := by
  rw [← Int.sign_eq_one_iff_pos, Int.sign_tmod, if_neg (mt Int.tmod_eq_zero_of_dvd h), Int.sign_eq_one_iff_pos]

theorem natAbs_tmod_lt (a : Int) {b : Int} (hb : b ≠ 0) : (a.tmod b).natAbs < b.natAbs := by
  rw [Int.natAbs_tmod]
  exact Nat.mod_lt _ (Int.natAbs_pos.2 hb)

/-- Settles O17, one law of the integer remainders at a time. -/
theorem divisionLaws : Obligations.DivisionLaws := by
  unfold Obligations.DivisionLaws
  intro w src dest m r hmod hrem
  obtain ⟨hsrc, hm⟩ := modulus_eq_some_iff.1 hmod
  obtain ⟨-, hr⟩ := remainder_eq_some_iff.1 hrem
  simp only [Ne, ← BitVec.toInt_inj, BitVec.toInt_zero, hm, hr] at hsrc ⊢
  exact ⟨fun h => by rw [fmod_eq_ite_tmod, if_pos h], fun h => by rw [fmod_eq_ite_tmod, if_neg h],
    fmod_pos_iff hsrc, tmod_pos_iff, natAbs_fmod_lt _ hsrc, natAbs_tmod_lt _ hsrc, fun hd => by simp [hd]⟩

end Sys2Proof.Machine
end

section
/-! Proof of RoundingIsCorrect. A number of more bits than the format holds lies between two neighbouring numbers
of the format, and rounding takes one of the two; the directions for negative numbers are those for positive
ones mirrored. Rounded to a full-width fraction, the exponent alone decides overflow and underflow. -/

namespace Sys2Proof.Machine

/-! ## Numbers of a format (rule R153) -/

theorem scaled_false (m : Nat) (e : Int) : scaled false m e = (m : Rat) * (2 : Rat) ^ e := by
  simp [scaled]

theorem scaled_true (m : Nat) (e : Int) : scaled true m e = -scaled false m e := by
  simp [scaled]

theorem scaled_false_le {a b : Nat} {e : Int} : scaled false a e ≤ scaled false b e ↔ a ≤ b := by
  rw [scaled_false, scaled_false, mul_le_mul_iff_left₀ (zpow_pos two_pos e), Nat.cast_le]

theorem scaled_false_lt {a b : Nat} {e : Int} : scaled false a e < scaled false b e ↔ a < b := by
  rw [scaled_false, scaled_false, mul_lt_mul_iff_left₀ (zpow_pos two_pos e), Nat.cast_lt]

theorem scaled_false_add (a b : Nat) (e : Int) :
    scaled false a e + scaled false b e = scaled false (a + b) e := by
  simp only [scaled_false, Nat.cast_add, add_mul]

/-- A multiple of at most `2 ^ b` is one below `2 ^ b`, of a larger power of two where it is `2 ^ b` itself. -/
theorem exists_multiple_lt {b m : Nat} (hb : 0 < b) (hm : m ≤ 2 ^ b) (e : Int) :
    ∃ i j : Int, i.natAbs < 2 ^ b ∧ scaled false m e = (i : Rat) * (2 : Rat) ^ j := by
  rcases hm.lt_or_eq with hlt | rfl
  · exact ⟨m, e, by simpa using hlt, by rw [scaled_false, Int.cast_natCast]⟩
  · refine ⟨1, e + b, Nat.one_lt_two_pow hb.ne', ?_⟩
    rw [← Nat.one_mul (2 ^ b), scaled_mul_pow, scaled_false, Nat.cast_one, Int.cast_one]

section
variable {f : FloatFormat}

theorem FloatFormat.Represents.neg {z : Rat} (h : f.Represents z) : f.Represents (-z) := by
  obtain ⟨m, e, hm, rfl⟩ := h
  exact ⟨-m, e, by rwa [Int.natAbs_neg], by rw [Int.cast_neg, neg_mul]⟩

theorem FloatFormat.RepresentsEven.neg {z : Rat} (h : f.RepresentsEven z) : f.RepresentsEven (-z) := by
  obtain ⟨m, e, hm, rfl⟩ := h
  exact ⟨-m, e, by rwa [Int.natAbs_neg], by rw [Int.cast_neg, neg_mul]⟩

theorem FloatFormat.Represents.abs {z : Rat} (h : f.Represents z) : f.Represents |z| := by
  rcases abs_choice z with hz | hz
  · rwa [hz]
  · rw [hz]
    exact h.neg

theorem represents_scaled {m : Nat} (hm : m ≤ 2 ^ (f.fracBits + 1)) (neg : Bool) (e : Int) :
    f.Represents (scaled neg m e) := by
  have hpos : f.Represents (scaled false m e) := exists_multiple_lt (Nat.succ_pos _) hm e
  cases neg with
  | false => exact hpos
  | true =>
    rw [scaled_true]
    exact hpos.neg

theorem representsEven_scaled {m : Nat} (hf : 0 < f.fracBits) (hm : m ≤ 2 ^ (f.fracBits + 1)) (heven : m % 2 = 0)
    (e : Int) : f.RepresentsEven (scaled false m e) := by
  obtain ⟨j, rfl⟩ : ∃ j, m = j * 2 := ⟨m / 2, by omega⟩
  rw [Nat.pow_succ] at hm
  rw [← Nat.pow_one 2, scaled_mul_pow]
  exact exists_multiple_lt hf (by omega) _

/-- Between neighbouring multiples of full width there is no number of the format: a larger step has only
multiples among these, and a smaller one does not reach them. -/
theorem represents_gap {q : Nat} {e : Int} (hq : 2 ^ f.fracBits ≤ q) {z : Rat} (hz : f.Represents z) :
    z ≤ scaled false q e ∨ scaled false (q + 1) e ≤ z := by
  obtain ⟨m, i, hm, rfl⟩ := hz
  rw [scaled_false, scaled_false]
  rcases le_or_gt e i with hei | hie
  · obtain ⟨k, rfl⟩ := Int.le.dest hei
    have hmult : (m : Rat) * 2 ^ (e + k) = ((m * 2 ^ k : Int) : Rat) * 2 ^ e := by
      rw [zpow_add₀ two_ne_zero, zpow_natCast]
      push_cast
      ring
    have hpow : (0 : Rat) < 2 ^ e := zpow_pos two_pos e
    rw [hmult, mul_le_mul_iff_left₀ hpow, mul_le_mul_iff_left₀ hpow]
    rcases le_or_gt (m * 2 ^ k) q with h | h
    · exact .inl (by exact_mod_cast h)
    · exact .inr (by exact_mod_cast h)
  · have hwidth : (m : Rat) ≤ 2 ^ f.fracBits * 2 := by
      rw [Nat.pow_succ] at hm
      exact_mod_cast (show m ≤ ((2 ^ f.fracBits * 2 : Nat) : Int) by omega)
    left
    calc (m : Rat) * 2 ^ i ≤ 2 ^ f.fracBits * 2 * 2 ^ i :=
          mul_le_mul_of_nonneg_right hwidth (zpow_pos two_pos i).le
      _ = 2 ^ f.fracBits * 2 ^ (i + 1) := by rw [zpow_add_one₀ two_ne_zero]; ring
      _ ≤ q * 2 ^ e :=
          mul_le_mul (by exact_mod_cast hq) (zpow_le_zpow_right₀ one_le_two hie)
            (zpow_pos two_pos _).le (Nat.cast_nonneg q)

/-! ## The two neighbours of a number -/

/-- `low` and `high` are neighbouring numbers of the format, and `x` is between them. -/
structure FloatFormat.Brackets (f : FloatFormat) (low x high : Rat) : Prop where
  low_pos : 0 < low
  low_le : low ≤ x
  lt_high : x < high
  represents_low : f.Represents low
  represents_high : f.Represents high
  gap : ∀ z, f.Represents z → z ≤ low ∨ high ≤ z

section
variable {low x high : Rat}

/-- A number of the format on the low side of `x` is no further up than `low`. -/
theorem FloatFormat.Brackets.le_low (h : f.Brackets low x high) {z : Rat} (hz : f.Represents z) (hzx : z ≤ x) :
    z ≤ low :=
  (h.gap z hz).resolve_right (hzx.trans_lt h.lt_high).not_ge

theorem FloatFormat.Brackets.towardZero (h : f.Brackets low x high) : f.IsRounding .towardZero x low := by
  have hx := h.low_pos.trans_le h.low_le
  refine ⟨h.represents_low, ?_, (mul_pos hx h.low_pos).le, fun z hz hzx => ?_⟩
  · rw [abs_of_pos hx, abs_of_pos h.low_pos]
    exact h.low_le
  · rw [abs_of_pos hx] at hzx
    rw [abs_of_pos h.low_pos]
    exact h.le_low hz.abs hzx

theorem FloatFormat.Brackets.towardMinus (h : f.Brackets low x high) : f.IsRounding .towardMinus x low :=
  ⟨h.represents_low, h.low_le, fun _ hz hzx => h.le_low hz hzx⟩

theorem FloatFormat.Brackets.towardPlus (h : f.Brackets low x high) (hne : low ≠ x) :
    f.IsRounding .towardPlus x high := by
  refine ⟨h.represents_high, h.lt_high.le, fun z hz hxz => (h.gap z hz).resolve_left fun hzl => ?_⟩
  exact hne (h.low_le.antisymm (hxz.trans hzl))

/-- The low neighbour is nearest up to the midpoint. -/
theorem FloatFormat.Brackets.nearest_low (h : f.Brackets low x high) (hmid : 2 * x ≤ low + high)
    (htie : 2 * x = low + high → f.RepresentsEven low) : f.IsRounding .nearest x low := by
  have hlow := h.low_le
  refine ⟨h.represents_low, fun z hz => ?_, fun z hz hne heq => htie ?_⟩
  · rw [abs_of_nonneg (sub_nonneg.2 hlow), le_abs]
    rcases h.gap z hz with hz | hz
    · exact .inl (by linarith)
    · exact .inr (by linarith)
  · rw [abs_of_nonneg (sub_nonneg.2 hlow)] at heq
    rcases h.gap z hz with hz | hz
    · rw [abs_of_nonneg (by linarith)] at heq
      exact absurd (by linarith) hne
    · rw [abs_of_nonpos (by linarith [h.lt_high])] at heq
      linarith

/-- The high neighbour is nearest from the midpoint on. -/
theorem FloatFormat.Brackets.nearest_high (h : f.Brackets low x high) (hmid : low + high ≤ 2 * x)
    (htie : 2 * x = low + high → f.RepresentsEven high) : f.IsRounding .nearest x high := by
  have hhigh := h.lt_high
  refine ⟨h.represents_high, fun z hz => ?_, fun z hz hne heq => htie ?_⟩
  · rw [abs_of_neg (sub_neg.2 hhigh), le_abs]
    rcases h.gap z hz with hz | hz
    · exact .inl (by linarith)
    · exact .inr (by linarith)
  · rw [abs_of_neg (sub_neg.2 hhigh)] at heq
    rcases h.gap z hz with hz | hz
    · rw [abs_of_nonneg (by linarith [h.low_le])] at heq
      linarith
    · rw [abs_of_nonpos (by linarith)] at heq
      exact absurd (by linarith) hne

end

/-! ## Negative numbers -/

/-- The mode that rounds `-x` as the given one rounds `x`. -/
def RoundMode.mirror : RoundMode → RoundMode
  | .nearest => .nearest
  | .towardZero => .towardZero
  | .towardPlus => .towardMinus
  | .towardMinus => .towardPlus

theorem roundedQuotient_mirror (rm : RoundMode) (a k : Nat) :
    roundedQuotient rm.mirror false a k = roundedQuotient rm true a k := by
  cases rm <;> simp [roundedQuotient, roundsUp, RoundMode.mirror]

theorem isRounding_of_mirror {rm : RoundMode} {x y : Rat} (h : f.IsRounding rm.mirror x y) :
    f.IsRounding rm (-x) (-y) := by
  have hdist (z : Rat) : |-x - z| = |x - -z| := by rw [← abs_neg, neg_sub, sub_neg_eq_add, sub_neg_eq_add, add_comm]
  obtain ⟨hy, h⟩ := h
  refine ⟨hy.neg, ?_⟩
  cases rm with
  | nearest =>
    obtain ⟨hmin, htie⟩ := h
    simp only [hdist, neg_neg]
    exact ⟨fun z hz => hmin _ hz.neg, fun z hz hne heq => (htie _ hz.neg (by rwa [Ne, neg_eq_iff_eq_neg]) heq).neg⟩
  | towardZero =>
    simp only [abs_neg, neg_mul_neg]
    exact h
  | towardPlus =>
    obtain ⟨hle, hmin⟩ := h
    exact ⟨neg_le_neg hle, fun z hz hzx => neg_le.1 (hmin _ hz.neg (neg_le.1 hzx))⟩
  | towardMinus =>
    obtain ⟨hle, hmin⟩ := h
    exact ⟨neg_le_neg hle, fun z hz hzx => le_neg.1 (hmin _ hz.neg (le_neg.1 hzx))⟩

/-! ## Rounding is correct -/

/-- A number of more bits than the format holds is between its quotient's two multiples. -/
theorem brackets_quotient {a k : Nat} (e : Int) (ha : a ≠ 0) (hk : a.log2 = f.fracBits + k) :
    f.Brackets (scaled false (a / 2 ^ k) (e + k)) (scaled false a e) (scaled false (a / 2 ^ k + 1) (e + k)) := by
  obtain ⟨hlow, hhigh⟩ := quotient_width ha hk
  have hdiv := Nat.div_add_mod' a (2 ^ k)
  have hrem := Nat.mod_lt a (Nat.two_pow_pos k)
  refine ⟨?_, ?_, ?_, represents_scaled hhigh.le _ _, represents_scaled hhigh _ _,
    fun z hz => represents_gap hlow hz⟩
  · rw [scaled_false]
    exact mul_pos (Nat.cast_pos.2 ((Nat.two_pow_pos _).trans_le hlow)) (zpow_pos two_pos _)
  · rw [← scaled_mul_pow, scaled_false_le]
    omega
  · rw [← scaled_mul_pow, scaled_false_lt, Nat.add_mul]
    omega

/-- The nearest mode takes the nearer neighbour, of two equally near the even one. -/
theorem isRounding_nearest {a k : Nat} (e : Int) (hf : 0 < f.fracBits) (ha : a ≠ 0)
    (hk : a.log2 = f.fracBits + k) :
    f.IsRounding .nearest (scaled false a e) (scaled false (roundedQuotient .nearest false a k) (e + k)) := by
  have hb := brackets_quotient e ha hk
  obtain ⟨-, hhigh⟩ := quotient_width ha hk
  have hdiv := Nat.div_add_mod' a (2 ^ k)
  have hdouble : 2 * scaled false a e = scaled false (2 * a) e := by rw [two_mul, scaled_false_add, ← two_mul]
  have hsum : scaled false (a / 2 ^ k) (e + k) + scaled false (a / 2 ^ k + 1) (e + k) =
      scaled false (2 * (a / 2 ^ k * 2 ^ k) + 2 ^ k) e := by
    rw [scaled_false_add, ← scaled_mul_pow]
    congr 1
    ring
  have hround : roundsUp .nearest false (a / 2 ^ k) (a % 2 ^ k) k = true ↔
      2 ^ k < 2 * (a % 2 ^ k) ∨ 2 * (a % 2 ^ k) = 2 ^ k ∧ a / 2 ^ k % 2 = 1 := by
    simp [roundsUp]
  rw [roundedQuotient]
  by_cases hup : roundsUp .nearest false (a / 2 ^ k) (a % 2 ^ k) k = true
  · rw [if_pos hup]
    rw [hround] at hup
    refine hb.nearest_high ?_ fun htie => representsEven_scaled hf hhigh ?_ _
    · rw [hdouble, hsum, scaled_false_le]
      omega
    · rw [hdouble, hsum, scaled_inj] at htie
      omega
  · rw [if_neg hup]
    rw [hround] at hup
    refine hb.nearest_low ?_ fun htie => representsEven_scaled hf hhigh.le ?_ _
    · rw [hdouble, hsum, scaled_false_le]
      omega
    · rw [hdouble, hsum, scaled_inj] at htie
      omega

/-- Each mode takes the neighbour it should, for a positive number. -/
theorem isRounding_positive {a k : Nat} (rm : RoundMode) (e : Int) (hf : 0 < f.fracBits) (ha : a ≠ 0)
    (hk : a.log2 = f.fracBits + k) :
    f.IsRounding rm (scaled false a e) (scaled false (roundedQuotient rm false a k) (e + k)) := by
  have hb := brackets_quotient e ha hk
  cases rm with
  | nearest => exact isRounding_nearest e hf ha hk
  | towardZero => exact hb.towardZero
  | towardMinus =>
    have hq : roundedQuotient .towardMinus false a k = a / 2 ^ k := by simp [roundedQuotient, roundsUp]
    rw [hq]
    exact hb.towardMinus
  | towardPlus =>
    have hdiv := Nat.div_add_mod' a (2 ^ k)
    by_cases hr : a % 2 ^ k = 0
    · have hq : roundedQuotient .towardPlus false a k = a / 2 ^ k := by simp [roundedQuotient, roundsUp, hr]
      have hx : scaled false (a / 2 ^ k) (e + k) = scaled false a e := by
        rw [← scaled_mul_pow, scaled_inj]
        omega
      rw [hq, hx]
      exact ⟨hx ▸ hb.represents_low, le_rfl, fun _ _ hxz => hxz⟩
    · have hq : roundedQuotient .towardPlus false a k = a / 2 ^ k + 1 := by simp [roundedQuotient, roundsUp, hr]
      rw [hq]
      refine hb.towardPlus fun hx => ?_
      rw [← scaled_mul_pow, scaled_inj] at hx
      omega

/-- A number of the format is its own rounding. -/
theorem isRounding_self (rm : RoundMode) {x : Rat} (hx : f.Represents x) : f.IsRounding rm x x := by
  refine ⟨hx, ?_⟩
  cases rm with
  | nearest =>
    simp only [sub_self, abs_zero, abs_nonneg, implies_true, true_and]
    intro z _ hne heq
    exact absurd (sub_eq_zero.1 (abs_eq_zero.1 heq)).symm hne
  | towardZero => exact ⟨le_rfl, mul_self_nonneg x, fun _ _ hz => hz⟩
  | towardPlus | towardMinus => exact ⟨le_rfl, fun _ _ hz => hz⟩

/-- The number a longer one is rounded to, whether or not rounding up carries. -/
theorem roundExact_toRat_long (rm : RoundMode) {x : Exact} {k : Nat} (hlen : f.fracBits < x.mant.log2)
    (hk : x.mant.log2 = f.fracBits + k) :
    (roundExact f rm x).toRat = scaled x.neg (roundedQuotient rm x.neg x.mant k) (x.exp + k) := by
  have hsub : x.mant.log2 + 1 - (f.fracBits + 1) = k := by omega
  have hy : roundExact f rm x = if roundedQuotient rm x.neg x.mant k = 2 ^ (f.fracBits + 1)
      then ⟨x.neg, 2 ^ f.fracBits, x.exp + k + 1, x.mant % 2 ^ k != 0⟩
      else ⟨x.neg, roundedQuotient rm x.neg x.mant k, x.exp + k, x.mant % 2 ^ k != 0⟩ := by
    rw [← hsub]
    exact if_neg (by omega)
  rw [hy]
  split
  · rw [‹roundedQuotient _ _ _ _ = _›, Nat.pow_add, scaled_mul_pow]
    rfl
  · rfl

/-- Rule R153: rounding gives the number the mode asks for. -/
theorem roundExact_isRounding (rm : RoundMode) {x : Exact} (hf : 0 < f.fracBits) (hx : x.mant ≠ 0) :
    f.IsRounding rm x.toRat (roundExact f rm x).toRat := by
  by_cases hlen : f.fracBits < x.mant.log2
  · obtain ⟨k, hk⟩ := Nat.exists_eq_add_of_le hlen.le
    rw [roundExact_toRat_long rm hlen hk, Exact.toRat_eq_scaled]
    cases x.neg with
    | false => exact isRounding_positive rm x.exp hf hx hk
    | true =>
      rw [scaled_true, scaled_true, ← roundedQuotient_mirror]
      exact isRounding_of_mirror (isRounding_positive rm.mirror x.exp hf hx hk)
  · have hexact : (roundExact f rm x).inexact = false := by
      simp only [roundExact, if_pos (show x.mant.log2 + 1 ≤ f.fracBits + 1 by omega)]
    have hsame : (roundExact f rm x).toRat = x.toRat := by
      by_contra hne
      simp [(roundExact_sound f rm hx).inexact.2 hne] at hexact
    rw [hsame]
    refine isRounding_self rm ?_
    rw [Exact.toRat_eq_scaled]
    refine represents_scaled (Nat.lt_log2_self.le.trans (Nat.pow_le_pow_right two_pos ?_)) _ _
    omega

/-! ## Overflow and underflow -/

/-- The magnitude of a rounded number is read off its exponent. -/
theorem Rounded.Sound.two_zpow_le_abs_iff {y : Rounded} {x : Exact} (hy : y.Sound f x) (n : Int) :
    (2 : Rat) ^ n ≤ |y.toRat| ↔ n ≤ y.top f := by
  have habs : |y.toRat| = (y.sig : Rat) * 2 ^ y.exp := by
    have hnonneg : (0 : Rat) ≤ (y.sig : Rat) * 2 ^ y.exp := by positivity
    rw [Rounded.toRat_eq_scaled]
    cases y.neg with
    | false => rw [scaled_false, abs_of_nonneg hnonneg]
    | true => rw [scaled_true, abs_neg, scaled_false, abs_of_nonneg hnonneg]
  have hpow : (0 : Rat) < 2 ^ y.exp := zpow_pos two_pos _
  have hlow : (2 : Rat) ^ y.top f ≤ |y.toRat| := by
    rw [habs, Rounded.top, add_comm, zpow_add₀ two_ne_zero, zpow_natCast, mul_le_mul_iff_left₀ hpow]
    exact_mod_cast hy.low
  have hhigh : |y.toRat| < (2 : Rat) ^ (y.top f + 1) := by
    rw [habs, Rounded.top, show y.exp + f.fracBits + 1 = ((f.fracBits + 1 : Nat) : Int) + y.exp by push_cast; ring,
      zpow_add₀ two_ne_zero, zpow_natCast, mul_lt_mul_iff_left₀ hpow]
    exact_mod_cast hy.high
  constructor
  · intro h
    exact Int.lt_add_one_iff.1 ((zpow_lt_zpow_iff_right₀ one_lt_two).1 (h.trans_lt hhigh))
  · intro h
    exact (zpow_le_zpow_right₀ one_le_two h).trans hlow

theorem Rounded.Sound.over_iff {y : Rounded} {x : Exact} (hy : y.Sound f x) :
    y.over f = true ↔ (2 : Rat) ^ (f.bias + 1 : Int) ≤ |y.toRat| := by
  rw [hy.two_zpow_le_abs_iff, Rounded.over, decide_eq_true_iff, Int.add_one_le_iff]

theorem Rounded.Sound.under_iff {y : Rounded} {x : Exact} (hy : y.Sound f x) :
    y.under f = true ↔ |y.toRat| < (2 : Rat) ^ (1 - f.bias : Int) := by
  rw [← not_le, hy.two_zpow_le_abs_iff, Rounded.under, decide_eq_true_iff, not_le]

end

/-- Settles O31: the rounding, then the limits of each format. -/
theorem roundingIsCorrect : Obligations.RoundingIsCorrect := by
  unfold Obligations.RoundingIsCorrect
  refine ⟨fun f rm x hf hx => ?_, fun rm x hx => ?_, fun rm x hx => ?_⟩
  · have hy := roundExact_sound f rm hx
    exact ⟨roundExact_isRounding rm hf hx, hy.low, hy.high, hy.inexact⟩
  · have hy := roundExact_sound .single rm hx
    exact ⟨hy.over_iff, hy.under_iff⟩
  · have hy := roundExact_sound .double rm hx
    exact ⟨hy.over_iff, hy.under_iff⟩

end Sys2Proof.Machine
end

section
/-! Proofs about the floating-point instructions: without the unit (FloatUnitAbsent), the table of products
(ProductTable), the conversions (ExactConversions, RoundedConversion, WidenCompletes, NarrowCompletes), and what
all ten leave unchanged (FloatFrame). A conversion delivers its result as MULf does, so the finish of rule R158
is the same; an integer's exponent is far from the limits, so its finish is the rounded number. -/

namespace Sys2Proof.Machine

/-! ## Without the floating-point unit (rule R150) -/

theorem convertBody_absent {n m : Nat} {i : Instr} {k : Bank} {src : Gen n} {dst : Gen m}
    {f : BitVec (8 * n) → Fsr → Nat → FloatResult (8 * m)} {s : State} (h : s.cfg.f = false) :
    convertBody i k src dst f s = .error (.trap .und) := by
  rw [convertBody, h]
  rfl

theorem multiplyBody_absent {n : Nat} {i : Instr} {f : FloatFormat} {src dst : Gen n} {s : State}
    (h : s.cfg.f = false) : multiplyBody i f src dst s = .error (.trap .und) := by
  rw [multiplyBody, h]
  rfl

/-- Settles O33, one kind of body at a time. -/
theorem floatUnitAbsent : Obligations.FloatUnitAbsent := by
  unfold Obligations.FloatUnitAbsent
  intro i s hi hw hf
  cases i with
  | movfl => exact exec_trap hw (convertBody_absent (n := 4) (m := 8) (f := fun v fsr _ => widen v fsr) hf)
  | movbf | movwf | movdf | movbl | movwl | movdl | movlf => exact exec_trap hw (convertBody_absent hf)
  | mulf | mull => exact exec_trap hw (multiplyBody_absent hf)
  | _ => cases hi

/-! ## The table of products (rule R160) -/

theorem fields_signedZero {f : FloatFormat} {w : Nat} (hl : f.Layout w) (neg : Bool) :
    f.Fields (signedZero w neg) neg 0 0 :=
  fields_of_toNat hl (Nat.two_pow_pos _) (Nat.two_pow_pos _) (by rw [toNat_signedZero hl]; simp)

theorem Exact.toRat_mul (a b : Exact) : (a.mul b).toRat = a.toRat * b.toRat := by
  obtain ⟨na, ma, ea⟩ := a
  obtain ⟨nb, mb, eb⟩ := b
  have hpow : (2 : Rat) ^ (ea + eb) = 2 ^ ea * 2 ^ eb := zpow_add₀ two_ne_zero ea eb
  simp only [Exact.toRat, Exact.mul, hpow, Nat.cast_mul]
  cases na <;> cases nb <;> simp <;> ring

theorem isNormalized_iff {f : FloatFormat} {w : Nat} {v : BitVec w} :
    f.isNormalized v = true ↔ f.isZero v = false ∧ f.isReserved v = false := by
  simp [FloatFormat.isNormalized]

theorem multiply_zero {f : FloatFormat} {w : Nat} {a b : BitVec w} (ha : f.isReserved a = false)
    (hb : f.isReserved b = false) (hz : f.isZero a = true ∨ f.isZero b = true) (fsr : Fsr) (free : Nat) :
    multiply f a b fsr free = .store (signedZero w (a.msb != b.msb)) fsr 0 := by
  simp [multiply, ha, hb, hz]

theorem multiply_normalized {f : FloatFormat} {w : Nat} {a b : BitVec w} (ha : f.isNormalized a = true)
    (hb : f.isNormalized b = true) (fsr : Fsr) (free : Nat) :
    multiply f a b fsr free = finish f w ((f.value a).mul (f.value b)) fsr free := by
  obtain ⟨haz, har⟩ := isNormalized_iff.1 ha
  obtain ⟨hbz, hbr⟩ := isNormalized_iff.1 hb
  simp [multiply, haz, har, hbz, hbr]

/-- Settles O32: the zero entries, then the exact product. -/
theorem productTable : Obligations.ProductTable := by
  unfold Obligations.ProductTable
  intro f w a b fsr free hfw
  have hl : f.Layout w := by
    rcases hfw with ⟨rfl, rfl⟩ | ⟨rfl, rfl⟩
    · exact layout_single
    · exact layout_double
  refine ⟨fun ha hb hz => ?_, fun ha hb => ?_⟩
  · refine ⟨_, multiply_zero ha hb hz fsr free, isZero_signedZero hl _, ?_⟩
    rw [(fields_signedZero hl _).sign, Bool.bne_eq_xor]
  · exact ⟨_, Exact.toRat_mul _ _, multiply_normalized ha hb fsr free⟩

/-! ## A conversion's result is delivered (rules R154 to R156) -/

theorem Loc.writable_aside {n : Nat} {l : Loc n} {s : State} (h : l.writable s) (fsr : Fsr) (free : Nat) :
    l.writable { s with fsr := fsr, free := free } := by
  cases l <;> exact h

theorem State.setSp_aside (s : State) (v : Word) (fsr : Fsr) (free : Nat) :
    ({ s with fsr := fsr, free := free } : State).setSp v = { s.setSp v with fsr := fsr, free := free } := by
  simp only [State.setSp]
  split <;> rfl

theorem Loc.stored_aside {n : Nat} (k : Bank) (l : Loc n) (v : BitVec (8 * n)) (s : State) (fsr : Fsr)
    (free : Nat) :
    l.stored k v { s with fsr := fsr, free := free } = { l.stored k v s with fsr := fsr, free := free } := by
  cases l with
  | reg r => exact Loc.placed_aside k (.reg r) v s fsr free
  | tos => exact State.setSp_aside (s.store s.space _ v) _ fsr free
  | imm | mem => rfl

theorem convertBody_eq {n m : Nat} {i : Instr} {k : Bank} {src : Gen n} {dst : Gen m}
    {f : BitVec (8 * n) → Fsr → Nat → FloatResult (8 * m)} {s : State} {ls : Loc n} {ld : Loc m}
    (hf : s.cfg.f = true) (hs : locate src s = .ok ls) (hd : locate dst s = .ok ld) (hr : ls.readable s) :
    convertBody i k src dst f s = deliver i (fun t r => writeLoc .float ld r t) s (ls.popped s)
      (f (ls.value k s) s.fsr s.free) := by
  rw [convertBody, hf, fetchSource_ok_iff.2 ⟨ls, hs, hd, hr, rfl, rfl⟩]
  rfl

/-- One conversion, of whatever lengths, for each result. -/
theorem convert_delivers {n m : Nat} {i : Instr} {k : Bank} {src : Gen n} {dst : Gen m}
    {f : BitVec (8 * n) → Fsr → Nat → FloatResult (8 * m)} {s : State} {ls : Loc n} {ld : Loc m}
    (hbody : bodyOf i = convertBody i k src dst f) (hf : s.cfg.f = true) (h : MoveReady i src dst s ls ld) :
    Delivers i dst (ld.target (ls.popped s)) (fun r => ld.stored .float r (ls.popped s)) s
      (f (ls.value k s) s.fsr s.free) where
  free v := by simp
  store v fsr drawn hr := by
    refine exec_ok h.form ?_
    rw [hbody, convertBody_eq hf h.source h.dest h.readable, hr, deliver_store,
      writeLoc_ok_iff.2 ⟨Loc.writable_aside h.writable _ _, rfl⟩, Loc.stored_aside, Loc.popped_free]
    exact advance_eq h.fits (by simp)
  trap fsr hr := by
    have hbody := (congrFun hbody s).trans (convertBody_eq hf h.source h.dest h.readable)
    rw [hr, deliver_trap, floatTrap_ok (writeLoc_ok_iff.2 ⟨h.writable, rfl⟩)] at hbody
    have hkept := OperandsKept.moved (located_of_locate h.source) (located_of_locate h.dest) .float
      ((Config.freeOperand s.free).setWidth (8 * m)) s
    refine ⟨_, exec_stop h.form hbody, floatTrapped_of_kept hkept ?_ ?_ ?_ fsr (s.free + 1)⟩
    · simp
    · simp
    · exact MemoryKept.of_popped (memoryKept_stored .float ld _ (ls.popped s))

/-- A conversion that leaves the FSR and draws nothing. -/
theorem Delivers.stored_quiet {n m : Nat} {i : Instr} {dst : Gen m} {dest : Option Word} {ls : Loc n} {ld : Loc m}
    {s : State} {result : FloatResult (8 * m)}
    (h : Delivers i dst dest (fun r => ld.stored .float r (ls.popped s)) s result) {v : BitVec (8 * m)}
    (hr : result = .store v s.fsr 0) :
    exec i s = .next { ld.stored .float v (ls.popped s) with pc := s.after i } := by
  rw [h.stored hr]
  simp

/-! ## MOVif (rule R154) -/

theorem Exact.toRat_ofInt (x : Int) : (Exact.ofInt x).toRat = x := by
  rw [Exact.toRat_eq_scaled, Exact.ofInt]
  dsimp only
  rcases lt_or_ge x 0 with hx | hx
  · rw [decide_eq_true hx, scaled_true, scaled_false, zpow_zero, mul_one, ← Int.cast_natCast, ← Int.cast_neg]
    congr 1
    omega
  · rw [decide_eq_false hx.not_gt, scaled_false, zpow_zero, mul_one, ← Int.cast_natCast, Int.natAbs_of_nonneg hx]

theorem Exact.mant_ofInt_ne_zero {x : Int} (hx : x ≠ 0) : (Exact.ofInt x).mant ≠ 0 :=
  Int.natAbs_ne_zero.2 hx

/-- Rounding keeps a number's exponent, or raises it by one where it carries. -/
theorem roundExact_top (f : FloatFormat) (rm : RoundMode) (x : Exact) :
    x.exp + x.mant.log2 ≤ (roundExact f rm x).top f ∧ (roundExact f rm x).top f ≤ x.exp + x.mant.log2 + 1 := by
  simp only [roundExact, Rounded.top]
  split
  · dsimp only
    omega
  · generalize ite (roundsUp _ _ _ _ _ = true) _ _ = q
    split <;> dsimp only <;> omega

/-- An integer does not underflow. -/
theorem under_ofInt {f : FloatFormat} (hbias : 0 < f.bias) (rm : RoundMode) (x : Int) :
    (roundExact f rm (Exact.ofInt x)).under f = false := by
  have htop := (roundExact_top f rm (Exact.ofInt x)).1
  have hexp : (Exact.ofInt x).exp = 0 := rfl
  rw [Rounded.under, decide_eq_false_iff_not]
  omega

/-- An integer of few enough bits does not overflow. -/
theorem over_ofInt {f : FloatFormat} (rm : RoundMode) {x : Int} (hx : x ≠ 0) {b : Nat} (hb : x.natAbs < 2 ^ b)
    (hbias : b ≤ f.bias) : (roundExact f rm (Exact.ofInt x)).over f = false := by
  have htop := (roundExact_top f rm (Exact.ofInt x)).2
  have hexp : (Exact.ofInt x).exp = 0 := rfl
  have hlog : (Exact.ofInt x).mant.log2 < b := (Nat.log2_lt (Exact.mant_ofInt_ne_zero hx)).2 hb
  rw [Rounded.over, decide_eq_false_iff_not]
  omega

theorem natAbs_toInt_le {w b : Nat} (hw : w ≤ b + 1) (v : BitVec w) : v.toInt.natAbs ≤ 2 ^ b := by
  have hlow := v.le_two_mul_toInt
  have hhigh := v.two_mul_toInt_lt
  have hpow : 2 ^ w ≤ 2 ^ b * 2 := Nat.pow_le_pow_right two_pos hw
  have hcast : ((2 ^ w : Nat) : Int) = 2 ^ w := by push_cast; rfl
  omega

/-- A number of the format is the only one it can be rounded to. -/
theorem eq_of_isRounding {f : FloatFormat} {rm : RoundMode} {x y : Rat} (h : f.IsRounding rm x y)
    (hx : f.Represents x) : y = x := by
  obtain ⟨-, h⟩ := h
  cases rm with
  | nearest =>
    have hdist := h.1 x hx
    rw [sub_self, abs_zero] at hdist
    exact (sub_eq_zero.1 (abs_nonpos_iff.1 hdist)).symm
  | towardZero =>
    obtain ⟨hle, hsign, hmax⟩ := h
    rcases abs_eq_abs.1 (hle.antisymm (hmax x hx le_rfl)) with hy | hy
    · exact hy
    · rw [hy] at hsign ⊢
      have hzero : x = 0 := by nlinarith
      rw [hzero, neg_zero]
  | towardPlus => exact (h.2 x hx le_rfl).antisymm h.1
  | towardMinus => exact h.1.antisymm (h.2 x hx le_rfl)

/-- An integer of the format's width is one of its numbers. -/
theorem represents_int {f : FloatFormat} {x : Int} (hx : x.natAbs ≤ 2 ^ (f.fracBits + 1)) :
    f.Represents (x : Rat) := by
  rw [← Exact.toRat_ofInt]
  exact represents_scaled hx _ _

/-- The finish of an integer other than 0 (rule R158). -/
theorem convertInt_finishRuns {n m : Nat} {i : Instr} {src : Gen n} {dst : Gen m} {f : FloatFormat} {s : State}
    {ls : Loc n} {ld : Loc m} (hbody : bodyOf i = convertBody i .int src dst (convertInt f (8 * m)))
    (hl : f.Layout (8 * m)) (hf : s.cfg.f = true) (h : MoveReady i src dst s ls ld)
    (hx : (ls.value .int s).toInt ≠ 0) :
    FinishRuns i dst (ld.target (ls.popped s)) f (Exact.ofInt (ls.value .int s).toInt)
      (fun r => ld.stored .float r (ls.popped s)) s := by
  have hd := convert_delivers hbody hf h
  rw [convertInt, if_neg hx] at hd
  exact hd.finishRuns hl (Exact.mant_ofInt_ne_zero hx)

/-- A number in range that rounding does not change is stored with the FSR unchanged. -/
theorem FinishRuns.exact {m : Nat} {i : Instr} {dst : Gen m} {dest : Option Word} {f : FloatFormat} {x : Exact}
    {finished : BitVec (8 * m) → State} {s : State} (h : FinishRuns i dst dest f x finished s)
    (hover : (roundExact f s.fsr.rm x).over f = false) (hunder : (roundExact f s.fsr.rm x).under f = false)
    (hy : (roundExact f s.fsr.rm x).toRat = x.toRat) :
    ∃ r : BitVec (8 * m), f.isNormalized r = true ∧ f.rat r = x.toRat ∧
      exec i s = .next { finished r with fsr := s.fsr, pc := s.after i } := by
  unfold FinishRuns at h
  simpa [hover, hunder, hy] using h

/-- One MOVif on integers of the format's width. -/
theorem exactConversionRuns {n m : Nat} {i : Instr} {src : Gen n} {dst : Gen m} {f : FloatFormat}
    {small : Int → Prop} (hbody : bodyOf i = convertBody i .int src dst (convertInt f (8 * m)))
    (hl : f.Layout (8 * m)) (hfrac : 0 < f.fracBits) (hbias : f.fracBits + 2 ≤ f.bias)
    (hsmall : ∀ v : BitVec (8 * n), small v.toInt → v.toInt.natAbs ≤ 2 ^ (f.fracBits + 1)) :
    ExactConversionRuns i src dst f small := by
  intro s ls ld hf h hv
  have habs := hsmall _ hv
  by_cases hx : (ls.value .int s).toInt = 0
  · have hd := convert_delivers hbody hf h
    rw [convertInt, if_pos hx] at hd
    exact ⟨0#(8 * m), hd.stored_quiet rfl, by rw [if_pos hx]⟩
  · have hround := roundExact_isRounding s.fsr.rm hfrac (Exact.mant_ofInt_ne_zero hx)
    rw [Exact.toRat_ofInt] at hround
    have hy := eq_of_isRounding hround (represents_int habs)
    have hlt := habs.trans_lt (Nat.pow_lt_pow_succ (by decide : 1 < 2))
    have hrun := convertInt_finishRuns hbody hl hf h hx
    obtain ⟨r, hnorm, hrat, hexec⟩ := hrun.exact (over_ofInt _ hx hlt hbias) (under_ofInt (by omega) _ _)
      (by rw [hy, Exact.toRat_ofInt])
    rw [Exact.toRat_ofInt] at hrat
    refine ⟨r, ?_, by rw [if_neg hx]; exact ⟨hnorm, hrat⟩⟩
    rw [hexec]
    simp

/-- Settles O26, one pair of lengths at a time. -/
theorem exactConversions : Obligations.ExactConversions := by
  unfold Obligations.ExactConversions
  refine ⟨?_, ?_, ?_, ?_, ?_, ?dwordSingle⟩
  case refine_1 | refine_2 =>
    exact fun _ _ => exactConversionRuns rfl layout_single (by decide) (by decide)
      fun v _ => natAbs_toInt_le (by decide) v
  case refine_3 | refine_4 | refine_5 =>
    exact fun _ _ => exactConversionRuns rfl layout_double (by decide) (by decide)
      fun v _ => natAbs_toInt_le (by decide) v
  case dwordSingle => exact fun _ _ => exactConversionRuns rfl layout_single (by decide) (by decide) fun _ hv => hv

/-- Settles O27: the finish of an integer of 32 bits. -/
theorem roundedConversion : Obligations.RoundedConversion := by
  unfold Obligations.RoundedConversion
  intro src dst s ls ld hf h hx
  have hlt : (ls.value .int s).toInt.natAbs < 2 ^ 32 :=
    (natAbs_toInt_le (b := 31) le_rfl _).trans_lt (by decide)
  have hround := roundExact_isRounding (f := .single) s.fsr.rm (by decide) (Exact.mant_ofInt_ne_zero hx)
  rw [Exact.toRat_ofInt] at hround
  have hrun := convertInt_finishRuns (f := .single) rfl layout_single hf h hx
  unfold FinishRuns at hrun
  dsimp only at hrun
  rw [if_neg (Bool.eq_false_iff.1 (over_ofInt _ hx hlt (by decide))),
    if_neg (Bool.eq_false_iff.1 (under_ofInt (by decide) _ _)), Exact.toRat_ofInt] at hrun
  refine ⟨_, hround, ?_⟩
  simpa only [and_comm] using hrun

/-! ## MOVFL (rule R155) -/

theorem toNat_signBit (v : BitVec 32) : (v.extractLsb' 31 1).toNat = v.msb.toNat := by
  have hlt := v.isLt
  rw [toNat_field, BitVec.msb_eq_decide]
  by_cases h : 2 ^ 31 ≤ v.toNat
  · rw [decide_eq_true h, Bool.toNat_true]
    omega
  · rw [decide_eq_false h, Bool.toNat_false]
    omega

theorem widen_zero_eq (v : BitVec 32) : v.extractLsb' 31 1 ++ 0#63 = signedZero 64 v.msb := by
  refine BitVec.eq_of_toNat_eq ?_
  rw [toNat_signedZero layout_double, toNat_cat, toNat_signBit, Nat.mul_comm]
  rfl

/-- What `widen` stores for an operand that is neither reserved nor a zero. -/
def widened (v : BitVec 32) : BitVec 64 :=
  v.extractLsb' 31 1 ++ ((v.extractLsb' 23 8).setWidth 11 + 896#11) ++ v.extractLsb' 0 23 ++ 0#29

theorem widen_eq_widened {v : BitVec 32} (hr : FloatFormat.single.isReserved v ≠ true)
    (hz : FloatFormat.single.isZero v ≠ true) (fsr : Fsr) : widen v fsr = .store (widened v) fsr 0 := by
  rw [widen, if_neg hr, if_neg hz]
  rfl

theorem fracBits_double : FloatFormat.double.fracBits = 52 := rfl

theorem expBits_double : FloatFormat.double.expBits = 11 := rfl

/-- The exponent is rebiased, the fraction filled up with zeros. -/
theorem fields_widened (v : BitVec 32) :
    FloatFormat.double.Fields (widened v) v.msb (FloatFormat.single.expField v + 896)
      (FloatFormat.single.fracField v * 2 ^ 29) := by
  have he : FloatFormat.single.expField v < 2 ^ 8 := Nat.mod_lt _ (by decide)
  have hfr : FloatFormat.single.fracField v < 2 ^ 23 := Nat.mod_lt _ (by decide)
  have hexp : ((v.extractLsb' 23 8).setWidth 11 + 896#11).toNat = FloatFormat.single.expField v + 896 := by
    have hfield : (v.extractLsb' 23 8).toNat = FloatFormat.single.expField v := toNat_field v 23 8
    rw [BitVec.toNat_add, BitVec.toNat_setWidth, hfield, BitVec.toNat_ofNat]
    omega
  have hfrac : (v.extractLsb' 0 23).toNat = FloatFormat.single.fracField v := by
    rw [toNat_field, pow_zero, Nat.div_one]
    rfl
  refine fields_of_toNat layout_double ?_ ?_ ?_
  · rw [expBits_double]
    omega
  · rw [fracBits_double]
    omega
  · rw [widened, toNat_cat, toNat_cat, toNat_cat, toNat_signBit, hexp, hfrac, BitVec.toNat_ofNat, fracBits_double,
      expBits_double]
    omega

theorem rat_widened (v : BitVec 32) : FloatFormat.double.rat (widened v) = FloatFormat.single.rat v := by
  have hpow : 2 ^ FloatFormat.double.fracBits = 2 ^ FloatFormat.single.fracBits * 2 ^ 29 := by decide
  have hexp : ((FloatFormat.single.expField v + 896 : Nat) : Int) - FloatFormat.double.bias -
      FloatFormat.double.fracBits + 29 =
      FloatFormat.single.expField v - FloatFormat.single.bias - FloatFormat.single.fracBits := by
    simp only [FloatFormat.bias, FloatFormat.single, FloatFormat.double]
    omega
  rw [rat_of_fields (fields_widened v), hpow, ← Nat.add_mul, scaled_mul_pow]
  exact congrArg (scaled v.msb (2 ^ FloatFormat.single.fracBits + FloatFormat.single.fracField v)) hexp

/-- Settles O28: the three kinds of operand. -/
theorem widenCompletes : Obligations.WidenCompletes := by
  unfold Obligations.WidenCompletes
  intro src dst s ls ld hf h
  have hd := convert_delivers (f := fun v fsr _ => widen v fsr) (k := .float) rfl hf h
  split
  · rw [widen, if_pos ‹_›] at hd
    exact hd.trap _ rfl
  · split
    · rw [widen, if_neg ‹_›, if_pos ‹_›, widen_zero_eq] at hd
      exact ⟨_, hd.stored_quiet rfl, (fields_signedZero layout_double _).sign, isZero_signedZero layout_double _⟩
    · rw [widen_eq_widened ‹_› ‹_›] at hd
      have hfields := fields_widened (ls.value .float s)
      have he : FloatFormat.single.expField (ls.value .float s) < 2 ^ 8 := Nat.mod_lt _ (by decide)
      refine ⟨_, hd.stored_quiet rfl, hfields.sign, isNormalized_of_fields hfields (by omega) ?_, rat_widened _⟩
      rw [expBits_double]
      omega

/-! ## MOVLF (rule R156) -/

theorem value_mant_ne_zero (f : FloatFormat) {w : Nat} (v : BitVec w) : (f.value v).mant ≠ 0 :=
  (Nat.add_pos_left (Nat.two_pow_pos f.fracBits) _).ne'

/-- Settles O29: the three kinds of operand; a number's finish is that of rule R158. -/
theorem narrowCompletes : Obligations.NarrowCompletes := by
  unfold Obligations.NarrowCompletes
  intro src dst s ls ld hf h
  have hd := convert_delivers (f := narrow) (k := .float) rfl hf h
  unfold narrow at hd
  split
  · rw [if_pos ‹_›] at hd
    exact hd.trap _ rfl
  · rw [if_neg ‹_›] at hd
    split
    · rw [if_pos ‹_›] at hd
      exact hd.stored_quiet rfl
    · rw [if_neg ‹_›] at hd
      exact hd.finishRuns layout_single (value_mant_ne_zero _ _)

/-! ## What is left unchanged (rules R159, R161) -/

/-- IF at most is set. -/
def MayRaiseInexact (a b : Fsr) : Prop :=
  b = a ∨ b = { a with inx := true }

/-- UF and IF at most are set. -/
def MayRaiseBoth (a b : Fsr) : Prop :=
  b = a ∨ b = { a with inx := true } ∨ b = { a with uf := true } ∨ b = { a with uf := true, inx := true }

theorem MayRaiseInexact.both {a b : Fsr} (h : MayRaiseInexact a b) : MayRaiseBoth a b :=
  h.imp_right .inl

/-- A finish that does not underflow sets IF at most. -/
theorem finish_mayRaiseInexact {f : FloatFormat} {w : Nat} {x : Exact} {a b : Fsr} {free drawn : Nat} {r : BitVec w}
    (hunder : (roundExact f a.rm x).under f = false) (h : finish f w x a free = .store r b drawn) :
    MayRaiseInexact a b := by
  simp only [finish, hunder, Bool.false_eq_true, if_false] at h
  split at h
  · cases h
  · split at h
    · split at h
      · cases h
      · cases h
        exact .inr rfl
    · cases h
      exact .inl rfl

theorem finish_mayRaiseBoth {f : FloatFormat} {w : Nat} {x : Exact} {a b : Fsr} {free drawn : Nat} {r : BitVec w}
    (h : finish f w x a free = .store r b drawn) : MayRaiseBoth a b := by
  cases hunder : (roundExact f a.rm x).under f with
  | false => exact (finish_mayRaiseInexact hunder h).both
  | true =>
    simp only [finish, hunder, if_true] at h
    split at h
    · cases h
    · split at h
      · cases h
      · cases h
        cases hbit : Config.freeBit (free + 1) with
        | true => exact .inr (.inr (.inr (by rw [Bool.or_true])))
        | false => exact .inr (.inr (.inl (by rw [Bool.or_false])))

theorem convertInt_mayRaise {n w : Nat} {f : FloatFormat} (hbias : 0 < f.bias) {v : BitVec n} {a b : Fsr}
    {free drawn : Nat} {r : BitVec w} (h : convertInt f w v a free = .store r b drawn) : MayRaiseInexact a b := by
  rw [convertInt] at h
  split at h
  · cases h
    exact .inl rfl
  · exact finish_mayRaiseInexact (under_ofInt hbias _ _) h

theorem widen_fsr {v : BitVec 32} {a b : Fsr} {drawn : Nat} {r : BitVec 64} (h : widen v a = .store r b drawn) :
    a = b := by
  rw [widen] at h
  split at h
  · cases h
  · split at h <;> cases h <;> rfl

theorem narrow_mayRaise {v : BitVec 64} {a b : Fsr} {free drawn : Nat} {r : BitVec 32}
    (h : narrow v a free = .store r b drawn) : MayRaiseBoth a b := by
  rw [narrow] at h
  split at h
  · cases h
  · split at h
    · cases h
      exact .inl rfl
    · exact finish_mayRaiseBoth h

theorem multiply_mayRaise {f : FloatFormat} {w : Nat} {v d : BitVec w} {a b : Fsr} {free drawn : Nat} {r : BitVec w}
    (h : multiply f v d a free = .store r b drawn) : MayRaiseBoth a b := by
  rw [multiply] at h
  split at h
  · cases h
  · split at h
    · cases h
      exact .inl rfl
    · exact finish_mayRaiseBoth h

/-- What a floating result stored in `dst` leaves: the operands' frame, no PSR flag, no byte but dest's. -/
structure FloatStored {m : Nat} (dst : Gen m) (dest : Option Word) (move : Word) (s t : State) : Prop where
  kept : OperandsKept .float dst move s t
  psr : t.psr = s.psr
  memory : MemoryKept s t s.space dest m

theorem FloatStored.aside {m : Nat} {dst : Gen m} {dest : Option Word} {move : Word} {s t : State}
    (h : FloatStored dst dest move s t) (pc : Word) (fsr : Fsr) (free : Nat) :
    FloatStored dst dest move s { t with pc := pc, fsr := fsr, free := free } :=
  ⟨h.kept.aside rfl pc fsr free, h.psr, h.memory⟩

/-- A store delivers into `dst`, whatever the FSR and the counter of free values it finds. -/
structure StoresFloat {m : Nat} (store : State → BitVec (8 * m) → Except Stop State) (dst : Gen m)
    (dest : Option Word) (move : Word) (s s1 : State) : Prop where
  plain : ∀ t v e, store t v = .error e → e.plain
  stored : ∀ v fsr free t, store { s1 with fsr := fsr, free := free } v = .ok t →
    FloatStored dst dest move s t ∧ t.pc = s.pc ∧ t.fsr = fsr

theorem storesFloat_writeLoc {n m : Nat} {src : Gen n} {dst : Gen m} {s : State} {ls : Loc n} {ld : Loc m}
    (hs : locate src s = .ok ls) (hd : locate dst s = .ok ld) :
    StoresFloat (fun t r => writeLoc .float ld r t) dst (ld.target (ls.popped s)) (src.popMove + dst.pushMove) s
      (ls.popped s) where
  plain _ _ := writeLoc_plain
  stored v fsr free t h := by
    obtain ⟨-, rfl⟩ := writeLoc_ok_iff.1 h
    rw [Loc.stored_aside]
    have hstored : FloatStored dst (ld.target (ls.popped s)) (src.popMove + dst.pushMove) s
        (ld.stored .float v (ls.popped s)) :=
      ⟨.moved (located_of_locate hs) (located_of_locate hd) .float v s, by simp,
        .of_popped (memoryKept_stored .float ld v (ls.popped s))⟩
    exact ⟨hstored.aside _ fsr free, by simp, rfl⟩

theorem storesFloat_writePlace {n : Nat} {src dst : Gen n} {s : State} {ls ld : Loc n}
    (hs : locate src s = .ok ls) (hd : locate dst s = .ok ld) :
    StoresFloat (fun t r => writePlace .float ld r t) dst (ld.place (ls.popped s)) src.popMove s
      (ls.popped s) where
  plain _ _ := writePlace_plain
  stored v fsr free t h := by
    obtain ⟨-, rfl⟩ := writePlace_ok_iff.1 h
    rw [Loc.placed_aside]
    have hplaced : FloatStored dst (ld.place (ls.popped s)) src.popMove s (ld.placed .float v (ls.popped s)) :=
      ⟨.updated (located_of_locate hs) (located_of_locate hd) .float v s, by simp,
        .of_popped (memoryKept_placed .float ld v (ls.popped s))⟩
    exact ⟨hplaced.aside _ fsr free, by simp, rfl⟩

section
variable {m : Nat} {store : State → BitVec (8 * m) → Except Stop State} {dst : Gen m} {dest : Option Word}
  {move : Word} {s s1 : State}

/-- Trap(FPU) is taken with dest stored to, or, where it cannot be, with the FSR alone changed. -/
theorem StoresFloat.floatTrap (h : StoresFloat store dst dest move s s1) (fsr : Fsr) :
    ∃ u, floatTrap (store s1) fsr s = .trapFrom .fpu u ∧ FloatTrapped dst dest fsr s u := by
  unfold Machine.floatTrap
  split
  · obtain ⟨hstored, hpc, -⟩ := h.stored _ s1.fsr s1.free _ ‹_›
    exact ⟨_, rfl, floatTrapped_of_kept hstored.kept hstored.psr hpc hstored.memory fsr _⟩
  · exact ⟨_, rfl, floatTrapped_of_kept (.refl .float dst s) rfl rfl (memoryKept_of_mem rfl _ _ _) fsr s.free⟩

end

/-- How the body of a floating-point instruction ends that keeps its frame: a result stored, the FSR changed as
`fsr` says, Trap(FPU), or a stop that leaves the state as it was. `dest` is where the operands' places put it. -/
def FloatEnds {n m : Nat} (src : Gen n) (dst : Gen m) (dest : Loc n → Loc m → Option Word) (move : Word)
    (fsr : Fsr → Fsr → Prop) (s : State) : Except Stop State → Prop
  | .ok t => OperandsKept .float dst move s t ∧ t.psr = s.psr ∧ fsr s.fsr t.fsr ∧
      ∀ ls ld, locate src s = .ok ls → locate dst s = .ok ld → MemoryKept s t s.space (dest ls ld) m
  | .error e => e.plain ∨ ∃ u, e = .trapFrom .fpu u ∧
      ∀ ls ld, locate src s = .ok ls → locate dst s = .ok ld → FloatTrapped dst (dest ls ld) u.fsr s u

section
variable {n m : Nat} {src : Gen n} {dst : Gen m} {dest : Loc n → Loc m → Option Word} {move : Word}
  {fsr : Fsr → Fsr → Prop} {s : State}

/-- The rest of a body after a part that stops with the state as it was. -/
theorem FloatEnds.bind {α : Type} {x : Except Stop α} {g : α → Except Stop State}
    (hplain : ∀ e, x = .error e → e.plain) (hok : ∀ a, x = .ok a → FloatEnds src dst dest move fsr s (g a)) :
    FloatEnds src dst dest move fsr s (x >>= g) := by
  cases x with
  | error e => exact .inl (hplain e rfl)
  | ok a => exact hok a rfl

/-- A result is delivered into dest. -/
theorem StoresFloat.ends {i : Instr} {store : State → BitVec (8 * m) → Except Stop State} {s1 : State} {ls : Loc n}
    {ld : Loc m} {result : FloatResult (8 * m)} (h : StoresFloat store dst (dest ls ld) move s s1)
    (hs : locate src s = .ok ls) (hd : locate dst s = .ok ld)
    (hfsr : ∀ v b drawn, result = .store v b drawn → fsr s.fsr b) :
    FloatEnds src dst dest move fsr s (deliver i store s s1 result) := by
  cases result with
  | trap b =>
    obtain ⟨u, hu, htrapped⟩ := h.floatTrap b
    rw [deliver_trap, hu]
    refine .inr ⟨u, rfl, fun ls' ld' hs' hd' => ?_⟩
    cases hs.symm.trans hs'
    cases hd.symm.trans hd'
    exact htrapped.fsr.symm ▸ htrapped
  | store v b drawn =>
    rw [deliver_store]
    refine .bind (h.plain _ _) fun u hu => ?_
    obtain ⟨⟨hkept, hpsr, hmem⟩, -, hub⟩ := h.stored _ _ _ _ hu
    cases ha : advance i u with
    | error e => exact .inl (advance_plain e ha)
    | ok t =>
      obtain ⟨-, rfl⟩ := advance_ok_iff.1 ha
      refine ⟨hkept.aside rfl _ _ _, hpsr, hub.symm ▸ hfsr v b drawn rfl, fun ls' ld' hs' hd' => ?_⟩
      cases hs.symm.trans hs'
      cases hd.symm.trans hd'
      exact hmem

/-- What an instruction with such a body can do. -/
theorem FloatEnds.exec_next {i : Instr} {t : State} (hbody : FloatEnds src dst dest move fsr s (bodyOf i s))
    (h : exec i s = .next t) :
    (∃ k, takeTrap k s = .next t) ∨
    (∃ u, takeTrap .fpu u = .next t ∧ ∀ ls ld, locate src s = .ok ls → locate dst s = .ok ld →
      FloatTrapped dst (dest ls ld) u.fsr s u) ∨
    OperandsKept .float dst move s t ∧ t.psr = s.psr ∧ fsr s.fsr t.fsr ∧
      ∀ ls ld, locate src s = .ok ls → locate dst s = .ok ld → MemoryKept s t s.space (dest ls ld) m := by
  rw [exec_eq, complete_next_iff] at h
  obtain ⟨-, hok | ⟨e, he, hstop⟩⟩ := h
  · rw [hok] at hbody
    exact .inr (.inr hbody)
  · rw [he] at hbody
    rcases hbody with hplain | ⟨u, rfl, htrapped⟩
    · cases e with
      | trap k => exact .inl ⟨k, hstop⟩
      | refuse r => cases hstop
      | trapFrom | interrupt => exact hplain.elim
    · exact .inr (.inl ⟨u, hstop, htrapped⟩)

end

/-- One conversion, of whatever lengths, whose results leave the FSR as `fsr` says. -/
theorem convertKeeps {n m : Nat} {i : Instr} {k : Bank} {src : Gen n} {dst : Gen m}
    {f : BitVec (8 * n) → Fsr → Nat → FloatResult (8 * m)} {fsr : Fsr → Fsr → Prop}
    (hbody : bodyOf i = convertBody i k src dst f)
    (hfsr : ∀ v a b free drawn r, f v a free = .store r b drawn → fsr a b) : ConversionKeeps i src dst fsr := by
  intro s t h
  refine FloatEnds.exec_next (dest := fun ls ld => ld.target (ls.popped s)) ?_ h
  rw [hbody]
  cases hf : s.cfg.f with
  | false =>
    rw [convertBody_absent hf]
    exact .inl trivial
  | true =>
    rw [convertBody, hf]
    refine .bind fetchSource_plain fun ⟨ld, v, s1⟩ hfetch => ?_
    obtain ⟨ls, hs, hd, -, -, rfl⟩ := fetchSource_ok_iff.1 hfetch
    exact (storesFloat_writeLoc hs hd).ends hs hd fun r b drawn hr => hfsr _ _ _ _ _ _ hr

/-- One MULf, of whatever length. -/
theorem multiplyKeeps {n : Nat} {i : Instr} {f : FloatFormat} {src dst : Gen n}
    (hbody : bodyOf i = multiplyBody i f src dst) : MultiplyKeeps i src dst MayRaiseBoth := by
  intro s t h
  refine FloatEnds.exec_next (dest := fun ls ld => ld.place (ls.popped s)) ?_ h
  rw [hbody]
  cases hf : s.cfg.f with
  | false =>
    rw [multiplyBody_absent hf]
    exact .inl trivial
  | true =>
    rw [multiplyBody, hf]
    refine .bind fetchSource_plain fun ⟨ld, a, s1⟩ hfetch => .bind readPlace_plain fun b _ => ?_
    obtain ⟨ls, hs, hd, -, -, rfl⟩ := fetchSource_ok_iff.1 hfetch
    exact (storesFloat_writePlace hs hd).ends hs hd fun r b drawn hr => multiply_mayRaise hr

/-- Settles O34, one mnemonic at a time. -/
theorem floatFrame : Obligations.FloatFrame := by
  unfold Obligations.FloatFrame
  refine ⟨?_, ?_, ?_, ?_, ?_, ?_, ?widen, ?narrow, fun _ _ => multiplyKeeps rfl, fun _ _ => multiplyKeeps rfl⟩
  case widen => exact fun _ _ => convertKeeps (f := fun v fsr _ => widen v fsr) rfl fun _ _ _ _ _ _ h => widen_fsr h
  case narrow => exact fun _ _ => convertKeeps rfl fun _ _ _ _ _ _ h => narrow_mayRaise h
  all_goals exact fun _ _ => convertKeeps rfl fun _ _ _ _ _ _ h => convertInt_mayRaise (by decide) h

end Sys2Proof.Machine
end

section
/-! Proofs about MOVSi and MOVST: the registers and memory after k elements (StringRegisters), how the loop ends
(StringCompletes), what stops it between elements (StringProgress), and that without an option it copies String 1
to String 2 (StringCopy). -/

namespace Sys2Proof.Machine

/-! ## One element copied (rule R182) -/

@[simp] theorem stepPointers_reg_zero (n : Nat) (b : Bool) (s : State) :
    (stepPointers n b s).reg 0 = s.reg 0 - 1#32 := by
  simp [stepPointers]

@[simp] theorem stepPointers_reg_one (n : Nat) (b : Bool) (s : State) :
    (stepPointers n b s).reg 1 = if b then s.reg 1 - BitVec.ofNat 32 n else s.reg 1 + BitVec.ofNat 32 n := by
  simp [stepPointers]

@[simp] theorem stepPointers_reg_two (n : Nat) (b : Bool) (s : State) :
    (stepPointers n b s).reg 2 = if b then s.reg 2 - BitVec.ofNat 32 n else s.reg 2 + BitVec.ofNat 32 n := by
  simp [stepPointers]

theorem stepPointers_reg_other (n : Nat) (b : Bool) (s : State) {r : Fin 8} (h : 3 ≤ r.val) :
    (stepPointers n b s).reg r = s.reg r := by
  have h0 : (0 : Fin 8) ≠ r := by rintro rfl; simp at h
  have h1 : (1 : Fin 8) ≠ r := by rintro rfl; simp at h
  have h2 : (2 : Fin 8) ≠ r := by rintro rfl; simp at h
  simp [stepPointers, h0, h1, h2]

/-! ## The state after k elements (rules R182, R185) -/

/-- Where element `k` of a string that starts at `a` lies. -/
def elementAddress (n : Nat) (backward : Bool) (a : Word) (k : Nat) : Word :=
  if backward then a - BitVec.ofNat 32 n * BitVec.ofNat 32 k else a + BitVec.ofNat 32 n * BitVec.ofNat 32 k

@[simp] theorem elementAddress_zero (n : Nat) (b : Bool) (a : Word) : elementAddress n b a 0 = a := by
  simp [elementAddress]

/-- The next element is one step of the pointers further on. -/
theorem elementAddress_succ (n : Nat) (b : Bool) (a : Word) (k : Nat) :
    elementAddress n b a (k + 1) =
      if b then elementAddress n b a k - BitVec.ofNat 32 n else elementAddress n b a k + BitVec.ofNat 32 n := by
  have hmul : BitVec.ofNat 32 n * BitVec.ofNat 32 (k + 1) =
      BitVec.ofNat 32 n * BitVec.ofNat 32 k + BitVec.ofNat 32 n := by
    rw [BitVec.ofNat_add, BitVec.mul_add, BitVec.mul_one]
  cases b with
  | true => simp only [elementAddress, if_true, hmul, BitVec.sub_sub]
  | false => simp only [elementAddress, Bool.false_eq_true, if_false, hmul, BitVec.add_assoc]

section
variable {n : Nat} (e : State → BitVec (8 * n)) (b : Bool)

/-- The last of `k + 1` elements is copied from the state after `k`. -/
theorem State.copied_succ (k : Nat) (s : State) :
    s.copied e b (k + 1) =
      stepPointers n b ((s.copied e b k).store (s.copied e b k).space ((s.copied e b k).reg 2)
        (e (s.copied e b k))) := by
  induction k generalizing s with
  | zero => rfl
  | succ k ih =>
    rw [State.copied, ih]
    rfl

/-- Copying changes R0, R1, R2 and memory. -/
theorem State.copied_eq (k : Nat) (s : State) :
    s.copied e b k = { s with regs := (s.copied e b k).regs, mem := (s.copied e b k).mem } := by
  induction k generalizing s with
  | zero => rfl
  | succ k ih =>
    rw [State.copied]
    exact (ih _).trans rfl

@[simp] theorem State.copied_psr (k : Nat) (s : State) : (s.copied e b k).psr = s.psr := by
  rw [State.copied_eq]

@[simp] theorem State.copied_pc (k : Nat) (s : State) : (s.copied e b k).pc = s.pc := by
  rw [State.copied_eq]

@[simp] theorem State.copied_cfg (k : Nat) (s : State) : (s.copied e b k).cfg = s.cfg := by
  rw [State.copied_eq]

@[simp] theorem State.copied_mmu (k : Nat) (s : State) : (s.copied e b k).mmu = s.mmu := by
  rw [State.copied_eq]

@[simp] theorem State.copied_text (k : Nat) (s : State) : (s.copied e b k).text = s.text := by
  rw [State.copied_eq]

@[simp] theorem State.copied_space (k : Nat) (s : State) : (s.copied e b k).space = s.space := by
  simp [State.space]

@[simp] theorem State.copied_physical (k : Nat) (s : State) (sp : Space) (kind : AccessKind) (a : Word) :
    (s.copied e b k).physical sp kind a = s.physical sp kind a :=
  State.physical_congr (by simp) (by simp) sp kind a

theorem State.copied_reg_zero (k : Nat) (s : State) :
    (s.copied e b k).reg 0 = s.reg 0 - BitVec.ofNat 32 k := by
  induction k with
  | zero => simp [State.copied]
  | succ k ih =>
    rw [State.copied_succ, stepPointers_reg_zero, State.reg_store, ih, BitVec.sub_sub, BitVec.ofNat_add]

theorem State.copied_reg_one (k : Nat) (s : State) :
    (s.copied e b k).reg 1 = elementAddress n b (s.reg 1) k := by
  induction k with
  | zero => simp [State.copied]
  | succ k ih => rw [State.copied_succ, stepPointers_reg_one, State.reg_store, ih, elementAddress_succ]

theorem State.copied_reg_two (k : Nat) (s : State) :
    (s.copied e b k).reg 2 = elementAddress n b (s.reg 2) k := by
  induction k with
  | zero => simp [State.copied]
  | succ k ih => rw [State.copied_succ, stepPointers_reg_two, State.reg_store, ih, elementAddress_succ]

theorem State.copied_reg_other (k : Nat) (s : State) {r : Fin 8} (h : 3 ≤ r.val) :
    (s.copied e b k).reg r = s.reg r := by
  induction k with
  | zero => rfl
  | succ k ih => rw [State.copied_succ, stepPointers_reg_other n b _ h, State.reg_store, ih]

/-- The memory after one more element. -/
theorem State.copied_succ_mem (k : Nat) (s : State) :
    (s.copied e b (k + 1)).mem =
      (s.copied e b k).storeBytes s.space (elementAddress n b (s.reg 2) k) (e (s.copied e b k)) := by
  rw [State.copied_succ, State.copied_space, State.copied_reg_two]
  rfl

/-- A byte outside the element locations of String 2 reads as before. -/
theorem State.read_copied_other {k : Nat} {s : State} {x : Nat}
    (h : ∀ j < k, ∀ i < n, s.physical s.space .write (byteAt (elementAddress n b (s.reg 2) j) i) ≠ some x) :
    (s.copied e b k).mem.read x = s.mem.read x := by
  induction k with
  | zero => rfl
  | succ k ih =>
    rw [State.copied_succ_mem, State.read_storeBytes_other fun i hi => ?_]
    · exact ih fun j hj => h j (Nat.lt_succ_of_lt hj)
    · rw [State.copied_physical]
      exact h k (Nat.lt_succ_self k) i hi

end

/-- Settles O36. -/
theorem stringRegisters : Obligations.StringRegisters := by
  unfold Obligations.StringRegisters
  intro n e b k s
  exact ⟨State.copied_reg_zero e b k s, State.copied_reg_one e b k s, State.copied_reg_two e b k s,
    fun _ => State.copied_reg_other e b k s, State.copied_eq e b k s, fun _ => State.read_copied_other e b⟩

/-! ## The element a turn copies (rules R181, R183) -/

/-- `fetch` answers the element `e` where it is readable and aborts where `aborts` says so, whatever interrupts
are presented. -/
structure Fetches {n : Nat} (fetch : State → Except Stop (BitVec (8 * n))) (e : State → BitVec (8 * n))
    (readable aborts : State → Prop) : Prop where
  ok : ∀ s, readable s → fetch s = .ok (e s)
  abort : ∀ s, aborts s → fetch s = .error (.trap .abt)
  element_irq : ∀ s l, e { s with irq := l } = e s
  readable_irq : ∀ s l, readable { s with irq := l } ↔ readable s

theorem fetches_element (n : Nat) :
    Fetches (fetchElement n) (State.element n) (State.elementReadable n) (State.elementAborts n) where
  ok _ := memRead_ok
  abort _ := memRead_abort
  element_irq _ _ := rfl
  readable_irq _ _ := Iff.rfl

theorem fetches_translated :
    Fetches fetchTranslated State.translated State.translationReadable State.translationAborts where
  ok s := by
    rintro ⟨he, ht⟩
    rw [fetchTranslated, memRead_ok he, ok_bind]
    exact memRead_ok ht
  abort s := by
    rintro (he | ⟨he, ht⟩)
    · rw [fetchTranslated, memRead_abort he, error_bind]
    · rw [fetchTranslated, memRead_ok he, ok_bind]
      exact memRead_abort ht
  element_irq _ _ := rfl
  readable_irq _ _ := Iff.rfl

/-! ## Boundaries between elements (rules R185, R240) -/

/-- A boundary where nothing is presented. -/
theorem boundary_nothing {s : State} {rest : List (Option Interrupt)} (h : s.irq = none :: rest) :
    boundary s = (none, { s with irq := rest }) := by
  simp [boundary, h]

/-- A boundary where an interrupt is presented and accepted. -/
theorem boundary_accepted {s : State} {q : Interrupt} {rest : List (Option Interrupt)}
    (h : s.irq = some q :: rest) (hq : s.accepts q = true) : boundary s = (some q, { s with irq := rest }) := by
  simp [boundary, h, hq]

/-! ## How the loop ends (rules R182, R185) -/

section
variable {n : Nat} {fetch : State → Except Stop (BitVec (8 * n))} {e : State → BitVec (8 * n)}
  {readable aborts : State → Prop} {o : StringOptions}

/-- The next element is one a match option ends the instruction at. -/
theorem stringLoop_matched {count : Nat} {s : State} (hf : Fetches fetch e readable aborts) (hr : readable s)
    (hm : matchEnds o.matching (e s) (s.regValue .int n 4) = true) :
    stringLoop fetch o (count + 1) s = .ok { s with psr := s.psr.withF true } := by
  rw [stringLoop, stringTurn_matched (hf.ok s hr) hm]

/-- The read or the store of the next element aborts: the progress is kept (rules R185, R233). -/
theorem stringLoop_abort {count : Nat} {s : State} (hf : Fetches fetch e readable aborts)
    (h : aborts s ∨ readable s ∧ matchEnds o.matching (e s) (s.regValue .int n 4) = false ∧
      s.mapped s.space .write (s.reg 2) n = false) :
    stringLoop fetch o (count + 1) s = .error (.trapFrom .abt s) := by
  have hturn : stringTurn fetch o s = .error (.trap .abt) := by
    rcases h with ha | ⟨hr, hm, hw⟩
    · rw [stringTurn, hf.abort s ha, error_bind]
    · rw [stringTurn, hf.ok s hr, ok_bind, hm, memWrite_abort hw]
      rfl
  rw [stringLoop, hturn]

theorem Fetches.copied_irq (hf : Fetches fetch e readable aborts) (b : Bool) (k : Nat) (s : State)
    (l : List (Option Interrupt)) :
    State.copied e b k { s with irq := l } = { s.copied e b k with irq := l } := by
  induction k with
  | zero => rfl
  | succ k ih =>
    rw [State.copied_succ, State.copied_succ, ih, hf.element_irq]
    rfl

theorem Fetches.copyReady_irq (hf : Fetches fetch e readable aborts) {k : Nat} {s : State}
    (h : CopyReady e readable o k s) (l : List (Option Interrupt)) :
    CopyReady e readable o k { s with irq := l } := by
  intro j hj
  obtain ⟨hr, hm, hw⟩ := h j hj
  dsimp only
  rw [hf.copied_irq, hf.readable_irq, hf.element_irq]
  exact ⟨hr, hm, hw⟩

/-- The elements after the first are ready where the first is copied. -/
theorem CopyReady.tail {k : Nat} {s : State} (h : CopyReady e readable o (k + 1) s) :
    CopyReady e readable o k (s.copied e o.backward 1) :=
  fun j hj => h (j + 1) (Nat.succ_lt_succ hj)

/-- The turn that copies the first element. -/
theorem CopyReady.turn {s : State} (h : CopyReady e readable o 1 s) (hf : Fetches fetch e readable aborts) :
    stringTurn fetch o s = .ok (.copied (s.copied e o.backward 1)) := by
  obtain ⟨hr, hm, hw⟩ := h 0 Nat.one_pos
  exact stringTurn_copied (hf.ok s hr) hm hw

/-- One element copied with more to come, and nothing taken at the boundary that follows it (rule R185). -/
theorem stringLoop_goes_on {count : Nat} {s u : State} (hf : Fetches fetch e readable aborts)
    (h : CopyReady e readable o 1 s) (hb : boundary (s.copied e o.backward 1) = (none, u)) :
    stringLoop fetch o (count + 2) s = stringLoop fetch o (count + 1) u := by
  rw [stringLoop, h.turn hf]
  simp [hb]

/-- One element copied with more to come, and an interrupt taken at the boundary that follows it (rule R185). -/
theorem stringLoop_interrupt {count : Nat} {s u : State} {q : Interrupt} (hf : Fetches fetch e readable aborts)
    (h : CopyReady e readable o 1 s) (hb : boundary (s.copied e o.backward 1) = (some q, u)) :
    stringLoop fetch o (count + 2) s = .error (.interrupt q u) := by
  rw [stringLoop, h.turn hf]
  simp [hb]

/-- After `k` elements with nothing presented in between, the interrupt presented after the next one is taken. -/
theorem stringLoop_interrupted (hf : Fetches fetch e readable aborts) {q : Interrupt}
    {rest : List (Option Interrupt)} (k count : Nat) (s : State)
    (hirq : s.irq = List.replicate k none ++ some q :: rest) (hq : s.accepts q = true)
    (h : CopyReady e readable o (k + 1) s) :
    stringLoop fetch o (k + count + 2) s =
      .error (.interrupt q { s.copied e o.backward (k + 1) with irq := rest }) := by
  have hfirst : CopyReady e readable o 1 s := fun j hj => h j (by omega)
  induction k generalizing s with
  | zero =>
    rw [Nat.zero_add]
    exact stringLoop_interrupt hf hfirst (boundary_accepted hirq hq)
  | succ k ih =>
    let u : State := { s.copied e o.backward 1 with irq := List.replicate k none ++ some q :: rest }
    have hb : boundary (s.copied e o.backward 1) = (none, u) := boundary_nothing hirq
    have hready : CopyReady e readable o (k + 1) u := hf.copyReady_irq h.tail _
    have hcopied : u.copied e o.backward (k + 1) =
        { (s.copied e o.backward 1).copied e o.backward (k + 1) with irq := u.irq } := hf.copied_irq _ _ _ _
    rw [stringLoop_goes_on hf hfirst hb, show k + 1 + count + 1 = k + count + 2 by omega,
      ih u rfl hq hready fun j hj => hready j (by omega), hcopied]
    rfl

/-! ## How the instruction ends (rules R182 to R185, R233) -/

/-- The instruction runs the loop over what `fetch` reads. -/
structure IsString (i : Instr) (o : StringOptions) (fetch : State → Except Stop (BitVec (8 * n))) : Prop where
  form : i.wellFormed = true
  body : bodyOf i = stringBody i fetch o

theorem IsString.exec_ok {i : Instr} {s t : State} (hi : IsString i o fetch)
    (h : stringLoop fetch o (s.reg 0).toNat { s with psr := s.psr.withF false } = .ok t) (hpc : t.pc = s.pc)
    (hfits : s.fits i.length = true) : exec i s = .next { t with pc := s.after i } := by
  refine Machine.exec_ok hi.form ?_
  rw [hi.body, stringBody, h, ok_bind, advance_eq hfits hpc]

theorem IsString.exec_stop {i : Instr} {s : State} {stop : Stop} (hi : IsString i o fetch)
    (h : stringLoop fetch o (s.reg 0).toNat { s with psr := s.psr.withF false } = .error stop) :
    exec i s = stopOutcome s stop := by
  refine Machine.exec_stop hi.form ?_
  rw [hi.body, stringBody, h, error_bind]

/-- The elements before the end are copied; then the count is 0 or a match option ends the loop. -/
theorem stringRuns {i : Instr} (hi : IsString i o fetch) (hf : Fetches fetch e readable aborts) :
    StringRuns i o e readable := by
  intro s k hirq hfits hready u
  have hloop : ∀ count, stringLoop fetch o (k + count) { s with psr := s.psr.withF false } =
      stringLoop fetch o count u := fun count => stringLoop_copied hf.ok k count _ hirq hready
  have hpc : u.pc = s.pc := State.copied_pc e o.backward k _
  refine ⟨fun hk => hi.exec_ok (t := u) ?_ hpc hfits, fun hk hr hm =>
    hi.exec_ok (t := { u with psr := u.psr.withF true }) ?_ hpc hfits⟩
  · rw [← hk]
    exact hloop 0
  · obtain ⟨count, hcount⟩ := Nat.exists_eq_add_of_lt hk
    rw [hcount, Nat.add_assoc, hloop]
    exact stringLoop_matched hf hr hm

/-- What stops the loop carries the state after the elements copied. -/
theorem stringStops {i : Instr} (hi : IsString i o fetch) (hf : Fetches fetch e readable aborts) :
    StringStops i o e readable aborts := by
  intro s k hk hready u
  obtain ⟨count, hcount⟩ := Nat.exists_eq_add_of_lt hk
  refine ⟨fun q rest hpos hirq hq => ?_, fun hirq h => ?_⟩
  · obtain ⟨k, rfl⟩ := Nat.exists_eq_succ_of_ne_zero hpos.ne'
    refine hi.exec_stop (stop := .interrupt q { u with irq := rest }) ?_
    rw [hcount, show k + 1 + count + 1 = k + count + 2 by omega]
    exact stringLoop_interrupted hf k count _ hirq hq hready
  · refine hi.exec_stop (stop := .trapFrom .abt u) ?_
    have hloop : stringLoop fetch o (k + (count + 1)) { s with psr := s.psr.withF false } =
        stringLoop fetch o (count + 1) u := stringLoop_copied hf.ok k (count + 1) _ hirq hready
    rw [hcount, Nat.add_assoc, hloop]
    exact stringLoop_abort hf h

end

theorem isString_movsb (o : StringOptions) : IsString (.movsb o) o (fetchElement 1) := ⟨rfl, rfl⟩
theorem isString_movsw (o : StringOptions) : IsString (.movsw o) o (fetchElement 2) := ⟨rfl, rfl⟩
theorem isString_movsd (o : StringOptions) : IsString (.movsd o) o (fetchElement 4) := ⟨rfl, rfl⟩
theorem isString_movst (o : StringOptions) : IsString (.movst o) o fetchTranslated := ⟨rfl, rfl⟩

/-- What each match option ends the instruction at (rule R184). -/
theorem matchEnds_iff {w : Nat} (e key : BitVec w) :
    matchEnds .none e key = false ∧ (matchEnds .untilMatch e key = true ↔ e = key) ∧
      (matchEnds .whileMatch e key = true ↔ e ≠ key) :=
  ⟨rfl, beq_iff_eq, bne_iff_ne⟩

/-- Settles O35, one mnemonic at a time. -/
theorem stringCompletes : Obligations.StringCompletes := by
  unfold Obligations.StringCompletes
  refine ⟨fun _ => matchEnds_iff, fun s => ⟨?byte, ?word, ?double⟩,
    fun o => stringRuns (isString_movsb o) (fetches_element 1),
    fun o => stringRuns (isString_movsw o) (fetches_element 2),
    fun o => stringRuns (isString_movsd o) (fetches_element 4),
    fun o => stringRuns (isString_movst o) fetches_translated⟩
  case byte | word => exact BitVec.setWidth_eq_extractLsb' (by decide)
  case double => exact BitVec.setWidth_eq _

/-- Settles O38, one mnemonic at a time. -/
theorem stringProgress : Obligations.StringProgress := by
  unfold Obligations.StringProgress
  exact ⟨fun o => stringStops (isString_movsb o) (fetches_element 1),
    fun o => stringStops (isString_movsw o) (fetches_element 2),
    fun o => stringStops (isString_movsd o) (fetches_element 4),
    fun o => stringStops (isString_movst o) fetches_translated⟩

/-! ## Bytes of a datum and of a string (rules R61, R181) -/

theorem natOfBytesLE_digit {bs : List Byte} {j : Nat} (h : j < bs.length) :
    natOfBytesLE bs / 2 ^ (8 * j) % 2 ^ 8 = bs[j].toNat := by
  induction bs generalizing j with
  | nil => simp at h
  | cons b bs ih =>
    have hb := b.isLt
    rw [natOfBytesLE]
    cases j with
    | zero => simp; omega
    | succ j =>
      have hdrop : (b.toNat + 256 * natOfBytesLE bs) / 2 ^ 8 = natOfBytesLE bs := by omega
      rw [show 8 * (j + 1) = 8 + 8 * j by omega, Nat.pow_add, ← Nat.div_div_eq_div_mul, hdrop,
        ih (Nat.lt_of_succ_lt_succ h)]
      rfl

/-- Byte `j` of the datum at `a`. -/
theorem State.extract_memValue {s : State} {sp : Space} {a : Word} {n j : Nat} (hj : j < n) :
    (s.memValue sp a n).extractLsb' (8 * j) 8 = (s.byteRead sp (byteAt a j)).getD 0#8 := by
  refine BitVec.eq_of_toNat_eq ?_
  obtain ⟨m, rfl⟩ := Nat.exists_eq_add_of_lt hj
  have hlen : 8 * (j + m + 1) = 8 * j + 8 * (m + 1) := by omega
  rw [toNat_field, State.memValue, BitVec.toNat_ofNat, hlen, Nat.pow_add, Nat.mod_mul_right_div_self,
    Nat.mod_mod_of_dvd _ (Nat.pow_dvd_pow 2 (by omega)), natOfBytesLE_digit (by simp)]
  simp

/-- Byte `i` of element `k` of a string taken forward is byte `n * k + i` of the string. -/
theorem byteAt_elementAddress (n : Nat) (a : Word) (k i : Nat) :
    byteAt (elementAddress n false a k) i = byteAt a (n * k + i) := by
  simp only [byteAt, elementAddress, Bool.false_eq_true, if_false]
  rw [BitVec.add_assoc, BitVec.ofNat_add, BitVec.ofNat_mul]

/-- Bytes less than the address space apart stand at different addresses, at the top of memory too. -/
theorem busAddress_byteAt_inj {a : Word} {i j : Nat} (hi : i < Config.addrSpace) (hj : j < Config.addrSpace)
    (h : busAddress (byteAt a i) = busAddress (byteAt a j)) : i = j := by
  have ha := a.isLt
  simp only [busAddress, byteAt, Config.addrSpace, Config.addrBits, BitVec.toNat_add, BitVec.toNat_ofNat] at *
  omega

/-- A run as long as the address space reaches every address. -/
theorem exists_busAddress_byteAt (a : Word) (x : Nat) (hx : x < Config.addrSpace) :
    ∃ j < Config.addrSpace, busAddress (byteAt a j) = x := by
  have ha := a.isLt
  refine ⟨(x + (Config.addrSpace - a.toNat % Config.addrSpace)) % Config.addrSpace,
    Nat.mod_lt _ (by decide), ?_⟩
  simp only [busAddress, byteAt, Config.addrSpace, Config.addrBits, BitVec.toNat_add, BitVec.toNat_ofNat] at *
  omega

/-! ## Two strings that share no byte (rule R181) -/

/-- The strings of `len` bytes at R1 and R2: translation is off, String 1 holds values, String 2 is no program
text, and they share no byte. -/
structure StringsApart (len : Nat) (s : State) : Prop where
  off : s.translating = false
  source : ∀ j < len, (s.byteRead s.space (byteAt (s.reg 1) j)).isSome = true
  clear : ∀ j < len, inRanges s.text (busAddress (byteAt (s.reg 2) j)) = false
  apart : ∀ j < len, ∀ l < len, busAddress (byteAt (s.reg 1) j) ≠ busAddress (byteAt (s.reg 2) l)

/-- Such strings are shorter than the address space. -/
theorem StringsApart.lt_addrSpace {len : Nat} {s : State} (h : StringsApart len s) : len < Config.addrSpace := by
  by_contra hlong
  have hpos : 0 < len := Nat.lt_of_lt_of_le (by decide) (Nat.le_of_not_lt hlong)
  obtain ⟨j, hj, hmeet⟩ := exists_busAddress_byteAt (s.reg 1) _ (busAddress_lt (byteAt (s.reg 2) 0))
  exact h.apart j (Nat.lt_of_lt_of_le hj (Nat.le_of_not_lt hlong)) 0 hpos hmeet

section
variable {n count k : Nat} {s : State}

/-- Byte `i` of element `k` lies in the string. -/
theorem element_byte_lt {i : Nat} (hk : k < count) (hi : i < n) : n * k + i < n * count :=
  calc n * k + i < n * k + n := by omega
    _ = n * (k + 1) := (Nat.mul_succ n k).symm
    _ ≤ n * count := Nat.mul_le_mul_left n hk

theorem State.byteRead_off (h : s.translating = false) (sp : Space) (a : Word) :
    s.byteRead sp a = s.mem.read (busAddress a) := by
  rw [State.byteRead, State.physical_off h, Option.bind_some]

theorem State.copied_translating (e : State → BitVec (8 * n)) (b : Bool) :
    (s.copied e b k).translating = s.translating := by
  simp [State.translating]

/-- Only bytes of String 2 change. -/
theorem StringsApart.read_copied_other (h : StringsApart (n * count) s) (e : State → BitVec (8 * n))
    (hk : k ≤ count) {x : Nat} (hx : ∀ j < n * count, busAddress (byteAt (s.reg 2) j) ≠ x) :
    (s.copied e false k).mem.read x = s.mem.read x := by
  refine State.read_copied_other e false fun j hj i hi => ?_
  rw [byteAt_elementAddress, State.physical_off h.off, Ne, Option.some.injEq]
  exact hx _ (element_byte_lt (by omega) hi)

/-- String 1 stays as it is. -/
theorem StringsApart.source_kept (h : StringsApart (n * count) s) (e : State → BitVec (8 * n)) (hk : k ≤ count)
    {j : Nat} (hj : j < n * count) :
    (s.copied e false k).byteRead s.space (byteAt (s.reg 1) j) = s.byteRead s.space (byteAt (s.reg 1) j) := by
  rw [State.byteRead_off ((State.copied_translating e false).trans h.off), State.byteRead_off h.off]
  exact h.read_copied_other e hk fun l hl => (h.apart j hj l hl).symm

/-- Every element can be read and stored. -/
theorem StringsApart.copyReady (h : StringsApart (n * count) s) :
    CopyReady (State.element n) (State.elementReadable n) ⟨false, .none⟩ count s := by
  intro k hk u
  have hoff : u.translating = false := (State.copied_translating _ _).trans h.off
  have hspace : u.space = s.space := State.copied_space _ _ _ _
  refine ⟨⟨mapped_off hoff _ _ _ _, List.all_eq_true.2 fun i hi => ?_⟩, rfl, mapped_off hoff _ _ _ _,
    List.all_eq_true.2 fun i hi => ?_⟩
  · have hlt := element_byte_lt hk (List.mem_range.1 hi)
    rw [hspace, State.copied_reg_one, byteAt_elementAddress, h.source_kept _ hk.le hlt]
    exact h.source _ hlt
  · have hlt := element_byte_lt hk (List.mem_range.1 hi)
    rw [State.physical_off hoff, State.copied_reg_two, byteAt_elementAddress, State.copied_text]
    simp [h.clear _ hlt]

/-- Byte `i` of the element copied after `k` of them is a byte of String 1. -/
theorem StringsApart.extract_element (h : StringsApart (n * count) s) {i : Nat} (hk : k < count) (hi : i < n) :
    some (((s.copied (State.element n) false k).element n).extractLsb' (8 * i) 8) =
      s.byteRead s.space (byteAt (s.reg 1) (n * k + i)) := by
  have hlt := element_byte_lt hk hi
  rw [State.element, State.extract_memValue hi, State.copied_space, State.copied_reg_one, byteAt_elementAddress,
    h.source_kept _ hk.le hlt]
  obtain ⟨v, hv⟩ := Option.isSome_iff_exists.1 (h.source _ hlt)
  rw [hv, Option.getD_some]

/-- The bytes of the elements copied so far are those of String 1. -/
theorem StringsApart.copied_bytes (h : StringsApart (n * count) s) (hn : n ≤ 8) (hk : k ≤ count) {j : Nat}
    (hj : j < n * k) :
    (s.copied (State.element n) false k).byteRead s.space (byteAt (s.reg 2) j) =
      s.byteRead s.space (byteAt (s.reg 1) j) := by
  induction k with
  | zero => simp at hj
  | succ k ih =>
    have hoff : (s.copied (State.element n) false k).translating = false :=
      (State.copied_translating _ _).trans h.off
    rcases Nat.lt_or_ge j (n * k) with hlt | hge
    · rw [← ih (by omega) hlt, State.byteRead_off ((State.copied_translating _ _).trans h.off),
        State.byteRead_off hoff, State.copied_succ_mem, State.read_storeBytes_other fun i hi => ?_]
      rw [State.physical_off hoff, byteAt_elementAddress, Ne, Option.some.injEq]
      have hbyte := element_byte_lt hk hi
      have hshort := h.lt_addrSpace
      intro hmeet
      have hsame := busAddress_byteAt_inj (by omega) (by omega) hmeet
      omega
    · obtain ⟨i, rfl⟩ := Nat.exists_eq_add_of_le hge
      have hi : i < n := by rw [Nat.mul_succ] at hj; omega
      rw [← h.extract_element hk hi, ← byteRead_store _ hoff hn hi, State.copied_succ, State.copied_space,
        State.copied_reg_two, byteAt_elementAddress]
      rfl

end

/-- The plain move of whatever element length: all R0 elements are ready, and their bytes are those of String 1. -/
theorem stringCopies {n : Nat} {i : StringOptions → Instr} (hn : n ≤ 8)
    (hi : IsString (i ⟨false, .none⟩) ⟨false, .none⟩ (fetchElement n)) : StringCopies n i := by
  intro s hirq hfits hoff hbytes hapart
  let s0 : State := { s with psr := s.psr.withF false }
  have h : StringsApart (n * (s.reg 0).toNat) s0 :=
    ⟨hoff, fun j hj => (hbytes j hj).1, fun j hj => (hbytes j hj).2, hapart⟩
  have hcount : BitVec.ofNat 32 (s.reg 0).toNat = s.reg 0 := by simp
  refine ⟨_, (stringRuns hi (fetches_element n) s _ hirq hfits h.copyReady).1 rfl,
    fun j hj => h.copied_bytes hn le_rfl hj, fun x hx => h.read_copied_other _ le_rfl hx, ?_, ?_, ?_, ?_⟩
  · exact (State.copied_reg_zero _ _ _ s0).trans (by rw [hcount]; exact BitVec.sub_self _)
  · exact (State.copied_reg_one _ _ _ s0).trans (by rw [elementAddress, hcount]; rfl)
  · exact (State.copied_reg_two _ _ _ s0).trans (by rw [elementAddress, hcount]; rfl)
  · exact State.copied_psr _ _ _ s0

/-- Settles O37, one mnemonic at a time. -/
theorem stringCopy : Obligations.StringCopy := by
  unfold Obligations.StringCopy
  exact ⟨stringCopies (by decide) (isString_movsb _), stringCopies (by decide) (isString_movsw _),
    stringCopies (by decide) (isString_movsd _)⟩

end Sys2Proof.Machine
end

section
/-! Proofs about RDVAL (ValidateCompletes) and about privilege (PrivilegedTraps). Each privileged body tests
its mode before anything else, RDVAL after CFG.M (decision D6); in Supervisor mode what RDVAL does is decided by
the Level 1 entry of its operand's address. -/

namespace Sys2Proof.Machine

/-! ## RDVAL (rules R193, R194) -/

/-- In Supervisor mode with CFG.M = 1, the address computed, what is left is the test of the Level 1 entry. -/
theorem validateBody_eq {i : Instr} {loc : Gen 4} {s : State} {l : Loc 4} {a : Word} (hm : s.cfg.m = true)
    (hu : s.psr.u = false) (hl : locate loc s = .ok l) (ha : l.address s = some a) :
    validateBody i loc s =
      if s.l1Valid (busAddress a) then
        advance i { s with psr := s.psr.withF (!s.userReadAllowed (busAddress a)) }
      else .error (.trap .abt) := by
  rw [validateBody, hm, hu, addrOf_ok_iff.2 ⟨l, hl, ha⟩]
  rfl

/-- Settles O40, by whether the Level 1 entry is valid. -/
theorem validateCompletes : Obligations.ValidateCompletes := by
  unfold Obligations.ValidateCompletes
  intro loc s l a hwf hm hu hl ha
  have hbody : bodyOf (.rdval loc) s = _ := validateBody_eq hm hu hl ha
  refine ⟨fun hvalid hfits => exec_ok hwf ?_, fun hinvalid => exec_trap hwf ?_⟩
  · rw [hbody, if_pos hvalid]
    exact advance_eq hfits rfl
  · rw [hbody, hinvalid]
    rfl

/-! ## Privilege (rules R235, R237, R242) -/

theorem moveUserBody_user {n : Nat} {i : Instr} {src dst : Gen n} {s : State} (hu : s.psr.u = true) :
    moveUserBody i src dst s = .error (.trap .ill) := by
  rw [moveUserBody, hu]
  rfl

theorem validateBody_absent {i : Instr} {loc : Gen 4} {s : State} (hm : s.cfg.m = false) :
    validateBody i loc s = .error (.trap .und) := by
  rw [validateBody, hm]
  rfl

theorem validateBody_user {i : Instr} {loc : Gen 4} {s : State} (hm : s.cfg.m = true) (hu : s.psr.u = true) :
    validateBody i loc s = .error (.trap .ill) := by
  rw [validateBody, hm, hu]
  rfl

theorem returnInterruptBody_user {s : State} (hu : s.psr.u = true) :
    returnInterruptBody s = .error (.trap .ill) := by
  rw [returnInterruptBody, if_pos hu]

theorem returnTrapBody_user {constant : Disp} {s : State} (hu : s.psr.u = true) :
    returnTrapBody constant s = .error (.trap .ill) := by
  rw [returnTrapBody, if_pos hu]

/-- Settles O41, one kind of privileged body at a time. -/
theorem privilegedTraps : Obligations.PrivilegedTraps := by
  unfold Obligations.PrivilegedTraps
  refine ⟨fun i s hpriv hwf hu hmmu => ?_, fun loc s hwf hm => exec_trap hwf (validateBody_absent hm)⟩
  cases i with
  | movusb | movusw | movusd => exact exec_trap hwf (moveUserBody_user hu)
  | rdval loc => exact exec_trap hwf (validateBody_user (hmmu loc rfl) hu)
  | reti => exact exec_trap hwf (returnInterruptBody_user hu)
  | rett constant => exact exec_trap hwf (returnTrapBody_user hu)
  | _ => cases hpriv

end Sys2Proof.Machine
end

section
/-! Proofs about NEGi and NOTi (NegateCompletes, NotCompletes), moves of class read to class write whose values
and flags the model computes by bit-vector operations: one lemma for each operation, and one for each mnemonic at
every length. -/

namespace Sys2Proof.Machine

/-! ## NEGi (rules R200, R201) -/

/-- The subtraction of rule R200 is the integer's negation, taken to the operand's width. -/
theorem zero_sub_eq_ofInt_neg {w : Nat} (v : BitVec w) : 0#w - v = BitVec.ofInt w (-v.toInt) := by
  rw [BitVec.zero_sub, BitVec.ofInt_neg, BitVec.ofInt_toInt]

theorem Psr.afterNegate_eq {w : Nat} (p : Psr) (v : BitVec w) :
    p.afterNegate v = { p with c := decide (v ≠ 0#w), f := decide (v = BitVec.intMin w) } := by
  rw [Psr.afterNegate, bne, beq_eq_decide, beq_eq_decide, decide_not]

/-- One NEGi, of whatever length; `least` is the most negative value of that length. -/
theorem negateRuns {n : Nat} {i : Instr} {src dst : Gen n} {least : BitVec (8 * n)}
    (hbody : bodyOf i = negateBody i src dst) (hleast : BitVec.intMin (8 * n) = least) :
    MoveRuns i src dst (fun v => BitVec.ofInt (8 * n) (-v.toInt)) fun v p =>
      { p with c := decide (v ≠ 0#(8 * n)), f := decide (v = least) } := by
  have hruns : MoveRuns i src dst (fun v => BitVec.ofInt (8 * n) (-v.toInt)) fun v p => p.afterNegate v :=
    MovesBy.runs (congrFun hbody) zero_sub_eq_ofInt_neg
  simpa only [Psr.afterNegate_eq, hleast] using hruns

/-- Settles O22, one length at a time. -/
theorem negateCompletes : Obligations.NegateCompletes := by
  unfold Obligations.NegateCompletes
  exact ⟨fun _ _ => negateRuns rfl rfl, fun _ _ => negateRuns rfl rfl, fun _ _ => negateRuns rfl rfl⟩

/-! ## NOTi (rule R203) -/

/-- Exclusive-or with 1 keeps the bits above bit 0 and inverts that one. -/
theorem xor_one_eq_append {k : Nat} (v : BitVec (k + 1)) :
    v ^^^ 1#(k + 1) = v.extractLsb' 1 k ++ ~~~v.extractLsb' 0 1 := by
  refine BitVec.eq_of_getElem_eq fun j hj => ?_
  cases j with
  | zero => simp [BitVec.getElem_append]
  | succ j => simp [BitVec.getElem_append, Nat.add_comm, BitVec.getLsbD_eq_getElem hj]

/-- One NOTi, of whatever length. -/
theorem notRuns {n : Nat} {i : Instr} {src dst : Gen n} {f : BitVec (8 * n) → BitVec (8 * n)}
    (hbody : bodyOf i = notBody i src dst) (hf : ∀ v, v ^^^ 1#(8 * n) = f v) :
    MoveRuns i src dst f fun _ p => p :=
  MovesBy.runs (congrFun hbody) hf

/-- Settles O23, one length at a time. -/
theorem notCompletes : Obligations.NotCompletes := by
  unfold Obligations.NotCompletes
  exact ⟨fun _ _ => notRuns rfl (xor_one_eq_append (k := 7)), fun _ _ => notRuns rfl (xor_one_eq_append (k := 15)),
    fun _ _ => notRuns rfl (xor_one_eq_append (k := 31))⟩

end Sys2Proof.Machine
end

section
/-! Proofs about the returns from an exception: only RETI emits an EOI (OnlyRetiEmits), what RETI and RETT leave
(RetiCompletes, RettCompletes) and where a return stops (ReturnStops). -/

namespace Sys2Proof.Machine

/-! ## The EOI count (rules R214, R218) -/

theorem Chain.eois {fl : Bool} {s t : State} (h : Chain fl s t) : t.eois = s.eois :=
  h.keeps (P := fun t => t.eois = s.eois) rfl fun _ _ ih hc => hc.moduleKept.eois.trans ih

theorem Settles.eois {s t u : State} (h : Settles s t u) : u.eois = t.eois := by
  rw [h.other]

@[simp] theorem State.unframed_eois (s : State) : s.unframed.eois = s.eois :=
  s.setSp_eois _

/-- Settles O59, by the cases of a step: RETI counts one EOI before its frame, and nothing else touches the
count. -/
theorem onlyRetiEmits : Obligations.OnlyRetiEmits := by
  unfold Obligations.OnlyRetiEmits
  intro s t h
  obtain ⟨fl, -, ⟨w, hset, hw⟩ | ⟨v, interrupt, u, ⟨hc, -⟩, -, -, rfl⟩⟩ := step_cases h
  · rw [hset.eois]
    rcases hw with ⟨u, v, hc, rfl⟩ | ⟨rest, s', hd, rfl, hsuper, -, rfl⟩ | ⟨d, rest, s', -, rfl, -, -, rfl⟩
    · exact .inl hc.eois
    · exact .inr ⟨State.unframed_eois _, hsuper, rest, hd⟩
    · exact .inl ((State.setSp_eois _ _).trans (State.unframed_eois _))
  · exact .inl hc.eois

/-! ## The frame taken (rules R214 to R216, R219) -/

/-- The accesses of Supervisor mode are in Supervisor space (rule R69). -/
theorem State.space_supervisor {s : State} (hu : s.psr.u = false) : s.space = .supervisor := by
  simp [State.space, hu]

/-- The selected stack pointer moved by `a`. -/
theorem State.setSp_sp_add (s : State) (a : Word) :
    s.setSp (s.sp + a) = { s with
      sp0 := if s.psr.s then s.sp0 else s.sp0 + a
      sp1 := if s.psr.s then s.sp1 + a else s.sp1 } := by
  cases hs : s.psr.s <;> simp [State.setSp, State.sp, hs]

/-- The state after a return in Supervisor mode has taken its frame, field by field. -/
theorem State.unframed_eq {s : State} (hu : s.psr.u = false) :
    s.unframed = { s with
      mod := s.memValue .supervisor (s.sp + 4#32) 2
      psr := Psr.ofBits (s.memValue .supervisor (s.sp + 6#32) 2)
      sb := s.memValue .supervisor (s.frameMod.setWidth 32) 4
      sp0 := if s.psr.s then s.sp0 else s.sp0 + 8#32
      sp1 := if s.psr.s then s.sp1 + 8#32 else s.sp1 } := by
  rw [State.unframed, State.setSp_sp_add, State.framePsr, ← State.space_supervisor hu]
  rfl

theorem State.frameAddress_eq {s : State} (hu : s.psr.u = false) :
    s.frameAddress = s.memValue .supervisor s.sp 4 := by
  rw [State.frameAddress, State.space_supervisor hu]

/-- No access of a return depends on the EOI count. -/
theorem FrameReady.emitted {s : State} (h : FrameReady s) (n : Nat) : FrameReady { s with eois := n } :=
  ⟨h.address, h.mod, h.psr, h.table, h.noTrace, h.noPending⟩

/-- Settles O44: the frame taken from the state whose EOI is counted. -/
theorem retiCompletes : Obligations.RetiCompletes := by
  unfold Obligations.RetiCompletes
  intro s hu hr
  refine exec_ok rfl (returnInterruptBody_ok_iff.2 ⟨hu, hr.emitted _, ?_⟩)
  rw [State.unframed_eq (s := { s with eois := s.eois + 1 }) hu,
    State.frameAddress_eq (s := { s with eois := s.eois + 1 }) hu]
  rfl

/-- Settles O45, by the stack pointer that the new PSR selects. -/
theorem rettCompletes : Obligations.RettCompletes := by
  unfold Obligations.RettCompletes
  intro d s hu hr
  refine exec_ok rfl (returnTrapBody_ok_iff.2 ⟨hu, hr, ?_⟩)
  have hsel : s.unframed.psr.s = s.framePsr.s := rfl
  rw [State.setSp_sp_add, hsel, State.unframed_eq hu, State.frameAddress_eq hu]
  cases s.framePsr.s <;> simp

/-! ## Where a return stops (rules R218, R233, R252) -/

theorem exec_refused {i : Instr} {s : State} {r : Refusal} (hw : i.wellFormed = true)
    (h : bodyOf i s = .error (.refuse r)) : exec i s = .refused r :=
  exec_stop hw h

/-- A frame whose PSR has T = 1 or P = 1 is refused once its three items are popped. -/
theorem returnFrame_traceMode {s : State} (haddress : Readable s s.space s.sp 4)
    (hmod : Readable s s.space (s.sp + 4#32) 2) (hpsr : Readable s s.space (s.sp + 6#32) 2)
    (htrace : s.framePsr.t = true ∨ s.framePsr.p = true) :
    returnFrame s = .error (.refuse (.traceMode s.pc)) := by
  rw [returnFrame, popFrame_ok_iff.2 ⟨⟨haddress, hmod, hpsr⟩, rfl, rfl, rfl, rfl⟩, ok_bind]
  exact if_pos (by simpa [State.framePsr] using htrace)

/-- RETT in Supervisor mode stops where its frame does. -/
theorem returnTrapBody_error {d : Disp} {s : State} {e : Stop} (hu : s.psr.u = false)
    (h : returnFrame s = .error e) : returnTrapBody d s = .error e := by
  rw [returnTrapBody, hu, h]
  rfl

/-- So does RETI, its EOI emitted. -/
theorem returnInterruptBody_error {s : State} {e e' : Stop} (hu : s.psr.u = false)
    (h : returnFrame { s with eois := s.eois + 1 } = .error e)
    (he : afterEoi (α := Word × State) s.pc (.error e) = .error e') :
    returnInterruptBody s = .error e' := by
  rw [returnInterruptBody, hu, h, he]
  rfl

/-- Settles O46: one access of RET, then the frame that RETT and RETI have in common. -/
theorem returnStops : Obligations.ReturnStops := by
  unfold Obligations.ReturnStops
  refine fun d s => ⟨fun habort => exec_trap rfl ?_, fun hu habort => ⟨?_, ?_⟩,
    fun hu haddress hmod hpsr htrace => ?_⟩
  · simp only [bodyOf, pop_abort habort, error_bind]
  · exact exec_trap rfl (returnTrapBody_error hu (returnFrame_abort habort))
  · have hemitted : State.frameAborts { s with eois := s.eois + 1 } := habort
    exact exec_refused rfl (returnInterruptBody_error hu (returnFrame_abort hemitted) rfl)
  · rw [← State.space_supervisor hu] at haddress hmod hpsr
    exact ⟨exec_refused rfl (returnTrapBody_error hu (returnFrame_traceMode haddress hmod hpsr htrace)),
      exec_refused rfl (returnInterruptBody_error hu
        (returnFrame_traceMode (s := { s with eois := s.eois + 1 }) haddress hmod hpsr htrace) rfl)⟩

end Sys2Proof.Machine
end

section
/-! Proofs about entry to a service procedure with translation off: what it leaves (EnteredState), and that RETT
is its inverse (EntryThenReturn). Each datum of the frame, and the Module Table entry apart from it, is followed
through the three stores of `State.framed`. -/

namespace Sys2Proof.Machine

/-! ## Data that share no byte (rules R60, R63) -/

/-- The `n` bytes at `a` and the `m` bytes at `b` share no byte of memory. -/
def Apart (a : Word) (n : Nat) (b : Word) (m : Nat) : Prop :=
  ∀ j < n, ∀ l < m, busAddress (byteAt a j) ≠ busAddress (byteAt b l)

theorem byteAt_add (a : Word) (k j : Nat) : byteAt (a + BitVec.ofNat 32 k) j = byteAt a (k + j) := by
  rw [byteAt, byteAt, BitVec.add_assoc, BitVec.ofNat_add]

/-- A part of data that share no byte with others. -/
theorem Apart.part {a b : Word} {n k i m : Nat} (h : Apart a n b m) (hk : k + i ≤ n) :
    Apart (a + BitVec.ofNat 32 k) i b m := fun j hj l hl => by
  rw [byteAt_add]
  exact h (k + j) (by omega) l hl

/-- Two parts of 8 bytes, one below the other. -/
theorem apart_parts (a : Word) {k n l m : Nat} (hn : k + n ≤ 8) (hm : l + m ≤ 8) (h : k + n ≤ l ∨ l + m ≤ k) :
    Apart (a + BitVec.ofNat 32 k) n (a + BitVec.ofNat 32 l) m := fun j hj i hi => by
  rw [byteAt_add, byteAt_add]
  exact busAddress_byteAt_ne (by omega) (by omega) (by omega)

/-! ## A datum in memory -/

/-- The `n` bytes at `a` can be read by the supervisor and are `v`. -/
structure Holds (s : State) (a : Word) (n : Nat) (v : BitVec (8 * n)) : Prop where
  readable : Readable s .supervisor a n
  value : s.memValue .supervisor a n = v

theorem Holds.congr {s t : State} {a : Word} {n : Nat} {v : BitVec (8 * n)} (h : Holds s a n v)
    (hc : t.cfg = s.cfg) (hm : t.mmu = s.mmu) (hr : t.mem = s.mem) : Holds t a n v :=
  ⟨(Readable.congr hc hm hr).2 h.readable, (State.memValue_congr hc hm hr _ _ _).trans h.value⟩

theorem holds_store {s : State} {a : Word} {n : Nat} (v : BitVec (8 * n)) (h : s.translating = false)
    (hn : n ≤ 8) : Holds (s.store .supervisor a v) a n v :=
  ⟨readable_store v h hn, memValue_store v h hn⟩

/-- With translation off a store leaves every byte outside its own. -/
theorem read_store_other {s : State} {sp : Space} {a : Word} {n x : Nat} (v : BitVec (8 * n))
    (h : s.translating = false) (hx : ∀ j < n, busAddress (byteAt a j) ≠ x) :
    (s.store sp a v).mem.read x = s.mem.read x := by
  refine State.read_storeBytes_other fun j hj => ?_
  rw [State.physical_off h, Ne, Option.some.injEq]
  exact hx j hj

/-- A datum is still there after a store elsewhere. -/
theorem Holds.store {s : State} {a b : Word} {n m : Nat} {v : BitVec (8 * n)} (hv : Holds s a n v)
    (w : BitVec (8 * m)) (h : s.translating = false) (hab : Apart b m a n) :
    Holds (s.store .supervisor b w) a n v := by
  have hbyte : ∀ j < n, (s.store .supervisor b w).byteRead .supervisor (byteAt a j) =
      s.byteRead .supervisor (byteAt a j) := fun j hj => by
    rw [State.byteRead_off (s := s.store .supervisor b w) h, State.byteRead_off h]
    exact read_store_other w h fun i hi => hab i hi j hj
  have hwritten : (s.store .supervisor b w).written .supervisor a n = true :=
    List.all_eq_true.2 fun j hj => by
      rw [hbyte j (List.mem_range.1 hj)]
      exact List.all_eq_true.1 hv.readable.2 j hj
  have hvalue : (s.store .supervisor b w).memValue .supervisor a n = s.memValue .supervisor a n := by
    rw [State.memValue, State.memValue, List.map_congr_left fun j hj => by rw [hbyte j (List.mem_range.1 hj)]]
  exact ⟨⟨mapped_off h _ _ _ _, hwritten⟩, hvalue.trans hv.value⟩

/-! ## The frame (rule R222) -/

/-- The frame by offsets from its lowest byte. -/
theorem State.framed_eq (s : State) (ra : Word) :
    s.framed ra = ((s.store .supervisor (s.sp0 - 8#32 + 6#32) (n := 2) s.psr.toBits).store .supervisor
      (s.sp0 - 8#32 + 4#32) (n := 2) s.mod).store .supervisor (s.sp0 - 8#32) (n := 4) ra := by
  rw [State.framed, show s.sp0 - 2#32 = s.sp0 - 8#32 + 6#32 by bv_omega,
    show s.sp0 - 4#32 = s.sp0 - 8#32 + 4#32 by bv_omega]

/-- Only memory changes. -/
theorem State.framed_eq_mem (s : State) (ra : Word) : s.framed ra = { s with mem := (s.framed ra).mem } := rfl

/-- The entered state, field by field. -/
theorem State.entered_eq_fields (s : State) (v ra : Word) (interrupt : Bool) :
    s.entered v ra interrupt = { s with
      psr := s.psr.onEntry interrupt
      mod := s.serviceModule v
      sb := s.memValue .supervisor ((s.serviceModule v).setWidth 32) 4
      sp0 := s.sp0 - 8#32
      pc := s.serviceAddress v
      mem := (s.framed ra).mem } := by
  rw [State.entered, State.framed_eq_mem]

/-- No byte outside the frame changes. -/
theorem read_framed_other {s : State} {x : Nat} (ra : Word) (h : s.translating = false)
    (hx : ∀ j < 8, busAddress (byteAt (s.sp0 - 8#32) j) ≠ x) : (s.framed ra).mem.read x = s.mem.read x := by
  have hpart : ∀ k n, k + n ≤ 8 → ∀ j < n, busAddress (byteAt (s.sp0 - 8#32 + BitVec.ofNat 32 k) j) ≠ x :=
    fun k n hkn j hj => by
      rw [byteAt_add]
      exact hx _ (by omega)
  rw [State.framed_eq, read_store_other, read_store_other, read_store_other]
  · exact h
  · exact hpart 6 2 (by decide)
  · exact h
  · exact hpart 4 2 (by decide)
  · exact h
  · exact fun j hj => hx j (by omega)

/-- Entry changes no datum further once its frame is pushed. -/
theorem Holds.entered {s : State} {a : Word} {n : Nat} {w : BitVec (8 * n)} {ra : Word}
    (h : Holds (s.framed ra) a n w) (v : Word) (interrupt : Bool) : Holds (s.entered v ra interrupt) a n w :=
  h.congr rfl rfl rfl

section
variable {s : State} (h : s.translating = false) (v ra : Word) (interrupt : Bool)
include h

theorem entered_holds_address : Holds (s.entered v ra interrupt) (s.sp0 - 8#32) 4 ra := by
  refine .entered ?_ v interrupt
  rw [State.framed_eq]
  exact holds_store _ h (by decide)

theorem entered_holds_mod : Holds (s.entered v ra interrupt) (s.sp0 - 8#32 + 4#32) 2 s.mod := by
  refine .entered ?_ v interrupt
  rw [State.framed_eq]
  refine Holds.store ?_ _ h ?_
  · exact holds_store _ h (by decide)
  simpa using apart_parts (s.sp0 - 8#32) (k := 0) (n := 4) (l := 4) (m := 2) (by decide) (by decide) (by decide)

theorem entered_holds_psr : Holds (s.entered v ra interrupt) (s.sp0 - 8#32 + 6#32) 2 s.psr.toBits := by
  refine .entered ?_ v interrupt
  rw [State.framed_eq]
  refine .store (.store (holds_store _ h (by decide)) _ h ?_) _ h ?_
  · exact apart_parts (s.sp0 - 8#32) (k := 4) (l := 6) (by decide) (by decide) (by decide)
  · simpa using apart_parts (s.sp0 - 8#32) (k := 0) (n := 4) (l := 6) (m := 2) (by decide) (by decide) (by decide)

/-- A datum apart from the frame is as before entry. -/
theorem entered_holds_other {a : Word} {n : Nat} {w : BitVec (8 * n)} (hw : Holds s a n w)
    (ha : Apart (s.sp0 - 8#32) 8 a n) : Holds (s.entered v ra interrupt) a n w := by
  refine .entered ?_ v interrupt
  rw [State.framed_eq]
  refine .store (.store (.store hw _ h ?_) _ h ?_) _ h ?_
  · exact ha.part (k := 6) (by decide)
  · exact ha.part (k := 4) (by decide)
  · simpa using ha.part (k := 0) (i := 4) (by decide)

end

/-! ## Entry and return (rules R216, R222, R244, R245) -/

theorem Psr.onEntry_eq (p : Psr) (interrupt : Bool) :
    p.onEntry interrupt =
      { p with s := false, u := false, t := false, p := false, i := if interrupt then false else p.i } := by
  cases interrupt <;> simp [Psr.onEntry]

/-- Settles O48, item by item of the frame. -/
theorem enteredState : Obligations.EnteredState := by
  unfold Obligations.EnteredState
  exact fun s v ra interrupt h => ⟨(entered_holds_address h v ra interrupt).value,
    (entered_holds_mod h v ra interrupt).value, (entered_holds_psr h v ra interrupt).value, rfl,
    s.psr.onEntry_eq interrupt, rfl, rfl, rfl, fun x hx => read_framed_other ra h hx,
    State.entered_eq_fields s v ra interrupt⟩

/-- The frame that entry leaves, as a return finds it. -/
theorem entered_frame {s : State} (h : s.translating = false) (v ra : Word) (interrupt : Bool) :
    (s.entered v ra interrupt).frameMod = s.mod ∧ (s.entered v ra interrupt).framePsr = s.psr :=
  ⟨(entered_holds_mod h v ra interrupt).value,
    (congrArg Psr.ofBits (entered_holds_psr h v ra interrupt).value).trans s.psr.ofBits_toBits⟩

/-- SP0 rises by the 8 bytes that it fell at entry. -/
theorem entered_popped (s : State) (v ra : Word) (interrupt : Bool) :
    (s.entered v ra interrupt).setSp ((s.entered v ra interrupt).sp + 8#32) =
      { s.entered v ra interrupt with sp0 := s.sp0 } := by
  have hsp : (s.entered v ra interrupt).sp + 8#32 = s.sp0 := BitVec.sub_add_cancel s.sp0 8#32
  rw [hsp]
  rfl

/-- Settles O49: the frame that RETT takes is the one that entry pushed. -/
theorem entryThenReturn : Obligations.EntryThenReturn := by
  unfold Obligations.EntryThenReturn
  intro s v ra interrupt h ht hp htable hapart
  obtain ⟨hmod, hpsr⟩ := entered_frame h v ra interrupt
  have haddress := entered_holds_address h v ra interrupt
  have hentry : Holds (s.entered v ra interrupt) (s.mod.setWidth 32) 4 _ :=
    entered_holds_other h v ra interrupt ⟨htable, rfl⟩ hapart
  have hready : FrameReady (s.entered v ra interrupt) :=
    ⟨haddress.readable, (entered_holds_mod h v ra interrupt).readable,
      (entered_holds_psr h v ra interrupt).readable, hmod ▸ hentry.readable, hpsr ▸ ht, hpsr ▸ hp⟩
  refine exec_ok rfl (returnTrapBody_ok_iff.2 ⟨rfl, hready, ?_⟩)
  rw [show dispValue (.short 0#7) = 0#32 by decide, BitVec.add_zero, State.setSp_sp, State.unframed,
    entered_popped, hmod, hpsr, hentry.value, show (s.entered v ra interrupt).frameAddress = ra from haddress.value,
    State.entered_eq_fields]

end Sys2Proof.Machine
end

section
/-! Proofs about taking an exception: a trap and an interrupt by the entry sequence (TrapEntrySequence), and an
interrupt at the boundary before a step (InterruptBoundary). Both rest on `enter_ok_iff` and `enter_abort`, which
say when the entry sequence completes and when it stops. -/

namespace Sys2Proof.Machine

/-! ## A trap or an interrupt is taken (rules R231, R245, R246) -/

/-- An abort inside the entry sequence is refused (rule R246). -/
theorem enterOutcome_abort {v : Word} {interrupt : Bool} {s : State} (h : s.entryAborts v) :
    enterOutcome v interrupt s = .refused (.faultInEntry s.pc) := by
  unfold enterOutcome
  rw [enter_abort h]

theorem takeTrap_fault (k : Trap) {s : State} (h : s.trapEntry = .fault) : takeTrap k s = .fault (.trap k s) := by
  unfold takeTrap
  rw [h]

theorem takeTrap_sequence (k : Trap) {s : State} (h : s.trapEntry = .sequence) :
    takeTrap k s = enterOutcome k.vector false s := by
  unfold takeTrap
  rw [h]

/-- Settles O47: a trap is a fault or an entry, as TRAP_ENTRY says, and an interrupt is an entry. -/
theorem trapEntrySequence : Obligations.TrapEntrySequence := by
  unfold Obligations.TrapEntrySequence
  refine ⟨⟨rfl, rfl, rfl, rfl, rfl, rfl, rfl, fun _ => rfl⟩,
    fun k s => ⟨takeTrap_fault k, fun hs hr => ?_, fun hs ha => ?_, fun q => ⟨fun hr => ?_, enterOutcome_abort⟩⟩⟩
  · exact takeTrap_next_iff.2 ⟨hs, hr, rfl⟩
  · rw [takeTrap_sequence k hs, enterOutcome_abort ha]
  · exact takeInterrupt_next_iff.2 ⟨hr, rfl⟩

/-! ## An interrupt at the boundary (rule R240) -/

/-- When an interrupt is taken, and not passed over, where it is presented. -/
theorem State.accepts_iff {s : State} {q : Interrupt} :
    s.accepts q = true ↔ s.trapEntry = .sequence ∧ (q = .nmi ∨ s.psr.i = true) := by
  simp [State.accepts]

/-- The accesses of the entry sequence do not depend on what is presented. -/
theorem EntryReady.withIrq {v : Word} {s : State} (h : EntryReady v s) (l : List (Option Interrupt)) :
    EntryReady v { s with irq := l } where
  descriptor := (Readable.congr rfl rfl rfl).2 h.descriptor
  staticBase := (Readable.congr rfl rfl rfl).2 h.staticBase
  programBase := (Readable.congr rfl rfl rfl).2 h.programBase
  psr := (Writable.congr rfl rfl rfl).2 h.psr
  mod := (Writable.congr rfl rfl rfl).2 h.mod
  address := (Writable.congr rfl rfl rfl).2 h.address

/-- An interrupt that is accepted is the step; the instruction at PC does not run. -/
theorem step_accepted {s : State} {q : Interrupt} {rest : List (Option Interrupt)} (hf : s.finished = false)
    (hirq : s.irq = some q :: rest) (hq : s.accepts q = true) : step s = takeInterrupt q { s with irq := rest } := by
  rw [step_running hf, boundary_accepted hirq hq]

/-- An interrupt that is passed over is not kept: the step is that of a boundary where none is presented (log
entry 10). -/
theorem step_passedOver {s : State} {q : Interrupt} {rest : List (Option Interrupt)} (hf : s.finished = false)
    (hirq : s.irq = some q :: rest) (hn : NoneTaken s) : step s = step { s with irq := none :: rest } := by
  have hnone : NoneTaken { s with irq := none :: rest } := fun _ hp => by cases hp
  calc step s = runNext { s with irq := s.irq.tail } := step_untaken hf hn
    _ = runNext { s with irq := rest } := by rw [hirq, List.tail_cons]
    _ = step { s with irq := none :: rest } :=
      (step_untaken ((s.finished_irq _).trans hf) hnone).symm

/-- Settles O50: an interrupt accepted at the boundary is entered, and any other leaves the step as it was. -/
theorem interruptBoundary : Obligations.InterruptBoundary := by
  unfold Obligations.InterruptBoundary
  intro s q rest hirq hf
  refine ⟨fun hseq henabled hr => ?_, fun hmasked => ?_⟩
  · rw [step_accepted hf hirq (State.accepts_iff.2 ⟨hseq, henabled⟩)]
    exact takeInterrupt_next_iff.2 ⟨hr.withIrq rest, rfl⟩
  · refine step_passedOver hf hirq fun p hp => ?_
    obtain rfl : q = p := by simpa [hirq] using hp
    exact hmasked

end Sys2Proof.Machine
end
